-- ==== Sys2Proof/Word.lean ====
section
/-! DEFINITION. The plainest value types of the DL2410: bytes of the wire, 16-bit counters, one-bit-per-line maps, ticks. -/

namespace Sys2Proof

/-- One byte of a frame (R177). -/
abbrev Byte := BitVec 8

/-- A 16-bit counter that wraps: the notice number (R154). -/
abbrev Word16 := BitVec 16

/-- A map of one bit per line; bit n stands for line Ln (R178). -/
abbrev LineMap := BitVec 24

/-- A tick count or a number of ticks, 1 tick = 1 µs (R43). Exact arithmetic: the 64-bit count itself is `State.now`. -/
abbrev Tick := Nat

end Sys2Proof
end

