-- ==== Sys2Proof/Syntax.lean ====
section
/-! DEFINITION. The commands of the DL2410: one constructor of `Instr` for each row of spec/opcode_table.json. -/

namespace Sys2Proof

/-- LOW or HIGH: the level of a line, of the BAUD strap (00_scope section 3.5). -/
inductive Level
  | low
  | high
  deriving DecidableEq, Repr

/-- The two serial ports. -/
inductive Port
  | a
  | b
  deriving DecidableEq, Repr

/-- L0 to L23. -/
abbrev LineId := Fin 24

/-- Sessions 1 to 4; session k is the value k - 1. Session 0, "no session", is the absence of one. -/
abbrev SessionId := Fin 4

/-- S0 to S15. -/
abbrev SlotId := Fin 16

/-- G0 to G3. -/
abbrev GenId := Fin 4

/-- W0 to W31. -/
abbrev WatchId := Fin 32

/-- A step of the part. A request command is the tick at which its port takes its oldest WAITING request, which is of
that type (R165); the request's fields are in the inbound slot, as its frame brought them (R182). The other commands are
events, with the operands that the event's rule leaves to the outside. -/
inductive Instr
  /-- OPEN (R141) -/
  | openSession (p : Port)
  /-- CLOSE (R146) -/
  | closeSession (p : Port)
  /-- PING (R144) -/
  | ping (p : Port)
  /-- STATUS (R145) -/
  | status (p : Port)
  /-- INFO (R173) -/
  | info (p : Port)
  /-- TIME (R44) -/
  | time (p : Port)
  /-- SNAPSHOT (R21) -/
  | snapshot (p : Port)
  /-- PORTSTAT (R172) -/
  | portstat (p : Port)
  /-- RESTART (R174) -/
  | restart (p : Port)
  /-- CLAIM (R27) -/
  | claim (p : Port)
  /-- RELEASE (R37) -/
  | release (p : Port)
  /-- WITHDRAW (R31) -/
  | withdraw (p : Port)
  /-- SETUP (R17) -/
  | setup (p : Port)
  /-- DRIVE (R19) -/
  | drive (p : Port)
  /-- READ (R20) -/
  | read (p : Port)
  /-- CLEAR (R15) -/
  | clear (p : Port)
  /-- AT (R53) -/
  | atEdge (p : Port)
  /-- CANCEL (R59) -/
  | cancel (p : Port)
  /-- PENDING (R62) -/
  | pendingList (p : Port)
  /-- SEQ.NEW (R74) -/
  | seqNew (p : Port)
  /-- SEQ.ADD (R75) -/
  | seqAdd (p : Port)
  /-- SEQ.SEAL (R77) -/
  | seqSeal (p : Port)
  /-- SEQ.START (R78) -/
  | seqStart (p : Port)
  /-- SEQ.STOP (R94) -/
  | seqStop (p : Port)
  /-- SEQ.QUERY (R100) -/
  | seqQuery (p : Port)
  /-- SEQ.FREE (R101) -/
  | seqFree (p : Port)
  /-- WATCH.SET (R121) -/
  | watchSet (p : Port)
  /-- WATCH.ACK (R133) -/
  | watchAck (p : Port)
  /-- WATCH.DROP (R137) -/
  | watchDrop (p : Port)
  /-- WATCH.READ (R136) -/
  | watchRead (p : Port)
  /-- CAD.SET (R105) -/
  | cadSet (p : Port)
  /-- CAD.RUN (R107) -/
  | cadRun (p : Port)
  /-- CAD.HOLD (R111) -/
  | cadHold (p : Port)
  /-- CAD.FREE (R116) -/
  | cadFree (p : Port)
  /-- CAD.READ (R117) -/
  | cadRead (p : Port)
  /-- FRAME_RECEIVED (R161, R162, R164): the receiver takes these bytes; the last of them may complete a frame. -/
  | frameReceived (p : Port) (bytes : List Byte)
  /-- GAP_TIMEOUT (R163) -/
  | gapTimeout (p : Port)
  /-- BREAK (R171) -/
  | breakLine (p : Port)
  /-- FRAME_SENT (R168): the last byte of the frame leaves. `baud` is the level of the BAUD pin at that tick, sampled when
  the frame's end brings a full reset (R174, R160). -/
  | frameSent (p : Port) (baud : Level)
  /-- POWER_UP (R175), with the level of the BAUD pin sampled at that tick (R160) -/
  | powerUp (baud : Level)
  /-- NRST_ASSERT (R175) -/
  | nrstAssert
  /-- NRST_RELEASE (R175), with the level of the BAUD pin sampled at that tick (R160) -/
  | nrstRelease (baud : Level)
  /-- SENSED_EDGE (R9, R10) -/
  | sensedEdge (l : LineId)
  /-- CONTENTION_FAULT (R13) -/
  | contentionFault (l : LineId)
  /-- ASSIST_BURST_END (R5) -/
  | assistBurstEnd (l : LineId)
  /-- ONESHOT_DUE (R56, R57): the head of the Timeline, a ONESHOT, falls due. -/
  | oneshotDue
  /-- STEP_DUE (R64, R82, R83, R91): the head of the Timeline, a STEP, falls due. -/
  | stepDue
  /-- DEADLINE_DUE (R85): the head of the Timeline, a DEADLINE, falls due. -/
  | deadlineDue
  /-- CLAIM_EXPIRY (R32): the place of session `k` in the queue of line `l`. -/
  | claimExpiry (l : LineId) (k : SessionId)
  /-- KEEPALIVE_LAPSE (R143) -/
  | keepaliveLapse (k : SessionId)
  /-- CAD_START (R108) -/
  | cadStart (g : GenId)
  /-- CAD_LOW_WRITE (R109) -/
  | cadLowWrite (g : GenId)
  /-- CAD_CYCLE_END (R110) -/
  | cadCycleEnd (g : GenId)
  /-- RAW_LEVEL_CHANGE (R9): the pin's sample at this tick is `v`. -/
  | rawLevelChange (l : LineId) (v : Level)
  /-- RX_IDLE (R170, R176) -/
  | rxIdle (p : Port)
  deriving DecidableEq, Repr

end Sys2Proof
end

