-- ==== Sys2Proof/Decode.lean ====
section
/-! DEFINITION. Commands that a word spells. No row of spec/opcode_table.json gives bits ("fields" is empty in all 55), so
no word spells a command. The bytes of request frames are read by the ports (Machine/Operands.lean, Machine/PortCommands.lean). -/

namespace Sys2Proof

/-- The command that a word spells by the bits of spec/opcode_table.json: none, since no row gives bits. -/
def decodeTableWord (_nbits _w : Nat) : Option Instr := none

end Sys2Proof
end

