-- ==== Sys2Proof/Config.lean ====
section
/-! DEFINITION. The capacities and constants of the DL2410 (00_scope section 4, R173), and the model's free values. -/

namespace Sys2Proof.Config

/-- The latest start tick a request may name is now plus this (R47). -/
def horizon : Nat := 4294967295

/-- Notices in one session's queue (R153). -/
def noticePlaces : Nat := 32

/-- Sessions in one line's claim queue (R26). -/
def claimPlaces : Nat := 3

/-- Entries on the Timeline (R48). -/
def timelinePlaces : Nat := 64

/-- Step records in the pool (R69). -/
def poolSteps : Nat := 256

/-- Steps of a body list (R71). -/
def bodySteps : Nat := 32

/-- Steps of an unwind list (R71). -/
def unwindSteps : Nat := 8

/-- Largest step offset, AWAIT limit, unwind span and cadence period, in µs (R70, R77, R105). -/
def longSpan : Nat := 1000000

/-- Watches in the device (R119). -/
def deviceWatches : Nat := 32

/-- Watches of one session (R119). -/
def sessionWatches : Nat := 16

/-- Inbound slots of one port (R164). -/
def inboundPlaces : Nat := 4

/-- Largest value of a 16-bit saturating counter (R126, R155, R172). -/
def max16 : Nat := 65535

/-- Largest value of cycles completed (R110). -/
def max32 : Nat := 4294967295

/-- Ticks after the latest byte of a frame at which the gap limit expires (R163). -/
def gapTicks : Nat := 1001

/-- Takes of one tick that are enough: at most 64 one-shots and the 32 body and 8 unwind steps of each of 16 sequences can fall
due at one tick (R48, R71, R72). -/
def takesBound : Nat := 704

/-- Lines L0 to L15 have an assist driver (R5). -/
def assistLines : Nat := 16

/-- Smallest and largest body length of a frame (R161). -/
def minBody : Nat := 3
def maxBody : Nat := 120

/-- The sync byte (R161, R177). -/
def syncByte : Byte := 0xD5#8

/-- FREE VALUE (log 17). At 115,200 baud a frame's duration is not a whole number of ticks (R160), and the spec gives
"about". Whether the last byte of a frame begun at this tick, with this many bytes on the wire, leaves at the duration
rounded up (or down). -/
opaque txRoundsUp (begun bytes : Nat) : Bool

/-- FREE VALUE (log 12). Whether the BAUD pin is high when the end of a RESTART's reply brings a full reset and no command has
said so (R160, R174). The argument is the model's own counter of ticks, so that each use is a fresh value. -/
opaque baudPinHigh (use : Nat) : Bool

/-- FREE VALUE (log 18). The count that follows the all-ones 64-bit count, which the spec does not state (R43, R178).
The argument is the model's own counter, so that each use is a fresh value. -/
opaque countAfterLast (use : Nat) : BitVec 64

/-- FREE VALUE (log 18). The admission number that follows the all-ones 64-bit one, which the spec does not state (R51). The
argument is the model's own counter of ticks. -/
opaque admissionAfterLast (use : Nat) : BitVec 64

end Sys2Proof.Config
end

