-- ==== Sys2Proof/Machine/State.lean ====
section
/-! DEFINITION. The state of the DL2410 as plain data: every record the chapters give, the frames it makes, and the state
right after a full reset. -/

namespace Sys2Proof.Machine

/-! ## Lines (01, section 1.1) -/

/-- The mode of a line: how the commanded level reaches the pin. -/
inductive Mode
  | input
  | push
  | sink
  | assist
  deriving DecidableEq, Repr

/-- The fault state of a line; CONTENTION carries the fault time (R13). -/
inductive LineFault
  | none
  | contention (time : Tick)
  deriving DecidableEq, Repr

/-- The assist phase; DRIVING carries the tick at which the burst ends (R5). -/
inductive AssistPhase
  | idle
  | driving (ends : Tick)
  deriving DecidableEq, Repr

/-- One line cell: the line record of section 1.1, the pin's sample, and the filter and contention check in progress. -/
structure LineCell where
  mode : Mode
  commanded : Level
  /-- pull ON -/
  pull : Bool
  filter : Nat
  assist : Nat
  settle : Nat
  /-- check ON -/
  check : Bool
  sensed : Level
  fault : LineFault
  phase : AssistPhase
  /-- the pin as sampled (R9) -/
  raw : Level
  /-- start tick of the filter change in progress (R9) -/
  change : Option Tick
  /-- start tick of the open mismatch window (R12) -/
  window : Option Tick
  /-- tick at which the sensed level was last set: a sensed edge (R10), or the first tick after a full reset (R9) -/
  sensedAt : Tick
  deriving DecidableEq, Repr

/-- The line record after a full reset, with the pin at `raw` (R1, R9). -/
def LineCell.reset (raw : Level) : LineCell :=
  { mode := .input, commanded := .high, pull := true, filter := 4, assist := 2, settle := 20, check := true,
    sensed := raw, fault := .none, phase := .idle, raw := raw, change := none, window := none, sensedAt := 0 }

/-! ## Leases (02, section 2.1) -/

/-- What a line is to become when its lease ends. -/
inductive Parting
  | keep
  | float
  | low
  | high
  deriving DecidableEq, Repr

/-- A lease record (R25). -/
structure Lease where
  holder : SessionId
  parting : Parting
  granted : Tick
  deriving DecidableEq, Repr

/-- An entry of a claim queue (R26); no expiry tick for an unlimited wait (R30). -/
structure Place where
  session : SessionId
  parting : Parting
  expiry : Option Tick
  deriving DecidableEq, Repr

/-- The lease record and the claim queue of one line. -/
structure LeaseCell where
  lease : Option Lease
  queue : List Place
  deriving DecidableEq, Repr

/-! ## Timeline (03, section 3.3) and sequences (04, sections 4.1 and 4.2) -/

/-- The two lists of a sequence. -/
inductive StepList
  | body
  | unwind
  deriving DecidableEq, Repr

/-- The kind of a Timeline entry with its kind-specific fields. -/
inductive EntryKind
  | oneshot (line : LineId) (level : Level)
  | step (slot : SlotId) (list : StepList) (index : Nat)
  | deadline (slot : SlotId) (list : StepList) (index : Nat)
  deriving DecidableEq, Repr

/-- A Timeline entry. -/
structure Entry where
  handle : Nat
  owner : SessionId
  due : Tick
  /-- 64 bits (R51) -/
  admission : BitVec 64
  kind : EntryKind
  deriving DecidableEq, Repr

/-- What a step does, with the fields its kind uses (R70); the unused ones are stored as zero, that is, nowhere. -/
inductive StepKind
  | set (line : LineId) (level : Level)
  | await (line : LineId) (level : Level) (limit : Nat)
  | mark (label : Nat)
  deriving DecidableEq, Repr

/-- A step record (R70). -/
structure Step where
  offset : Nat
  kind : StepKind
  deriving DecidableEq, Repr

/-- The states of a sequence (R72). -/
inductive SeqState
  | empty
  | loading
  | ready
  | armed
  | running
  | awaiting
  | unwinding
  | done
  | faulted
  | cancelled
  deriving DecidableEq, Repr

/-- How the latest run ended. -/
inductive SeqOutcome
  | none
  | done
  | faulted
  | cancelled
  deriving DecidableEq, Repr

/-- Why the latest run left its body. -/
inductive SeqReason
  | none
  | lineFault
  | mode
  | awaitTimeout
  | stopped
  | released
  | sessionEnd
  deriving DecidableEq, Repr

/-- A sequence slot (04, section 4.1). -/
structure Slot where
  state : SeqState
  owner : Option SessionId
  body : List Step
  unwind : List Step
  cursor : Option (StepList × Nat)
  start : Option Tick
  outcome : SeqOutcome
  reason : SeqReason
  failed : Option Nat
  skipped : Nat
  handle : Nat
  deriving DecidableEq, Repr

/-- An EMPTY slot (R68). -/
def Slot.free : Slot :=
  { state := .empty, owner := none, body := [], unwind := [], cursor := none, start := none, outcome := .none,
    reason := .none, failed := none, skipped := 0, handle := 0 }

/-! ## Generators (05, section 5.1) -/

/-- The state of a generator. RUNNING holds the tick at which its cycle in progress started and whether the cycle's LOW
write has been made; the two say which of its own ticks comes next (R109, R117; log 24). -/
inductive GenState
  | free
  | stopped
  | pending
  | running (cycleStart : Tick) (lowMade : Bool)
  deriving DecidableEq, Repr

/-- The rest level of a generator. -/
inductive RestLevel
  | keep
  | low
  | high
  deriving DecidableEq, Repr

/-- A generator record. -/
structure Generator where
  state : GenState
  owner : Option SessionId
  line : Option LineId
  period : Nat
  high : Nat
  cycles : Nat
  rest : RestLevel
  start : Option Tick
  completed : Nat
  deriving DecidableEq, Repr

/-- A FREE generator (R103). -/
def Generator.free : Generator :=
  { state := .free, owner := none, line := none, period := 0, high := 0, cycles := 0, rest := .keep, start := none,
    completed := 0 }

/-- Why a generator's run ended (R118). -/
inductive CadEndCause
  | done
  | overridden
  | fault
  | released
  deriving DecidableEq, Repr

/-! ## Watches (06, section 6.1) -/

/-- Which sensed edges match. -/
inductive EdgeSelect
  | rise
  | fall
  | both
  deriving DecidableEq, Repr

/-- The kind of a watch with the parameters the kind uses (R121). -/
inductive WatchKind
  | edge (select : EdgeSelect)
  | level (level : Level)
  | count (select : EdgeSelect) (threshold : Nat)
  deriving DecidableEq, Repr

/-- The state of a watch. -/
inductive WatchState
  | armed
  | pending
  deriving DecidableEq, Repr

/-- A watch record. -/
structure Watch where
  session : SessionId
  line : LineId
  kind : WatchKind
  state : WatchState
  first : Option Tick
  last : Option Tick
  coalesce : Nat
  running : Nat
  overrun : Nat
  deriving DecidableEq, Repr

/-! ## Sessions and notices (07, sections 7.1 and 7.6) -/

/-- Why a one-shot failed (R57). -/
inductive ActReason
  | lineFault
  | mode
  deriving DecidableEq, Repr

/-- The fields of a notice besides its number and lost count (07, section 7.6). -/
inductive NoticeBody
  | grant (line : LineId) (granted : Tick) (faulted : Bool) (mode : Mode) (commanded : Level)
  | claimLapsed (line : LineId) (expiry : Tick)
  | contention (line : LineId) (commanded sensed : Level) (time : Tick)
  | actFailed (handle : Nat) (line : LineId) (reason : ActReason) (due : Tick)
  | seqMark (slot : SlotId) (label : Nat) (time : Tick)
  | seqEnd (slot : SlotId) (outcome : SeqOutcome) (reason : SeqReason) (failed : Option Nat) (skipped : Nat) (time : Tick)
  | watchHit (watch : WatchId) (line : LineId) (kind : WatchKind) (sensed : Level) (time : Tick)
  | cadEnd (generator : GenId) (line : Option LineId) (cause : CadEndCause) (completed : Nat) (time : Tick)
  deriving DecidableEq, Repr

/-- A notice with the number and lost count it took when it joined its queue (R154). -/
structure Notice where
  number : Word16
  lost : Nat
  body : NoticeBody
  deriving DecidableEq, Repr

/-- The state of a session. -/
inductive SessionState
  | free
  | opened
  | closing
  deriving DecidableEq, Repr

/-- Why a session entered CLOSING (R147). -/
inductive CloseCause
  | closed
  | lapsed
  | brk
  deriving DecidableEq, Repr

/-- A session record (07, section 7.1). -/
structure Session where
  state : SessionState
  port : Option Port
  keepalive : Nat
  lastHeard : Option Tick
  queue : List Notice
  nextNumber : Word16
  lost : Nat
  cause : Option CloseCause
  /-- the model's own: how many notices at the tail of the queue joined it at this tick (log 7) -/
  joinedNow : Nat
  deriving DecidableEq, Repr

/-- A FREE session record (R139). -/
def Session.free : Session :=
  { state := .free, port := none, keepalive := 0, lastHeard := none, queue := [], nextNumber := 0, lost := 0, cause := none,
    joinedNow := 0 }

/-! ## Frames (08, 09) -/

/-- The baud rate sampled at the last full reset (R160). -/
inductive Baud
  | b115200
  | b1000000
  deriving DecidableEq, Repr

/-- The cause of a full reset (R175). -/
inductive ResetCause
  | power
  | pin
  | restart
  deriving DecidableEq, Repr

/-- The status of a reply (R181). -/
inductive Status
  | ok | queued | already
  | badLength | badType | badField | noSession | sessionFull | othersOpen
  | notHolder | held | duplicate | notFound | inUse
  | lineFault | mode | lineBound
  | late | horizon | timelineFull
  | kind
  | slotsFull | poolFull | listFull | sealFail | state
  | watchFull
  deriving DecidableEq, Repr

/-- Why SEQ.SEAL failed (R77). -/
inductive SealReason
  | emptyBody
  | unwindSpan
  deriving DecidableEq, Repr

/-- The next of a generator's own ticks (R117). -/
inductive NextEvent
  | rise (tick : Tick)
  | fall (tick : Tick)
  | finish (tick : Tick)
  deriving DecidableEq, Repr

/-- The items of a STATUS reply (R145). -/
structure StatusReport where
  session : SessionId
  record : Session
  leases : Nat
  places : Nat
  watches : Nat
  slots : Nat
  generators : Nat
  oneshots : Nat
  sessions : List (SessionState × Option Port)
  deriving DecidableEq, Repr

/-- One port's items of a PORTSTAT reply (R172). -/
structure PortReport where
  crc : Nat
  gap : Nat
  length : Nat
  overrun : Nat
  brk : Nat
  slots : Nat
  sessions : Nat
  deriving DecidableEq, Repr

/-- The items of a READ reply (R20). -/
structure LineReport where
  mode : Mode
  commanded : Level
  sensed : Level
  pull : Bool
  pullConnected : Bool
  fault : LineFault
  holder : Option SessionId
  queueLength : Nat
  generator : Option GenId
  filter : Nat
  assist : Nat
  settle : Nat
  check : Bool
  deriving DecidableEq, Repr

/-- The items of a SEQ.QUERY reply (R100): the record, its entry's kind and due tick, and the pool's free count. -/
structure SlotReport where
  record : Slot
  entry : Option Entry
  poolFree : Nat
  deriving DecidableEq, Repr

/-- What follows the status in a reply (R167): the reply's data, or the items of a refusal (09, section 9.5). -/
inductive ReplyData
  | none
  | opened (session : SessionId) (port : Port) (keepalive : Nat) (now : Tick)
  | pong (now : Tick) (nextNumber : Word16) (lost queued : Nat)
  | session (report : StatusReport)
  | info (baud : Baud)
  | tick (now : Tick)
  | snapshot (now : Tick) (sensed commanded fault held : LineMap)
  | ports (a b : PortReport)
  | lease (granted : Tick) (faulted : Bool) (mode : Mode) (commanded : Level)
  | queued (position : Nat) (holder : SessionId)
  | holder (session : SessionId)
  | counts (oneshots generators sequences : Nat)
  | line (report : LineReport)
  | admitted (handle : Nat) (due : Tick)
  | cancelled (line : LineId) (level : Level) (due : Tick)
  | entries (total next : Nat) (items : List Entry)
  | slot (slot : SlotId)
  | lengths (body unwind poolFree : Nat)
  | position (step : Nat)
  | sealReason (reason : SealReason)
  | started (handle : Nat) (start due : Tick) (state : SeqState)
  | notHeld (line : LineId)
  | stopped (failed : Option Nat) (state : SeqState)
  | slotRecord (report : SlotReport)
  | poolFree (count : Nat)
  | watchMade (watch : WatchId) (sensed : Level)
  | watchExists (watch : WatchId)
  | acknowledged (record : Watch) (sensed : Level) (after : WatchState)
  | dropped (record : Watch)
  | watchRecord (watch : WatchId) (record : Watch) (sensed : Level)
  | cadRun (start : Tick) (state : GenState)
  | cadHold (completed : Nat) (now : Tick)
  | generator (record : Generator) (next : Option NextEvent)
  deriving DecidableEq, Repr

/-- A request frame as it stands in its inbound slot (R164): the session nibble of CHAN, TYPE, TAG, payload. -/
structure Request where
  session : Nat
  type : Byte
  tag : Byte
  payload : List Byte
  deriving DecidableEq, Repr

/-- A reply frame (R167), and the tick at which it was made, which is not sent: a break of that tick discards it (R171). -/
structure Reply where
  session : Nat
  type : Byte
  tag : Byte
  status : Status
  data : ReplyData
  made : Tick
  deriving DecidableEq, Repr

/-- A port frame (R175, R152). -/
inductive PortFrame
  | startup (cause : ResetCause) (baud : Baud)
  | ended (session : SessionId) (cause : CloseCause)
  deriving DecidableEq, Repr

/-- A frame that a port sends (00_scope section 3.6). -/
inductive TxFrame
  | port (frame : PortFrame)
  | reply (reply : Reply)
  | notice (session : SessionId) (notice : Notice)
  deriving DecidableEq, Repr

/-- A frame being sent and the tick it began. -/
structure Transmission where
  frame : TxFrame
  begun : Tick
  deriving DecidableEq, Repr

/-- The condition of an inbound slot that holds a request (08, section 8.3). -/
inductive InboundSlot
  | waiting (request : Request)
  | answered (reply : Reply)
  | sending
  deriving DecidableEq, Repr

/-- The receiver of a port (08, section 8.2), with the reception tick of the latest byte of the frame (R163). -/
inductive Receiver
  | hunt
  | length (last : Tick)
  | body (len : Nat) (got : List Byte) (last : Tick)
  | check (body : List Byte) (low : Option Byte) (last : Tick)
  deriving DecidableEq, Repr

/-- One port (08). The occupied inbound slots are listed in the order their requests were accepted. -/
structure PortCell where
  receiver : Receiver
  /-- waiting for RX to be high for 10 bit times (R170, R176) -/
  awaitsIdle : Bool
  inbound : List InboundSlot
  crc : Nat
  gap : Nat
  length : Nat
  overrun : Nat
  brk : Nat
  /-- pending port frames, oldest first -/
  frames : List PortFrame
  transmitter : Option Transmission
  /-- the session whose notice was begun last, 0 for none (R169) -/
  roundRobin : Nat
  /-- takes no further request: a RESTART has been accepted (R174) -/
  stopped : Bool
  deriving DecidableEq, Repr

/-- A port after a full reset (R176) whose transmitter sends `tx`. -/
def PortCell.reset (tx : Option Transmission) : PortCell :=
  { receiver := .hunt, awaitsIdle := true, inbound := [], crc := 0, gap := 0, length := 0, overrun := 0, brk := 0,
    frames := [], transmitter := tx, roundRobin := 0, stopped := false }

/-! ## The state -/

/-- The state of the DL2410. -/
structure State where
  /-- commands waiting, first in, first out -/
  pending : List Instr
  /-- the Time Base's count (R43) -/
  now : BitVec 64
  /-- nRST is low: the part is held in reset (R175) -/
  heldInReset : Bool
  /-- the rate sampled at the last full reset (R160) -/
  baud : Baud
  lines : Vector LineCell 24
  leases : Vector LeaseCell 24
  /-- in due order (R48) -/
  timeline : List Entry
  handleCounter : Nat
  /-- 64 bits (R51) -/
  admissionCounter : BitVec 64
  slots : Vector Slot 16
  /-- free step records of the pool (R69) -/
  poolFree : Nat
  watches : Vector (Option Watch) 32
  generators : Vector Generator 4
  sessions : Vector Session 4
  portA : PortCell
  portB : PortCell
  /-- the model's own: how many ticks have passed, resets apart; names the free values of a tick (logs 12, 18) -/
  freeIndex : Nat
  deriving DecidableEq, Repr

/-- No command stops the machine with a fault: everything the spec gives a command is an effect on the state, and a
request that cannot be carried out is answered with a status. So there is no constructor. -/
inductive Fault
  deriving DecidableEq, Repr

/-- Why a command has no meaning. -/
inductive Refusal
  /-- Raised by an arm of `exec` whose command has no meaning in the model yet; safe. No arm raises it. -/
  | notModelled (mnemonic : String)
  deriving DecidableEq, Repr

/-- The machine right after a full reset (R1, R25, R67, R68, R69, R103, R119, R139, R176): cause POWER, BAUD high, every pin
high (log 11, 12, 13), both transmitters sending the STARTUP frame begun at tick 0. -/
def State.reset : State :=
  { pending := [], now := 0, heldInReset := false, baud := .b1000000,
    lines := Vector.replicate 24 (LineCell.reset .high),
    leases := Vector.replicate 24 { lease := none, queue := [] },
    timeline := [], handleCounter := 0, admissionCounter := 0,
    slots := Vector.replicate 16 Slot.free, poolFree := 256,
    watches := Vector.replicate 32 none,
    generators := Vector.replicate 4 Generator.free,
    sessions := Vector.replicate 4 Session.free,
    portA := PortCell.reset (some { frame := .port (.startup .power .b1000000), begun := 0 }),
    portB := PortCell.reset (some { frame := .port (.startup .power .b1000000), begun := 0 }),
    freeIndex := 0 }

end Sys2Proof.Machine
end

