-- ==== Sys2Proof/Machine/Cells.lean ====
section
/-! DEFINITION. What a write, an edge, a fault or a burst end does to one line cell (01). Every function here is about one
cell at one tick; who calls it, and what else the call changes, is in the other files. -/

namespace Sys2Proof.Machine

/-- The level the cell actively drives: the commanded level in PUSH, LOW in SINK and ASSIST with LOW commanded, none
otherwise (R11). An assist burst is no active drive for the check. -/
def LineCell.driven (c : LineCell) : Option Level :=
  match c.mode, c.commanded with
  | .input, _ => none
  | .push, v => some v
  | .sink, .low | .assist, .low => some .low
  | .sink, .high | .assist, .high => none

/-- Whether the line's fault is CONTENTION. -/
def LineCell.faulted (c : LineCell) : Bool :=
  match c.fault with
  | .none => false
  | .contention _ => true

/-- The condition of the pin (R7). -/
inductive Pin
  | drivenLow
  | drivenHigh
  | pulledHigh
  | floating
  deriving DecidableEq, Repr

/-- Whether the driver is released: INPUT, or SINK or ASSIST with HIGH commanded and the assist phase IDLE (R7). -/
def LineCell.released (c : LineCell) : Bool :=
  match c.mode, c.commanded, c.phase with
  | .input, _, _ => true
  | .push, _, _ => false
  | .sink, v, _ => v = .high
  | .assist, .high, .idle => true
  | .assist, .high, .driving _ => false
  | .assist, .low, _ => false

/-- Whether the pull-up is connected (R7). -/
def LineCell.pullConnected (c : LineCell) : Bool :=
  c.pull && c.released

/-- The pin condition of R7's table. -/
def LineCell.pin (c : LineCell) : Pin :=
  if c.released then (if c.pull then .pulledHigh else .floating)
  else match c.mode, c.commanded with
    | .input, _ => .floating
    | .push, .low | .sink, .low | .assist, .low => .drivenLow
    | .push, .high | .sink, .high | .assist, .high => .drivenHigh

/-- The mismatch window after an event at tick `now` (R12). It is open exactly while the check runs and the sensed level
differs from the driven level; a drive change (`restart`) starts it anew, otherwise an open window keeps its start. -/
def LineCell.rewindow (now : Tick) (restart : Bool) (c : LineCell) : LineCell :=
  { c with window :=
      match c.driven with
      | none => none
      | some d =>
        if c.check && decide (c.sensed ≠ d) then
          (if restart then some now else some (c.window.getD now))
        else none }

/-- The assist phase after a write of `v` (R5, R6): LOW ends a burst; a change from LOW to HIGH in ASSIST mode starts one
for the assist time the record holds; HIGH on a line already HIGH changes nothing. -/
def LineCell.phaseAfter (now : Tick) (v : Level) (c : LineCell) : AssistPhase :=
  match v with
  | .low => .idle
  | .high => if c.mode = .assist ∧ c.commanded = .low then .driving (now + c.assist) else c.phase

/-- A write of a level, through the mode in force (R2 to R6, R22). It is a drive change when it changes the driven level
(R12). -/
def LineCell.writeLevel (now : Tick) (v : Level) (c : LineCell) : LineCell :=
  let c' := { c with commanded := v, phase := c.phaseAfter now v }
  c'.rewindow now (decide (c'.driven ≠ c.driven))

/-- The tick from which a sample taken at `now` counts. The sensed level is set at most once a tick (R120), so a sample that
differs after it has been set at this tick is the next tick's (log 14). -/
def LineCell.sampleTick (now : Tick) (c : LineCell) : Tick :=
  if c.sensedAt = now then now + 1 else now

/-- The fields of an accepted SETUP. -/
structure SetupFields where
  mode : Mode
  pull : Bool
  filter : Nat
  assist : Nat
  settle : Nat
  check : Bool
  level : Level
  deriving DecidableEq, Repr

/-- The assist phase after a SETUP (R5, R6, R18): a burst starts where the line is in ASSIST after the write and the level
goes from LOW to HIGH; a running burst goes on where the line stays in ASSIST with HIGH commanded; otherwise IDLE. -/
def LineCell.phaseAfterSetup (now : Tick) (f : SetupFields) (c : LineCell) : AssistPhase :=
  if f.mode = .assist ∧ f.level = .high then
    (if c.commanded = .low then .driving (now + f.assist)
     else if c.mode = .assist then c.phase else .idle)
  else .idle

/-- An accepted SETUP applies all its fields together, restarts a filter change in progress and is a drive change
(R12, R18). -/
def LineCell.setup (now : Tick) (f : SetupFields) (c : LineCell) : LineCell :=
  let c' := { c with mode := f.mode, commanded := f.level, pull := f.pull, filter := f.filter, assist := f.assist,
                     settle := f.settle, check := f.check, phase := c.phaseAfterSetup now f,
                     change := c.change.map (fun _ => c.sampleTick now) }
  c'.rewindow now true

/-- The parting state written to an unfaulted line (R34): KEEP nothing; FLOAT mode INPUT and pull ON; LOW and HIGH mode PUSH
and the level. A mode change ends a burst, and a change of mode or driven level is a drive change. A line that is faulted
gets nothing (R35). Where LOW or HIGH leaves the mode PUSH and the level as they were, an open mismatch window keeps its start:
R12 and R34 say that a change restarts it, R42 that the write does; the model follows R12 and R34 (log 29). -/
def LineCell.applyParting (now : Tick) (p : Parting) (c : LineCell) : LineCell :=
  if c.faulted then c
  else match p with
    | .keep => c
    | .float =>
      let c' := { c with mode := .input, pull := true, phase := .idle }
      c'.rewindow now true
    | .low =>
      let c' := { c with mode := .push, commanded := .low, phase := .idle }
      c'.rewindow now (decide (c.mode ≠ .push) || decide (c'.driven ≠ c.driven))
    | .high =>
      let c' := { c with mode := .push, commanded := .high, phase := .idle }
      c'.rewindow now (decide (c.mode ≠ .push) || decide (c'.driven ≠ c.driven))

/-- The contention fault (R13): mode INPUT, fault CONTENTION with the tick, the commanded level kept. -/
def LineCell.takeFault (now : Tick) (c : LineCell) : LineCell :=
  { c with mode := .input, fault := .contention now, phase := .idle, window := none }

/-- CLEAR (R15): fault NONE, no fault time; the mode stays. -/
def LineCell.clearFault (c : LineCell) : LineCell :=
  { c with fault := .none }

/-- The end of an assist burst (R5): the phase becomes IDLE. The check did not run in the burst and does not run after it. -/
def LineCell.endBurst (c : LineCell) : LineCell :=
  { c with phase := .idle }

/-- A sample of the pin (R9). Equal to the sensed level, it abandons a change in progress; different, it begins one if none
is in progress. -/
def LineCell.sample (now : Tick) (v : Level) (c : LineCell) : LineCell :=
  { c with raw := v,
           change := if v = c.sensed then none else some (c.change.getD (c.sampleTick now)) }

/-- The sensed level takes the raw level (R9): a sensed edge. The mismatch window opens, stays or closes as R12 gives; an
edge is no drive change. -/
def LineCell.takeEdge (now : Tick) (c : LineCell) : LineCell :=
  let c' := { c with sensed := c.raw, change := none, sensedAt := now }
  c'.rewindow now false

/-- Whether a filter change has been in progress for the filter time (R9). -/
def LineCell.edgeDue (now : Tick) (c : LineCell) : Bool :=
  match c.change with
  | some t => decide (t + c.filter ≤ now)
  | none => false

/-- Whether a mismatch window has reached its end (R12). -/
def LineCell.faultDue (now : Tick) (c : LineCell) : Bool :=
  match c.window with
  | some t => decide (t + c.settle ≤ now)
  | none => false

/-- Whether an assist burst has reached its end (R5). -/
def LineCell.burstDue (now : Tick) (c : LineCell) : Bool :=
  match c.phase with
  | .driving t => decide (t ≤ now)
  | .idle => false

end Sys2Proof.Machine
end

