-- ==== Sys2Proof/Machine/Ops.lean ====
section
/-! DEFINITION. The shared operations on the state: one update per record, notices, writes to lines with the report to the
Cadence Unit, the end of a lease, and the Timeline's list, handles and admission numbers. -/

namespace Sys2Proof.Machine

/-! ## Updates of one record -/

/-- Now: the Time Base's count (R43). -/
def State.tick (s : State) : Tick := s.now.toNat

def State.modLine (s : State) (l : LineId) (f : LineCell → LineCell) : State :=
  { s with lines := s.lines.set l (f s.lines[l]) }

def State.setLease (s : State) (l : LineId) (c : LeaseCell) : State :=
  { s with leases := s.leases.set l c }

def State.setTimeline (s : State) (t : List Entry) : State :=
  { s with timeline := t }

def State.modSlot (s : State) (i : SlotId) (f : Slot → Slot) : State :=
  { s with slots := s.slots.set i (f s.slots[i]) }

def State.setWatch (s : State) (w : WatchId) (r : Option Watch) : State :=
  { s with watches := s.watches.set w r }

def State.modGenerator (s : State) (g : GenId) (f : Generator → Generator) : State :=
  { s with generators := s.generators.set g (f s.generators[g]) }

def State.modSession (s : State) (k : SessionId) (f : Session → Session) : State :=
  { s with sessions := s.sessions.set k (f s.sessions[k]) }

/-- The record of a port. -/
def State.port (s : State) (p : Port) : PortCell :=
  match p with
  | .a => s.portA
  | .b => s.portB

def State.modPort (s : State) (p : Port) (f : PortCell → PortCell) : State :=
  match p with
  | .a => { s with portA := f s.portA }
  | .b => { s with portB := f s.portB }

def State.setPoolFree (s : State) (n : Nat) : State :=
  { s with poolFree := n }

/-! ## Small sums -/

/-- One more, stopping at the largest value. -/
def saturate (max n : Nat) : Nat :=
  if n < max then n + 1 else n

/-- Every line, slot, watch, generator and session, in ascending order. -/
def allLines : List LineId := List.finRange 24
def allSlots : List SlotId := List.finRange 16
def allWatches : List WatchId := List.finRange 32
def allGenerators : List GenId := List.finRange 4
def allSessions : List SessionId := List.finRange 4

/-! ## Notices (R154, R155, R157) -/

/-- What a notice made for a session does to its record. OPEN with room: it takes the next number and joins the tail with
the lost count as it stands. OPEN and full: it consumes its number and is counted as lost. Not OPEN: discarded. -/
def Session.receive (body : NoticeBody) (r : Session) : Session :=
  if r.state = .opened then
    if r.queue.length < Config.noticePlaces then
      { r with queue := r.queue ++ [{ number := r.nextNumber, lost := r.lost, body := body }],
               nextNumber := r.nextNumber + 1, joinedNow := r.joinedNow + 1 }
    else
      { r with nextNumber := r.nextNumber + 1, lost := saturate Config.max16 r.lost }
  else r

/-- A block makes a notice for a session. -/
def State.notify (s : State) (k : SessionId) (body : NoticeBody) : State :=
  s.modSession k (Session.receive body)

/-- A notice for the owner of a record; an ownerless record has none to tell. -/
def State.notifyOwner (s : State) (owner : Option SessionId) (body : NoticeBody) : State :=
  match owner with
  | some k => s.notify k body
  | none => s

/-! ## Holders and bound generators -/

/-- The session that holds a line (R25). -/
def State.holder (s : State) (l : LineId) : Option SessionId :=
  s.leases[l].lease.map Lease.holder

/-- Whether session `k` holds line `l` (R42). -/
def State.holds (s : State) (k : SessionId) (l : LineId) : Bool :=
  decide (s.holder l = some k)

/-- The generator bound to a line, if any (R104). -/
def State.boundGenerator (s : State) (l : LineId) : Option GenId :=
  allGenerators.find? (fun g => decide (s.generators[g].state ≠ .free) && decide (s.generators[g].line = some l))

/-- Whether a generator is PENDING or RUNNING. -/
def Generator.active (r : Generator) : Bool :=
  match r.state with
  | .free | .stopped => false
  | .pending | .running _ _ => true

/-- A PENDING or RUNNING generator stops; its record is kept (R110, R112, R113). -/
def Generator.stop (r : Generator) : Generator :=
  { r with state := .stopped }

/-- The end of a run that its owner is told of (R118). -/
def State.sendCadEnd (s : State) (g : GenId) (cause : CadEndCause) : State :=
  s.notifyOwner s.generators[g].owner
    (.cadEnd g s.generators[g].line cause s.generators[g].completed s.tick)

/-- A report to the Cadence Unit about a line: a PENDING or RUNNING generator bound to it stops with this cause, without its
rest level; a STOPPED one stays as it is (R23, R112, R113). -/
def State.stopBound (s : State) (l : LineId) (cause : CadEndCause) : State :=
  match s.boundGenerator l with
  | none => s
  | some g =>
    if s.generators[g].active then (s.modGenerator g Generator.stop).sendCadEnd g cause
    else s

/-! ## Writes to a line (R22) -/

/-- A level write by a writer other than the line's generator: the cell takes it and the Cadence Unit is told (R23). -/
def State.writeLine (s : State) (l : LineId) (v : Level) : State :=
  (s.modLine l (LineCell.writeLevel s.tick v)).stopBound l .overridden

/-- A level write by the line's own generator, which is not reported (R23, R109). -/
def State.ownWrite (s : State) (l : Option LineId) (v : Level) : State :=
  match l with
  | some l => s.modLine l (LineCell.writeLevel s.tick v)
  | none => s

/-- The rest level, a write of the generator's own; KEEP writes nothing (R110, R111). -/
def State.writeRest (s : State) (l : Option LineId) (rest : RestLevel) : State :=
  match rest with
  | .keep => s
  | .low => s.ownWrite l .low
  | .high => s.ownWrite l .high

/-! ## The end of a lease (R33 to R36, R40) -/

/-- Step 2 of R33: the parting state is written through the Line Array. KEEP, and any parting state of a faulted line, is
no write (R34, R35); the others are reported to the Cadence Unit (R23). -/
def State.partLine (s : State) (l : LineId) (p : Parting) : State :=
  if s.lines[l].faulted || decide (p = .keep) then s
  else (s.modLine l (LineCell.applyParting s.tick p)).stopBound l .overridden

/-- Step 3 of R33: the head of the claim queue becomes the holder and is told the line's state (R36). -/
def State.grantHead (s : State) (l : LineId) : State :=
  match s.leases[l].queue with
  | [] => s
  | place :: rest =>
    (s.setLease l { lease := some { holder := place.session, parting := place.parting, granted := s.tick },
                    queue := rest }).notify place.session
      (.grant l s.tick s.lines[l].faulted s.lines[l].mode s.lines[l].commanded)

/-- Steps 1 and 2 of R33 for one line: the lease record is removed and its parting state applied. -/
def State.dropLease (s : State) (l : LineId) : State :=
  match s.leases[l].lease with
  | none => s
  | some lease =>
    (s.setLease l { s.leases[l] with lease := none }).partLine l lease.parting

/-- The end of one lease (R33). -/
def State.endLease (s : State) (l : LineId) : State :=
  (s.dropLease l).grantHead l

/-- The lines a session holds, in ascending order. -/
def State.linesHeldBy (s : State) (k : SessionId) : List LineId :=
  allLines.filter (s.holds k)

/-- The end of all of a session's leases at one tick: every parting state in ascending line order, then every grant in
ascending line order (R40). -/
def State.endLeasesOf (s : State) (k : SessionId) : State :=
  let held := s.linesHeldBy k
  held.foldl State.grantHead (held.foldl State.dropLease s)

/-- A session's places in every claim queue are removed (R41). -/
def State.removePlaces (s : State) (k : SessionId) : State :=
  { s with leases := Vector.ofFn fun l : LineId =>
      { s.leases[l] with queue := s.leases[l].queue.filter fun q => decide (q.session ≠ k) } }

/-! ## The Timeline (03) -/

/-- Whether one entry goes before another: by due tick and, within a tick, by admission number (R48, R52). -/
def Entry.before (e f : Entry) : Bool :=
  decide (e.due < f.due) || (decide (e.due = f.due) && decide (e.admission < f.admission))

/-- An entry put in its place in due order. -/
def insertEntry (e : Entry) : List Entry → List Entry
  | [] => [e]
  | f :: rest => if e.before f then e :: f :: rest else f :: insertEntry e rest

/-- The live entry with this handle. -/
def State.findEntry (s : State) (h : Nat) : Option Entry :=
  s.timeline.find? fun e => decide (e.handle = h)

/-- The entry with this handle is removed. -/
def State.removeEntry (s : State) (h : Nat) : State :=
  s.setTimeline (s.timeline.filter fun e => decide (e.handle ≠ h))

/-- The value of the handle counter after one increase: from 65,535 to 1 (R50). -/
def handleAfter (h : Nat) : Nat :=
  if h < Config.max16 then h + 1 else 1

/-- The next handle: the counter is increased, skipping every value a live entry holds. At most 64 entries are live, so 65
increases find a free value (R50). -/
def freshHandle (live : List Nat) : Nat → Nat → Nat
  | 0, h => handleAfter h
  | n + 1, h => if handleAfter h ∈ live then freshHandle live n (handleAfter h) else handleAfter h

/-- The handle that the next admission gives. -/
def State.nextHandle (s : State) : Nat :=
  freshHandle (s.timeline.map Entry.handle) Config.timelinePlaces s.handleCounter

/-- The admission number that the next admission or re-admission gives (R51). What follows the all-ones number is a free value
(log 18). -/
def State.nextAdmission (s : State) : BitVec 64 :=
  if s.admissionCounter = BitVec.allOnes 64 then Config.admissionAfterLast s.freeIndex else s.admissionCounter + 1

/-- Admission of a new entry: a new handle, a new admission number, a place in due order (R50, R51, R54, R66). -/
def State.enterTimeline (s : State) (owner : SessionId) (due : Tick) (kind : EntryKind) : State :=
  { s with
    handleCounter := s.nextHandle,
    admissionCounter := s.nextAdmission,
    timeline := insertEntry
      { handle := s.nextHandle, owner := owner, due := due, admission := s.nextAdmission, kind := kind }
      s.timeline }

/-- Re-admission of a sequence entry: it keeps its handle and owner, and takes a new admission number, kind and due tick
(R65). -/
def State.readmit (s : State) (h : Nat) (due : Tick) (kind : EntryKind) : State :=
  match s.findEntry h with
  | none => s
  | some e =>
    { s with
      admissionCounter := s.nextAdmission,
      timeline := insertEntry { e with due := due, admission := s.nextAdmission, kind := kind }
        (s.timeline.filter fun f => decide (f.handle ≠ h)) }

/-- Whether an entry is a ONESHOT. -/
def Entry.isOneshot (e : Entry) : Bool :=
  match e.kind with
  | .oneshot _ _ => true
  | .step _ _ _ | .deadline _ _ _ => false

/-- Whether an entry is a ONESHOT that names this line. -/
def Entry.onLine (l : LineId) (e : Entry) : Bool :=
  match e.kind with
  | .oneshot l' _ => decide (l' = l)
  | .step _ _ _ | .deadline _ _ _ => false

/-- Every one-shot a session owns is removed, without notice (R61). -/
def State.removeOneshots (s : State) (k : SessionId) : State :=
  s.setTimeline (s.timeline.filter fun e => !(e.isOneshot && decide (e.owner = k)))

/-- Every one-shot of the holder that names the line is removed, without notice (R39, R61). -/
def State.removeOneshotsOn (s : State) (k : SessionId) (l : LineId) : State :=
  s.setTimeline (s.timeline.filter fun e => !(e.onLine l && decide (e.owner = k)))

end Sys2Proof.Machine
end

