-- ==== Sys2Proof/Machine/Engine.lean ====
section
/-! DEFINITION. The Sequence Engine's steps (04), the closing of a session (07, section 7.5) and the taking of Timeline entries
(03, section 3.4): the shared operations that several commands run. -/

namespace Sys2Proof.Machine

/-! ## Slots -/

/-- One of the two lists of a slot. -/
def Slot.list (r : Slot) : StepList → List Step
  | .body => r.body
  | .unwind => r.unwind

/-- The line that a SET step names. -/
def Step.setLine (t : Step) : Option LineId :=
  match t.kind with
  | .set l _ => some l
  | .await _ _ _ | .mark _ => none

/-- The sequence's SET lines: those of its body and then its unwind list, in order (R71, R78). -/
def Slot.setLines (r : Slot) : List LineId :=
  (r.body ++ r.unwind).filterMap Step.setLine

/-- ARMED, RUNNING or AWAITING. -/
def Slot.inBody (r : Slot) : Bool :=
  match r.state with
  | .armed | .running | .awaiting => true
  | .empty | .loading | .ready | .unwinding | .done | .faulted | .cancelled => false

/-- ARMED, RUNNING, AWAITING or UNWINDING: the states that own a Timeline entry (R72). -/
def Slot.inRun (r : Slot) : Bool :=
  r.inBody || decide (r.state = .unwinding)

/-- READY, DONE, FAULTED or CANCELLED: the states from which a sequence may be started (R72). -/
def Slot.resting (r : Slot) : Bool :=
  match r.state with
  | .ready | .done | .faulted | .cancelled => true
  | .empty | .loading | .armed | .running | .awaiting | .unwinding => false

/-- A failure of a body step, as against a stop (R92). -/
def SeqReason.isFault : SeqReason → Bool
  | .lineFault | .mode | .awaitTimeout => true
  | .none | .stopped | .released | .sessionEnd => false

/-- The state in which a run that left its body for this reason ends (R88, R92, R94). -/
def SeqReason.endState (why : SeqReason) : SeqState :=
  if why.isFault then .faulted else .cancelled

/-- The outcome of a run that left its body for this reason. -/
def SeqReason.endOutcome (why : SeqReason) : SeqOutcome :=
  if why.isFault then .faulted else .cancelled

/-! ## Steps of a run -/

/-- A run ends: the entry is removed, the cursor becomes absent, the handle 0, and SEQ.END goes to the owner (R86, R88, R92,
R94, R99). -/
def State.endRun (s : State) (i : SlotId) (state : SeqState) (outcome : SeqOutcome) : State :=
  ((s.removeEntry s.slots[i].handle).modSlot i fun r =>
      { r with state := state, outcome := outcome, cursor := none, handle := 0 }).notifyOwner s.slots[i].owner
    (.seqEnd i outcome s.slots[i].reason s.slots[i].failed s.slots[i].skipped s.tick)

/-- The slot's entry is re-admitted, and the cursor names the step that the entry names (R65, R72). -/
def State.moveEntry (s : State) (i : SlotId) (state : SeqState) (list : StepList) (index : Nat) (due : Tick)
    (kind : EntryKind) : State :=
  (s.readmit s.slots[i].handle due kind).modSlot i fun r => { r with state := state, cursor := some (list, index) }

/-- The body completes (R86). -/
def State.finishBody (s : State) (i : SlotId) : State :=
  (s.modSlot i fun r => { r with reason := .none, failed := none, skipped := 0 }).endRun i .done .done

/-- A run that has left its body ends, when it has no unwind step (left) to take (R88, R92, R94). -/
def State.finishUnwind (s : State) (i : SlotId) : State :=
  s.endRun i s.slots[i].reason.endState s.slots[i].reason.endOutcome

/-- The run leaves its body by a fault or a stop: the reason and the failed step index are set; with an unwind list it becomes
UNWINDING with unwind step 0 due at this tick plus its offset, without one it ends (R88, R90, R94). -/
def State.leaveBody (s : State) (i : SlotId) (reason : SeqReason) (failed : Nat) : State :=
  let s := s.modSlot i fun r => { r with reason := reason, failed := some failed }
  match s.slots[i].unwind with
  | [] => s.finishUnwind i
  | t :: _ => s.moveEntry i .unwinding .unwind 0 (s.tick + t.offset) (.step i .unwind 0)

/-- A step completes at this tick: the next step of its list is due its offset later; after the last, the list ends
(R81, R86, R92). -/
def State.completeStep (s : State) (i : SlotId) (list : StepList) (index : Nat) : State :=
  match (s.slots[i].list list)[index + 1]? with
  | some t =>
    s.moveEntry i (if list = .body then .running else .unwinding) list (index + 1) (s.tick + t.offset)
      (.step i list (index + 1))
  | none =>
    match list with
    | .body => s.finishBody i
    | .unwind => s.finishUnwind i

/-- A body step is taken (R82, R83). -/
def State.takeBodyStep (s : State) (i : SlotId) (index : Nat) : State :=
  let s := s.modSlot i fun r => { r with state := .running }
  match s.slots[i].body[index]? with
  | none => s.removeEntry s.slots[i].handle
  | some t =>
    match t.kind with
    | .set l v =>
      if s.lines[l].faulted then s.leaveBody i .lineFault index
      else if s.lines[l].mode = .input then s.leaveBody i .mode index
      else (s.writeLine l v).completeStep i .body index
    | .mark label => (s.notifyOwner s.slots[i].owner (.seqMark i label s.tick)).completeStep i .body index
    | .await l v limit =>
      if s.lines[l].sensed = v then s.completeStep i .body index
      else s.moveEntry i .awaiting .body index (s.tick + limit) (.deadline i .body index)

/-- Whether an unwind SET on a line is skipped: its owner does not hold the line, or the line is faulted or in INPUT mode
(R91). -/
def State.skips (s : State) (i : SlotId) (l : LineId) : Bool :=
  decide (s.slots[i].owner = none) || decide (s.holder l ≠ s.slots[i].owner) || s.lines[l].faulted ||
    decide (s.lines[l].mode = .input)

/-- An unwind step is taken (R91). An unwind list holds no AWAIT (R71); one would complete at once. -/
def State.takeUnwindStep (s : State) (i : SlotId) (index : Nat) : State :=
  match s.slots[i].unwind[index]? with
  | none => s.removeEntry s.slots[i].handle
  | some t =>
    match t.kind with
    | .set l v =>
      if s.skips i l then
        (s.modSlot i fun r => { r with skipped := r.skipped + 1 }).completeStep i .unwind index
      else (s.writeLine l v).completeStep i .unwind index
    | .mark label => (s.notifyOwner s.slots[i].owner (.seqMark i label s.tick)).completeStep i .unwind index
    | .await _ _ _ => s.completeStep i .unwind index

/-- A sequence is stopped: the failed step index is the one the cursor names (R94, R96, R97). -/
def State.stopSequence (s : State) (i : SlotId) (reason : SeqReason) : State :=
  s.leaveBody i reason ((s.slots[i].cursor.map Prod.snd).getD 0)

/-- The sequences of a session that are in their body and have a SET step on the line (R37, R39). -/
def State.usersOf (s : State) (k : SessionId) (l : LineId) : List SlotId :=
  allSlots.filter fun i =>
    decide (s.slots[i].owner = some k) && s.slots[i].inBody && decide (l ∈ s.slots[i].setLines)

/-! ## Closing a session -/

/-- A generator returns to FREE (R103). -/
def State.freeGenerator (s : State) (g : GenId) : State :=
  s.modGenerator g fun _ => Generator.free

/-- Every generator of a session becomes FREE, without rest level and without notice (R115). -/
def State.freeGenerators (s : State) (k : SessionId) : State :=
  { s with generators := Vector.ofFn fun g : GenId =>
      if s.generators[g].owner = some k then Generator.free else s.generators[g] }

/-- Every watch of a session is removed (R138). -/
def State.removeWatches (s : State) (k : SessionId) : State :=
  { s with watches := Vector.ofFn fun w : WatchId =>
      s.watches[w].filter fun r => decide (r.session ≠ k) }

/-- A slot returns to EMPTY and its step records to the pool (R69, R101). -/
def State.freeSlot (s : State) (i : SlotId) : State :=
  (s.setPoolFree (s.poolFree + (s.slots[i].body.length + s.slots[i].unwind.length))).modSlot i fun _ => Slot.free

/-- The slots a session owns, in slot order. -/
def State.slotsOf (s : State) (k : SessionId) : List SlotId :=
  allSlots.filter fun i => decide (s.slots[i].owner = some k)

/-- Whether some sequence of the session is ARMED, RUNNING, AWAITING or UNWINDING (R151). -/
def State.runsSequence (s : State) (k : SessionId) : Bool :=
  (s.slotsOf k).any fun i => s.slots[i].inRun

/-- A port frame joins the port's pending port frames (R168). -/
def State.addPortFrame (s : State) (p : Port) (f : PortFrame) : State :=
  s.modPort p fun c => { c with frames := c.frames ++ [f] }

/-- The ENDED frame for the session's port (R152). -/
def State.sendEnded (s : State) (k : SessionId) (r : Session) : State :=
  match r.port, r.cause with
  | some p, some cause => s.addPortFrame p (.ended k cause)
  | _, _ => s

/-- The completion of closing (R151): slots EMPTY, leases ended, the record FREE, ENDED made. -/
def State.completeClosing (s : State) (k : SessionId) : State :=
  (((((s.slotsOf k).foldl State.freeSlot s).endLeasesOf k).modSession k fun _ => Session.free)).sendEnded k s.sessions[k]

/-- The Session Table's check: a CLOSING session none of whose sequences runs completes its closing (R151, R158). -/
def State.checkClosing (s : State) (k : SessionId) : State :=
  if s.sessions[k].state = .closing ∧ s.runsSequence k = false then s.completeClosing k else s

/-- The sequences of a session that entering CLOSING stops (R97). -/
def State.bodiesOf (s : State) (k : SessionId) : List SlotId :=
  (s.slotsOf k).filter fun i => s.slots[i].inBody

/-- Steps 1 to 5 of R148. -/
def State.putAway (s : State) (k : SessionId) (cause : CloseCause) : State :=
  ((((s.modSession k fun r => { r with state := .closing, cause := some cause, queue := [], joinedNow := 0 }).removeOneshots k).removePlaces
    k).removeWatches k).freeGenerators k

/-- Step 6 of R148: the sequences in their body are stopped, in slot order. -/
def State.stopBodies (s : State) (k : SessionId) : State :=
  (s.bodiesOf k).foldl (fun t i => t.stopSequence i .sessionEnd) s

/-- Steps 1 to 6 of R148 for a session that is OPEN. One that is not OPEN is left as it is (R147). -/
def State.beginClosing (s : State) (k : SessionId) (cause : CloseCause) : State :=
  if s.sessions[k].state = .opened then (s.putAway k cause).stopBodies k else s

/-- A session that is OPEN enters CLOSING, in the seven steps of R148. -/
def State.enterClosing (s : State) (k : SessionId) (cause : CloseCause) : State :=
  if s.sessions[k].state = .opened then (s.beginClosing k cause).checkClosing k else s

/-! ## Taking Timeline entries (R52) -/

/-- A ONESHOT is taken: it is removed, and writes its level, or fails with ACT.FAILED on a faulted or INPUT line
(R56, R57). -/
def State.takeOneshot (s : State) (e : Entry) (l : LineId) (v : Level) : State :=
  let s := s.removeEntry e.handle
  if s.lines[l].faulted then s.notify e.owner (.actFailed e.handle l .lineFault e.due)
  else if s.lines[l].mode = .input then s.notify e.owner (.actFailed e.handle l .mode e.due)
  else s.writeLine l v

/-- A STEP is taken: the Sequence Engine executes the step it names, and tells the Session Table when that ended a run of a
closing session (R64, R82, R91, R97). -/
def State.takeStep (s : State) (e : Entry) (i : SlotId) (list : StepList) (index : Nat) : State :=
  match list with
  | .body => (s.takeBodyStep i index).checkClosing e.owner
  | .unwind => (s.takeUnwindStep i index).checkClosing e.owner

/-- A DEADLINE is taken: the AWAIT step has run out of time (R85). -/
def State.takeDeadline (s : State) (e : Entry) (i : SlotId) (index : Nat) : State :=
  (s.leaveBody i .awaitTimeout index).checkClosing e.owner

/-- One entry is taken, by its kind. -/
def State.takeEntry (s : State) (e : Entry) : State :=
  match e.kind with
  | .oneshot l v => s.takeOneshot e l v
  | .step i list index => s.takeStep e i list index
  | .deadline i _ index => s.takeDeadline e i index

/-- The first entry of the Timeline, when it is due. -/
def State.dueEntry (s : State) : Option Entry :=
  match s.timeline with
  | [] => none
  | e :: _ => if e.due ≤ s.tick then some e else none

/-- Whether the entry with this handle is live and due. -/
def State.isDue (s : State) (h : Nat) : Bool :=
  match s.findEntry h with
  | some e => decide (e.due ≤ s.tick)
  | none => false

/-- Due entries are taken, in order, until the entry with this handle is no longer due (R52, R54, R66, R79, R94). The first
argument bounds the number of takes. -/
def State.takeUntil (h : Nat) : Nat → State → State
  | 0, s => s
  | n + 1, s =>
    if s.isDue h then
      match s.dueEntry with
      | some e => State.takeUntil h n (s.takeEntry e)
      | none => s
    else s

end Sys2Proof.Machine
end

