-- ==== Sys2Proof/Machine/Operands.lean ====
section
/-! DEFINITION. The operand forms of the requests (09, sections 9.2 to 9.4): fields of a payload, names, enumerations and
flags, the `when` field, step records, and the table of request types with their codes and payload lengths. -/

namespace Sys2Proof.Machine

/-! ## Fields (R178) -/

/-- One byte of a payload as a number. -/
def field1 (p : List Byte) (at_ : Nat) : Nat :=
  (p.getD at_ 0).toNat

/-- A 2-byte field, least significant byte first. -/
def field2 (p : List Byte) (at_ : Nat) : Nat :=
  field1 p at_ + 256 * field1 p (at_ + 1)

/-- A 4-byte field, least significant byte first. -/
def field4 (p : List Byte) (at_ : Nat) : Nat :=
  field2 p at_ + 65536 * field2 p (at_ + 2)

/-- An 8-byte field, least significant byte first. -/
def field8 (p : List Byte) (at_ : Nat) : Nat :=
  field4 p at_ + 4294967296 * field4 p (at_ + 4)

/-! ## Names and enumerations (R180, R181) -/

/-- A name byte inside its range. -/
def nameOf (n : Nat) (code : Nat) : Option (Fin n) :=
  if h : code < n then some ⟨code, h⟩ else none

/-- The session that a nibble names; 0 and 5 to 15 name none. -/
def sessionOf (nibble : Nat) : Option SessionId :=
  match nibble with
  | 0 => none
  | n + 1 => nameOf 4 n

def levelOf : Nat → Option Level
  | 0 => some .low
  | 1 => some .high
  | _ => none

def modeOf : Nat → Option Mode
  | 0 => some .input
  | 1 => some .push
  | 2 => some .sink
  | 3 => some .assist
  | _ => none

/-- The one-byte flags pull, check and force. -/
def flagOf : Nat → Option Bool
  | 0 => some false
  | 1 => some true
  | _ => none

def partingOf : Nat → Option Parting
  | 0 => some .keep
  | 1 => some .float
  | 2 => some .low
  | 3 => some .high
  | _ => none

def listOf : Nat → Option StepList
  | 0 => some .body
  | 1 => some .unwind
  | _ => none

def selectOf : Nat → Option EdgeSelect
  | 1 => some .rise
  | 2 => some .fall
  | 3 => some .both
  | _ => none

def restOf : Nat → Option RestLevel
  | 0 => some .keep
  | 1 => some .low
  | 2 => some .high
  | _ => none

/-! ## The `when` field (R46, R47, R179, R182) -/

/-- A `when` field: NOW, AFTER d or AT t. -/
inductive When
  | now
  | after (d : Nat)
  | at_ (t : Tick)
  deriving DecidableEq, Repr

/-- The 9 bytes of a `when` field: the form, and the value that the form uses. -/
def whenOf (p : List Byte) (at_ : Nat) : Option When :=
  match field1 p at_ with
  | 0 => some .now
  | 1 => some (.after (field4 p (at_ + 1)))
  | 2 => some (.at_ (field8 p (at_ + 1)))
  | _ => none

/-- The start tick a `when` field names at tick `now` (R46). -/
def When.start (w : When) (now : Tick) : Tick :=
  match w with
  | .now => now
  | .after d => now + d
  | .at_ t => t

/-- The checks on a start tick: LATE before now, HORIZON beyond the horizon (R47). -/
def whenStatus (now start : Tick) : Option Status :=
  if start < now then some .late
  else if now + Config.horizon < start then some .horizon
  else none

/-! ## Step records (R70, R75, R179, R182) -/

/-- The 12 bytes of a step record, checked as R70 gives; an AWAIT is refused for the unwind list (R71, R75). Fields that the
kind does not use are not looked at (R179). -/
def stepOf (list : StepList) (p : List Byte) (at_ : Nat) : Option Step :=
  let offset := field4 p (at_ + 4)
  let value := field4 p (at_ + 8)
  if Config.longSpan < offset then none
  else
    match field1 p at_ with
    | 1 =>
      match nameOf 24 (field1 p (at_ + 1)), levelOf (field1 p (at_ + 2)) with
      | some l, some v => some { offset := offset, kind := .set l v }
      | _, _ => none
    | 2 =>
      match nameOf 24 (field1 p (at_ + 1)), levelOf (field1 p (at_ + 2)) with
      | some l, some v =>
        if list = .unwind ∨ value = 0 ∨ Config.longSpan < value then none
        else some { offset := offset, kind := .await l v value }
      | _, _ => none
    | 3 => if Config.max16 < value then none else some { offset := offset, kind := .mark value }
    | _ => none

/-- The step records of SEQ.ADD, `count` of them from this offset on: all the steps, or the position of the first that fails
(R75). -/
def stepsOf (list : StepList) (p : List Byte) : (count position at_ : Nat) → Except Nat (List Step)
  | 0, _, _ => .ok []
  | n + 1, position, at_ =>
    match stepOf list p at_ with
    | none => .error position
    | some t =>
      match stepsOf list p n (position + 1) (at_ + 12) with
      | .error q => .error q
      | .ok rest => .ok (t :: rest)

/-! ## Request types (R166, R182) -/

/-- The 35 requests. -/
inductive RequestType
  | openSession | closeSession | ping | status | info | time | snapshot | portstat | restart
  | claim | release | withdraw | setup | drive | read | clear
  | atEdge | cancel | pendingList
  | seqNew | seqAdd | seqSeal | seqStart | seqStop | seqQuery | seqFree
  | watchSet | watchAck | watchDrop | watchRead
  | cadSet | cadRun | cadHold | cadFree | cadRead
  deriving DecidableEq, Repr

/-- The TYPE code of a request (R182). -/
def RequestType.code : RequestType → Byte
  | .openSession => 0x01 | .closeSession => 0x02 | .ping => 0x03 | .status => 0x04
  | .info => 0x08 | .time => 0x09 | .snapshot => 0x0A | .portstat => 0x0B | .restart => 0x0C
  | .claim => 0x10 | .release => 0x11 | .withdraw => 0x12 | .setup => 0x13 | .drive => 0x14 | .read => 0x15 | .clear => 0x16
  | .atEdge => 0x20 | .cancel => 0x21 | .pendingList => 0x22
  | .seqNew => 0x30 | .seqAdd => 0x31 | .seqSeal => 0x32 | .seqStart => 0x33 | .seqStop => 0x34 | .seqQuery => 0x35
  | .seqFree => 0x36
  | .watchSet => 0x40 | .watchAck => 0x41 | .watchDrop => 0x42 | .watchRead => 0x43
  | .cadSet => 0x50 | .cadRun => 0x51 | .cadHold => 0x52 | .cadFree => 0x53 | .cadRead => 0x54

/-- Every request type. -/
def allRequestTypes : List RequestType :=
  [.openSession, .closeSession, .ping, .status, .info, .time, .snapshot, .portstat, .restart,
   .claim, .release, .withdraw, .setup, .drive, .read, .clear, .atEdge, .cancel, .pendingList] ++
  [.seqNew, .seqAdd, .seqSeal, .seqStart, .seqStop, .seqQuery, .seqFree,
   .watchSet, .watchAck, .watchDrop, .watchRead, .cadSet, .cadRun, .cadHold, .cadFree, .cadRead]

/-- The request of a TYPE byte; none where it is no code of a request (R166 check 1). -/
def requestTypeOf (type : Byte) : Option RequestType :=
  allRequestTypes.find? fun t => decide (t.code = type)

/-- Whether a request of this type may have a payload of this length (R182). SEQ.ADD: two bytes and 1 to 8 records. -/
def RequestType.allows (t : RequestType) (n : Nat) : Bool :=
  match t with
  | .closeSession | .ping | .status | .info | .time | .snapshot | .portstat | .restart | .seqNew => decide (n = 0)
  | .withdraw | .read | .clear | .pendingList | .seqSeal | .seqStop | .seqQuery | .seqFree
  | .watchAck | .watchDrop | .watchRead | .cadHold | .cadFree | .cadRead => decide (n = 1)
  | .openSession | .release | .drive | .cancel => decide (n = 2)
  | .claim => decide (n = 4)
  | .watchSet => decide (n = 6)
  | .setup => decide (n = 8)
  | .seqStart | .cadRun => decide (n = 10)
  | .atEdge => decide (n = 11)
  | .cadSet => decide (n = 13)
  | .seqAdd => decide (14 ≤ n) && decide (n ≤ 98) && decide ((n - 2) % 12 = 0)

/-- The command that takes a request of this type from a port. -/
def RequestType.command (t : RequestType) (p : Port) : Instr :=
  match t with
  | .openSession => .openSession p | .closeSession => .closeSession p | .ping => .ping p | .status => .status p
  | .info => .info p | .time => .time p | .snapshot => .snapshot p | .portstat => .portstat p | .restart => .restart p
  | .claim => .claim p | .release => .release p | .withdraw => .withdraw p | .setup => .setup p | .drive => .drive p
  | .read => .read p | .clear => .clear p | .atEdge => .atEdge p | .cancel => .cancel p | .pendingList => .pendingList p
  | .seqNew => .seqNew p | .seqAdd => .seqAdd p | .seqSeal => .seqSeal p | .seqStart => .seqStart p
  | .seqStop => .seqStop p | .seqQuery => .seqQuery p | .seqFree => .seqFree p
  | .watchSet => .watchSet p | .watchAck => .watchAck p | .watchDrop => .watchDrop p | .watchRead => .watchRead p
  | .cadSet => .cadSet p | .cadRun => .cadRun p | .cadHold => .cadHold p | .cadFree => .cadFree p | .cadRead => .cadRead p

end Sys2Proof.Machine
end

