-- ==== Sys2Proof/Machine/Flags.lean ====
section
/-! DEFINITION. The maps, counts and reports computed from the state for replies: the line maps of SNAPSHOT (R21), the record
of READ (R20), the in-use counts of RELEASE (R37 to R39), the counts of STATUS (R145) and PORTSTAT (R172). -/

namespace Sys2Proof.Machine

/-- A map of one bit per line, bit n for Ln (R178). -/
def lineMap (p : LineId → Bool) : LineMap :=
  allLines.foldl (fun m l => if p l then m ||| (1#24 <<< l.val) else m) 0

/-- HIGH as 1. -/
def State.sensedMap (s : State) : LineMap := lineMap fun l => decide (s.lines[l].sensed = .high)
def State.commandedMap (s : State) : LineMap := lineMap fun l => decide (s.lines[l].commanded = .high)
/-- CONTENTION as 1. -/
def State.faultMap (s : State) : LineMap := lineMap fun l => s.lines[l].faulted
/-- 1 for a line that has a holder. -/
def State.heldMap (s : State) : LineMap := lineMap fun l => s.leases[l].lease.isSome

/-- The items of READ (R20). -/
def State.lineReport (s : State) (l : LineId) : LineReport :=
  { mode := s.lines[l].mode, commanded := s.lines[l].commanded, sensed := s.lines[l].sensed,
    pull := s.lines[l].pull, pullConnected := s.lines[l].pullConnected, fault := s.lines[l].fault,
    holder := s.holder l, queueLength := s.leases[l].queue.length, generator := s.boundGenerator l,
    filter := s.lines[l].filter, assist := s.lines[l].assist, settle := s.lines[l].settle, check := s.lines[l].check }

/-- The holder's one-shots that name the line (R37, R38). -/
def State.oneshotsOn (s : State) (k : SessionId) (l : LineId) : Nat :=
  (s.timeline.filter fun e => e.onLine l && decide (e.owner = k)).length

/-- What a forced release would clear: one-shots, 1 or 0 for a bound generator, sequences (R38). -/
def State.useCounts (s : State) (k : SessionId) (l : LineId) : Nat × Nat × Nat :=
  (s.oneshotsOn k l, (if (s.boundGenerator l).isSome then 1 else 0), (s.usersOf k l).length)

/-- Whether the line is in use by its holder (R37). -/
def State.inUse (s : State) (k : SessionId) (l : LineId) : Bool :=
  decide (s.useCounts k l ≠ (0, 0, 0))

/-- Watches of a session (R119). -/
def State.watchCount (s : State) (k : SessionId) : Nat :=
  (allWatches.filter fun w => decide (s.watches[w].map Watch.session = some k)).length

/-- The items of STATUS (R145). -/
def State.statusReport (s : State) (k : SessionId) : StatusReport :=
  { session := k, record := s.sessions[k],
    leases := (s.linesHeldBy k).length,
    places := (allLines.filter fun l => s.leases[l].queue.any fun q => decide (q.session = k)).length,
    watches := s.watchCount k,
    slots := (s.slotsOf k).length,
    generators := (allGenerators.filter fun g => decide (s.generators[g].owner = some k)).length,
    oneshots := (s.timeline.filter fun e => e.isOneshot && decide (e.owner = k)).length,
    sessions := allSessions.map fun j => (s.sessions[j].state, s.sessions[j].port) }

/-- The tick at which a session lapses; none where its interval is 0 (R143, R145). -/
def Session.lapseTick (r : Session) : Option Tick :=
  if r.keepalive = 0 then none else r.lastHeard.map fun t => t + r.keepalive * 1000

/-- One port's items of PORTSTAT (R172). -/
def State.portReport (s : State) (p : Port) : PortReport :=
  { crc := (s.port p).crc, gap := (s.port p).gap, length := (s.port p).length, overrun := (s.port p).overrun,
    brk := (s.port p).brk, slots := (s.port p).inbound.length,
    sessions := (allSessions.filter fun k =>
      decide (s.sessions[k].state ≠ .free) && decide (s.sessions[k].port = some p)).length }

/-- The next of a generator's own ticks that has not been taken (R117). -/
def Generator.nextEvent (r : Generator) : Option NextEvent :=
  match r.state with
  | .free | .stopped => none
  | .pending => r.start.map NextEvent.rise
  | .running cycleStart false => some (.fall (cycleStart + r.high))
  | .running cycleStart true =>
    if r.cycles ≠ 0 ∧ r.completed + 1 = r.cycles then some (.finish (cycleStart + r.period))
    else some (.rise (cycleStart + r.period))

end Sys2Proof.Machine
end

