-- ==== Sys2Proof/Machine/Wire.lean ====
section
/-! DEFINITION. The bytes of the frames that the part sends (09): the CRC, the codes of names and enumerations, the payload of
every reply, notice and port frame, and how long a frame takes on the wire. -/

namespace Sys2Proof.Machine

/-! ## CRC (R162) -/

/-- One bit of the CRC-16 with polynomial 0x1021, most significant bit first. -/
def crcBit (c : BitVec 16) : BitVec 16 :=
  if c.msb then (c <<< 1) ^^^ 0x1021#16 else c <<< 1

/-- One byte fed into the CRC. -/
def crcByte (c : BitVec 16) (b : Byte) : BitVec 16 :=
  crcBit (crcBit (crcBit (crcBit (crcBit (crcBit (crcBit (crcBit (c ^^^ (b.zeroExtend 16 <<< 8)))))))))

/-- The CRC-16 over the LEN byte and the body: initial value 0xFFFF, no reflection, no final inversion. -/
def crc16 (bytes : List Byte) : BitVec 16 :=
  bytes.foldl crcByte 0xFFFF#16

/-! ## Fields (R178) -/

/-- A number as that many bytes, least significant first. -/
def leBytes : (size n : Nat) → List Byte
  | 0, _ => []
  | k + 1, n => BitVec.ofNat 8 n :: leBytes k (n / 256)

/-- A tick; absent is all ones. -/
def tickBytes : Option Tick → List Byte
  | some t => leBytes 8 t
  | none => leBytes 8 0xFFFFFFFFFFFFFFFF

/-- A line, generator or failed step index; absent is 0xFF. -/
def nameByte : Option Nat → List Byte
  | some n => leBytes 1 n
  | none => leBytes 1 0xFF

/-- A session, holder or owner; none is 0. -/
def sessionByte : Option SessionId → List Byte
  | some k => leBytes 1 (k.val + 1)
  | none => leBytes 1 0

/-! ## Codes (R181) -/

def Level.code : Level → Nat
  | .low => 0 | .high => 1

def Bool.code (b : Bool) : Nat := if b then 1 else 0

def Mode.code : Mode → Nat
  | .input => 0 | .push => 1 | .sink => 2 | .assist => 3

def LineFault.time : LineFault → Option Tick
  | .none => Option.none
  | .contention t => some t

def LineFault.code : LineFault → Nat
  | .none => 0 | .contention _ => 1

def EntryKind.code : EntryKind → Nat
  | .oneshot _ _ => 1 | .step _ _ _ => 2 | .deadline _ _ _ => 3

def StepList.code : StepList → Nat
  | .body => 0 | .unwind => 1

def SeqState.code : SeqState → Nat
  | .empty => 0 | .loading => 1 | .ready => 2 | .armed => 3 | .running => 4 | .awaiting => 5 | .unwinding => 6
  | .done => 7 | .faulted => 8 | .cancelled => 9

def SeqOutcome.code : SeqOutcome → Nat
  | .none => 0 | .done => 1 | .faulted => 2 | .cancelled => 3

def SeqReason.code : SeqReason → Nat
  | .none => 0 | .lineFault => 1 | .mode => 2 | .awaitTimeout => 3 | .stopped => 4 | .released => 5 | .sessionEnd => 6

def SealReason.code : SealReason → Nat
  | .emptyBody => 1 | .unwindSpan => 2

def ActReason.code : ActReason → Nat
  | .lineFault => 1 | .mode => 2

def WatchKind.code : WatchKind → Nat
  | .edge _ => 1 | .level _ => 2 | .count _ _ => 3

def EdgeSelect.code : EdgeSelect → Nat
  | .rise => 1 | .fall => 2 | .both => 3

/-- The edge field of a watch; 0 for a kind that does not use it (R179). -/
def WatchKind.edgeCode : WatchKind → Nat
  | .edge e => EdgeSelect.code e | .level _ => 0 | .count e _ => EdgeSelect.code e

/-- The level field of a watch; 0 for a kind that does not use it (R179). -/
def WatchKind.levelCode : WatchKind → Nat
  | .edge _ => 0 | .level v => Level.code v | .count _ _ => 0

/-- The threshold field of a watch; 0 for a kind that does not use it (R179). -/
def WatchKind.threshold : WatchKind → Nat
  | .edge _ => 0 | .level _ => 0 | .count _ n => n

def WatchState.code : WatchState → Nat
  | .armed => 1 | .pending => 2

def GenState.code : GenState → Nat
  | .free => 0 | .stopped => 1 | .pending => 2 | .running _ _ => 3

def RestLevel.code : RestLevel → Nat
  | .keep => 0 | .low => 1 | .high => 2

def CadEndCause.code : CadEndCause → Nat
  | .done => 1 | .overridden => 2 | .fault => 3 | .released => 4

def SessionState.code : SessionState → Nat
  | .free => 0 | .opened => 1 | .closing => 2

/-- Port code; 0 for none. -/
def portCode : Option Port → Nat
  | none => 0 | some .a => 1 | some .b => 2

def CloseCause.code : CloseCause → Nat
  | .closed => 1 | .lapsed => 2 | .brk => 3

def ResetCause.code : ResetCause → Nat
  | .power => 1 | .pin => 2 | .restart => 3

def Baud.rate : Baud → Nat
  | .b115200 => 115200 | .b1000000 => 1000000

def Status.code : Status → Nat
  | .ok => 0x00 | .queued => 0x01 | .already => 0x02
  | .badLength => 0x10 | .badType => 0x11 | .badField => 0x12 | .noSession => 0x13 | .sessionFull => 0x14
  | .othersOpen => 0x15
  | .notHolder => 0x18 | .held => 0x19 | .duplicate => 0x1A | .notFound => 0x1B | .inUse => 0x1C
  | .lineFault => 0x20 | .mode => 0x21 | .lineBound => 0x22
  | .late => 0x28 | .horizon => 0x29 | .timelineFull => 0x2A
  | .kind => 0x30
  | .slotsFull => 0x38 | .poolFull => 0x39 | .listFull => 0x3A | .sealFail => 0x3B | .state => 0x3C
  | .watchFull => 0x40

/-! ## Payloads -/

/-- The line or slot that an entry names. -/
def EntryKind.subject : EntryKind → Nat
  | .oneshot l _ => l.val | .step i _ _ => i.val | .deadline i _ _ => i.val

/-- The level that an entry writes; zero for a sequence entry (R62). -/
def EntryKind.levelCode : EntryKind → Nat
  | .oneshot _ v => Level.code v | .step _ _ _ => 0 | .deadline _ _ _ => 0

/-- One item of a PENDING reply (R62). -/
def Entry.itemBytes (e : Entry) : List Byte :=
  leBytes 2 e.handle ++ leBytes 1 e.kind.code ++ leBytes 1 e.kind.subject ++ leBytes 1 e.kind.levelCode ++ leBytes 8 e.due

/-- The cursor: list 0xFF with index 0 when absent (R178). -/
def cursorBytes : Option (StepList × Nat) → List Byte
  | some (list, i) => leBytes 1 list.code ++ leBytes 1 i
  | none => leBytes 1 0xFF ++ leBytes 1 0

/-- A generator's next event: its code, 0 for absent, and its tick (R117, R181). -/
def nextEventBytes : Option NextEvent → List Byte
  | none => leBytes 1 0 ++ tickBytes none
  | some (.rise t) => leBytes 1 1 ++ leBytes 8 t
  | some (.fall t) => leBytes 1 2 ++ leBytes 8 t
  | some (.finish t) => leBytes 1 3 ++ leBytes 8 t

/-- The kind and due tick of a slot's entry; kind 0 when it has none (R100, R178). -/
def slotEntryBytes : Option Entry → List Byte
  | some e => leBytes 1 e.kind.code ++ leBytes 8 e.due
  | none => leBytes 1 0 ++ tickBytes none

def PortReport.bytes (r : PortReport) : List Byte :=
  leBytes 2 r.crc ++ leBytes 2 r.gap ++ leBytes 2 r.length ++ leBytes 2 r.overrun ++ leBytes 2 r.brk ++
    leBytes 1 r.slots ++ leBytes 1 r.sessions

def StatusReport.bytes (r : StatusReport) : List Byte :=
  leBytes 1 (r.session.val + 1) ++ leBytes 1 (portCode r.record.port) ++ leBytes 2 r.record.keepalive ++
    tickBytes r.record.lastHeard ++ tickBytes r.record.lapseTick ++ leBytes 1 r.record.queue.length ++
    leBytes 2 r.record.nextNumber.toNat ++ leBytes 2 r.record.lost ++ leBytes 1 r.leases ++ leBytes 1 r.places ++
    leBytes 1 r.watches ++ leBytes 1 r.slots ++ leBytes 1 r.generators ++ leBytes 1 r.oneshots ++
    r.sessions.flatMap fun x => leBytes 1 x.1.code ++ leBytes 1 (portCode x.2)

def LineReport.bytes (r : LineReport) : List Byte :=
  leBytes 1 r.mode.code ++ leBytes 1 (Level.code r.commanded) ++ leBytes 1 (Level.code r.sensed) ++
    leBytes 1 (Bool.code r.pull) ++ leBytes 1 (Bool.code r.pullConnected) ++ leBytes 1 r.fault.code ++
    tickBytes r.fault.time ++ sessionByte r.holder ++ leBytes 1 r.queueLength ++ nameByte (r.generator.map Fin.val) ++
    leBytes 1 r.filter ++ leBytes 1 r.assist ++ leBytes 1 r.settle ++ leBytes 1 (Bool.code r.check)

def SlotReport.bytes (r : SlotReport) : List Byte :=
  leBytes 1 r.record.state.code ++ sessionByte r.record.owner ++ leBytes 1 r.record.body.length ++
    leBytes 1 r.record.unwind.length ++ cursorBytes r.record.cursor ++ slotEntryBytes r.entry ++
    leBytes 2 r.record.handle ++ tickBytes r.record.start ++ leBytes 1 r.record.outcome.code ++
    leBytes 1 r.record.reason.code ++ nameByte r.record.failed ++ leBytes 1 r.record.skipped ++ leBytes 2 r.poolFree

/-- The counts and ticks of a watch, in the order of its WATCH.ACK reply (R133). -/
def Watch.ackBytes (r : Watch) : List Byte :=
  leBytes 1 r.kind.code ++ tickBytes r.first ++ tickBytes r.last ++ leBytes 2 r.coalesce ++ leBytes 2 r.overrun ++
    leBytes 2 r.running

/-- The record of a dropped watch (R137). -/
def Watch.dropBytes (r : Watch) : List Byte :=
  leBytes 1 r.state.code ++ tickBytes r.first ++ tickBytes r.last ++ leBytes 2 r.coalesce ++ leBytes 2 r.running ++
    leBytes 2 r.overrun

/-- The whole record of a watch (R136). -/
def Watch.recordBytes (w : WatchId) (r : Watch) : List Byte :=
  leBytes 1 w.val ++ leBytes 1 (r.session.val + 1) ++ leBytes 1 r.line.val ++ leBytes 1 r.kind.code ++
    leBytes 1 r.kind.edgeCode ++ leBytes 1 r.kind.levelCode ++ leBytes 2 r.kind.threshold ++ leBytes 1 r.state.code ++
    tickBytes r.first ++ tickBytes r.last ++ leBytes 2 r.coalesce ++ leBytes 2 r.running ++ leBytes 2 r.overrun

def Generator.bytes (r : Generator) (next : Option NextEvent) : List Byte :=
  leBytes 1 r.state.code ++ sessionByte r.owner ++ nameByte (r.line.map Fin.val) ++ leBytes 4 r.period ++ leBytes 4 r.high ++
    leBytes 2 r.cycles ++ leBytes 1 r.rest.code ++ tickBytes r.start ++ leBytes 4 r.completed ++ nextEventBytes next

/-- The INFO reply after its status, with its values in revision B (09, section 9.5). -/
def infoBytes (baud : Baud) : List Byte :=
  leBytes 2 0x4A43 ++ leBytes 2 0x2410 ++ leBytes 1 0x42 ++ leBytes 4 baud.rate ++ leBytes 1 24 ++ leBytes 1 16 ++
    leBytes 1 4 ++ leBytes 1 32 ++ leBytes 1 3 ++ leBytes 1 64 ++ leBytes 1 16 ++ leBytes 2 256 ++ leBytes 1 32 ++
    leBytes 1 8 ++ leBytes 1 8 ++ leBytes 1 32 ++ leBytes 1 16 ++ leBytes 1 4 ++ leBytes 1 4 ++ leBytes 1 120

/-- What follows the status of a reply, in the order its rule lists it, with the sizes of section 9.5 (log 23). -/
def ReplyData.bytes : ReplyData → List Byte
  | .none => []
  | .opened k p keepalive now => leBytes 1 (k.val + 1) ++ leBytes 1 (portCode (some p)) ++ leBytes 2 keepalive ++ leBytes 8 now
  | .pong now next lost waiting => leBytes 8 now ++ leBytes 2 next.toNat ++ leBytes 2 lost ++ leBytes 1 waiting
  | .session r => r.bytes
  | .info baud => infoBytes baud
  | .tick now => leBytes 8 now
  | .snapshot now sensed commanded fault held =>
    leBytes 8 now ++ leBytes 3 sensed.toNat ++ leBytes 3 commanded.toNat ++ leBytes 3 fault.toNat ++ leBytes 3 held.toNat
  | .ports a b => a.bytes ++ b.bytes
  | .lease granted faulted mode commanded =>
    leBytes 8 granted ++ leBytes 1 (Bool.code faulted) ++ leBytes 1 mode.code ++ leBytes 1 (Level.code commanded)
  | .queued n k => leBytes 1 n ++ leBytes 1 (k.val + 1)
  | .holder k => leBytes 1 (k.val + 1)
  | .counts a b c => leBytes 1 a ++ leBytes 1 b ++ leBytes 1 c
  | .line r => r.bytes
  | .admitted h due => leBytes 2 h ++ leBytes 8 due
  | .cancelled l v due => leBytes 1 l.val ++ leBytes 1 (Level.code v) ++ leBytes 8 due
  | .entries total next items =>
    leBytes 1 total ++ leBytes 1 next ++ leBytes 1 items.length ++ items.flatMap Entry.itemBytes
  | .slot i => leBytes 1 i.val
  | .lengths body unwind free => leBytes 1 body ++ leBytes 1 unwind ++ leBytes 2 free
  | .position n => leBytes 1 n
  | .sealReason r => leBytes 1 r.code
  | .started h start due state => leBytes 2 h ++ leBytes 8 start ++ leBytes 8 due ++ leBytes 1 state.code
  | .notHeld l => leBytes 1 l.val
  | .stopped failed state => nameByte failed ++ leBytes 1 state.code
  | .slotRecord r => r.bytes
  | .poolFree n => leBytes 2 n
  | .watchMade w sensed => leBytes 1 w.val ++ leBytes 1 (Level.code sensed)
  | .watchExists w => leBytes 1 w.val
  | .acknowledged r sensed after => r.ackBytes ++ leBytes 1 (Level.code sensed) ++ leBytes 1 after.code
  | .dropped r => r.dropBytes
  | .watchRecord w r sensed => r.recordBytes w ++ leBytes 1 (Level.code sensed)
  | .cadRun start state => leBytes 8 start ++ leBytes 1 state.code
  | .cadHold completed now => leBytes 4 completed ++ leBytes 8 now
  | .generator r next => r.bytes next

/-- The TYPE code of a notice (R183). -/
def NoticeBody.code : NoticeBody → Byte
  | .grant _ _ _ _ _ => 0x80
  | .claimLapsed _ _ => 0x81
  | .contention _ _ _ _ => 0x82
  | .actFailed _ _ _ _ => 0x83
  | .seqMark _ _ _ => 0x84
  | .seqEnd _ _ _ _ _ _ => 0x85
  | .watchHit _ _ _ _ _ => 0x86
  | .cadEnd _ _ _ _ _ => 0x87

/-- A notice's fields after its number and lost count (R183). -/
def NoticeBody.bytes : NoticeBody → List Byte
  | .grant l t faulted mode v =>
    leBytes 1 l.val ++ leBytes 8 t ++ leBytes 1 (Bool.code faulted) ++ leBytes 1 mode.code ++ leBytes 1 (Level.code v)
  | .claimLapsed l t => leBytes 1 l.val ++ leBytes 8 t
  | .contention l v w t => leBytes 1 l.val ++ leBytes 1 (Level.code v) ++ leBytes 1 (Level.code w) ++ leBytes 8 t
  | .actFailed h l r t => leBytes 2 h ++ leBytes 1 l.val ++ leBytes 1 r.code ++ leBytes 8 t
  | .seqMark i label t => leBytes 1 i.val ++ leBytes 2 label ++ leBytes 8 t
  | .seqEnd i outcome reason failed skipped t =>
    leBytes 1 i.val ++ leBytes 1 outcome.code ++ leBytes 1 reason.code ++ nameByte failed ++ leBytes 1 skipped ++ leBytes 8 t
  | .watchHit w l kind v t =>
    leBytes 1 w.val ++ leBytes 1 l.val ++ leBytes 1 kind.code ++ leBytes 1 (Level.code v) ++ leBytes 8 t
  | .cadEnd g l cause n t =>
    leBytes 1 g.val ++ nameByte (l.map Fin.val) ++ leBytes 1 cause.code ++ leBytes 4 n ++ leBytes 8 t

/-! ## Frames (R177) -/

/-- CHAN: the class in the high nibble, the session in the low one. -/
def chanByte (cls session : Nat) : Byte :=
  BitVec.ofNat 8 (16 * cls + session % 16)

/-- The body of a frame: CHAN, TYPE, TAG, payload. -/
def TxFrame.body : TxFrame → List Byte
  | .reply r => [chanByte 2 r.session, r.type, r.tag] ++ leBytes 1 r.status.code ++ r.data.bytes
  | .notice k n =>
    [chanByte 3 (k.val + 1), n.body.code, 0] ++ leBytes 2 n.number.toNat ++ leBytes 2 n.lost ++ n.body.bytes
  | .port (.startup cause baud) => [chanByte 4 0, 0xF0, 0] ++ leBytes 1 cause.code ++ leBytes 1 0x42 ++ leBytes 4 baud.rate
  | .port (.ended k cause) => [chanByte 4 (k.val + 1), 0xF1, 0] ++ leBytes 1 (k.val + 1) ++ leBytes 1 cause.code

/-- A body inside its frame: sync byte, LEN, body, CRC low byte first. -/
def frameBytes (body : List Byte) : List Byte :=
  let covered := BitVec.ofNat 8 body.length :: body
  Config.syncByte :: covered ++ leBytes 2 (crc16 covered).toNat

/-- The bytes that the port sends for a frame. -/
def TxFrame.wire (f : TxFrame) : List Byte :=
  frameBytes f.body

/-- Bytes of a frame on the wire: LEN + 4 (R160). -/
def TxFrame.wireLength (f : TxFrame) : Nat :=
  f.body.length + 4

/-- The tick at which the last byte of a frame leaves (R160): 10 bit times a byte. At 1,000,000 baud that is 10 µs a byte; at
115,200 baud it is 3125/36 µs a byte, and the rounding of the whole to a tick is open (log 17). -/
def Transmission.ends (baud : Baud) (x : Transmission) : Tick :=
  let n := x.frame.wireLength
  match baud with
  | .b1000000 => x.begun + n * 10
  | .b115200 =>
    x.begun + n * 3125 / 36 +
      (if n * 3125 % 36 = 0 then 0 else if Config.txRoundsUp x.begun n then 1 else 0)

/-- The levels of one character on TX: the start bit LOW, 8 data bits least significant first, the stop bit HIGH (R160). -/
def characterLevels (b : Byte) : List Level :=
  .low :: (List.range 8).map (fun i => if b.getLsbD i then .high else .low) ++ [.high]

/-- The levels of a frame on TX, its characters back to back (R160). -/
def TxFrame.levels (f : TxFrame) : List Level :=
  f.wire.flatMap characterLevels

/-- The level of TX at a tick of a transmission: that of the bit under way, HIGH after the last one (R160; log 17). -/
def Transmission.level (baud : Baud) (now : Tick) (x : Transmission) : Level :=
  x.frame.levels[(now - x.begun) * baud.rate / 1000000]?.getD .high

end Sys2Proof.Machine
end

