-- ==== Sys2Proof/Machine/Transmit.lean ====
section
/-! DEFINITION. The outbound side of a port (08): the transmit arbiter, the taking of a request with its dispatch checks and
its reply, and the full reset. -/

namespace Sys2Proof.Machine

/-! ## The transmit arbiter (R168, R169) -/

/-- The sessions in the order the arbiter looks at them: from the number after `last` on, going from 4 round to 1 (R169). -/
def rotation (last : Nat) : List SessionId :=
  allSessions.map fun j => ⟨(last + j.val) % 4, Nat.mod_lt _ (by decide)⟩

/-- Whether a session has a notice that the arbiter may begin: one that joined before this tick, or at the end of the tick
(`late`) any (log 7). -/
def Session.offers (late : Bool) (r : Session) : Bool :=
  if late then !r.queue.isEmpty else decide (r.joinedNow < r.queue.length)

/-- The session whose head notice is next: the first in the rotation that is bound to this port and has a notice (R169). -/
def State.nextSender (s : State) (late : Bool) (p : Port) : Option SessionId :=
  (rotation (s.port p).roundRobin).find? fun k => decide (s.sessions[k].port = some p) && s.sessions[k].offers late

/-- The reply of the ANSWERED slot, if there is one. -/
def answeredReply : List InboundSlot → Option Reply
  | [] => none
  | .answered r :: _ => some r
  | .waiting _ :: rest => answeredReply rest
  | .sending :: rest => answeredReply rest

/-- The ANSWERED slot becomes SENDING. -/
def markSending : List InboundSlot → List InboundSlot
  | [] => []
  | .answered _ :: rest => .sending :: rest
  | .waiting r :: rest => .waiting r :: markSending rest
  | .sending :: rest => .sending :: markSending rest

/-- The frame that the arbiter chooses: the oldest pending port frame, else the pending reply, else the head notice of the next
session (R168). -/
def State.nextFrame (s : State) (late : Bool) (p : Port) : Option TxFrame :=
  match (s.port p).frames, answeredReply (s.port p).inbound with
  | f :: _, _ => some (.port f)
  | [], some r => some (.reply r)
  | [], none =>
    match s.nextSender late p with
    | none => none
    | some k => s.sessions[k].queue.head?.map (TxFrame.notice k)

/-- A frame is begun at this tick: a port frame leaves the pending ones, a reply's slot becomes SENDING, a notice leaves its
session's queue, and the number of the session whose notice was begun last becomes that session's (R168, R169). -/
def State.beginFrame (s : State) (p : Port) : TxFrame → State
  | .port f =>
    s.modPort p fun c => { c with frames := c.frames.tail, transmitter := some { frame := .port f, begun := s.tick } }
  | .reply r =>
    s.modPort p fun c =>
      { c with inbound := markSending c.inbound, transmitter := some { frame := .reply r, begun := s.tick } }
  | .notice k n =>
    (s.modSession k fun r => { r with queue := r.queue.tail }).modPort p fun c =>
      { c with transmitter := some { frame := .notice k n, begun := s.tick }, roundRobin := k.val + 1 }

/-- The arbiter of a port whose transmitter is idle begins the frame it chooses. A busy transmitter goes on. -/
def State.arbitrate (s : State) (late : Bool) (p : Port) : State :=
  match (s.port p).transmitter with
  | some _ => s
  | none =>
    match s.nextFrame late p with
    | none => s
    | some f => s.beginFrame p f

/-- Both arbiters choose, at the end of every command that may have made a frame pending or a transmitter idle (in a CLOSE before
step 7 of R148, `State.takeClose`, log 32). A notice made at this tick is passed over until the tick ends, since an entry into CLOSING
at the tick must still find it (R157, log 7). A reply is begun at once, since the port's next request is taken at that tick (R165); a
break of the tick at which it was made still discards it (R171, `PortCell.dropReply`, log 7). -/
def State.settle (s : State) : State :=
  (s.arbitrate false .a).arbitrate false .b

/-! ## The TX pin (R160) -/

/-- The level of a port's TX pin: HIGH when the transmitter is idle or the part held in reset (R160, R175). -/
def State.txPin (s : State) (p : Port) : Level :=
  if s.heldInReset then .high
  else
    match (s.port p).transmitter with
    | none => .high
    | some x => x.level s.baud s.tick

/-! ## Taking a request (R165 to R167) -/

/-- The oldest WAITING request. -/
def oldestWaiting : List InboundSlot → Option Request
  | [] => none
  | .waiting r :: _ => some r
  | .answered _ :: rest => oldestWaiting rest
  | .sending :: rest => oldestWaiting rest

/-- The oldest WAITING slot becomes ANSWERED with this reply. -/
def answerOldest (reply : Reply) : List InboundSlot → List InboundSlot
  | [] => []
  | .waiting _ :: rest => .answered reply :: rest
  | .answered r :: rest => .answered r :: answerOldest reply rest
  | .sending :: rest => .sending :: answerOldest reply rest

/-- The request that a port takes next: its oldest WAITING one, when no slot is ANSWERED (R165), the port has accepted no
RESTART (R174) and the part is not held in reset (R175). -/
def State.takeable (s : State) (p : Port) : Option Request :=
  if s.heldInReset || (s.port p).stopped || (answeredReply (s.port p).inbound).isSome then none
  else oldestWaiting (s.port p).inbound

/-- A status and what follows it. -/
structure Answer where
  status : Status
  data : ReplyData
  deriving DecidableEq, Repr

/-- An answer of the status alone. -/
def Answer.plain (status : Status) : Answer :=
  { status := status, data := .none }

/-- The reply frame to a request taken at this tick (R167): the request's session nibble, type and tag. -/
def Answer.reply (a : Answer) (r : Request) (now : Tick) : Reply :=
  { session := r.session, type := r.type, tag := r.tag, status := a.status, data := a.data, made := now }

/-- The reply is made and its slot becomes ANSWERED (R165, R167). -/
def State.answer (s : State) (p : Port) (r : Request) (a : Answer) : State :=
  s.modPort p fun c => { c with inbound := answerOldest (a.reply r s.tick) c.inbound }

/-- A request of this type is taken from a port: dispatch checks 1 and 2, then what `serve` decides, and the reply, all at this
tick (R165, R166). Where the request that the port takes next is of another type, or there is none, this command does not
occur and nothing changes (log 3). -/
def State.takeRequest (s : State) (t : RequestType) (p : Port) (serve : Request → State → State × Answer) : State :=
  match s.takeable p with
  | none => s
  | some r =>
    if r.type = t.code then
      let out := if t.allows r.payload.length then serve r s else (s, Answer.plain .badLength)
      (out.1.answer p r out.2).settle
    else s

/-- The OPEN session bound to this port that a request names (R140, R166 checks 3 and 4). -/
def State.speaker (s : State) (p : Port) (r : Request) : Option SessionId :=
  match sessionOf r.session with
  | none => none
  | some k => if s.sessions[k].state = .opened ∧ s.sessions[k].port = some p then some k else none

/-- A request that needs a session: dispatch checks 3 and 4, then its owner (R166). -/
def State.takeSessioned (s : State) (t : RequestType) (p : Port)
    (serve : SessionId → List Byte → State → State × Answer) : State :=
  s.takeRequest t p fun r s =>
    match s.speaker p r with
    | none => (s, Answer.plain .noSession)
    | some k => serve k r.payload s

/-- A request whose TYPE is the code of no request is answered BAD_TYPE (R166 check 1). -/
def State.takeUnknown (s : State) (p : Port) : State :=
  match s.takeable p with
  | none => s
  | some r =>
    if requestTypeOf r.type = none then (s.answer p r (Answer.plain .badType)).settle else s

/-! ## Full reset (R175, R176) -/

/-- Every block takes its full-reset values; the pins stay at the levels the board gives them, and no frame is made. -/
def State.clearBlocks (s : State) : State :=
  { State.reset with
    pending := s.pending
    heldInReset := s.heldInReset
    baud := s.baud
    lines := Vector.ofFn fun l : LineId => LineCell.reset s.lines[l].raw
    portA := PortCell.reset none
    portB := PortCell.reset none
    freeIndex := s.freeIndex }

/-- The rate that the BAUD pin selects (R160). -/
def baudOf : Level → Baud
  | .low => .b115200
  | .high => .b1000000

/-- The first tick after a full reset: BAUD is sampled, each port makes its STARTUP frame and begins it (R160, R175, R176). -/
def State.startUp (s : State) (cause : ResetCause) (baud : Level) : State :=
  (({ s.clearBlocks with heldInReset := false, baud := baudOf baud }.modPort .a fun c =>
      { c with frames := [.startup cause (baudOf baud)] }).modPort .b fun c =>
      { c with frames := [.startup cause (baudOf baud)] }).settle

end Sys2Proof.Machine
end

