-- ==== Sys2Proof/Machine/TimelineCommands.lean ====
section
/-! DEFINITION. TIME, AT, CANCEL and PENDING, and the falling due of Timeline entries (03). -/

namespace Sys2Proof.Machine

/-- The answer to a start tick that fails R47: the status and now. -/
def lateAnswer (status : Status) (now : Tick) : Answer :=
  { status := status, data := .tick now }

/-- TIME (R44). -/
def serveTime (_k : SessionId) (_p : List Byte) (s : State) : State × Answer :=
  (s, { status := .ok, data := .tick s.tick })

/-- Whether all 64 places of the Timeline are in use (R48). -/
def State.timelineFull (s : State) : Bool :=
  decide (Config.timelinePlaces ≤ s.timeline.length)

/-- The admission of a one-shot, and its taking at once when it is due now (R54). -/
def State.scheduleOneshot (s : State) (k : SessionId) (l : LineId) (v : Level) (due : Tick) : State :=
  State.takeUntil s.nextHandle Config.takesBound (s.enterTimeline k due (.oneshot l v))

/-- AT (R53, R54). -/
def serveAt (k : SessionId) (p : List Byte) (s : State) : State × Answer :=
  match nameOf 24 (field1 p 0), levelOf (field1 p 1), whenOf p 2 with
  | some l, some v, some w =>
    if s.holds k l = false then (s, .plain .notHolder)
    else if s.lines[l].faulted then (s, .plain .lineFault)
    else if s.lines[l].mode = .input then (s, .plain .mode)
    else
      match whenStatus s.tick (w.start s.tick) with
      | some status => (s, lateAnswer status s.tick)
      | none =>
        if s.timelineFull then (s, .plain .timelineFull)
        else
          (s.scheduleOneshot k l v (w.start s.tick),
           { status := .ok, data := .admitted s.nextHandle (w.start s.tick) })
  | _, _, _ => (s, .plain .badField)

/-- CANCEL (R59). -/
def serveCancel (k : SessionId) (p : List Byte) (s : State) : State × Answer :=
  match s.findEntry (field2 p 0) with
  | none => (s, .plain .notFound)
  | some e =>
    if e.owner ≠ k then (s, .plain .notFound)
    else
      match e.kind with
      | .oneshot l v => (s.removeEntry (field2 p 0), { status := .ok, data := .cancelled l v e.due })
      | .step _ _ _ => (s, .plain .kind)
      | .deadline _ _ _ => (s, .plain .kind)

/-- The entries a session owns, in Timeline order (R62). -/
def State.entriesOf (s : State) (k : SessionId) : List Entry :=
  s.timeline.filter fun e => decide (e.owner = k)

/-- PENDING (R62). -/
def servePendingList (k : SessionId) (p : List Byte) (s : State) : State × Answer :=
  let items := ((s.entriesOf k).drop (field1 p 0)).take 8
  (s, { status := .ok, data := .entries (s.entriesOf k).length (field1 p 0 + items.length) items })

/-- TIME. -/
def execTime (p : Port) (s : State) : Host.Outcome State Fault Refusal :=
  .next (s.takeSessioned .time p serveTime)

/-- AT. -/
def execAtEdge (p : Port) (s : State) : Host.Outcome State Fault Refusal :=
  .next (s.takeSessioned .atEdge p serveAt)

/-- CANCEL. -/
def execCancel (p : Port) (s : State) : Host.Outcome State Fault Refusal :=
  .next (s.takeSessioned .cancel p serveCancel)

/-- PENDING. -/
def execPendingList (p : Port) (s : State) : Host.Outcome State Fault Refusal :=
  .next (s.takeSessioned .pendingList p servePendingList)

/-! ## Entries falling due (R52). Entries of one tick are taken in order, so the entry taken is the Timeline's first. -/

/-- ONESHOT_DUE (R56, R57). -/
def execOneshotDue (s : State) : Host.Outcome State Fault Refusal :=
  .next (match s.dueEntry with
    | none => s
    | some e =>
      match e.kind with
      | .oneshot l v => (s.takeOneshot e l v).settle
      | .step _ _ _ => s
      | .deadline _ _ _ => s)

/-- STEP_DUE (R64, R82, R83, R91). -/
def execStepDue (s : State) : Host.Outcome State Fault Refusal :=
  .next (match s.dueEntry with
    | none => s
    | some e =>
      match e.kind with
      | .oneshot _ _ => s
      | .step i list index => (s.takeStep e i list index).settle
      | .deadline _ _ _ => s)

/-- DEADLINE_DUE (R64, R85). -/
def execDeadlineDue (s : State) : Host.Outcome State Fault Refusal :=
  .next (match s.dueEntry with
    | none => s
    | some e =>
      match e.kind with
      | .oneshot _ _ => s
      | .step _ _ _ => s
      | .deadline i _ index => (s.takeDeadline e i index).settle)

end Sys2Proof.Machine
end

