-- ==== Sys2Proof/Machine/CadenceCommands.lean ====
section
/-! DEFINITION. CAD.SET, CAD.RUN, CAD.HOLD, CAD.FREE and CAD.READ, and a generator's own ticks (05). -/

namespace Sys2Proof.Machine

/-- Whether the waveform is in range, and covers the assist burst on an ASSIST line (R105 check 7). -/
def LineCell.waveformOk (c : LineCell) (period high : Nat) : Bool :=
  decide (2 ≤ period) && decide (period ≤ Config.longSpan) && decide (1 ≤ high) && decide (high ≤ period - 1) &&
    (decide (c.mode ≠ .assist) || decide (c.assist ≤ high))

/-- Whether CAD.SET may take the generator: FREE, or STOPPED and the requester's own (R105 check 2). -/
def Generator.settable (k : SessionId) (r : Generator) : Bool :=
  decide (r.state = .free) || (decide (r.state = .stopped) && decide (r.owner = some k))

/-- CAD.SET (R105, R106). -/
def serveCadSet (k : SessionId) (p : List Byte) (s : State) : State × Answer :=
  match nameOf 4 (field1 p 0), nameOf 24 (field1 p 1), restOf (field1 p 12) with
  | some g, some l, some rest =>
    if s.generators[g].settable k = false then (s, .plain .state)
    else if s.holds k l = false then (s, .plain .notHolder)
    else if s.lines[l].faulted then (s, .plain .lineFault)
    else if s.lines[l].mode = .input then (s, .plain .mode)
    else if allGenerators.any (fun h => decide (h ≠ g) && decide (s.generators[h].state ≠ .free) &&
        decide (s.generators[h].line = some l)) then (s, .plain .lineBound)
    else if s.lines[l].waveformOk (field4 p 2) (field4 p 6) = false then (s, .plain .badField)
    else
      (s.modGenerator g fun _ =>
         { state := .stopped, owner := some k, line := some l, period := field4 p 2, high := field4 p 6,
           cycles := field2 p 10, rest := rest, start := none, completed := 0 },
       .plain .ok)
  | _, _, _ => (s, .plain .badField)

/-- The generator that a request of its owner names: BAD_FIELD out of range, NOT_FOUND when the requester does not own it
(R107). -/
def State.ownGenerator (s : State) (k : SessionId) (p : List Byte) : Except Answer GenId :=
  match nameOf 4 (field1 p 0) with
  | none => .error (.plain .badField)
  | some g => if s.generators[g].owner = some k then .ok g else .error (.plain .notFound)

/-- Cycle 0 begins at the start tick: RUNNING, and the HIGH write (R108, R109). -/
def State.beginCycles (s : State) (g : GenId) (start : Tick) : State :=
  (s.modGenerator g fun r => { r with state := .running start false }).ownWrite s.generators[g].line .high

/-- An accepted CAD.RUN: the start tick is set, cycles completed is 0; the generator is PENDING, or RUNNING at once when it
starts now (R107, R108). -/
def State.runGenerator (s : State) (g : GenId) (start : Tick) : State :=
  let s := s.modGenerator g fun r => { r with state := .pending, start := some start, completed := 0 }
  if s.tick < start then s else s.beginCycles g start

/-- The line of a generator is faulted. -/
def State.generatorFaulted (s : State) (g : GenId) : Bool :=
  match s.generators[g].line with
  | some l => s.lines[l].faulted
  | none => false

/-- CAD.RUN (R107). -/
def serveCadRun (k : SessionId) (p : List Byte) (s : State) : State × Answer :=
  match nameOf 4 (field1 p 0), whenOf p 1 with
  | some g, some w =>
    if s.generators[g].owner ≠ some k then (s, .plain .notFound)
    else if s.generators[g].state ≠ .stopped then (s, .plain .state)
    else if s.generatorFaulted g then (s, .plain .lineFault)
    else
      match whenStatus s.tick (w.start s.tick) with
      | some status => (s, lateAnswer status s.tick)
      | none =>
        let t := s.runGenerator g (w.start s.tick)
        (t, { status := .ok, data := .cadRun (w.start s.tick) t.generators[g].state })
  | _, _ => (s, .plain .badField)

/-- A PENDING or RUNNING generator stops and its rest level is applied (R110, R111). -/
def State.restGenerator (s : State) (g : GenId) : State :=
  (s.modGenerator g Generator.stop).writeRest s.generators[g].line s.generators[g].rest

/-- CAD.HOLD (R111). -/
def serveCadHold (k : SessionId) (p : List Byte) (s : State) : State × Answer :=
  match s.ownGenerator k p with
  | .error a => (s, a)
  | .ok g =>
    if s.generators[g].active then
      (s.restGenerator g, { status := .ok, data := .cadHold s.generators[g].completed s.tick })
    else (s, .plain .state)

/-- CAD.FREE (R116). -/
def serveCadFree (k : SessionId) (p : List Byte) (s : State) : State × Answer :=
  match s.ownGenerator k p with
  | .error a => (s, a)
  | .ok g => if s.generators[g].active then (s, .plain .state) else (s.freeGenerator g, .plain .ok)

/-- CAD.READ (R117). -/
def serveCadRead (_k : SessionId) (p : List Byte) (s : State) : State × Answer :=
  match nameOf 4 (field1 p 0) with
  | none => (s, .plain .badField)
  | some g => (s, { status := .ok, data := .generator s.generators[g] s.generators[g].nextEvent })

/-- CAD.SET. -/
def execCadSet (p : Port) (s : State) : Host.Outcome State Fault Refusal :=
  .next (s.takeSessioned .cadSet p serveCadSet)

/-- CAD.RUN. -/
def execCadRun (p : Port) (s : State) : Host.Outcome State Fault Refusal :=
  .next (s.takeSessioned .cadRun p serveCadRun)

/-- CAD.HOLD. -/
def execCadHold (p : Port) (s : State) : Host.Outcome State Fault Refusal :=
  .next (s.takeSessioned .cadHold p serveCadHold)

/-- CAD.FREE. -/
def execCadFree (p : Port) (s : State) : Host.Outcome State Fault Refusal :=
  .next (s.takeSessioned .cadFree p serveCadFree)

/-- CAD.READ. -/
def execCadRead (p : Port) (s : State) : Host.Outcome State Fault Refusal :=
  .next (s.takeSessioned .cadRead p serveCadRead)

/-! ## A generator's own ticks -/

/-- The start tick of a PENDING generator that is reached (R108). -/
def Generator.startDue (now : Tick) (r : Generator) : Option Tick :=
  match r.state, r.start with
  | .pending, some t => if t ≤ now then some t else none
  | _, _ => none

/-- CAD_START (R108). -/
def execCadStart (g : GenId) (s : State) : Host.Outcome State Fault Refusal :=
  .next (match s.generators[g].startDue s.tick with
    | some t => s.beginCycles g t
    | none => s)

/-- The start of the cycle whose LOW write is due (R109). -/
def Generator.lowDue (now : Tick) (r : Generator) : Option Tick :=
  match r.state with
  | .running cycleStart false => if cycleStart + r.high ≤ now then some cycleStart else none
  | .running _ true | .free | .stopped | .pending => none

/-- CAD_LOW_WRITE (R109). -/
def execCadLowWrite (g : GenId) (s : State) : Host.Outcome State Fault Refusal :=
  .next (match s.generators[g].lowDue s.tick with
    | some t => (s.modGenerator g fun r => { r with state := .running t true }).ownWrite s.generators[g].line .low
    | none => s)

/-- The start of the cycle that ends (R110). -/
def Generator.endDue (now : Tick) (r : Generator) : Option Tick :=
  match r.state with
  | .running cycleStart true => if cycleStart + r.period ≤ now then some cycleStart else none
  | .running _ false | .free | .stopped | .pending => none

/-- The end of a cycle (R110): cycles completed increases; a counted run that has reached its cycles stops with its rest level
and CAD.END DONE, and otherwise the next cycle starts with its HIGH write. -/
def State.endCycle (s : State) (g : GenId) (cycleStart : Tick) : State :=
  let s := s.modGenerator g fun r => { r with completed := saturate Config.max32 r.completed }
  if s.generators[g].cycles ≠ 0 ∧ s.generators[g].completed = s.generators[g].cycles then
    (s.restGenerator g).sendCadEnd g .done
  else s.beginCycles g (cycleStart + s.generators[g].period)

/-- CAD_CYCLE_END (R110). -/
def execCadCycleEnd (g : GenId) (s : State) : Host.Outcome State Fault Refusal :=
  .next (match s.generators[g].endDue s.tick with
    | some t => (s.endCycle g t).settle
    | none => s)

end Sys2Proof.Machine
end

