-- ==== Sys2Proof/Machine/LeaseCommands.lean ====
section
/-! DEFINITION. CLAIM, RELEASE and WITHDRAW, and the expiry of a claim place (02). -/

namespace Sys2Proof.Machine

/-- What OK and ALREADY replies to CLAIM carry: the lease's grant time and the line's state (R28, R29). -/
def State.leaseData (s : State) (l : LineId) (granted : Tick) : ReplyData :=
  .lease granted s.lines[l].faulted s.lines[l].mode s.lines[l].commanded

/-- The expiry tick of a wait that begins now: the limit in ms, none for 65,535 (R30). -/
def expiryOf (now : Tick) (limit : Nat) : Option Tick :=
  if limit = Config.max16 then none else some (now + limit * 1000)

/-- Whether the session has a place in the line's claim queue. -/
def State.waits (s : State) (k : SessionId) (l : LineId) : Bool :=
  s.leases[l].queue.any fun q => decide (q.session = k)

/-- The requester joins the tail of the claim queue (R30). -/
def State.joinQueue (s : State) (l : LineId) (q : Place) : State :=
  s.setLease l { s.leases[l] with queue := s.leases[l].queue ++ [q] }

/-- A claim of a line with no holder is granted (R28). -/
def State.grantClaim (s : State) (k : SessionId) (l : LineId) (parting : Parting) : State :=
  s.setLease l { s.leases[l] with lease := some { holder := k, parting := parting, granted := s.tick } }

/-- CLAIM (R27 to R30). -/
def serveClaim (k : SessionId) (p : List Byte) (s : State) : State × Answer :=
  match nameOf 24 (field1 p 0), partingOf (field1 p 1) with
  | some l, some parting =>
    match s.leases[l].lease with
    | none => (s.grantClaim k l parting, { status := .ok, data := s.leaseData l s.tick })
    | some lease =>
      if lease.holder = k then (s, { status := .already, data := s.leaseData l lease.granted })
      else if field2 p 2 = 0 then (s, { status := .held, data := .holder lease.holder })
      else if s.waits k l then (s, .plain .duplicate)
      else
        (s.joinQueue l { session := k, parting := parting, expiry := expiryOf s.tick (field2 p 2) },
         { status := .queued, data := .queued (s.leases[l].queue.length + 1) lease.holder })
  | _, _ => (s, .plain .badField)

/-- The session's place is taken out of the line's claim queue; those behind it move up. -/
def State.leaveQueue (s : State) (k : SessionId) (l : LineId) : State :=
  s.setLease l { s.leases[l] with queue := s.leases[l].queue.filter fun q => decide (q.session ≠ k) }

/-- WITHDRAW (R31). -/
def serveWithdraw (k : SessionId) (p : List Byte) (s : State) : State × Answer :=
  match nameOf 24 (field1 p 0) with
  | none => (s, .plain .badField)
  | some l => if s.waits k l then (s.leaveQueue k l, .plain .ok) else (s, .plain .notFound)

/-- Step 2 of the forced clearing: a bound generator becomes FREE, with CAD.END RELEASED if it was PENDING or RUNNING
(R39, R114). -/
def State.releaseGenerator (s : State) (l : LineId) : State :=
  match s.boundGenerator l with
  | none => s
  | some g =>
    if s.generators[g].active then (s.sendCadEnd g .released).freeGenerator g else s.freeGenerator g

/-- The forced clearing: one-shots, generator, sequences in slot order (R39 steps 1 to 3). -/
def State.clearUses (s : State) (k : SessionId) (l : LineId) : State :=
  let s := (s.removeOneshotsOn k l).releaseGenerator l
  (s.usersOf k l).foldl (fun t i => t.stopSequence i .released) s

/-- The three counts of a RELEASE reply. -/
def countsData (n : Nat × Nat × Nat) : ReplyData :=
  .counts n.1 n.2.1 n.2.2

/-- RELEASE (R37 to R39). -/
def serveRelease (k : SessionId) (p : List Byte) (s : State) : State × Answer :=
  match nameOf 24 (field1 p 0), flagOf (field1 p 1) with
  | some l, some force =>
    if s.holds k l = false then (s, .plain .notHolder)
    else if s.inUse k l = false then (s.endLease l, { status := .ok, data := countsData (0, 0, 0) })
    else if force then ((s.clearUses k l).endLease l, { status := .ok, data := countsData (s.useCounts k l) })
    else (s, { status := .inUse, data := countsData (s.useCounts k l) })
  | _, _ => (s, .plain .badField)

/-- CLAIM. -/
def execClaim (p : Port) (s : State) : Host.Outcome State Fault Refusal :=
  .next (s.takeSessioned .claim p serveClaim)

/-- RELEASE. -/
def execRelease (p : Port) (s : State) : Host.Outcome State Fault Refusal :=
  .next (s.takeSessioned .release p serveRelease)

/-- WITHDRAW. -/
def execWithdraw (p : Port) (s : State) : Host.Outcome State Fault Refusal :=
  .next (s.takeSessioned .withdraw p serveWithdraw)

/-- The place of a session in a claim queue whose expiry tick is reached, if it has one. -/
def State.expiredPlace (s : State) (l : LineId) (k : SessionId) : Option Tick :=
  match s.leases[l].queue.find? fun q => decide (q.session = k) with
  | none => none
  | some q =>
    match q.expiry with
    | none => none
    | some t => if t ≤ s.tick then some t else none

/-- CLAIM_EXPIRY (R32). -/
def execClaimExpiry (l : LineId) (k : SessionId) (s : State) : Host.Outcome State Fault Refusal :=
  .next (match s.expiredPlace l k with
    | none => s
    | some t => ((s.leaveQueue k l).notify k (.claimLapsed l t)).settle)

end Sys2Proof.Machine
end

