-- ==== Sys2Proof/Machine/LineRequests.lean ====
section
/-! DEFINITION. SETUP, DRIVE, READ, SNAPSHOT and CLEAR (01, section 1.5). -/

namespace Sys2Proof.Machine

/-- The fields of SETUP after the line number, each in its range (R17 check 3). -/
def setupFieldsOf (p : List Byte) : Option SetupFields :=
  match modeOf (field1 p 1), flagOf (field1 p 2), flagOf (field1 p 6), levelOf (field1 p 7) with
  | some mode, some pull, some check, some level =>
    if 1 ≤ field1 p 4 ∧ field1 p 4 ≤ 15 ∧ 1 ≤ field1 p 5 then
      some { mode := mode, pull := pull, filter := field1 p 3, assist := field1 p 4, settle := field1 p 5,
             check := check, level := level }
    else none
  | _, _, _, _ => none

/-- Whether a generator bound to the line forbids this SETUP (R17 check 6). -/
def State.setupBound (s : State) (l : LineId) (f : SetupFields) : Bool :=
  match s.boundGenerator l with
  | none => false
  | some g => decide (f.mode = .input) || (decide (f.mode = .assist) && decide (s.generators[g].high < f.assist))

/-- The effect of an accepted SETUP (R18), reported to the Cadence Unit (R23). -/
def State.applySetup (s : State) (l : LineId) (f : SetupFields) : State :=
  (s.modLine l (LineCell.setup s.tick f)).stopBound l .overridden

/-- SETUP (R17, R18). -/
def serveSetup (k : SessionId) (p : List Byte) (s : State) : State × Answer :=
  match nameOf 24 (field1 p 0) with
  | none => (s, .plain .badField)
  | some l =>
    if s.holds k l = false then (s, .plain .notHolder)
    else
      match setupFieldsOf p with
      | none => (s, .plain .badField)
      | some f =>
        if f.mode = .assist ∧ Config.assistLines ≤ l.val then (s, .plain .mode)
        else if s.lines[l].faulted = true ∧ f.mode ≠ .input then (s, .plain .lineFault)
        else if s.setupBound l f then (s, .plain .lineBound)
        else (s.applySetup l f, .plain .ok)

/-- DRIVE (R19). -/
def serveDrive (k : SessionId) (p : List Byte) (s : State) : State × Answer :=
  match nameOf 24 (field1 p 0), levelOf (field1 p 1) with
  | some l, some v =>
    if s.holds k l = false then (s, .plain .notHolder)
    else if s.lines[l].faulted then (s, .plain .lineFault)
    else if s.lines[l].mode = .input then (s, .plain .mode)
    else (s.writeLine l v, .plain .ok)
  | _, _ => (s, .plain .badField)

/-- READ (R20). -/
def serveRead (_k : SessionId) (p : List Byte) (s : State) : State × Answer :=
  match nameOf 24 (field1 p 0) with
  | none => (s, .plain .badField)
  | some l => (s, { status := .ok, data := .line (s.lineReport l) })

/-- SNAPSHOT (R21). -/
def serveSnapshot (_k : SessionId) (_p : List Byte) (s : State) : State × Answer :=
  (s, { status := .ok, data := .snapshot s.tick s.sensedMap s.commandedMap s.faultMap s.heldMap })

/-- CLEAR (R15). -/
def serveClear (k : SessionId) (p : List Byte) (s : State) : State × Answer :=
  match nameOf 24 (field1 p 0) with
  | none => (s, .plain .badField)
  | some l =>
    if s.holds k l = false then (s, .plain .notHolder)
    else (s.modLine l LineCell.clearFault, .plain .ok)

/-- SETUP. -/
def execSetup (p : Port) (s : State) : Host.Outcome State Fault Refusal :=
  .next (s.takeSessioned .setup p serveSetup)

/-- DRIVE. -/
def execDrive (p : Port) (s : State) : Host.Outcome State Fault Refusal :=
  .next (s.takeSessioned .drive p serveDrive)

/-- READ. -/
def execRead (p : Port) (s : State) : Host.Outcome State Fault Refusal :=
  .next (s.takeSessioned .read p serveRead)

/-- SNAPSHOT. -/
def execSnapshot (p : Port) (s : State) : Host.Outcome State Fault Refusal :=
  .next (s.takeSessioned .snapshot p serveSnapshot)

/-- CLEAR. -/
def execClear (p : Port) (s : State) : Host.Outcome State Fault Refusal :=
  .next (s.takeSessioned .clear p serveClear)

end Sys2Proof.Machine
end

