-- ==== Sys2Proof/Machine/PortCommands.lean ====
section
/-! DEFINITION. INFO, PORTSTAT and RESTART, and the events of a port: bytes received, the gap limit, a break, the idle line, the
end of a transmission (08). -/

namespace Sys2Proof.Machine

/-- INFO (R173). -/
def serveInfo (_r : Request) (s : State) : State × Answer :=
  (s, { status := .ok, data := .info s.baud })

/-- PORTSTAT (R172). -/
def servePortstat (_k : SessionId) (_p : List Byte) (s : State) : State × Answer :=
  (s, { status := .ok, data := .ports (s.portReport .a) (s.portReport .b) })

/-- Whether every session but `k` is FREE (R174). -/
def State.aloneOpen (s : State) (k : SessionId) : Bool :=
  allSessions.all fun j => decide (j = k) || decide (s.sessions[j].state = .free)

/-- RESTART (R174): accepted, its port takes no further request. -/
def serveRestart (p : Port) (k : SessionId) (_payload : List Byte) (s : State) : State × Answer :=
  if s.aloneOpen k then (s.modPort p fun c => { c with stopped := true }, .plain .ok)
  else (s, .plain .othersOpen)

/-- INFO. -/
def execInfo (p : Port) (s : State) : Host.Outcome State Fault Refusal :=
  .next (s.takeRequest .info p serveInfo)

/-- PORTSTAT. -/
def execPortstat (p : Port) (s : State) : Host.Outcome State Fault Refusal :=
  .next (s.takeSessioned .portstat p servePortstat)

/-- RESTART. -/
def execRestart (p : Port) (s : State) : Host.Outcome State Fault Refusal :=
  .next (s.takeSessioned .restart p (serveRestart p))

/-! ## Reception (R161 to R164) -/

/-- The request of a frame body: CHAN's session nibble, TYPE, TAG, payload (R177). -/
def requestOf (body : List Byte) : Request :=
  { session := field1 body 0 % 16, type := body.getD 1 0, tag := body.getD 2 0, payload := body.drop 3 }

/-- The session that a request names is refreshed when it is OPEN and bound to this port (R142). -/
def State.refresh (s : State) (p : Port) (r : Request) : State :=
  match s.speaker p r with
  | none => s
  | some k => s.modSession k fun c => { c with lastHeard := some s.tick }

/-- A good request frame takes a free inbound slot as WAITING and refreshes its session; with four slots held it is discarded
and counted (R164). -/
def State.acceptRequest (s : State) (p : Port) (r : Request) : State :=
  if (s.port p).inbound.length < Config.inboundPlaces then
    (s.refresh p r).modPort p fun c => { c with inbound := c.inbound ++ [.waiting r] }
  else s.modPort p fun c => { c with overrun := saturate Config.max16 c.overrun }

/-- The CRC that a body should carry, over its LEN byte and itself (R162). -/
def bodyCrc (body : List Byte) : Nat :=
  (crc16 (BitVec.ofNat 8 body.length :: body)).toNat

/-- A complete frame is judged (R162): a CRC that differs is counted; a class other than 1 is discarded uncounted. -/
def State.judgeFrame (s : State) (p : Port) (body : List Byte) (crc : Nat) : State :=
  if bodyCrc body ≠ crc then s.modPort p fun c => { c with crc := saturate Config.max16 c.crc }
  else if field1 body 0 / 16 = 1 then s.acceptRequest p (requestOf body)
  else s

/-- The receiver is put in this state. -/
def State.setReceiver (s : State) (p : Port) (r : Receiver) : State :=
  s.modPort p fun c => { c with receiver := r }

/-- One byte is received, at this tick (R161, R162). -/
def State.receiveByte (s : State) (p : Port) (b : Byte) : State :=
  match (s.port p).receiver with
  | .hunt => if b = Config.syncByte then s.setReceiver p (.length s.tick) else s
  | .length _ =>
    if Config.minBody ≤ b.toNat ∧ b.toNat ≤ Config.maxBody then s.setReceiver p (.body b.toNat [] s.tick)
    else (s.setReceiver p .hunt).modPort p fun c => { c with length := saturate Config.max16 c.length }
  | .body len got _ =>
    if (got ++ [b]).length < len then s.setReceiver p (.body len (got ++ [b]) s.tick)
    else s.setReceiver p (.check (got ++ [b]) none s.tick)
  | .check body none _ => s.setReceiver p (.check body (some b) s.tick)
  | .check body (some low) _ => (s.setReceiver p .hunt).judgeFrame p body (low.toNat + 256 * b.toNat)

/-- FRAME_RECEIVED (R161, R162, R164): the receiver takes the bytes in order. While nRST is low, or while the receiver waits
for the idle line, RX is ignored (R170, R175, R176). -/
def execFrameReceived (p : Port) (bytes : List Byte) (s : State) : Host.Outcome State Fault Refusal :=
  .next (if s.heldInReset || (s.port p).awaitsIdle then s else bytes.foldl (fun t b => t.receiveByte p b) s)

/-- The reception tick of the latest byte of a partial frame (R163). -/
def Receiver.last : Receiver → Option Tick
  | .hunt => none
  | .length t => some t
  | .body _ _ t => some t
  | .check _ _ t => some t

/-- Whether the gap limit of a partial frame is reached (R163). -/
def Receiver.gapDue (now : Tick) (r : Receiver) : Bool :=
  match r.last with
  | some t => decide (t + Config.gapTicks ≤ now)
  | none => false

/-- GAP_TIMEOUT (R163). -/
def execGapTimeout (p : Port) (s : State) : Host.Outcome State Fault Refusal :=
  .next (if (s.port p).receiver.gapDue s.tick = true then
      (s.setReceiver p .hunt).modPort p fun c => { c with gap := saturate Config.max16 c.gap }
    else s)

/-- RX_IDLE (R170, R176). While nRST is low RX is ignored (R175). -/
def execRxIdle (p : Port) (s : State) : Host.Outcome State Fault Refusal :=
  .next (if s.heldInReset then s else s.modPort p fun c => { c with awaitsIdle := false })

/-! ## Breaks (R170, R171) -/

/-- The reply to an accepted RESTART (R174). -/
def TxFrame.isRestartReply (f : TxFrame) : Bool :=
  match f with
  | .reply r => decide (r.type = RequestType.restart.code) && decide (r.status = .ok)
  | .notice _ _ | .port _ => false

/-- Whether the port is sending the reply to an accepted RESTART. -/
def PortCell.sendsRestartReply (c : PortCell) : Bool :=
  match c.transmitter with
  | some x => x.frame.isRestartReply
  | none => false

/-- Whether the frame under way is a reply that was made at this tick. -/
def Transmission.repliesAt (x : Transmission) (now : Tick) : Bool :=
  match x.frame with
  | .reply r => decide (r.made = now)
  | .notice _ _ | .port _ => false

/-- The reply to a request taken at this tick is discarded (R171), though the transmitter has begun it at this tick (log 7). Any other
frame under way goes on. -/
def PortCell.dropReply (c : PortCell) (now : Tick) : PortCell :=
  { c with transmitter := c.transmitter.filter fun x => !x.repliesAt now }

/-- Steps 1 to 3 of R171. After a break before a RESTART's reply has begun, or at the tick of that RESTART, the port takes requests
again (R174). -/
def PortCell.takeBreak (c : PortCell) (now : Tick) : PortCell :=
  let c := c.dropReply now
  { c with receiver := .hunt, awaitsIdle := true, inbound := [], brk := saturate Config.max16 c.brk,
           stopped := c.stopped && c.sendsRestartReply }

/-- The OPEN sessions of a port, in ascending number (R159). -/
def State.sessionsOn (s : State) (p : Port) : List SessionId :=
  allSessions.filter fun k => decide (s.sessions[k].state = .opened) && decide (s.sessions[k].port = some p)

/-- A break is recognised (R171). The OPEN sessions of the port go through steps 1 to 6 of R148 in ascending number, and then
through step 7 in ascending number: R159 has each entry whole in turn, and also that a session of this port has lost its places
when a line is granted, which only the second order gives where a session completes at the break's own tick (log 31). The ENDED
frames of sessions that complete at that tick are made in ascending number, where R159 leaves either order (log 31). -/
def State.takeBreak (s : State) (p : Port) : State :=
  (s.sessionsOn p).foldl State.checkClosing
    ((s.sessionsOn p).foldl (fun t k => t.beginClosing k .brk) (s.modPort p fun c => c.takeBreak s.tick))

/-- BREAK (R171). A new break needs the line to have been idle (R170, R176). -/
def execBreakLine (p : Port) (s : State) : Host.Outcome State Fault Refusal :=
  .next (if s.heldInReset || (s.port p).awaitsIdle then s else (s.takeBreak p).settle)

/-! ## The end of a transmission (R168, R174) -/

/-- The SENDING slot is freed (R164). -/
def freeSending : List InboundSlot → List InboundSlot
  | [] => []
  | .sending :: rest => rest
  | .waiting r :: rest => .waiting r :: freeSending rest
  | .answered r :: rest => .answered r :: freeSending rest

/-- The transmitter is idle; when it sent a reply, that reply's slot is freed. -/
def PortCell.endTransmission (f : TxFrame) (c : PortCell) : PortCell :=
  match f with
  | .reply _ => { c with transmitter := none, inbound := freeSending c.inbound }
  | .notice _ _ => { c with transmitter := none }
  | .port _ => { c with transmitter := none }

/-- FRAME_SENT (R168): the frame's last byte leaves, when the frame has taken its time (R160); the reply to an accepted RESTART
brings a full reset (R174), and otherwise the arbiter chooses. Before that tick the event does not occur (log 3). -/
def execFrameSent (p : Port) (baud : Level) (s : State) : Host.Outcome State Fault Refusal :=
  .next (match (s.port p).transmitter with
    | none => s
    | some x =>
      if s.tick < x.ends s.baud then s
      else if x.frame.isRestartReply then s.startUp .restart baud
      else (s.modPort p (PortCell.endTransmission x.frame)).settle)

/-! ## Resets (R175) -/

/-- POWER_UP (R175). With nRST low the part stays held in reset (log 20). -/
def execPowerUp (baud : Level) (s : State) : Host.Outcome State Fault Refusal :=
  .next (if s.heldInReset then s.clearBlocks else s.startUp .power baud)

/-- NRST_ASSERT (R175). -/
def execNrstAssert (s : State) : Host.Outcome State Fault Refusal :=
  .next { s.clearBlocks with heldInReset := true }

/-- NRST_RELEASE (R175). -/
def execNrstRelease (baud : Level) (s : State) : Host.Outcome State Fault Refusal :=
  .next (if s.heldInReset then s.startUp .pin baud else s)

end Sys2Proof.Machine
end

