-- ==== Sys2Proof/Machine/SequenceRequests.lean ====
section
/-! DEFINITION. SEQ.NEW, SEQ.ADD, SEQ.SEAL, SEQ.START, SEQ.STOP, SEQ.QUERY and SEQ.FREE (04). -/

namespace Sys2Proof.Machine

/-- SEQ.NEW (R74): the lowest-numbered EMPTY slot. -/
def serveSeqNew (k : SessionId) (_p : List Byte) (s : State) : State × Answer :=
  match allSlots.find? fun i => decide (s.slots[i].state = .empty) with
  | none => (s, .plain .slotsFull)
  | some i =>
    (s.modSlot i fun r => { r with state := .loading, owner := some k }, { status := .ok, data := .slot i })

/-- The slot that a request of its owner names: BAD_FIELD out of range, NOT_FOUND when the requester does not own it (R73). -/
def State.ownSlot (s : State) (k : SessionId) (p : List Byte) : Except Answer SlotId :=
  match nameOf 16 (field1 p 0) with
  | none => .error (.plain .badField)
  | some i => if s.slots[i].owner = some k then .ok i else .error (.plain .notFound)

/-- The length limit of a list (R71). -/
def StepList.capacity : StepList → Nat
  | .body => Config.bodySteps
  | .unwind => Config.unwindSteps

/-- Steps appended to one list of a slot. -/
def Slot.append (list : StepList) (steps : List Step) (r : Slot) : Slot :=
  match list with
  | .body => { r with body := r.body ++ steps }
  | .unwind => { r with unwind := r.unwind ++ steps }

/-- A BAD_FIELD answer to SEQ.ADD always carries a position (R75, 09 section 9.5). -/
def badStep (position : Nat) : Answer :=
  { status := .badField, data := .position position }

/-- The steps join the list and leave the pool (R69, R76). -/
def State.appendSteps (s : State) (i : SlotId) (list : StepList) (steps : List Step) : State :=
  (s.setPoolFree (s.poolFree - steps.length)).modSlot i (Slot.append list steps)

/-- SEQ.ADD (R75, R76). -/
def serveSeqAdd (k : SessionId) (p : List Byte) (s : State) : State × Answer :=
  match nameOf 16 (field1 p 0), listOf (field1 p 1) with
  | some i, some list =>
    if s.slots[i].owner ≠ some k then (s, .plain .notFound)
    else if s.slots[i].state ≠ .loading then (s, .plain .state)
    else
      match stepsOf list p ((p.length - 2) / 12) 1 2 with
      | .error position => (s, badStep position)
      | .ok steps =>
        if list.capacity < (s.slots[i].list list).length + steps.length then (s, .plain .listFull)
        else if s.poolFree < steps.length then (s, .plain .poolFull)
        else
          let t := s.appendSteps i list steps
          (t, { status := .ok, data := .lengths t.slots[i].body.length t.slots[i].unwind.length t.poolFree })
  | _, _ => (s, badStep 0)

/-- The sum of the offsets of a list (R71, R77). -/
def spanOf (steps : List Step) : Nat :=
  (steps.map Step.offset).sum

/-- SEQ.SEAL (R77). -/
def serveSeqSeal (k : SessionId) (p : List Byte) (s : State) : State × Answer :=
  match s.ownSlot k p with
  | .error a => (s, a)
  | .ok i =>
    if s.slots[i].state ≠ .loading then (s, .plain .state)
    else if s.slots[i].body = [] then (s, { status := .sealFail, data := .sealReason .emptyBody })
    else if Config.longSpan < spanOf s.slots[i].unwind then (s, { status := .sealFail, data := .sealReason .unwindSpan })
    else (s.modSlot i fun r => { r with state := .ready }, .plain .ok)

/-- The first SET line of a sequence that the session does not hold, body first (R78). -/
def State.firstNotHeld (s : State) (k : SessionId) (i : SlotId) : Option LineId :=
  s.slots[i].setLines.find? fun l => !s.holds k l

/-- The tick at which body step 0 of a run is due (R66, R79). -/
def Slot.firstDue (start : Tick) (r : Slot) : Tick :=
  start + (r.body.head?.map Step.offset).getD 0

/-- A new run: the run fields are reset, the cursor names body step 0, the state is ARMED and the slot records the handle of
the STEP entry that the Timeline admits (R66, R79). -/
def State.armSequence (s : State) (k : SessionId) (i : SlotId) (start : Tick) : State :=
  (s.enterTimeline k (s.slots[i].firstDue start) (.step i .body 0)).modSlot i fun r =>
    { r with state := .armed, outcome := .none, reason := .none, failed := none, skipped := 0, start := some start,
             cursor := some (.body, 0), handle := s.nextHandle }

/-- An accepted SEQ.START: the run is armed, and every step that falls due at this tick is taken (R66, R79). -/
def State.startSequence (s : State) (k : SessionId) (i : SlotId) (start : Tick) : State :=
  State.takeUntil s.nextHandle Config.takesBound (s.armSequence k i start)

/-- SEQ.START (R78, R79). -/
def serveSeqStart (k : SessionId) (p : List Byte) (s : State) : State × Answer :=
  match nameOf 16 (field1 p 0), whenOf p 1 with
  | some i, some w =>
    if s.slots[i].owner ≠ some k then (s, .plain .notFound)
    else if s.slots[i].resting = false then (s, .plain .state)
    else
      match s.firstNotHeld k i with
      | some l => (s, { status := .notHolder, data := .notHeld l })
      | none =>
        match whenStatus s.tick (w.start s.tick) with
        | some status => (s, lateAnswer status s.tick)
        | none =>
          if s.timelineFull then (s, .plain .timelineFull)
          else
            let t := s.startSequence k i (w.start s.tick)
            (t, { status := .ok,
                  data := .started s.nextHandle (w.start s.tick) (s.slots[i].firstDue (w.start s.tick)) t.slots[i].state })
  | _, _ => (s, .plain .badField)

/-- An accepted SEQ.STOP: the sequence is stopped, and every unwind step that falls due at this tick is taken (R94). -/
def State.haltSequence (s : State) (i : SlotId) : State :=
  State.takeUntil s.slots[i].handle Config.takesBound (s.stopSequence i .stopped)

/-- SEQ.STOP (R94). -/
def serveSeqStop (k : SessionId) (p : List Byte) (s : State) : State × Answer :=
  match s.ownSlot k p with
  | .error a => (s, a)
  | .ok i =>
    if s.slots[i].inBody = false then (s, .plain .state)
    else
      let t := s.haltSequence i
      (t, { status := .ok, data := .stopped t.slots[i].failed t.slots[i].state })

/-- SEQ.QUERY (R100). -/
def serveSeqQuery (_k : SessionId) (p : List Byte) (s : State) : State × Answer :=
  match nameOf 16 (field1 p 0) with
  | none => (s, .plain .badField)
  | some i =>
    (s, { status := .ok,
          data := .slotRecord { record := s.slots[i], entry := s.findEntry s.slots[i].handle, poolFree := s.poolFree } })

/-- SEQ.FREE (R101). -/
def serveSeqFree (k : SessionId) (p : List Byte) (s : State) : State × Answer :=
  match s.ownSlot k p with
  | .error a => (s, a)
  | .ok i =>
    if s.slots[i].inRun then (s, .plain .state)
    else
      let t := s.freeSlot i
      (t, { status := .ok, data := .poolFree t.poolFree })

/-- SEQ.NEW. -/
def execSeqNew (p : Port) (s : State) : Host.Outcome State Fault Refusal :=
  .next (s.takeSessioned .seqNew p serveSeqNew)

/-- SEQ.ADD. -/
def execSeqAdd (p : Port) (s : State) : Host.Outcome State Fault Refusal :=
  .next (s.takeSessioned .seqAdd p serveSeqAdd)

/-- SEQ.SEAL. -/
def execSeqSeal (p : Port) (s : State) : Host.Outcome State Fault Refusal :=
  .next (s.takeSessioned .seqSeal p serveSeqSeal)

/-- SEQ.START. -/
def execSeqStart (p : Port) (s : State) : Host.Outcome State Fault Refusal :=
  .next (s.takeSessioned .seqStart p serveSeqStart)

/-- SEQ.STOP. -/
def execSeqStop (p : Port) (s : State) : Host.Outcome State Fault Refusal :=
  .next (s.takeSessioned .seqStop p serveSeqStop)

/-- SEQ.QUERY. -/
def execSeqQuery (p : Port) (s : State) : Host.Outcome State Fault Refusal :=
  .next (s.takeSessioned .seqQuery p serveSeqQuery)

/-- SEQ.FREE. -/
def execSeqFree (p : Port) (s : State) : Host.Outcome State Fault Refusal :=
  .next (s.takeSessioned .seqFree p serveSeqFree)

end Sys2Proof.Machine
end

