-- ==== Sys2Proof/Machine/SessionCommands.lean ====
section
/-! DEFINITION. OPEN, CLOSE, PING and STATUS, and the lapse of a keepalive (07). -/

namespace Sys2Proof.Machine

/-- The lowest-numbered FREE session record (R141). -/
def State.freeSession (s : State) : Option SessionId :=
  allSessions.find? fun k => decide (s.sessions[k].state = .free)

/-- Whether a keepalive interval is 0 or 10 to 60,000 ms (R141). -/
def keepaliveOk (n : Nat) : Bool :=
  decide (n = 0) || (decide (10 ≤ n) && decide (n ≤ 60000))

/-- A FREE record becomes OPEN on this port (R141). -/
def State.openRecord (s : State) (k : SessionId) (p : Port) (keepalive : Nat) : State :=
  s.modSession k fun r =>
    { r with state := .opened, port := some p, keepalive := keepalive, lastHeard := some s.tick }

/-- OPEN (R141). -/
def serveOpen (p : Port) (r : Request) (s : State) : State × Answer :=
  if r.session ≠ 0 then (s, .plain .badField)
  else if keepaliveOk (field2 r.payload 0) = false then (s, .plain .badField)
  else
    match s.freeSession with
    | none => (s, .plain .sessionFull)
    | some k =>
      (s.openRecord k p (field2 r.payload 0),
       { status := .ok, data := .opened k p (field2 r.payload 0) s.tick })

/-- CLOSE up to its reply: steps 1 to 6 of R148 (R146). -/
def serveClose (k : SessionId) (_p : List Byte) (s : State) : State × Answer :=
  (s.beginClosing k .closed, .plain .ok)

/-- A CLOSE is taken whole (R146, R148). The arbiters choose between its reply and step 7 of R148, as R168 lets them, so that on an
idle transmitter the reply is begun before an ENDED frame of this same tick is made (log 32). -/
def State.takeClose (s : State) (p : Port) : State :=
  let t := s.takeSessioned .closeSession p serveClose
  match (s.takeable p).bind (s.speaker p) with
  | none => t
  | some k => t.checkClosing k

/-- PING (R144). -/
def servePing (k : SessionId) (_p : List Byte) (s : State) : State × Answer :=
  (s, { status := .ok,
        data := .pong s.tick s.sessions[k].nextNumber s.sessions[k].lost s.sessions[k].queue.length })

/-- STATUS (R145). -/
def serveStatus (k : SessionId) (_p : List Byte) (s : State) : State × Answer :=
  (s, { status := .ok, data := .session (s.statusReport k) })

/-- OPEN. -/
def execOpenSession (p : Port) (s : State) : Host.Outcome State Fault Refusal :=
  .next (s.takeRequest .openSession p (serveOpen p))

/-- CLOSE. -/
def execCloseSession (p : Port) (s : State) : Host.Outcome State Fault Refusal :=
  .next (s.takeClose p)

/-- PING. -/
def execPing (p : Port) (s : State) : Host.Outcome State Fault Refusal :=
  .next (s.takeSessioned .ping p servePing)

/-- STATUS. -/
def execStatus (p : Port) (s : State) : Host.Outcome State Fault Refusal :=
  .next (s.takeSessioned .status p serveStatus)

/-- Whether an OPEN session's silence has reached its keepalive interval (R143). -/
def Session.lapseDue (now : Tick) (r : Session) : Bool :=
  decide (r.state = .opened) &&
    (match r.lapseTick with
     | some t => decide (t ≤ now)
     | none => false)

/-- KEEPALIVE_LAPSE (R143, R148). -/
def execKeepaliveLapse (k : SessionId) (s : State) : Host.Outcome State Fault Refusal :=
  .next (if s.sessions[k].lapseDue s.tick = true then (s.enterClosing k .lapsed).settle else s)

end Sys2Proof.Machine
end

