-- ==== Sys2Proof/Machine/LineEvents.lean ====
section
/-! DEFINITION. What happens on a line without a request: samples of the pin, sensed edges with what watches and awaits make
of them, contention faults and burst ends (01, sections 1.2 to 1.4; 06, sections 6.3 to 6.6; 04, R84). -/

namespace Sys2Proof.Machine

/-! ## Watches and an edge (R120, R125 to R130) -/

/-- Whether an edge to `v` matches (R120). -/
def EdgeSelect.covers (e : EdgeSelect) (v : Level) : Bool :=
  match e, v with
  | .both, _ => true
  | .rise, .high => true
  | .fall, .low => true
  | .rise, .low => false
  | .fall, .high => false

/-- Whether an edge to `v` is a matching event of the watch (R120). -/
def WatchKind.covers (kind : WatchKind) (v : Level) : Bool :=
  match kind with
  | .edge e => e.covers v
  | .level w => decide (w = v)
  | .count e _ => e.covers v

/-- The watch becomes PENDING with this tick as its first and last (R125, R127, R129, R123, R134). -/
def Watch.fired (now : Tick) (r : Watch) : Watch :=
  { r with state := .pending, first := some now, last := some now }

/-- A matching event on a PENDING watch (R126, R128, R130). -/
def Watch.coalesced (now : Tick) (r : Watch) : Watch :=
  { r with coalesce := saturate Config.max16 r.coalesce, last := some now }

/-- A COUNT watch's running count after a matching edge, and whether the threshold is reached (R129). -/
def Watch.counted (threshold : Nat) (r : Watch) : Watch × Bool :=
  if r.running + 1 = threshold then ({ r with running := 0 }, true)
  else ({ r with running := r.running + 1 }, false)

/-- What an edge does to the record of a watch it matches, and whether the watch fires (R125 to R130). -/
def Watch.onMatch (now : Tick) (r : Watch) : Watch × Bool :=
  match r.kind, r.state with
  | .edge _, .armed => (r.fired now, true)
  | .edge _, .pending => (r.coalesced now, false)
  | .level _, .armed => (r.fired now, true)
  | .level _, .pending => (r.coalesced now, false)
  | .count _ n, .armed =>
    let (r', reached) := r.counted n
    if reached then (r'.fired now, true) else (r', false)
  | .count _ n, .pending =>
    let (r', reached) := (r.coalesced now).counted n
    if reached then ({ r' with overrun := saturate Config.max16 r'.overrun }, false) else (r', false)

/-- The WATCH.HIT notice of a watch that fires (R131). -/
def State.sendHit (s : State) (w : WatchId) (r : Watch) (v : Level) : State :=
  s.notify r.session (.watchHit w r.line r.kind v s.tick)

/-- One watch is offered a sensed edge of line `l` to `v` (R120). An edge away from the level of a LEVEL watch leaves it as it
is, PENDING or not, whenever it fired (R124, second case; log 30). -/
def State.offerEdge (s : State) (l : LineId) (v : Level) (w : WatchId) : State :=
  match s.watches[w] with
  | none => s
  | some r =>
    if r.line = l ∧ r.kind.covers v = true then
      let s' := s.setWatch w (some (r.onMatch s.tick).1)
      if (r.onMatch s.tick).2 then s'.sendHit w r v else s'
    else s

/-! ## Awaits and an edge (R84) -/

/-- The AWAIT that an AWAITING sequence waits on: its body index, line and level. -/
def Slot.awaited (r : Slot) : Option (Nat × LineId × Level) :=
  match r.state, r.cursor with
  | .awaiting, some (.body, index) =>
    match r.body[index]? with
    | some { kind := .await l v _, .. } => some (index, l, v)
    | _ => none
  | _, _ => none

/-- One slot is offered a sensed edge: an edge of the awaited line to the awaited level completes the AWAIT (R84). -/
def State.offerAwait (s : State) (l : LineId) (v : Level) (i : SlotId) : State :=
  match s.slots[i].awaited with
  | some (index, l', v') => if l' = l ∧ v' = v then s.completeStep i .body index else s
  | none => s

/-! ## The events -/

/-- A sensed edge: the cell takes it, then the watches in ascending number and the awaiting slots in ascending number are
offered it (R9, R10, R120, R84; the order among them is log 8). -/
def State.senseEdge (s : State) (l : LineId) : State :=
  let s := s.modLine l (LineCell.takeEdge s.tick)
  let v := s.lines[l].sensed
  let s := allWatches.foldl (fun t w => t.offerEdge l v w) s
  allSlots.foldl (fun t i => t.offerAwait l v i) s

/-- SENSED_EDGE (R9, R10). -/
def execSensedEdge (l : LineId) (s : State) : Host.Outcome State Fault Refusal :=
  .next (if s.heldInReset = false ∧ s.lines[l].edgeDue s.tick = true then (s.senseEdge l).settle else s)

/-- The contention fault of a line: the cell's changes, the CONTENTION notice to a holder, the report to the Cadence Unit
(R13, R113). -/
def State.faultLine (s : State) (l : LineId) : State :=
  ((s.modLine l (LineCell.takeFault s.tick)).notifyOwner (s.holder l)
    (.contention l s.lines[l].commanded s.lines[l].sensed s.tick)).stopBound l .fault

/-- CONTENTION_FAULT (R12, R13). -/
def execContentionFault (l : LineId) (s : State) : Host.Outcome State Fault Refusal :=
  .next (if s.heldInReset = false ∧ s.lines[l].faultDue s.tick = true then (s.faultLine l).settle else s)

/-- ASSIST_BURST_END (R5). -/
def execAssistBurstEnd (l : LineId) (s : State) : Host.Outcome State Fault Refusal :=
  .next (if s.heldInReset = false ∧ s.lines[l].burstDue s.tick = true then s.modLine l LineCell.endBurst else s)

/-- RAW_LEVEL_CHANGE (R9). While nRST holds the part in reset, the level is what the first tick after the reset samples. -/
def execRawLevelChange (l : LineId) (v : Level) (s : State) : Host.Outcome State Fault Refusal :=
  .next (if s.heldInReset then s.modLine l fun _ => LineCell.reset v
    else s.modLine l (LineCell.sample s.tick v))

end Sys2Proof.Machine
end

