-- ==== Sys2Proof/Machine/WatchRequests.lean ====
section
/-! DEFINITION. WATCH.SET, WATCH.ACK, WATCH.DROP and WATCH.READ (06). -/

namespace Sys2Proof.Machine

/-- The kind of a WATCH.SET with the parameters that the kind uses, each in its range; the others are not looked at (R121,
R179). -/
def watchKindOf (p : List Byte) : Option WatchKind :=
  match field1 p 1 with
  | 1 => (selectOf (field1 p 2)).map WatchKind.edge
  | 2 => (levelOf (field1 p 3)).map WatchKind.level
  | 3 =>
    match selectOf (field1 p 2) with
    | some e => if 1 ≤ field2 p 4 then some (.count e (field2 p 4)) else none
    | none => none
  | _ => none

/-- The watch that a session has on a line (R119). -/
def State.watchOn (s : State) (k : SessionId) (l : LineId) : Option WatchId :=
  allWatches.find? fun w =>
    match s.watches[w] with
    | some r => decide (r.session = k) && decide (r.line = l)
    | none => false

/-- A new watch: ARMED, no ticks, all counts 0 (R122). -/
def Watch.fresh (k : SessionId) (l : LineId) (kind : WatchKind) : Watch :=
  { session := k, line := l, kind := kind, state := .armed, first := none, last := none, coalesce := 0, running := 0,
    overrun := 0 }

/-- Whether the watch is a LEVEL watch for this level (R123, R134). -/
def WatchKind.holdsAt (kind : WatchKind) (v : Level) : Bool :=
  match kind with
  | .level w => decide (w = v)
  | .edge _ | .count _ _ => false

/-- An ARMED watch is put in its place; a LEVEL watch whose level is present fires at once (R123, R134). A watch that fired so
stays PENDING when an edge away from its level comes later at the tick, as the second case of R124 says; that rule's last
paragraph says otherwise (log 30). -/
def State.armWatch (s : State) (w : WatchId) (r : Watch) : State :=
  if r.kind.holdsAt s.lines[r.line].sensed then
    (s.setWatch w (some (r.fired s.tick))).sendHit w r s.lines[r.line].sensed
  else s.setWatch w (some r)

/-- The lowest free watch number, when fewer than 32 watches exist and the session has fewer than 16 (R119, R121, R122). -/
def State.freeWatch (s : State) (k : SessionId) : Option WatchId :=
  if s.watchCount k < Config.sessionWatches then allWatches.find? fun w => s.watches[w].isNone else none

/-- WATCH.SET (R121 to R123). -/
def serveWatchSet (k : SessionId) (p : List Byte) (s : State) : State × Answer :=
  match nameOf 24 (field1 p 0), watchKindOf p with
  | some l, some kind =>
    match s.watchOn k l with
    | some w => (s, { status := .duplicate, data := .watchExists w })
    | none =>
      match s.freeWatch k with
      | none => (s, .plain .watchFull)
      | some w => (s.armWatch w (Watch.fresh k l kind), { status := .ok, data := .watchMade w s.lines[l].sensed })
  | _, _ => (s, .plain .badField)

/-- The watch that a request of its session names: BAD_FIELD out of range, NOT_FOUND for no watch or another session's
(R133, R137). -/
def State.ownWatch (s : State) (k : SessionId) (p : List Byte) : Except Answer (WatchId × Watch) :=
  match nameOf 32 (field1 p 0) with
  | none => .error (.plain .badField)
  | some w =>
    match s.watches[w] with
    | none => .error (.plain .notFound)
    | some r => if r.session = k then .ok (w, r) else .error (.plain .notFound)

/-- The record after an acknowledgement: ARMED, no ticks, coalesce and overrun counts 0, the running count kept (R133). -/
def Watch.acknowledged (r : Watch) : Watch :=
  { r with state := .armed, first := none, last := none, coalesce := 0, overrun := 0 }

/-- The state of a watch after an acknowledgement (R133, R134). -/
def Watch.stateAfterAck (r : Watch) (sensed : Level) : WatchState :=
  if r.kind.holdsAt sensed then .pending else .armed

/-- WATCH.ACK (R133, R134). -/
def serveWatchAck (k : SessionId) (p : List Byte) (s : State) : State × Answer :=
  match s.ownWatch k p with
  | .error a => (s, a)
  | .ok (w, r) =>
    match r.state with
    | .armed => (s, .plain .state)
    | .pending =>
      (s.armWatch w r.acknowledged,
       { status := .ok, data := .acknowledged r s.lines[r.line].sensed (r.stateAfterAck s.lines[r.line].sensed) })

/-- WATCH.DROP (R137). -/
def serveWatchDrop (k : SessionId) (p : List Byte) (s : State) : State × Answer :=
  match s.ownWatch k p with
  | .error a => (s, a)
  | .ok (w, r) => (s.setWatch w none, { status := .ok, data := .dropped r })

/-- WATCH.READ (R136). -/
def serveWatchRead (_k : SessionId) (p : List Byte) (s : State) : State × Answer :=
  match nameOf 32 (field1 p 0) with
  | none => (s, .plain .badField)
  | some w =>
    match s.watches[w] with
    | none => (s, .plain .notFound)
    | some r => (s, { status := .ok, data := .watchRecord w r s.lines[r.line].sensed })

/-- WATCH.SET. -/
def execWatchSet (p : Port) (s : State) : Host.Outcome State Fault Refusal :=
  .next (s.takeSessioned .watchSet p serveWatchSet)

/-- WATCH.ACK. -/
def execWatchAck (p : Port) (s : State) : Host.Outcome State Fault Refusal :=
  .next (s.takeSessioned .watchAck p serveWatchAck)

/-- WATCH.DROP. -/
def execWatchDrop (p : Port) (s : State) : Host.Outcome State Fault Refusal :=
  .next (s.takeSessioned .watchDrop p serveWatchDrop)

/-- WATCH.READ. -/
def execWatchRead (p : Port) (s : State) : Host.Outcome State Fault Refusal :=
  .next (s.takeSessioned .watchRead p serveWatchRead)

end Sys2Proof.Machine
end

