-- ==== Sys2Proof/Machine/Dispatch.lean ====
section
/-! DEFINITION. What each command does: one arm per row of spec/opcode_table.json. -/

namespace Sys2Proof.Machine

def exec (i : Instr) (s : State) : Host.Outcome State Fault Refusal :=
  match i with
  | .openSession p => Sys2Proof.Machine.execOpenSession p s
  | .closeSession p => Sys2Proof.Machine.execCloseSession p s
  | .ping p => Sys2Proof.Machine.execPing p s
  | .status p => Sys2Proof.Machine.execStatus p s
  | .info p => Sys2Proof.Machine.execInfo p s
  | .time p => Sys2Proof.Machine.execTime p s
  | .snapshot p => Sys2Proof.Machine.execSnapshot p s
  | .portstat p => Sys2Proof.Machine.execPortstat p s
  | .restart p => Sys2Proof.Machine.execRestart p s
  | .claim p => Sys2Proof.Machine.execClaim p s
  | .release p => Sys2Proof.Machine.execRelease p s
  | .withdraw p => Sys2Proof.Machine.execWithdraw p s
  | .setup p => Sys2Proof.Machine.execSetup p s
  | .drive p => Sys2Proof.Machine.execDrive p s
  | .read p => Sys2Proof.Machine.execRead p s
  | .clear p => Sys2Proof.Machine.execClear p s
  | .atEdge p => Sys2Proof.Machine.execAtEdge p s
  | .cancel p => Sys2Proof.Machine.execCancel p s
  | .pendingList p => Sys2Proof.Machine.execPendingList p s
  | .seqNew p => Sys2Proof.Machine.execSeqNew p s
  | .seqAdd p => Sys2Proof.Machine.execSeqAdd p s
  | .seqSeal p => Sys2Proof.Machine.execSeqSeal p s
  | .seqStart p => Sys2Proof.Machine.execSeqStart p s
  | .seqStop p => Sys2Proof.Machine.execSeqStop p s
  | .seqQuery p => Sys2Proof.Machine.execSeqQuery p s
  | .seqFree p => Sys2Proof.Machine.execSeqFree p s
  | .watchSet p => Sys2Proof.Machine.execWatchSet p s
  | .watchAck p => Sys2Proof.Machine.execWatchAck p s
  | .watchDrop p => Sys2Proof.Machine.execWatchDrop p s
  | .watchRead p => Sys2Proof.Machine.execWatchRead p s
  | .cadSet p => Sys2Proof.Machine.execCadSet p s
  | .cadRun p => Sys2Proof.Machine.execCadRun p s
  | .cadHold p => Sys2Proof.Machine.execCadHold p s
  | .cadFree p => Sys2Proof.Machine.execCadFree p s
  | .cadRead p => Sys2Proof.Machine.execCadRead p s
  | .frameReceived p bytes => Sys2Proof.Machine.execFrameReceived p bytes s
  | .gapTimeout p => Sys2Proof.Machine.execGapTimeout p s
  | .breakLine p => Sys2Proof.Machine.execBreakLine p s
  | .frameSent p baud => Sys2Proof.Machine.execFrameSent p baud s
  | .powerUp baud => Sys2Proof.Machine.execPowerUp baud s
  | .nrstAssert => Sys2Proof.Machine.execNrstAssert s
  | .nrstRelease baud => Sys2Proof.Machine.execNrstRelease baud s
  | .sensedEdge l => Sys2Proof.Machine.execSensedEdge l s
  | .contentionFault l => Sys2Proof.Machine.execContentionFault l s
  | .assistBurstEnd l => Sys2Proof.Machine.execAssistBurstEnd l s
  | .oneshotDue => Sys2Proof.Machine.execOneshotDue s
  | .stepDue => Sys2Proof.Machine.execStepDue s
  | .deadlineDue => Sys2Proof.Machine.execDeadlineDue s
  | .claimExpiry l k => Sys2Proof.Machine.execClaimExpiry l k s
  | .keepaliveLapse k => Sys2Proof.Machine.execKeepaliveLapse k s
  | .cadStart g => Sys2Proof.Machine.execCadStart g s
  | .cadLowWrite g => Sys2Proof.Machine.execCadLowWrite g s
  | .cadCycleEnd g => Sys2Proof.Machine.execCadCycleEnd g s
  | .rawLevelChange l v => Sys2Proof.Machine.execRawLevelChange l v s
  | .rxIdle p => Sys2Proof.Machine.execRxIdle p s

end Sys2Proof.Machine
end

