-- ==== Sys2Proof/Machine/Idle.lean ====
section
/-! DEFINITION. What the block does when no command waits: it takes what is due at this tick, one event a step, and when nothing
is due the Time Base counts one tick (R43; log 1, log 2). -/

namespace Sys2Proof.Machine

/-- The arbiters choose at the end of the tick, among all frames that are then pending (R168, log 7). -/
def State.endTick (s : State) : State :=
  (s.arbitrate true .a).arbitrate true .b

/-- The tick ends, and the Time Base's count increases by 1 (R43). What follows the all-ones count is a free value (log 18). -/
def State.advance (s : State) : State :=
  { s.endTick with
    sessions := s.endTick.sessions.map fun r => { r with joinedNow := 0 }
    now := if s.now = BitVec.allOnes 64 then Config.countAfterLast s.freeIndex else s.now + 1
    freeIndex := s.freeIndex + 1 }

/-! Where several events of one kind are due at one tick, in different lines, generators or sessions, no rule orders them, and so none
orders the notices that they make for one session. The model takes them in ascending number (log 2). -/

/-- The sensed edge, burst end or contention fault that is due, of the lowest-numbered line (the order is log 2's). -/
def State.edgeEvent (s : State) : Option Instr :=
  (allLines.find? fun l => s.lines[l].edgeDue s.tick).map Instr.sensedEdge

def State.burstEvent (s : State) : Option Instr :=
  (allLines.find? fun l => s.lines[l].burstDue s.tick).map Instr.assistBurstEnd

def State.faultEvent (s : State) : Option Instr :=
  (allLines.find? fun l => s.lines[l].faultDue s.tick).map Instr.contentionFault

/-- The own tick that is due, of the lowest-numbered generator (R108 to R110). That two generators due at one tick are taken in
ascending number, and so the CAD.END DONE notices of one session, is the model's choice: no rule orders them (log 2). -/
def State.cadenceEvent (s : State) : Option Instr :=
  allGenerators.findSome? fun g =>
    if (s.generators[g].startDue s.tick).isSome then some (Instr.cadStart g)
    else if (s.generators[g].lowDue s.tick).isSome then some (Instr.cadLowWrite g)
    else if (s.generators[g].endDue s.tick).isSome then some (Instr.cadCycleEnd g)
    else none

/-- The Timeline's first entry, when it is due (R52). -/
def State.timelineEvent (s : State) : Option Instr :=
  s.dueEntry.map fun e =>
    match e.kind with
    | .oneshot _ _ => Instr.oneshotDue
    | .step _ _ _ => Instr.stepDue
    | .deadline _ _ _ => Instr.deadlineDue

/-- The claim place that has expired (R32), of the lowest-numbered line and then session (the order is log 2's). -/
def State.expiryEvent (s : State) : Option Instr :=
  allLines.findSome? fun l =>
    (allSessions.find? fun k => (s.expiredPlace l k).isSome).map (Instr.claimExpiry l)

/-- The session that lapses (R143), of the lowest number (the order is log 2's). -/
def State.lapseEvent (s : State) : Option Instr :=
  (allSessions.find? fun k => s.sessions[k].lapseDue s.tick).map Instr.keepaliveLapse

/-- A gap limit that is reached (R163). -/
def State.gapEvent (s : State) (p : Port) : Option Instr :=
  if (s.port p).receiver.gapDue s.tick then some (.gapTimeout p) else none

/-- The level of the BAUD pin at a full reset that no command brings (log 12). -/
def State.baudPin (s : State) : Level :=
  if Config.baudPinHigh s.freeIndex then .high else .low

/-- A transmission whose last byte leaves (R160, R168). -/
def State.sentEvent (s : State) (p : Port) : Option Instr :=
  match (s.port p).transmitter with
  | none => none
  | some x => if x.ends s.baud ≤ s.tick then some (.frameSent p s.baudPin) else none

/-- A request that the port takes (R165). -/
def State.requestEvent (s : State) (p : Port) : Option Instr :=
  match s.takeable p with
  | none => none
  | some r => (requestTypeOf r.type).map fun t => t.command p

/-- What is due at this tick, first in this order (log 2). -/
def State.dueEvent (s : State) : Option Instr :=
  s.edgeEvent.or <| s.burstEvent.or <| s.cadenceEvent.or <| s.timelineEvent.or <| s.faultEvent.or <|
    s.expiryEvent.or <| s.lapseEvent.or <| (s.gapEvent .a).or <| (s.gapEvent .b).or <|
    (s.sentEvent .a).or <| (s.sentEvent .b).or <| (s.requestEvent .a).or <| s.requestEvent .b

/-- Whether the request that a port takes next is of no known type (R166 check 1). -/
def State.unknownRequest (s : State) (p : Port) : Bool :=
  match s.takeable p with
  | none => false
  | some r => decide (requestTypeOf r.type = none)

/-- A step with no command waiting: an event that is due, else a request of no known type answered BAD_TYPE (log 5), else a
tick. Held in reset, nothing happens (R175). -/
def State.idle (s : State) : Host.Outcome State Fault Refusal :=
  if s.heldInReset then .next s
  else
    match s.dueEvent with
    | some c => exec c s
    | none =>
      if s.unknownRequest .a then .next (s.takeUnknown .a)
      else if s.unknownRequest .b then .next (s.takeUnknown .b)
      else .next s.advance

end Sys2Proof.Machine
end

