-- ==== Sys2Proof/Safety.lean ====
section
/-! DEFINITION. The vocabulary of the statements: the parts of the state and what "changes only these parts" means, what it means
that a port replies, and the invariants that every step keeps. -/

namespace Sys2Proof.Machine

/-! ## Parts of the state and frames -/

/-- The parts into which the frames of the statements divide the state. A session's record is divided into what says who it
is (`sessions`), its numbering and which notices are of this tick (`numbers`) and its waiting notices (`queues`), a port into its
receiver with its counters (`reception`), its pending port frames (`frames`) and its inbound slots with its transmitter (`sending`). -/
inductive Part
  | pending
  | clock
  | reset
  | lines
  | leases
  | timeline
  | slots
  | pool
  | watches
  | generators
  | sessions
  | numbers
  | queues
  | reception
  | frames
  | sending
  deriving DecidableEq, Repr

/-- The part is in `t` as it is in `s`. -/
def Part.same (s t : State) : Part → Prop
  | .pending => t.pending = s.pending
  | .clock => t.now = s.now ∧ t.freeIndex = s.freeIndex
  | .reset => t.heldInReset = s.heldInReset ∧ t.baud = s.baud
  | .lines => t.lines = s.lines
  | .leases => t.leases = s.leases
  | .timeline =>
    t.timeline = s.timeline ∧ t.handleCounter = s.handleCounter ∧ t.admissionCounter = s.admissionCounter
  | .slots => t.slots = s.slots
  | .pool => t.poolFree = s.poolFree
  | .watches => t.watches = s.watches
  | .generators => t.generators = s.generators
  | .sessions => ∀ k : SessionId,
    t.sessions[k].state = s.sessions[k].state ∧ t.sessions[k].port = s.sessions[k].port ∧
      t.sessions[k].keepalive = s.sessions[k].keepalive ∧ t.sessions[k].lastHeard = s.sessions[k].lastHeard ∧
      t.sessions[k].cause = s.sessions[k].cause
  | .numbers => ∀ k : SessionId,
    t.sessions[k].nextNumber = s.sessions[k].nextNumber ∧ t.sessions[k].lost = s.sessions[k].lost ∧
      t.sessions[k].joinedNow = s.sessions[k].joinedNow
  | .queues => ∀ k : SessionId, t.sessions[k].queue = s.sessions[k].queue
  | .reception => ∀ p : Port,
    (t.port p).receiver = (s.port p).receiver ∧ (t.port p).awaitsIdle = (s.port p).awaitsIdle ∧
      (t.port p).crc = (s.port p).crc ∧ (t.port p).gap = (s.port p).gap ∧ (t.port p).length = (s.port p).length ∧
      (t.port p).overrun = (s.port p).overrun ∧ (t.port p).brk = (s.port p).brk ∧ (t.port p).stopped = (s.port p).stopped
  | .frames => ∀ p : Port, (t.port p).frames = (s.port p).frames
  | .sending => ∀ p : Port,
    (t.port p).inbound = (s.port p).inbound ∧
      (t.port p).transmitter = (s.port p).transmitter ∧ (t.port p).roundRobin = (s.port p).roundRobin

/-- From `s` to `t` nothing changes outside these parts. -/
def ChangesOnly (parts : List Part) (s t : State) : Prop :=
  ∀ part : Part, part ∉ parts → part.same s t

/-! ## What the arbiters may begin -/

/-- The port begins no frame: it is as before, and so are the notices of its sessions. -/
def State.BeginsNothing (s t : State) (p : Port) : Prop :=
  t.port p = s.port p ∧ ∀ k : SessionId, s.sessions[k].port = some p → t.sessions[k].queue = s.sessions[k].queue

/-- The port, whose transmitter was idle, begins at this tick exactly one frame that was pending: the oldest port frame, the reply
of its ANSWERED slot, or the head notice of a session bound to it. It is as before otherwise, and so are the other notices of its
sessions (R168, R169). -/
def State.BeginsOne (s t : State) (p : Port) : Prop :=
  (s.port p).transmitter = none ∧
    ((∃ (f : PortFrame) (rest : List PortFrame), (s.port p).frames = f :: rest ∧
        t.port p = { s.port p with frames := rest, transmitter := some { frame := .port f, begun := s.tick } } ∧
        ∀ k : SessionId, s.sessions[k].port = some p → t.sessions[k].queue = s.sessions[k].queue) ∨
      (∃ r : Reply, answeredReply (s.port p).inbound = some r ∧
        t.port p = { s.port p with inbound := markSending (s.port p).inbound,
                                   transmitter := some { frame := .reply r, begun := s.tick } } ∧
        ∀ k : SessionId, s.sessions[k].port = some p → t.sessions[k].queue = s.sessions[k].queue) ∨
      ∃ (k : SessionId) (n : Notice) (rest : List Notice), s.sessions[k].port = some p ∧ s.sessions[k].queue = n :: rest ∧
        t.port p = { s.port p with transmitter := some { frame := .notice k n, begun := s.tick }, roundRobin := k.val + 1 } ∧
        t.sessions[k].queue = rest ∧
        ∀ j : SessionId, j ≠ k → s.sessions[j].port = some p → t.sessions[j].queue = s.sessions[j].queue)

/-- From `s` to `t` nothing happens but what the arbiters begin: each port begins nothing, or one frame that was pending. Which
frame, and when, the statements about the arbiter say. -/
def Settled (s t : State) : Prop :=
  ChangesOnly [.queues, .frames, .sending] s t ∧ (∀ p : Port, s.BeginsNothing t p ∨ s.BeginsOne t p) ∧
    ∀ k : SessionId, s.sessions[k].port = none → t.sessions[k].queue = s.sessions[k].queue

/-! ## Notices -/

/-- What these notices, made in this order, each for its session, do to the record of session `k` (R154, R155, R157). -/
def received (k : SessionId) (notes : List (SessionId × NoticeBody)) (r : Session) : Session :=
  notes.foldl (fun r n => if n.1 = k then r.receive n.2 else r) r

/-- From `s` to `t` these notices are made, in this order, and no others: every queue and numbering is as they leave it. -/
def Made (s t : State) (notes : List (SessionId × NoticeBody)) : Prop :=
  ∀ k : SessionId,
    let r := received k notes s.sessions[k]
    t.sessions[k].queue = r.queue ∧ t.sessions[k].nextNumber = r.nextNumber ∧ t.sessions[k].lost = r.lost ∧
      t.sessions[k].joinedNow = r.joinedNow

/-- From `s` to `t` an event changes these parts and makes these notices, in this order, and besides there is only what the
arbiters begin. -/
def Makes (s t : State) (parts : List Part) (notes : List (SessionId × NoticeBody)) : Prop :=
  ∃ u : State, ChangesOnly (parts ++ [.numbers, .queues]) s u ∧ Made s u notes ∧ Settled u t

/-! ## Replies -/

/-- The port takes next a request of this type with this payload, of this OPEN session that is bound to it (R140, R165,
R166). -/
def State.Takes (s : State) (p : Port) (type : RequestType) (k : SessionId) (r : Request) (payload : List Byte) : Prop :=
  s.takeable p = some r ∧ r.type = type.code ∧ r.payload = payload ∧ s.speaker p r = some k

/-- The reply to the request is made (R167): it waits in its slot, which is ANSWERED, or the port has begun it at this
tick. -/
def State.Replied (t : State) (p : Port) (r : Request) (a : Answer) : Prop :=
  answeredReply (t.port p).inbound = some (a.reply r t.tick) ∨
    (t.port p).transmitter = some { frame := .reply (a.reply r t.tick), begun := t.tick }

/-- The request is answered: its slot, the oldest WAITING one, becomes ANSWERED with this reply, and besides there is only what
the arbiters begin. -/
def State.OnlyReplies (s t : State) (p : Port) (r : Request) (a : Answer) : Prop :=
  Settled (s.answer p r a) t

/-- The request changes these parts, makes these notices, in this order, and is answered: its slot, the oldest WAITING one, becomes
ANSWERED with this reply, and besides there is only what the arbiters begin. -/
def State.Answers (s t : State) (p : Port) (r : Request) (a : Answer) (parts : List Part)
    (notes : List (SessionId × NoticeBody)) : Prop :=
  ∃ u : State, ChangesOnly (parts ++ [.numbers, .queues]) s u ∧ Made s u notes ∧ Settled (u.answer p r a) t

/-! ## Records -/

/-- The generator bound to the line, if any, is STOPPED and keeps the rest of its record, and no other generator changes
(R112, R113). -/
def GeneratorStopped (s t : State) (l : LineId) : Prop :=
  ∀ g : GenId, t.generators[g] = (if s.generators[g].state ≠ .free ∧ s.generators[g].line = some l
    then { s.generators[g] with state := .stopped } else s.generators[g])

/-- The CAD.END notices of a report about the line: for a generator bound to it that is PENDING or RUNNING, one to its owner with
this cause (R112 to R114, R118). -/
def State.cadEnds (s : State) (l : LineId) (cause : CadEndCause) : List (SessionId × NoticeBody) :=
  allGenerators.filterMap fun g =>
    if s.generators[g].active = true ∧ s.generators[g].line = some l then
      s.generators[g].owner.map fun k => (k, .cadEnd g (some l) cause s.generators[g].completed s.tick)
    else none

/-- Only this line's cell changes, and it becomes `c`. -/
def LineBecomes (s t : State) (l : LineId) (c : LineCell) : Prop :=
  t.lines[l] = c ∧ ∀ m : LineId, m ≠ l → t.lines[m] = s.lines[m]

/-- Only this slot changes, and it becomes `r`. -/
def SlotBecomes (s t : State) (i : SlotId) (r : Slot) : Prop :=
  t.slots[i] = r ∧ ∀ j : SlotId, j ≠ i → t.slots[j] = s.slots[j]

/-- Only this generator changes, and it becomes `r`. -/
def GeneratorBecomes (s t : State) (g : GenId) (r : Generator) : Prop :=
  t.generators[g] = r ∧ ∀ h : GenId, h ≠ g → t.generators[h] = s.generators[h]

/-- Only this watch changes, and it becomes `r`. -/
def WatchBecomes (s t : State) (w : WatchId) (r : Option Watch) : Prop :=
  t.watches[w] = r ∧ ∀ v : WatchId, v ≠ w → t.watches[v] = s.watches[v]

/-- Only this line's lease record and claim queue change, and they become `c`. -/
def LeaseBecomes (s t : State) (l : LineId) (c : LeaseCell) : Prop :=
  t.leases[l] = c ∧ ∀ m : LineId, m ≠ l → t.leases[m] = s.leases[m]

/-- A generator that is not FREE is bound to the line (R104). -/
def State.bound (s : State) (l : LineId) : Prop :=
  ∃ g : GenId, s.generators[g].state ≠ .free ∧ s.generators[g].line = some l

/-- A sequence that is ARMED, RUNNING or AWAITING and has a SET step on the line in its body or its unwind list (R37). -/
def Slot.drives (r : Slot) (l : LineId) : Prop :=
  (r.state = .armed ∨ r.state = .running ∨ r.state = .awaiting) ∧
    ∃ x ∈ r.body ++ r.unwind, ∃ v : Level, x.kind = .set l v

/-- The line is in use by its holder (R37). -/
def State.usedBy (s : State) (k : SessionId) (l : LineId) : Prop :=
  (∃ e ∈ s.timeline, e.owner = k ∧ ∃ v : Level, e.kind = .oneshot l v) ∨ s.bound l ∨
    ∃ i : SlotId, s.slots[i].owner = some k ∧ s.slots[i].drives l

/-- The cell of the line when its lease has ended: the parting state is written to it (R34, R35). -/
def State.parted (s : State) (l : LineId) : LineCell :=
  match s.leases[l].lease with
  | some lease => s.lines[l].applyParting s.tick lease.parting
  | none => s.lines[l]

/-- The lease record and the claim queue of the line when its lease has ended: the head of the queue, if any, is the new holder
with the parting state it asked for (R33, R36). -/
def State.passedOn (s : State) (l : LineId) : LeaseCell :=
  match s.leases[l].queue with
  | q :: rest => { lease := some { holder := q.session, parting := q.parting, granted := s.tick }, queue := rest }
  | [] => { lease := none, queue := [] }

/-- The GRANT notice of the end of the line's lease, with the line as the parting state left it (R36). -/
def State.grants (s : State) (l : LineId) : List (SessionId × NoticeBody) :=
  match s.leases[l].queue with
  | q :: _ => [(q.session, .grant l s.tick (s.parted l).faulted (s.parted l).mode (s.parted l).commanded)]
  | [] => []

/-- The lease of the line has ended (R33): no other line and no other lease changes. -/
def State.LeaseEnded (s t : State) (l : LineId) : Prop :=
  LineBecomes s t l (s.parted l) ∧ LeaseBecomes s t l (s.passedOn l)

/-! ## Runs of sequences -/

/-- The entries of the Timeline other than the one with this handle stay, and so does the handle counter. -/
def OthersStay (s t : State) (h : Nat) : Prop :=
  (∀ f : Entry, f.handle ≠ h → (f ∈ t.timeline ↔ f ∈ s.timeline)) ∧ t.handleCounter = s.handleCounter

/-- The run in slot `i` goes on with an entry of this kind, due at `due`: the slot's entry keeps its handle and owner and takes the
next admission number (R65, R81). -/
def State.MovesTo (s t : State) (i : SlotId) (r : Slot) (due : Tick) (kind : EntryKind) : Prop :=
  SlotBecomes s t i r ∧ OthersStay s t s.slots[i].handle ∧
    ∀ e : Entry, s.findEntry s.slots[i].handle = some e →
      t.findEntry s.slots[i].handle =
        some { handle := e.handle, owner := e.owner, due := due, admission := s.nextAdmission, kind := kind } ∧
      t.admissionCounter = s.nextAdmission

/-- The run in slot `i` has ended: the slot becomes `r` and its entry is removed (R86, R88, R92, R94). -/
def State.RunEnds (s t : State) (i : SlotId) (r : Slot) : Prop :=
  SlotBecomes s t i r ∧ OthersStay s t s.slots[i].handle ∧ t.findEntry s.slots[i].handle = none ∧
    t.admissionCounter = s.admissionCounter

/-- A notice to the owner of slot `i`. -/
def State.toOwner (s : State) (i : SlotId) (body : NoticeBody) : List (SessionId × NoticeBody) :=
  match s.slots[i].owner with
  | some k => [(k, body)]
  | none => []

/-- Body step `n` of the run in slot `i` has completed at this tick (R81, R86). -/
def State.BodyGoesOn (s t : State) (i : SlotId) (n : Nat) : Prop :=
  (∀ x : Step, s.slots[i].body[n + 1]? = some x →
    s.MovesTo t i { s.slots[i] with state := .running, cursor := some (.body, n + 1) } (s.tick + x.offset)
      (.step i .body (n + 1))) ∧
  (s.slots[i].body[n + 1]? = none →
    s.RunEnds t i { s.slots[i] with state := .done, outcome := .done, reason := .none, failed := none, skipped := 0,
                                    cursor := none, handle := 0 })

/-- The SEQ.END notice of a body step that completes, when it is the last (R86, R99). -/
def State.bodyEnds (s : State) (i : SlotId) (n : Nat) : List (SessionId × NoticeBody) :=
  match s.slots[i].body[n + 1]? with
  | some _ => []
  | none => s.toOwner i (.seqEnd i .done .none none 0 s.tick)

/-- The run in slot `i` has left its body at step `n`, by a fault or a stop (R88, R90, R94). -/
def State.BodyIsLeft (s t : State) (i : SlotId) (reason : SeqReason) (n : Nat) : Prop :=
  (∀ (x : Step) (rest : List Step), s.slots[i].unwind = x :: rest →
    s.MovesTo t i { s.slots[i] with state := .unwinding, reason := reason, failed := some n, cursor := some (.unwind, 0) }
      (s.tick + x.offset) (.step i .unwind 0)) ∧
  (s.slots[i].unwind = [] →
    s.RunEnds t i { s.slots[i] with state := reason.endState, outcome := reason.endOutcome, reason := reason,
                                    failed := some n, cursor := none, handle := 0 })

/-- The SEQ.END notice of a run that leaves its body, when it has no unwind list (R88, R94, R99). -/
def State.leavingEnds (s : State) (i : SlotId) (reason : SeqReason) (n : Nat) : List (SessionId × NoticeBody) :=
  match s.slots[i].unwind with
  | _ :: _ => []
  | [] => s.toOwner i (.seqEnd i reason.endOutcome reason (some n) s.slots[i].skipped s.tick)

/-- Unwind step `n` of the run in slot `i` has completed at this tick, with `skipped` steps skipped so far (R81, R91, R92). -/
def State.UnwindGoesOn (s t : State) (i : SlotId) (n skipped : Nat) : Prop :=
  (∀ x : Step, s.slots[i].unwind[n + 1]? = some x →
    s.MovesTo t i { s.slots[i] with state := .unwinding, skipped := skipped, cursor := some (.unwind, n + 1) }
      (s.tick + x.offset) (.step i .unwind (n + 1))) ∧
  (s.slots[i].unwind[n + 1]? = none →
    s.RunEnds t i { s.slots[i] with state := s.slots[i].reason.endState, outcome := s.slots[i].reason.endOutcome,
                                    skipped := skipped, cursor := none, handle := 0 })

/-- The SEQ.END notice of an unwind step that completes, when it is the last (R92, R99). -/
def State.unwindEnds (s : State) (i : SlotId) (n skipped : Nat) : List (SessionId × NoticeBody) :=
  match s.slots[i].unwind[n + 1]? with
  | some _ => []
  | none => s.toOwner i (.seqEnd i s.slots[i].reason.endOutcome s.slots[i].reason s.slots[i].failed skipped s.tick)

/-- The index of the body step that the cursor of a slot names. -/
def Slot.at (r : Slot) : Nat :=
  (r.cursor.map Prod.snd).getD 0

/-- The runs of the slots `stopped` are stopped for this reason (R94, R96, R97), and the entries `gone` are removed: a stopped
sequence with an unwind list is UNWINDING, its entry at unwind step 0, due its offset from now; one without is CANCELLED and its
entry removed. Every other slot and entry stays, and so does the handle counter. -/
def State.StopsRuns (s t : State) (stopped : SlotId → Prop) (gone : Entry → Prop) (reason : SeqReason) : Prop :=
  (∀ i : SlotId, ¬stopped i → t.slots[i] = s.slots[i]) ∧
  (∀ i : SlotId, stopped i →
    (s.slots[i].unwind ≠ [] → t.slots[i] = { s.slots[i] with
      state := .unwinding, reason := reason, failed := some s.slots[i].at, cursor := some (.unwind, 0) }) ∧
    (s.slots[i].unwind = [] → t.slots[i] = { s.slots[i] with
      state := .cancelled, outcome := .cancelled, reason := reason, failed := some s.slots[i].at, cursor := none,
      handle := 0 })) ∧
  (∀ e : Entry, (∀ i : SlotId, stopped i → s.slots[i].handle ≠ e.handle) →
    (e ∈ t.timeline ↔ e ∈ s.timeline ∧ ¬gone e)) ∧
  (∀ i : SlotId, stopped i →
    (s.slots[i].unwind = [] → ∀ e ∈ t.timeline, e.handle ≠ s.slots[i].handle) ∧
    ∀ (x : Step) (rest : List Step), s.slots[i].unwind = x :: rest → ∃ (e : Entry) (admission : BitVec 64),
      e ∈ s.timeline ∧ e.handle = s.slots[i].handle ∧
      ∀ f : Entry, f.handle = e.handle → (f ∈ t.timeline ↔ f = { e with
        due := s.tick + x.offset, admission := admission, kind := .step i .unwind 0 })) ∧
  t.handleCounter = s.handleCounter

/-! ## Closing -/

/-- Some sequence of the session is ARMED, RUNNING, AWAITING or UNWINDING (R151). -/
def State.running (s : State) (k : SessionId) : Prop :=
  ∃ i : SlotId, s.slots[i].owner = some k ∧ s.slots[i].inRun = true

/-- From `s` to `t` the session enters CLOSING with this cause: steps 1 to 6 of R148. The things of other sessions stay. -/
def State.Enters (s t : State) (k : SessionId) (cause : CloseCause) : Prop :=
  t.sessions[k] = { s.sessions[k] with state := .closing, cause := some cause, queue := [], joinedNow := 0 } ∧
  (∀ j : SessionId, j ≠ k → t.sessions[j] = s.sessions[j]) ∧
  (∀ l : LineId, t.leases[l] = { lease := s.leases[l].lease,
                                 queue := s.leases[l].queue.filter fun q => decide (q.session ≠ k) }) ∧
  (∀ w : WatchId, t.watches[w] = s.watches[w].filter fun x => decide (x.session ≠ k)) ∧
  (∀ g : GenId, t.generators[g] = if s.generators[g].owner = some k then Generator.free else s.generators[g]) ∧
  s.StopsRuns t (fun i => s.slots[i].owner = some k ∧ s.slots[i].inBody = true)
    (fun e => e.isOneshot = true ∧ e.owner = k) .sessionEnd ∧
  ChangesOnly [.timeline, .leases, .slots, .watches, .generators, .sessions, .numbers, .queues] s t

/-- From `s` to `t` the closing of the session completes (R151, R152): its slots are EMPTY, its leases have ended, every parting
state before any grant (R40), its record is FREE, and ENDED joins the pending port frames of its port. -/
def State.Completes (s t : State) (p : Port) (k : SessionId) (cause : CloseCause) : Prop :=
  (∀ i : SlotId, t.slots[i] = if s.slots[i].owner = some k then Slot.free else s.slots[i]) ∧
  t.poolFree = s.poolFree +
    ((allSlots.filter fun i => decide (s.slots[i].owner = some k)).map fun i =>
      s.slots[i].body.length + s.slots[i].unwind.length).sum ∧
  (∀ l : LineId, t.lines[l] = if s.holder l = some k then s.parted l else s.lines[l]) ∧
  (∀ l : LineId, t.leases[l] = if s.holder l = some k then s.passedOn l else s.leases[l]) ∧
  t.sessions[k] = Session.free ∧
  (∀ j : SessionId, j ≠ k → t.sessions[j] =
    received j ((allLines.filter fun l => decide (s.holder l = some k)).flatMap s.grants) s.sessions[j]) ∧
  t.port p = { s.port p with frames := (s.port p).frames ++ [.ended k cause] } ∧
  (∀ q : Port, q ≠ p → t.port q = s.port q) ∧
  ChangesOnly [.lines, .leases, .slots, .pool, .sessions, .numbers, .queues, .frames] s t

/-- Step 7 of R148 for a CLOSING session: its closing completes when none of its sequences runs. -/
def State.Checks (s t : State) (p : Port) (k : SessionId) (cause : CloseCause) : Prop :=
  (s.running k → t = s) ∧ (¬s.running k → s.Completes t p k cause)

/-- These sessions enter CLOSING one after the other. -/
def State.EnterEach (s t : State) (cause : CloseCause) : List SessionId → Prop
  | [] => t = s
  | k :: ks => ∃ u : State, s.Enters u k cause ∧ u.EnterEach t cause ks

/-- Step 7 of R148 for these CLOSING sessions, one after the other. -/
def State.CheckEach (s t : State) (p : Port) (cause : CloseCause) : List SessionId → Prop
  | [] => t = s
  | k :: ks => ∃ u : State, s.Checks u p k cause ∧ u.CheckEach t p cause ks

/-! ## Watches and edges -/

/-- Whether a sensed edge to this level is a matching event of a watch of this kind (R120). -/
def WatchKind.matching (kind : WatchKind) (v : Level) : Bool :=
  match kind with
  | .edge e | .count e _ =>
    decide (e = .both) || (decide (e = .rise) && decide (v = .high)) || (decide (e = .fall) && decide (v = .low))
  | .level w => decide (w = v)

/-- Whether a matching event makes the watch fire (R125, R127, R129). -/
def Watch.fires (x : Watch) : Bool :=
  decide (x.state = .armed) &&
    match x.kind with
    | .count _ n => decide (x.running + 1 = n)
    | .edge _ | .level _ => true

/-- The WATCH.HIT notices of a sensed edge of the line to this level, in ascending watch number (R131; the order is log 8). -/
def State.hits (s : State) (l : LineId) (v : Level) : List (SessionId × NoticeBody) :=
  allWatches.filterMap fun w =>
    match s.watches[w] with
    | some x =>
      if x.line = l ∧ x.kind.matching v = true ∧ x.fires = true then
        some (x.session, .watchHit w l x.kind v s.tick)
      else none
    | none => none

/-- The SEQ.END notices of the sequences that a sensed edge of the line to this level brings to the end of their body, in slot order
(R84, R86; the order is log 8). -/
def State.awaitEnds (s : State) (l : LineId) (v : Level) : List (SessionId × NoticeBody) :=
  allSlots.flatMap fun i =>
    match s.slots[i].awaited with
    | some (n, l', v') => if l' = l ∧ v' = v then s.bodyEnds i n else []
    | none => []

/-- The code of a parting state on the wire (R181). -/
def Parting.code : Parting → Nat
  | .keep => 0
  | .float => 1
  | .low => 2
  | .high => 3

/-! ## Bytes -/

/-- Fields of these sizes and values, each least significant byte first (R178). -/
def fields (items : List (Nat × Nat)) : List Byte :=
  items.flatMap fun x => (List.range x.1).map fun i => BitVec.ofNat 8 (x.2 / 256 ^ i)

/-! ## Full reset -/

/-- The state after a full reset with this cause and this level of the BAUD pin (01 R1, R9; 02 R25; 03 R67; 04 R68, R69; 05 R103;
06 R119; 07 R139; 08 R160, R175, R176). -/
def State.FreshlyReset (s : State) (cause : ResetCause) (pin : Level) (t : State) : Prop :=
  let rate : Baud := if pin = .high then .b1000000 else .b115200
  t.heldInReset = false ∧ t.baud = rate ∧ t.now = 0 ∧
    (∀ l : LineId, t.lines[l].mode = .input ∧ t.lines[l].commanded = .high ∧ t.lines[l].pull = true ∧
      t.lines[l].filter = 4 ∧ t.lines[l].assist = 2 ∧ t.lines[l].settle = 20 ∧ t.lines[l].check = true ∧
      t.lines[l].fault = .none ∧ t.lines[l].phase = .idle ∧ t.lines[l].raw = s.lines[l].raw ∧
      t.lines[l].sensed = s.lines[l].raw) ∧
    (∀ l : LineId, t.leases[l].lease = none ∧ t.leases[l].queue = []) ∧
    t.timeline = [] ∧ t.handleCounter = 0 ∧ t.admissionCounter = 0 ∧
    (∀ i : SlotId, t.slots[i] =
      { state := .empty, owner := none, body := [], unwind := [], cursor := none, start := none, outcome := .none,
        reason := .none, failed := none, skipped := 0, handle := 0 }) ∧
    t.poolFree = 256 ∧
    (∀ g : GenId, t.generators[g] =
      { state := .free, owner := none, line := none, period := 0, high := 0, cycles := 0, rest := .keep, start := none,
        completed := 0 }) ∧
    (∀ w : WatchId, t.watches[w] = none) ∧
    (∀ k : SessionId, t.sessions[k] =
      { state := .free, port := none, keepalive := 0, lastHeard := none, queue := [], nextNumber := 0, lost := 0,
        cause := none, joinedNow := 0 }) ∧
    ∀ p : Port, t.port p =
      { receiver := .hunt, awaitsIdle := true, inbound := [], crc := 0, gap := 0, length := 0, overrun := 0, brk := 0,
        frames := [], transmitter := some { frame := .port (.startup cause rate), begun := 0 }, roundRobin := 0,
        stopped := false }

/-! ## Invariants -/

/-- A line cell is as 01 says it always is: a faulted line is in INPUT mode (R14), only L0 to L15 are in ASSIST mode (R17),
a burst is under way only in ASSIST mode with HIGH commanded (R5, R6), a filter change is in progress exactly while the raw and
the sensed level differ (R9), a mismatch window is open exactly while the check runs and the sensed level differs from the
driven level (R11, R12), and the times are in range (R17). -/
def LineCell.Ok (l : LineId) (c : LineCell) : Prop :=
  (c.faulted = true → c.mode = .input) ∧
  (c.mode = .assist → l.val < Config.assistLines) ∧
  (c.phase ≠ .idle → c.mode = .assist ∧ c.commanded = .high) ∧
  (c.change ≠ none ↔ c.raw ≠ c.sensed) ∧
  (c.window ≠ none ↔ c.check = true ∧ c.driven ≠ none ∧ c.driven ≠ some c.sensed) ∧
  c.filter ≤ 255 ∧ 1 ≤ c.assist ∧ c.assist ≤ 15 ∧ 1 ≤ c.settle ∧ c.settle ≤ 255

/-- Every line cell is in order. -/
def LinesOk (s : State) : Prop :=
  ∀ l : LineId, s.lines[l].Ok l

/-- Steps in the two lists of a slot. -/
def Slot.size (r : Slot) : Nat :=
  r.body.length + r.unwind.length

/-- Step records in the lists of all slots. -/
def State.stepsHeld (s : State) : Nat :=
  (allSlots.map fun i => s.slots[i].size).sum

/-- Every step record is in the pool or in one list of one slot (R69), and the lists are within their limits (R71). -/
def PoolOk (s : State) : Prop :=
  s.stepsHeld + s.poolFree = Config.poolSteps ∧
    ∀ i : SlotId, s.slots[i].body.length ≤ Config.bodySteps ∧ s.slots[i].unwind.length ≤ Config.unwindSteps

/-- No transmitter is idle while its port has a frame to send: a port frame, a reply, or a notice that a session bound to it had
before this tick (R168; a notice of this tick waits for the tick's end, log 7). -/
def WorkConserving (s : State) : Prop :=
  ∀ p : Port, (s.port p).transmitter = none →
    (s.port p).frames = [] ∧ answeredReply (s.port p).inbound = none ∧
      ∀ k : SessionId, s.sessions[k].port = some p → s.sessions[k].queue.length ≤ s.sessions[k].joinedNow

/-- Inbound slots that hold a reply not yet begun. -/
def answeredCount (slots : List InboundSlot) : Nat :=
  slots.countP fun x => match x with
    | .answered _ => true
    | .waiting _ | .sending => false

/-- A port holds at most four requests (R164), and at most one of them is ANSWERED (R165). -/
def InboundOk (s : State) : Prop :=
  ∀ p : Port, (s.port p).inbound.length ≤ Config.inboundPlaces ∧ answeredCount (s.port p).inbound ≤ 1

/-- A session's queue holds at most 32 notices (R153), those of this tick among them, its lost count stays in 16 bits (R155), one
that is not OPEN has none waiting (R149), a FREE record has the FREE values (R139), one that is not FREE has a port (R141), and
exactly a CLOSING one has a closing cause (R147). -/
def SessionsOk (s : State) : Prop :=
  ∀ k : SessionId, s.sessions[k].queue.length ≤ Config.noticePlaces ∧ s.sessions[k].lost ≤ Config.max16 ∧
    s.sessions[k].joinedNow ≤ s.sessions[k].queue.length ∧
    (s.sessions[k].state ≠ .opened → s.sessions[k].queue = []) ∧
    (s.sessions[k].state = .free → s.sessions[k] = Session.free) ∧
    (s.sessions[k].state ≠ .free → s.sessions[k].port ≠ none) ∧
    (s.sessions[k].state = .closing ↔ s.sessions[k].cause ≠ none)

/-- The Timeline holds at most 64 entries, none before an earlier one by due tick and, within a tick, by admission number (R48),
each with a handle of 1 to 65,535 that no other entry has (R50). -/
def TimelineOk (s : State) : Prop :=
  s.timeline.length ≤ Config.timelinePlaces ∧
    s.timeline.Pairwise (fun e f => f.before e = false) ∧
    (s.timeline.map Entry.handle).Nodup ∧
    (∀ e ∈ s.timeline, 1 ≤ e.handle ∧ e.handle ≤ Config.max16) ∧
    s.handleCounter ≤ Config.max16

/-- Entries of one due tick stand in the order of their admission numbers, no two the same, each already given (R51). -/
def AdmissionsOk (s : State) : Prop :=
  s.timeline.Pairwise (fun e f => e.due = f.due → e.admission < f.admission) ∧
    (s.timeline.map Entry.admission).Nodup ∧ ∀ e ∈ s.timeline, e.admission ≤ s.admissionCounter

/-- The kind of the Timeline entry that a slot in a run owns, by its state and cursor (R72). -/
def Slot.RunEntry (i : SlotId) (r : Slot) (kind : EntryKind) : Prop :=
  (r.state = .armed ∧ r.cursor = some (.body, 0) ∧ 0 < r.body.length ∧ kind = .step i .body 0) ∨
  (∃ n : Nat, n < r.body.length ∧ r.cursor = some (.body, n) ∧
    ((r.state = .running ∧ kind = .step i .body n) ∨ (r.state = .awaiting ∧ kind = .deadline i .body n))) ∨
  ∃ n : Nat, n < r.unwind.length ∧ r.cursor = some (.unwind, n) ∧ r.state = .unwinding ∧ kind = .step i .unwind n

/-- A sequence entry that names this slot. -/
def EntryKind.names (kind : EntryKind) (i : SlotId) : Prop :=
  (∃ (list : StepList) (n : Nat), kind = .step i list n) ∨ ∃ (list : StepList) (n : Nat), kind = .deadline i list n

/-- A slot in a run has an owner and an entry on the Timeline with the slot's handle, of that owner and of the step that the cursor
names, and no other slot has an entry of its own (R72). A slot that is in no run has no cursor and handle 0 (R72). An EMPTY slot has
the EMPTY values, and no other is without an owner (R68, R74). A sealed slot has a body (R77). The owner's session is not FREE, and
OPEN while the run is in its body (R97, R151). -/
def RunsOk (s : State) : Prop :=
  (∀ i : SlotId, s.slots[i].inRun = true → ∃ e ∈ s.timeline,
    e.handle = s.slots[i].handle ∧ s.slots[i].owner = some e.owner ∧ s.slots[i].RunEntry i e.kind) ∧
  (∀ (i : SlotId) (e : Entry), e ∈ s.timeline → e.kind.names i →
    s.slots[i].inRun = true ∧ e.handle = s.slots[i].handle) ∧
  (∀ i : SlotId, s.slots[i].inRun = false → s.slots[i].cursor = none ∧ s.slots[i].handle = 0) ∧
  (∀ i : SlotId, s.slots[i].state = .empty → s.slots[i] = Slot.free) ∧
  (∀ i : SlotId, s.slots[i].state ≠ .empty → s.slots[i].owner ≠ none) ∧
  (∀ i : SlotId, s.slots[i].state ≠ .empty → s.slots[i].state ≠ .loading → s.slots[i].body ≠ []) ∧
  (∀ (i : SlotId) (k : SessionId), s.slots[i].owner = some k → s.sessions[k].state ≠ .free ∧
    (s.slots[i].inBody = true → s.sessions[k].state = .opened))

/-- A line's claim queue is empty where the line has no holder, holds a session at most once and at most three in all, and none that
holds the line (R25, R26). Every waiter is OPEN (R36, R41), and no holder is FREE (R151). -/
def LeasesOk (s : State) : Prop :=
  ∀ l : LineId,
    (s.leases[l].lease = none → s.leases[l].queue = []) ∧
    (s.leases[l].queue.map Place.session).Nodup ∧
    s.leases[l].queue.length ≤ Config.claimPlaces ∧
    (∀ q ∈ s.leases[l].queue, s.holder l ≠ some q.session ∧ s.sessions[q.session].state = .opened) ∧
    ∀ k : SessionId, s.holder l = some k → s.sessions[k].state ≠ .free

/-- A session has at most 16 watches (R119) and at most one on a line (R121), and is OPEN (R138). An ARMED watch has no ticks and
coalesce and overrun counts 0 (R122, R133), a PENDING one has both ticks (R125). A COUNT watch's threshold is 1 to 65,535 and its
running count below it (R121, R129). The saturating counts stay in 16 bits (R126, R130). -/
def WatchesOk (s : State) : Prop :=
  (∀ k : SessionId, (allWatches.filter fun w => decide (s.watches[w].map Watch.session = some k)).length
    ≤ Config.sessionWatches) ∧
  (∀ (v w : WatchId) (x y : Watch), s.watches[v] = some x → s.watches[w] = some y → x.session = y.session →
    x.line = y.line → v = w) ∧
  ∀ (w : WatchId) (x : Watch), s.watches[w] = some x →
    s.sessions[x.session].state = .opened ∧
    (x.state = .armed → x.first = none ∧ x.last = none ∧ x.coalesce = 0 ∧ x.overrun = 0) ∧
    (x.state = .pending → x.first ≠ none ∧ x.last ≠ none) ∧
    (∀ (e : EdgeSelect) (n : Nat), x.kind = .count e n → 1 ≤ n ∧ n ≤ Config.max16 ∧ x.running < n) ∧
    x.coalesce ≤ Config.max16 ∧ x.overrun ≤ Config.max16

/-- A line is bound to at most one generator, a generator that is not FREE is bound to a line held by its owner (R104), and its
owner's session is OPEN (R103, R148 step 5). A FREE generator has no owner and no line (R103). -/
def BoundOk (s : State) : Prop :=
  (∀ g : GenId, s.generators[g].state ≠ .free → ∃ (k : SessionId) (l : LineId),
    s.generators[g].owner = some k ∧ s.generators[g].line = some l ∧ s.holder l = some k ∧
      s.sessions[k].state = .opened) ∧
  (∀ g : GenId, s.generators[g].state = .free → s.generators[g] = Generator.free) ∧
  (∀ g h : GenId, s.generators[g].state ≠ .free → s.generators[h].state ≠ .free →
    s.generators[g].line = s.generators[h].line → g = h)

end Sys2Proof.Machine
end

