-- ==== Sys2Proof/Certificates/Slice0/Obligations.lean ====
section
/-! DEFINITION. The statements for the provers. `Takes`, `OnlyReplies`, `Answers`, `Makes`, `ChangesOnly`, `Settled` and the invariants
are in Sys2Proof/Safety.lean. -/

open Sys2Proof Sys2Proof.Machine

/-! ## The machine -/

/-- The queue of commands is the model's (log 1): a step takes the command at its front, with the queue's rest. -/
def Obligations.StepRunsFrontCommand : Prop :=
  ∀ (s : State) (c : Instr) (rest : List Instr), s.pending = c :: rest → step s = exec c { s with pending := rest }

/-- With no command waiting (logs 1, 2, 5, 7): held in reset nothing happens; otherwise what is due is taken; when nothing is due, a
request of unknown type that a port takes next is answered BAD_TYPE (R166 check 1); when there is none, the arbiters choose among all
that is then pending, and the count increases by 1 (R43). What follows the all-ones count is left open (log 18). -/
def Obligations.StepWithoutCommands : Prop :=
  ∀ s : State, s.pending = [] →
    (s.heldInReset = true → step s = .next s) ∧
    (s.heldInReset = false →
      (∀ c, s.dueEvent = some c → step s = exec c s) ∧
      (s.dueEvent = none →
        (∀ (p : Port) (r : Request), s.takeable p = some r → (∀ type : RequestType, r.type ≠ type.code) →
          (p = .b → ∀ r' : Request, s.takeable .a = some r' → ∃ type : RequestType, r'.type = type.code) →
          ∃ t : State, step s = .next t ∧ s.OnlyReplies t p r (.plain .badType)) ∧
        ((∀ (p : Port) (r : Request), s.takeable p = some r → ∃ type : RequestType, r.type = type.code) →
          ∃ (t : State) (count : BitVec 64), Settled s t ∧
            (∀ p : Port, (t.port p).transmitter = none → (t.port p).frames = [] ∧
              answeredReply (t.port p).inbound = none ∧
              ∀ k : SessionId, t.sessions[k].port = some p → t.sessions[k].queue = []) ∧
            (s.now ≠ BitVec.allOnes 64 → count = s.now + 1) ∧
            step s = .next { t with now := count, freeIndex := s.freeIndex + 1,
                                    sessions := t.sessions.map fun r => { r with joinedNow := 0 } })))

/-- No command ends in a fault or a refusal, and none touches the queue of commands. -/
def Obligations.EveryCommandCompletes : Prop :=
  ∀ (c : Instr) (s : State), ∃ t : State, exec c s = .next t ∧ t.pending = s.pending

/-- Every request that a port takes is answered at that tick by one reply that carries its session nibble, type and tag (R167). A
reply with a code from 0x10 up is a refusal: the request is answered and does nothing else (R16, R73, R166). Dispatch checks 2 to 4
(R166): a length that the type does not allow, and a session that is not OPEN on this port. -/
def Obligations.EveryRequestIsAnswered : Prop :=
  ∀ (type : RequestType) (p : Port) (s : State) (r : Request), s.takeable p = some r → r.type = type.code →
    ∃ (t : State) (a : Answer), exec (type.command p) s = .next t ∧ t.Replied p r a ∧
      (0x10 ≤ a.status.code → s.OnlyReplies t p r a) ∧
      (type.allows r.payload.length = false → s.OnlyReplies t p r (.plain .badLength)) ∧
      (type.allows r.payload.length = true → type ≠ .openSession → type ≠ .info →
        (∀ k : SessionId, r.session = k.val + 1 → ¬(s.sessions[k].state = .opened ∧ s.sessions[k].port = some p)) →
        s.OnlyReplies t p r (.plain .noSession))

/-! ## Full reset -/

/-- POWER_UP, NRST_RELEASE and the end of an accepted RESTART's reply each bring a full reset, with their cause (R174 to R176). That
the pins keep their levels through a reset that a command brings is the model's choice (log 11), and so is the BAUD pin's level as an
operand of these commands (log 12). -/
def Obligations.FullResetLeaves : Prop :=
  ∀ (s : State) (pin : Level),
    (s.heldInReset = false → ∃ t, exec (.powerUp pin) s = .next t ∧ s.FreshlyReset .power pin t) ∧
    (s.heldInReset = true → ∃ t, exec (.nrstRelease pin) s = .next t ∧ s.FreshlyReset .pin pin t) ∧
    ∀ (p : Port) (x : Transmission) (r : Reply), (s.port p).transmitter = some x → x.frame = .reply r →
      r.type = 0x0C#8 → r.status = .ok →
      x.ends s.baud ≤ s.tick → ∃ t, exec (.frameSent p pin) s = .next t ∧ s.FreshlyReset .restart pin t

/-- While nRST is low the part is held in reset (R175): nothing is sent and the receivers take no byte. That a step with no command
waiting then leaves the state as it is is the model's choice (log 1), with what acts during the reset read from R175 (log 21). -/
def Obligations.NrstHoldsInReset : Prop :=
  ∀ s : State, ∃ t : State, exec .nrstAssert s = .next t ∧ t.heldInReset = true ∧ t.pending = s.pending ∧
    (∀ p : Port, (t.port p).transmitter = none ∧ (t.port p).frames = [] ∧ (t.port p).inbound = [] ∧
      ∀ bytes, exec (.frameReceived p bytes) t = .next t) ∧
    (∀ k : SessionId, t.sessions[k].state = .free) ∧ t.timeline = [] ∧ (∀ g : GenId, t.generators[g].state = .free) ∧
    (t.pending = [] → step t = .next t)

/-! ## Invariants -/

/-- The state after reset meets every invariant of Sys2Proof/Safety.lean. -/
def Obligations.ResetMeetsInvariants : Prop :=
  LinesOk State.reset ∧ PoolOk State.reset ∧ WorkConserving State.reset ∧ InboundOk State.reset ∧ SessionsOk State.reset ∧
    TimelineOk State.reset ∧ AdmissionsOk State.reset ∧ BoundOk State.reset ∧ RunsOk State.reset ∧ LeasesOk State.reset ∧
    WatchesOk State.reset

/-- Every step keeps every line cell in order. -/
def Obligations.StepKeepsLines : Prop :=
  ∀ s t : State, LinesOk s → step s = .next t → LinesOk t

/-- Every step keeps the 256 step records in the pool or in one list of one slot. -/
def Obligations.StepKeepsPool : Prop :=
  ∀ s t : State, PoolOk s → step s = .next t → PoolOk t

/-- No step leaves a transmitter idle with a frame to send, but for notices made at that very tick (log 7), and every step keeps at
most four requests in a port's slots, at most one of them ANSWERED. -/
def Obligations.StepKeepsPorts : Prop :=
  ∀ s t : State, step s = .next t → (WorkConserving s → WorkConserving t) ∧ (InboundOk s → InboundOk t)

/-- Every step keeps the session records and their queues in order. -/
def Obligations.StepKeepsSessions : Prop :=
  ∀ s t : State, SessionsOk s → step s = .next t → SessionsOk t

/-- Every step keeps the Timeline in order, and the admission numbers of its entries too while the 64-bit counter is not at its end:
a step makes fewer than 1,024 admissions, and what follows the all-ones number is left open (log 18). -/
def Obligations.StepKeepsTimeline : Prop :=
  ∀ s t : State, step s = .next t → (TimelineOk s → TimelineOk t) ∧
    (TimelineOk s → AdmissionsOk s → s.admissionCounter.toNat + 1024 < 2 ^ 64 → AdmissionsOk t)

/-- Every step keeps every generator that is not FREE bound to a line of its own that its OPEN owner holds. -/
def Obligations.StepKeepsBinding : Prop :=
  ∀ s t : State, BoundOk s → step s = .next t → BoundOk t

/-- Every step keeps every run with its one Timeline entry, and the slots' records in order. -/
def Obligations.StepKeepsRuns : Prop :=
  ∀ s t : State, TimelineOk s → RunsOk s → step s = .next t → RunsOk t

/-- Every step keeps the claim queues in order, with OPEN waiters behind holders that are not FREE. -/
def Obligations.StepKeepsLeases : Prop :=
  ∀ s t : State, LeasesOk s → step s = .next t → LeasesOk t

/-- Every step keeps the watches within their limits and their records in order. -/
def Obligations.StepKeepsWatches : Prop :=
  ∀ s t : State, WatchesOk s → step s = .next t → WatchesOk t

/-! ## Sessions -/

/-- OPEN (R141). -/
def Obligations.OpenMakesSession : Prop :=
  ∀ (s : State) (p : Port) (r : Request) (b0 b1 : Byte), SessionsOk s → s.takeable p = some r → r.type = 0x01#8 →
    r.payload = [b0, b1] → ∃ t : State, exec (.openSession p) s = .next t ∧
      let keep := b0.toNat + 256 * b1.toNat
      let inRange := keep = 0 ∨ (10 ≤ keep ∧ keep ≤ 60000)
      (r.session ≠ 0 ∨ ¬inRange → s.OnlyReplies t p r (.plain .badField)) ∧
      (r.session = 0 → inRange → (∀ k : SessionId, s.sessions[k].state ≠ .free) →
        s.OnlyReplies t p r (.plain .sessionFull)) ∧
      ∀ k : SessionId, r.session = 0 → inRange → s.sessions[k].state = .free →
        (∀ j : SessionId, j < k → s.sessions[j].state ≠ .free) →
        s.Answers t p r { status := .ok, data := .opened k p keep s.tick } [.sessions] [] ∧
        t.sessions[k] = { state := .opened, port := some p, keepalive := keep, lastHeard := some s.tick, queue := [],
                          nextNumber := 0, lost := 0, cause := none, joinedNow := 0 } ∧
        ∀ j : SessionId, j ≠ k → t.sessions[j].state = s.sessions[j].state ∧ t.sessions[j].port = s.sessions[j].port ∧
          t.sessions[j].keepalive = s.sessions[j].keepalive ∧ t.sessions[j].lastHeard = s.sessions[j].lastHeard ∧
          t.sessions[j].cause = s.sessions[j].cause

/-- CLOSE and a lapsed keepalive put their session into CLOSING (R143, R146, R148): steps 1 to 6 of R148 and then its step 7, with the
completion of R151 where no sequence of the session runs. That the arbiters choose between the reply to a CLOSE and step 7, so that an
idle transmitter has begun the reply before ENDED is made, is the model's choice (log 32). A session whose interval is 0 or has not
passed does not lapse, and KEEPALIVE_LAPSE then changes nothing (log 3). -/
def Obligations.CloseAndLapseEndSession : Prop :=
  ∀ s : State, BoundOk s → TimelineOk s → RunsOk s →
    (∀ (p : Port) (k : SessionId) (r : Request), s.Takes p .closeSession k r [] →
      ∃ t u v : State, exec (.closeSession p) s = .next t ∧ s.Enters u k .closed ∧
        Settled (u.answer p r (.plain .ok)) v ∧ v.Checks t p k .closed ∧
        ((s.port p).transmitter = none → (s.port p).frames = [] →
          (t.port p).transmitter = some { frame := .reply ((Answer.plain .ok).reply r s.tick), begun := s.tick })) ∧
    ∀ (p : Port) (k : SessionId) (heard : Tick), s.sessions[k].port = some p → s.sessions[k].lastHeard = some heard →
      (s.sessions[k].state = .opened → s.sessions[k].keepalive ≠ 0 → heard + s.sessions[k].keepalive * 1000 ≤ s.tick →
        ∃ t u v : State, exec (.keepaliveLapse k) s = .next t ∧ s.Enters u k .lapsed ∧ u.Checks v p k .lapsed ∧
          Settled v t) ∧
      (s.sessions[k].state ≠ .opened ∨ s.sessions[k].keepalive = 0 ∨ s.tick < heard + s.sessions[k].keepalive * 1000 →
        exec (.keepaliveLapse k) s = .next s)

/-- BREAK (R171): from `s` to `x` the port's receiver, slots and counter, from `x` to `u` every OPEN session of the port enters CLOSING
in ascending number (R159), from `u` to `v` those whose sequences do not run complete their closing. That the completions follow all
the entries, and the order of their ENDED frames, are the model's choice (log 31). The reply to a request taken at the break's own tick
is discarded, as the last sentences of R171 on such a request say; that this holds of a reply which the transmitter has begun at that
tick, against step 2's words on a SENDING slot, is the model's choice (log 7). Any other frame under way goes on. A port that has
accepted a RESTART takes requests again, unless it goes on sending the reply to it (R174, log 22). -/
def Obligations.BreakClosesSessions : Prop :=
  ∀ (s : State) (p : Port), BoundOk s → TimelineOk s → RunsOk s → s.heldInReset = false → (s.port p).awaitsIdle = false →
    ∃ (t x u v : State) (stopped : Bool) (sent : Option Transmission), exec (.breakLine p) s = .next t ∧
      x.port p = { s.port p with
        receiver := .hunt, awaitsIdle := true, inbound := [], stopped := stopped, transmitter := sent,
        brk := if (s.port p).brk < 65535 then (s.port p).brk + 1 else (s.port p).brk } ∧
      (∀ (r : Reply) (begun : Tick), (s.port p).transmitter = some { frame := .reply r, begun := begun } →
        r.made = s.tick → sent = none) ∧
      ((∀ (r : Reply) (begun : Tick), (s.port p).transmitter = some { frame := .reply r, begun := begun } →
        r.made ≠ s.tick) → sent = (s.port p).transmitter) ∧
      (stopped = true ↔ (s.port p).stopped = true ∧ ∃ (r : Reply) (begun : Tick), r.type = 0x0C#8 ∧ r.status = .ok ∧
        r.made ≠ s.tick ∧ (s.port p).transmitter = some { frame := .reply r, begun := begun }) ∧
      (∀ q : Port, q ≠ p → x.port q = s.port q) ∧ ChangesOnly [.reception, .sending] s x ∧
      let closing := allSessions.filter fun k =>
        decide (s.sessions[k].state = .opened) && decide (s.sessions[k].port = some p)
      x.EnterEach u .brk closing ∧ u.CheckEach v p .brk closing ∧ Settled v t

/-! ## Requests that change nothing -/

/-- TIME (R44). -/
def Obligations.TimeGivesNow : Prop :=
  ∀ (s : State) (p : Port) (k : SessionId) (r : Request), s.Takes p .time k r [] →
    ∃ t : State, exec (.time p) s = .next t ∧ s.OnlyReplies t p r { status := .ok, data := .tick s.tick }

/-- PING (R144), STATUS (R145), INFO (R173, with its values in revision B, 09 section 9.5) and PORTSTAT (R172) are answered OK with
their items and change nothing. -/
def Obligations.SessionAndPortReports : Prop :=
  ∀ (s : State) (p : Port) (k : SessionId) (r : Request),
    (s.Takes p .ping k r [] → ∃ t : State, exec (.ping p) s = .next t ∧ s.OnlyReplies t p r
      { status := .ok, data := .pong s.tick s.sessions[k].nextNumber s.sessions[k].lost s.sessions[k].queue.length }) ∧
    (s.Takes p .status k r [] → ∃ (t : State) (x : StatusReport), exec (.status p) s = .next t ∧
      s.OnlyReplies t p r { status := .ok, data := .session x } ∧
      x.session = k ∧ x.record = s.sessions[k] ∧
      x.leases = (allLines.filter fun l => decide (s.holder l = some k)).length ∧
      x.places = (allLines.filter fun l => s.leases[l].queue.any fun q => decide (q.session = k)).length ∧
      x.watches = (allWatches.filter fun w => decide (s.watches[w].map Watch.session = some k)).length ∧
      x.slots = (allSlots.filter fun i => decide (s.slots[i].owner = some k)).length ∧
      x.generators = (allGenerators.filter fun g => decide (s.generators[g].owner = some k)).length ∧
      x.oneshots = (s.timeline.filter fun e => e.isOneshot && decide (e.owner = k)).length ∧
      x.sessions = allSessions.map fun j => (s.sessions[j].state, s.sessions[j].port)) ∧
    (s.takeable p = some r → r.type = 0x08#8 → r.payload = [] → ∃ t : State, exec (.info p) s = .next t ∧
      s.OnlyReplies t p r { status := .ok, data := .info s.baud } ∧
      (ReplyData.info s.baud).bytes = fields [(2, 0x4A43), (2, 0x2410), (1, 0x42),
        (4, if s.baud = .b115200 then 115200 else 1000000), (1, 24), (1, 16), (1, 4), (1, 32), (1, 3), (1, 64), (1, 16),
        (2, 256), (1, 32), (1, 8), (1, 8), (1, 32), (1, 16), (1, 4), (1, 4), (1, 120)]) ∧
    (s.Takes p .portstat k r [] → ∃ (t : State) (a b : PortReport), exec (.portstat p) s = .next t ∧
      s.OnlyReplies t p r { status := .ok, data := .ports a b } ∧
      ∀ x q, (x = a ∧ q = Port.a ∨ x = b ∧ q = Port.b) →
        x.crc = (s.port q).crc ∧ x.gap = (s.port q).gap ∧ x.length = (s.port q).length ∧
        x.overrun = (s.port q).overrun ∧ x.brk = (s.port q).brk ∧ x.slots = (s.port q).inbound.length ∧
        x.sessions = (allSessions.filter fun j =>
          decide (s.sessions[j].state ≠ .free) && decide (s.sessions[j].port = some q)).length)

/-- SNAPSHOT (R21): bit n of each map is line Ln's (R178). -/
def Obligations.SnapshotMapsLines : Prop :=
  ∀ (s : State) (p : Port) (k : SessionId) (r : Request), s.Takes p .snapshot k r [] →
    ∃ (t : State) (sensed commanded fault held : LineMap), exec (.snapshot p) s = .next t ∧
      s.OnlyReplies t p r { status := .ok, data := .snapshot s.tick sensed commanded fault held } ∧
      ∀ l : LineId, (sensed.getLsbD l.val = true ↔ s.lines[l].sensed = .high) ∧
        (commanded.getLsbD l.val = true ↔ s.lines[l].commanded = .high) ∧
        (fault.getLsbD l.val = true ↔ s.lines[l].fault ≠ .none) ∧
        (held.getLsbD l.val = true ↔ ∃ j : SessionId, s.holder l = some j)

/-- READ (R20). -/
def Obligations.ReadReportsLine : Prop :=
  ∀ (s : State) (p : Port) (k : SessionId) (r : Request) (b : Byte), s.Takes p .read k r [b] →
    ∃ t : State, exec (.read p) s = .next t ∧
      (24 ≤ b.toNat → s.OnlyReplies t p r (.plain .badField)) ∧
      ∀ l : LineId, b.toNat = l.val → ∃ x : LineReport,
        s.OnlyReplies t p r { status := .ok, data := .line x } ∧
        x.mode = s.lines[l].mode ∧ x.commanded = s.lines[l].commanded ∧ x.sensed = s.lines[l].sensed ∧
        x.pull = s.lines[l].pull ∧ x.pullConnected = s.lines[l].pullConnected ∧ x.fault = s.lines[l].fault ∧
        x.holder = s.holder l ∧ x.queueLength = s.leases[l].queue.length ∧
        (x.generator = none ↔ ¬s.bound l) ∧
        (∀ g : GenId, x.generator = some g → s.generators[g].state ≠ .free ∧ s.generators[g].line = some l) ∧
        x.filter = s.lines[l].filter ∧ x.assist = s.lines[l].assist ∧ x.settle = s.lines[l].settle ∧
        x.check = s.lines[l].check

/-- PENDING (R62), SEQ.QUERY (R100), WATCH.READ (R136) and CAD.READ (R117) answer with the records they name and change
nothing. -/
def Obligations.RecordReads : Prop :=
  ∀ (s : State) (p : Port) (k : SessionId) (r : Request) (b : Byte),
    (s.Takes p .pendingList k r [b] → ∃ t : State, exec (.pendingList p) s = .next t ∧
      let mine := s.timeline.filter fun e => decide (e.owner = k)
      let items := (mine.drop b.toNat).take 8
      s.OnlyReplies t p r { status := .ok, data := .entries mine.length (b.toNat + items.length) items }) ∧
    (s.Takes p .seqQuery k r [b] → ∃ t : State, exec (.seqQuery p) s = .next t ∧
      (16 ≤ b.toNat → s.OnlyReplies t p r (.plain .badField)) ∧
      ∀ i : SlotId, b.toNat = i.val → ∃ x : SlotReport, s.OnlyReplies t p r { status := .ok, data := .slotRecord x } ∧
        x.record = s.slots[i] ∧ x.entry = s.findEntry s.slots[i].handle ∧ x.poolFree = s.poolFree) ∧
    (s.Takes p .watchRead k r [b] → ∃ t : State, exec (.watchRead p) s = .next t ∧
      (32 ≤ b.toNat → s.OnlyReplies t p r (.plain .badField)) ∧
      ∀ w : WatchId, b.toNat = w.val →
        (s.watches[w] = none → s.OnlyReplies t p r (.plain .notFound)) ∧
        ∀ x : Watch, s.watches[w] = some x →
          s.OnlyReplies t p r { status := .ok, data := .watchRecord w x s.lines[x.line].sensed }) ∧
    (s.Takes p .cadRead k r [b] → ∃ t : State, exec (.cadRead p) s = .next t ∧
      (4 ≤ b.toNat → s.OnlyReplies t p r (.plain .badField)) ∧
      ∀ g : GenId, b.toNat = g.val → ∃ next : Option NextEvent,
        s.OnlyReplies t p r { status := .ok, data := .generator s.generators[g] next } ∧
        (s.generators[g].state = .free ∨ s.generators[g].state = .stopped → next = none) ∧
        (∀ u : Tick, s.generators[g].state = .pending → s.generators[g].start = some u → next = some (.rise u)) ∧
        (∀ u : Tick, s.generators[g].state = .running u false → next = some (.fall (u + s.generators[g].high))) ∧
        ∀ u : Tick, s.generators[g].state = .running u true →
          next = (if s.generators[g].cycles ≠ 0 ∧ s.generators[g].completed + 1 = s.generators[g].cycles
            then some (.finish (u + s.generators[g].period)) else some (.rise (u + s.generators[g].period))))

/-! ## Leases -/

/-- CLAIM (R27 to R30). -/
def Obligations.ClaimOutcomes : Prop :=
  ∀ (s : State) (p : Port) (k : SessionId) (r : Request) (b0 b1 b2 b3 : Byte), s.Takes p .claim k r [b0, b1, b2, b3] →
    ∃ t : State, exec (.claim p) s = .next t ∧
      (24 ≤ b0.toNat ∨ 4 ≤ b1.toNat → s.OnlyReplies t p r (.plain .badField)) ∧
      ∀ (l : LineId) (x : Parting), b0.toNat = l.val → b1.toNat = x.code →
        let limit := b2.toNat + 256 * b3.toNat
        let line := s.lines[l]
        let place : Place :=
          { session := k, parting := x, expiry := if limit = 65535 then none else some (s.tick + limit * 1000) }
        (s.leases[l].lease = none →
          s.Answers t p r { status := .ok, data := .lease s.tick line.faulted line.mode line.commanded } [.leases] [] ∧
          LeaseBecomes s t l
            { lease := some { holder := k, parting := x, granted := s.tick }, queue := s.leases[l].queue }) ∧
        ∀ h : Lease, s.leases[l].lease = some h →
          (h.holder = k → s.OnlyReplies t p r
            { status := .already, data := .lease h.granted line.faulted line.mode line.commanded }) ∧
          (h.holder ≠ k → limit = 0 → s.OnlyReplies t p r { status := .held, data := .holder h.holder }) ∧
          (h.holder ≠ k → limit ≠ 0 → (∃ q ∈ s.leases[l].queue, q.session = k) →
            s.OnlyReplies t p r (.plain .duplicate)) ∧
          (h.holder ≠ k → limit ≠ 0 → (∀ q ∈ s.leases[l].queue, q.session ≠ k) →
            s.Answers t p r { status := .queued, data := .queued (s.leases[l].queue.length + 1) h.holder } [.leases] [] ∧
            LeaseBecomes s t l { lease := some h, queue := s.leases[l].queue ++ [place] })

/-- WITHDRAW (R31) and the expiry of a place (R32). -/
def Obligations.WithdrawAndExpiry : Prop :=
  (∀ (s : State) (p : Port) (k : SessionId) (r : Request) (b : Byte), s.Takes p .withdraw k r [b] →
    ∃ t : State, exec (.withdraw p) s = .next t ∧
      (24 ≤ b.toNat → s.OnlyReplies t p r (.plain .badField)) ∧
      ∀ l : LineId, b.toNat = l.val →
        ((∀ q ∈ s.leases[l].queue, q.session ≠ k) → s.OnlyReplies t p r (.plain .notFound)) ∧
        ((∃ q ∈ s.leases[l].queue, q.session = k) → s.Answers t p r (.plain .ok) [.leases] [] ∧
          LeaseBecomes s t l { lease := s.leases[l].lease,
                               queue := s.leases[l].queue.filter fun q => decide (q.session ≠ k) })) ∧
  ∀ (s : State) (l : LineId) (k : SessionId) (q : Place) (e : Tick), q ∈ s.leases[l].queue → q.session = k →
    (∀ q' ∈ s.leases[l].queue, q'.session = k → q' = q) → q.expiry = some e → e ≤ s.tick →
    ∃ t : State, exec (.claimExpiry l k) s = .next t ∧ Makes s t [.leases] [(k, .claimLapsed l e)] ∧
      LeaseBecomes s t l { lease := s.leases[l].lease,
                           queue := s.leases[l].queue.filter fun q => decide (q.session ≠ k) }

/-- RELEASE of a line that is not in use, and its refusals (R33, R36 to R38). -/
def Obligations.ReleaseEndsLease : Prop :=
  ∀ (s : State) (p : Port) (k : SessionId) (r : Request) (b0 b1 : Byte), BoundOk s →
    s.Takes p .release k r [b0, b1] →
    ∃ t : State, exec (.release p) s = .next t ∧
      (24 ≤ b0.toNat ∨ 2 ≤ b1.toNat → s.OnlyReplies t p r (.plain .badField)) ∧
      ∀ l : LineId, b0.toNat = l.val → b1.toNat < 2 →
        (s.holder l ≠ some k → s.OnlyReplies t p r (.plain .notHolder)) ∧
        (s.holder l = some k → s.usedBy k l → b1.toNat = 0 → ∃ one gen seq : Nat,
          s.OnlyReplies t p r { status := .inUse, data := .counts one gen seq } ∧
          one = (s.timeline.filter fun e => e.onLine l && decide (e.owner = k)).length ∧
          (s.bound l → gen = 1) ∧ (¬s.bound l → gen = 0) ∧ seq = (s.usersOf k l).length) ∧
        (s.holder l = some k → ¬s.usedBy k l →
          s.Answers t p r { status := .ok, data := .counts 0 0 0 } [.lines, .leases] (s.grants l) ∧ s.LeaseEnded t l)

/-- A forced RELEASE of a line in use (R39): its holder's one-shots on the line, the bound generator and the sequences that drive
the line are cleared before the lease ends. The order of the notices that different blocks make is the steps' order (log 9). -/
def Obligations.ForcedReleaseClears : Prop :=
  ∀ (s : State) (p : Port) (k : SessionId) (r : Request) (b0 b1 : Byte) (l : LineId), BoundOk s → TimelineOk s → RunsOk s →
    s.Takes p .release k r [b0, b1] → b0.toNat = l.val → b1.toNat = 1 → s.holder l = some k → s.usedBy k l →
    ∃ (t u : State) (one gen seq : Nat), exec (.release p) s = .next t ∧
      let users := s.usersOf k l
      ChangesOnly [.lines, .leases, .timeline, .slots, .generators, .numbers, .queues] s u ∧
      Made s u (s.cadEnds l .released ++ users.flatMap (fun i => s.leavingEnds i .released s.slots[i].at) ++ s.grants l) ∧
      Settled (u.answer p r { status := .ok, data := .counts one gen seq }) t ∧
      (∀ i : SlotId, i ∈ users ↔ s.slots[i].owner = some k ∧ s.slots[i].drives l) ∧ users.Pairwise (· < ·) ∧
      one = (s.timeline.filter fun e => e.onLine l && decide (e.owner = k)).length ∧
      (s.bound l → gen = 1) ∧ (¬s.bound l → gen = 0) ∧ seq = users.length ∧
      (∀ g : GenId, u.generators[g] = (if s.generators[g].line = some l then Generator.free else s.generators[g])) ∧
      s.StopsRuns u (fun i => i ∈ users) (fun e => e.onLine l = true ∧ e.owner = k) .released ∧ s.LeaseEnded u l

/-! ## Lines -/

/-- SETUP (R17, R18). -/
def Obligations.SetupWrites : Prop :=
  ∀ (s : State) (p : Port) (k : SessionId) (r : Request) (b0 b1 b2 b3 b4 b5 b6 b7 : Byte), BoundOk s →
    s.Takes p .setup k r [b0, b1, b2, b3, b4, b5, b6, b7] → ∃ t : State, exec (.setup p) s = .next t ∧
      (24 ≤ b0.toNat → s.OnlyReplies t p r (.plain .badField)) ∧
      ∀ l : LineId, b0.toNat = l.val →
        (s.holder l ≠ some k → s.OnlyReplies t p r (.plain .notHolder)) ∧
        (s.holder l = some k →
          4 ≤ b1.toNat ∨ 2 ≤ b2.toNat ∨ b4.toNat = 0 ∨ 15 < b4.toNat ∨ b5.toNat = 0 ∨ 2 ≤ b6.toNat ∨ 2 ≤ b7.toNat →
          s.OnlyReplies t p r (.plain .badField)) ∧
        ∀ (mode : Mode) (pull check : Bool) (v : Level), s.holder l = some k → b1.toNat = mode.code →
          b2.toNat = Bool.code pull → 1 ≤ b4.toNat → b4.toNat ≤ 15 → 1 ≤ b5.toNat → b6.toNat = Bool.code check →
          b7.toNat = Level.code v →
          let fields : SetupFields :=
            { mode := mode, pull := pull, filter := b3.toNat, assist := b4.toNat, settle := b5.toNat, check := check,
              level := v }
          let noAssist := mode = .assist ∧ 16 ≤ l.val
          let atFault := s.lines[l].fault ≠ .none ∧ mode ≠ .input
          let isBound := ∃ g : GenId, s.generators[g].state ≠ .free ∧ s.generators[g].line = some l ∧
            (mode = .input ∨ (mode = .assist ∧ s.generators[g].high < b4.toNat))
          (noAssist → s.OnlyReplies t p r (.plain .mode)) ∧
          (¬noAssist → atFault → s.OnlyReplies t p r (.plain .lineFault)) ∧
          (¬noAssist → ¬atFault → isBound → s.OnlyReplies t p r (.plain .lineBound)) ∧
          (¬noAssist → ¬atFault → ¬isBound →
            s.Answers t p r (.plain .ok) [.lines, .generators] (s.cadEnds l .overridden) ∧ GeneratorStopped s t l ∧
            LineBecomes s t l (s.lines[l].setup s.tick fields))

/-- DRIVE (R19). -/
def Obligations.DriveWrites : Prop :=
  ∀ (s : State) (p : Port) (k : SessionId) (r : Request) (b0 b1 : Byte), BoundOk s → s.Takes p .drive k r [b0, b1] →
    ∃ t : State, exec (.drive p) s = .next t ∧
      (24 ≤ b0.toNat ∨ 2 ≤ b1.toNat → s.OnlyReplies t p r (.plain .badField)) ∧
      ∀ (l : LineId) (v : Level), b0.toNat = l.val → b1.toNat = Level.code v →
        (s.holder l ≠ some k → s.OnlyReplies t p r (.plain .notHolder)) ∧
        (s.holder l = some k → s.lines[l].fault ≠ .none → s.OnlyReplies t p r (.plain .lineFault)) ∧
        (s.holder l = some k → s.lines[l].fault = .none → s.lines[l].mode = .input →
          s.OnlyReplies t p r (.plain .mode)) ∧
        (s.holder l = some k → s.lines[l].fault = .none → s.lines[l].mode ≠ .input →
          s.Answers t p r (.plain .ok) [.lines, .generators] (s.cadEnds l .overridden) ∧ GeneratorStopped s t l ∧
          LineBecomes s t l (s.lines[l].writeLevel s.tick v))

/-- CLEAR (R15). -/
def Obligations.ClearClearsFault : Prop :=
  ∀ (s : State) (p : Port) (k : SessionId) (r : Request) (b : Byte), s.Takes p .clear k r [b] →
    ∃ t : State, exec (.clear p) s = .next t ∧
      (24 ≤ b.toNat → s.OnlyReplies t p r (.plain .badField)) ∧
      ∀ l : LineId, b.toNat = l.val →
        (s.holder l ≠ some k → s.OnlyReplies t p r (.plain .notHolder)) ∧
        (s.holder l = some k → s.Answers t p r (.plain .ok) [.lines] [] ∧
          LineBecomes s t l { s.lines[l] with fault := .none })

/-- What a level write (R2 to R6, R12), a SETUP (R18) and a parting state (R34, R35) do to the cell of a line. The tick from which
a filter change that a SETUP restarts counts is the model's where the sensed level was set at this very tick (log 14), and so is that a
parting state which changes neither mode nor level leaves an open mismatch window its start (log 29). -/
def Obligations.CellWrites : Prop :=
  (∀ (c : LineCell) (now : Tick) (v : Level), ∃ (phase : AssistPhase) (window : Option Tick),
    c.writeLevel now v = { c with commanded := v, phase := phase, window := window } ∧
    (v = .low → phase = .idle) ∧
    (v = .high → c.mode = .assist → c.commanded = .low → phase = .driving (now + c.assist)) ∧
    (v = .high → (c.mode ≠ .assist ∨ c.commanded = .high) → phase = c.phase) ∧
    let after := c.writeLevel now v
    ((c.check = false ∨ after.driven = none ∨ after.driven = some c.sensed) → window = none) ∧
    (∀ d : Level, c.check = true → after.driven = some d → d ≠ c.sensed → c.driven ≠ some d → window = some now) ∧
    (∀ d : Level, c.check = true → after.driven = some d → d ≠ c.sensed → c.driven = some d →
      window = some (c.window.getD now))) ∧
  (∀ (c : LineCell) (now : Tick) (f : SetupFields), ∃ (phase : AssistPhase) (change window : Option Tick),
    c.setup now f = { c with mode := f.mode, commanded := f.level, pull := f.pull, filter := f.filter, assist := f.assist,
                             settle := f.settle, check := f.check, phase := phase, change := change, window := window } ∧
    (f.mode ≠ .assist ∨ f.level = .low → phase = .idle) ∧
    (f.mode = .assist → f.level = .high → c.commanded = .low → phase = .driving (now + f.assist)) ∧
    (f.mode = .assist → f.level = .high → c.commanded = .high → c.mode = .assist → phase = c.phase) ∧
    (f.mode = .assist → f.level = .high → c.commanded = .high → c.mode ≠ .assist → phase = .idle) ∧
    (c.change = none → change = none) ∧ (c.change ≠ none → c.sensedAt ≠ now → change = some now) ∧
    let after := c.setup now f
    ((f.check = false ∨ after.driven = none ∨ after.driven = some c.sensed) → window = none) ∧
    (∀ d : Level, f.check = true → after.driven = some d → d ≠ c.sensed → window = some now)) ∧
  ∀ (c : LineCell) (now : Tick) (x : Parting),
    (c.fault ≠ .none ∨ x = .keep → c.applyParting now x = c) ∧
    (c.fault = .none → x = .float → c.applyParting now x =
      { c with mode := .input, pull := true, phase := .idle, window := none }) ∧
    ∀ v : Level, c.fault = .none → (x = .low ∧ v = .low ∨ x = .high ∧ v = .high) → ∃ window : Option Tick,
      c.applyParting now x = { c with mode := .push, commanded := v, phase := .idle, window := window } ∧
      (c.check = false ∨ v = c.sensed → window = none) ∧
      (c.check = true → v ≠ c.sensed → c.mode ≠ .push ∨ c.commanded ≠ v → window = some now) ∧
      (c.check = true → v ≠ c.sensed → c.mode = .push → c.commanded = v → window = some (c.window.getD now))

/-- The pin condition for every combination, and when the pull-up is connected (R7). -/
def Obligations.PinConditions : Prop :=
  ∀ c : LineCell,
    let released := c.mode = .input ∨ (c.mode = .sink ∧ c.commanded = .high) ∨
      (c.mode = .assist ∧ c.commanded = .high ∧ c.phase = .idle)
    (c.pullConnected = true ↔ c.pull = true ∧ released) ∧
    (released → c.pull = true → c.pin = .pulledHigh) ∧ (released → c.pull = false → c.pin = .floating) ∧
    (¬released → c.commanded = .low → c.pin = .drivenLow) ∧ (¬released → c.commanded = .high → c.pin = .drivenHigh) ∧
    (c.driven = none ↔ c.mode = .input ∨ (c.mode ≠ .push ∧ c.commanded = .high)) ∧
    ∀ v : Level, c.driven = some v ↔ (c.mode = .push ∧ c.commanded = v) ∨
      ((c.mode = .sink ∨ c.mode = .assist) ∧ c.commanded = .low ∧ v = .low)

/-- A sample of the pin (R9), a contention fault (R12, R13, R113) and the end of an assist burst (R5). Whether the fault's or the
generator's notice is made first is the model's choice (log 9), the tick from which a sample counts is the model's where the sensed
level was set at this very tick (log 14), and so is that an event whose condition does not hold leaves the state (log 3). -/
def Obligations.LineCellEvents : Prop :=
  ∀ (s : State) (l : LineId), s.heldInReset = false →
    (∀ v : Level, ∃ (t : State) (change : Option Tick), exec (.rawLevelChange l v) s = .next t ∧
      LineBecomes s t l { s.lines[l] with raw := v, change := change } ∧ ChangesOnly [.lines] s t ∧
      (v = s.lines[l].sensed → change = none) ∧
      (∀ u : Tick, v ≠ s.lines[l].sensed → s.lines[l].change = some u → change = some u) ∧
      (v ≠ s.lines[l].sensed → s.lines[l].change = none → s.lines[l].sensedAt ≠ s.tick → change = some s.tick)) ∧
    (∃ t : State, exec (.contentionFault l) s = .next t ∧
      ((s.lines[l].window = none ∨ ∃ u : Tick, s.lines[l].window = some u ∧ s.tick < u + s.lines[l].settle) → t = s) ∧
      ∀ u : Tick, s.lines[l].window = some u → u + s.lines[l].settle ≤ s.tick → BoundOk s →
        LineBecomes s t l { s.lines[l] with mode := .input, fault := .contention s.tick, phase := .idle, window := none } ∧
        GeneratorStopped s t l ∧
        Makes s t [.lines, .generators] ((match s.holder l with
          | some k => [(k, .contention l s.lines[l].commanded s.lines[l].sensed s.tick)]
          | none => []) ++ s.cadEnds l .fault)) ∧
    ∃ t : State, exec (.assistBurstEnd l) s = .next t ∧
      (∀ u : Tick, s.lines[l].phase = .driving u → u ≤ s.tick →
        LineBecomes s t l { s.lines[l] with phase := .idle } ∧ ChangesOnly [.lines] s t) ∧
      ((s.lines[l].phase = .idle ∨ ∃ u : Tick, s.lines[l].phase = .driving u ∧ s.tick < u) → t = s)

/-- A sensed edge is recognised when a change has been in progress for the filter time (R9, R10), and every watch on the line is
offered it (R120, R125 to R131). The order among the consumers of an edge, and so of their notices, is the model's (log 8), the tick
noted with the sensed level too (log 14), and so is that SENSED_EDGE changes nothing where no change has lasted the filter time
(log 3). That a watch which the edge does not match stays as it is holds also for a LEVEL watch that WATCH.SET fired at this same tick:
there it is the model's choice between the second case of R124 and its last paragraph (log 30). -/
def Obligations.EdgeReachesWatches : Prop :=
  ∀ (s : State) (l : LineId), s.heldInReset = false →
    ∃ t : State, exec (.sensedEdge l) s = .next t ∧
      ((s.lines[l].change = none ∨ ∃ u : Tick, s.lines[l].change = some u ∧ s.tick < u + s.lines[l].filter) → t = s) ∧
      ∀ u : Tick, s.lines[l].change = some u → u + s.lines[l].filter ≤ s.tick →
        let v := s.lines[l].raw
        (∃ window : Option Tick, LineBecomes s t l
          { s.lines[l] with sensed := v, change := none, sensedAt := s.tick, window := window } ∧
          (∀ d : Level, s.lines[l].check = true → s.lines[l].driven = some d → d ≠ v →
            window = some (s.lines[l].window.getD s.tick)) ∧
          (s.lines[l].check = false ∨ s.lines[l].driven = none ∨ s.lines[l].driven = some v → window = none)) ∧
        Makes s t [.lines, .timeline, .slots, .watches] (s.hits l v ++ s.awaitEnds l v) ∧
        ∀ w : WatchId, (s.watches[w] = none → t.watches[w] = none) ∧
          ∀ x : Watch, s.watches[w] = some x →
            let fired : Watch := { x with state := .pending, first := some s.tick, last := some s.tick }
            let bumped : Watch :=
              { x with last := some s.tick, coalesce := if x.coalesce < 65535 then x.coalesce + 1 else x.coalesce }
            let hit := (x.session, NoticeBody.watchHit w l x.kind v s.tick) ∈ s.hits l v
            (x.line ≠ l ∨ ¬x.kind.matching v → t.watches[w] = some x) ∧
            (x.line = l → x.kind.matching v →
              ((∀ (e : EdgeSelect) (n : Nat), x.kind ≠ .count e n) →
                (x.state = .armed → t.watches[w] = some fired ∧ hit) ∧
                (x.state = .pending → t.watches[w] = some bumped)) ∧
              ∀ (e : EdgeSelect) (n : Nat), x.kind = .count e n →
                (x.state = .armed → x.running + 1 ≠ n → t.watches[w] = some { x with running := x.running + 1 }) ∧
                (x.state = .armed → x.running + 1 = n → t.watches[w] = some { fired with running := 0 } ∧ hit) ∧
                (x.state = .pending → x.running + 1 ≠ n →
                  t.watches[w] = some { bumped with running := x.running + 1 }) ∧
                (x.state = .pending → x.running + 1 = n → t.watches[w] = some
                  { bumped with running := 0, overrun := if x.overrun < 65535 then x.overrun + 1 else x.overrun }))

/-- A sensed edge of the awaited line to the awaited level completes the AWAIT, and no other edge does anything to a sequence
(R84, R86). -/
def Obligations.EdgeEndsAwait : Prop :=
  ∀ (s : State) (l : LineId) (u : Tick), s.heldInReset = false → s.lines[l].change = some u →
    u + s.lines[l].filter ≤ s.tick → (∀ i j : SlotId, s.slots[i].inRun = true → s.slots[j].inRun = true →
      s.slots[i].handle = s.slots[j].handle → i = j) →
    ∃ t : State, exec (.sensedEdge l) s = .next t ∧
      ∀ i : SlotId,
        ((∃ (n limit : Nat) (x : Step), s.slots[i].state = .awaiting ∧ s.slots[i].cursor = some (.body, n) ∧
            s.slots[i].body[n]? = some x ∧ x.kind = .await l s.lines[l].raw limit) →
          ∀ n : Nat, s.slots[i].cursor = some (.body, n) →
            (∀ x : Step, s.slots[i].body[n + 1]? = some x →
              t.slots[i] = { s.slots[i] with state := .running, cursor := some (.body, n + 1) } ∧
              ∀ e : Entry, s.findEntry s.slots[i].handle = some e → ∃ f : Entry,
                t.findEntry s.slots[i].handle = some f ∧ f.owner = e.owner ∧ f.due = s.tick + x.offset ∧
                  f.kind = .step i .body (n + 1)) ∧
            (s.slots[i].body[n + 1]? = none →
              t.slots[i] = { s.slots[i] with state := .done, outcome := .done, reason := .none, failed := none,
                                             skipped := 0, cursor := none, handle := 0 } ∧
              t.findEntry s.slots[i].handle = none)) ∧
        ((¬∃ (n limit : Nat) (x : Step), s.slots[i].state = .awaiting ∧ s.slots[i].cursor = some (.body, n) ∧
            s.slots[i].body[n]? = some x ∧ x.kind = .await l s.lines[l].raw limit) → t.slots[i] = s.slots[i])

/-! ## The Timeline -/

/-- The handle that the next admission gives (R50): 1 to 65,535, of no live entry, and the first such value after the counter. -/
def Obligations.NextHandleIsFresh : Prop :=
  ∀ s : State, s.timeline.length ≤ 64 → s.handleCounter ≤ 65535 →
    1 ≤ s.nextHandle ∧ s.nextHandle ≤ 65535 ∧ (∀ e ∈ s.timeline, e.handle ≠ s.nextHandle) ∧
      ∃ n : Nat, n ≤ 64 ∧ s.nextHandle = (s.handleCounter + n) % 65535 + 1 ∧
        ∀ m : Nat, m < n → ∃ e ∈ s.timeline, e.handle = (s.handleCounter + m) % 65535 + 1

/-- The start tick that a `when` field names, and its checks (R46, R47), and the step records of SEQ.ADD (R70, R75; 09 sections 9.2
to 9.4). -/
def Obligations.WhenFieldsAndStepRecords : Prop :=
  (∀ (f b0 b1 b2 b3 b4 b5 b6 b7 : Byte) (now : Tick),
     let p := [f, b0, b1, b2, b3, b4, b5, b6, b7]
     let low := b0.toNat + 256 * b1.toNat + 65536 * b2.toNat + 16777216 * b3.toNat
     let high := b4.toNat + 256 * b5.toNat + 65536 * b6.toNat + 16777216 * b7.toNat
     (f.toNat = 0 → (whenOf p 0).map (fun w => w.start now) = some now) ∧
     (f.toNat = 1 → (whenOf p 0).map (fun w => w.start now) = some (now + low)) ∧
     (f.toNat = 2 → (whenOf p 0).map (fun w => w.start now) = some (low + 4294967296 * high)) ∧
     (3 ≤ f.toNat → whenOf p 0 = none) ∧
     ∀ start : Tick, (start < now → whenStatus now start = some .late) ∧
       (now + 4294967295 < start → whenStatus now start = some .horizon) ∧
       (now ≤ start → start ≤ now + 4294967295 → whenStatus now start = none)) ∧
  ∀ (list : StepList) (kind line level pad o0 o1 o2 o3 v0 v1 v2 v3 : Byte),
    let p := [kind, line, level, pad, o0, o1, o2, o3, v0, v1, v2, v3]
    let offset := o0.toNat + 256 * o1.toNat + 65536 * o2.toNat + 16777216 * o3.toNat
    let value := v0.toNat + 256 * v1.toNat + 65536 * v2.toNat + 16777216 * v3.toNat
    (1000000 < offset ∨ kind.toNat = 0 ∨ 3 < kind.toNat → stepOf list p 0 = none) ∧
    (kind.toNat = 1 ∨ kind.toNat = 2 → 24 ≤ line.toNat ∨ 2 ≤ level.toNat → stepOf list p 0 = none) ∧
    (∀ (l : LineId) (v : Level), offset ≤ 1000000 → line.toNat = l.val → level.toNat = Level.code v →
      (kind.toNat = 1 → stepOf list p 0 = some { offset := offset, kind := .set l v }) ∧
      (kind.toNat = 2 → list = .unwind ∨ value = 0 ∨ 1000000 < value → stepOf list p 0 = none) ∧
      (kind.toNat = 2 → list = .body → 1 ≤ value → value ≤ 1000000 →
        stepOf list p 0 = some { offset := offset, kind := .await l v value })) ∧
    (offset ≤ 1000000 → kind.toNat = 3 → (65535 < value → stepOf list p 0 = none) ∧
      (value ≤ 65535 → stepOf list p 0 = some { offset := offset, kind := .mark value }))

/-- AT (R53, R54, R56): its refusals in order and the entry's admission. From the state `u` with the entry the due entries are taken in
order, each as the command of its kind takes it, until this one is not due, and then the reply is made; the bound on the number of takes
is the model's (log 28), and so is the order of the notices that one of them makes of two blocks (log 9). An edge that lies ahead keeps
its place; one that is due now, with no other entry due, is made before the reply. -/
def Obligations.AtSchedulesEdge : Prop :=
  ∀ (s : State) (p : Port) (k : SessionId) (r : Request) (pl : List Byte), BoundOk s → TimelineOk s → pl.length = 11 →
    s.Takes p .atEdge k r pl → ∃ t : State, exec (.atEdge p) s = .next t ∧
      (24 ≤ field1 pl 0 ∨ 2 ≤ field1 pl 1 ∨ whenOf pl 2 = none → s.OnlyReplies t p r (.plain .badField)) ∧
      ∀ (l : LineId) (v : Level) (w : When), field1 pl 0 = l.val → field1 pl 1 = Level.code v → whenOf pl 2 = some w →
        let start := w.start s.tick
        (s.holder l ≠ some k → s.OnlyReplies t p r (.plain .notHolder)) ∧
        (s.holder l = some k → s.lines[l].fault ≠ .none → s.OnlyReplies t p r (.plain .lineFault)) ∧
        (s.holder l = some k → s.lines[l].fault = .none → s.lines[l].mode = .input →
          s.OnlyReplies t p r (.plain .mode)) ∧
        (s.holder l = some k → s.lines[l].fault = .none → s.lines[l].mode ≠ .input →
          (∀ x : Status, whenStatus s.tick start = some x → s.OnlyReplies t p r { status := x, data := .tick s.tick }) ∧
          (whenStatus s.tick start = none → 64 ≤ s.timeline.length → s.OnlyReplies t p r (.plain .timelineFull)) ∧
          (whenStatus s.tick start = none → s.timeline.length < 64 →
            let answer : Answer := { status := .ok, data := .admitted s.nextHandle start }
            let entry : Entry :=
              { handle := s.nextHandle, owner := k, due := start, admission := s.nextAdmission, kind := .oneshot l v }
            t.Replied p r answer ∧
            (∃ u : State, ChangesOnly [.timeline] s u ∧ u.timeline = insertEntry entry s.timeline ∧
              u.handleCounter = s.nextHandle ∧ u.admissionCounter = s.nextAdmission ∧
              Settled ((State.takeUntil s.nextHandle Config.takesBound u).answer p r answer) t) ∧
            (s.tick < start → t.timeline = insertEntry entry s.timeline ∧ t.handleCounter = s.nextHandle ∧
              t.admissionCounter = s.nextAdmission ∧ s.Answers t p r answer [.timeline] []) ∧
            (start = s.tick → (∀ e ∈ s.timeline, s.tick < e.due) → t.timeline = s.timeline ∧
              t.handleCounter = s.nextHandle ∧ t.admissionCounter = s.nextAdmission ∧
              GeneratorStopped s t l ∧ LineBecomes s t l (s.lines[l].writeLevel s.tick v) ∧
              s.Answers t p r answer [.lines, .timeline, .generators] (s.cadEnds l .overridden))))

/-- CANCEL (R59). No entry of a Timeline in order has handle 0. -/
def Obligations.CancelRemovesOneshot : Prop :=
  ∀ (s : State) (p : Port) (k : SessionId) (r : Request) (b0 b1 : Byte), s.Takes p .cancel k r [b0, b1] →
    ∃ t : State, exec (.cancel p) s = .next t ∧
      let h := b0.toNat + 256 * b1.toNat
      (s.findEntry h = none ∨ TimelineOk s ∧ h = 0 → s.OnlyReplies t p r (.plain .notFound)) ∧
      ∀ e : Entry, s.findEntry h = some e →
        (e.owner ≠ k → s.OnlyReplies t p r (.plain .notFound)) ∧
        (e.owner = k → e.isOneshot = false → s.OnlyReplies t p r (.plain .kind)) ∧
        ∀ (l : LineId) (v : Level), e.owner = k → e.kind = .oneshot l v →
          s.Answers t p r { status := .ok, data := .cancelled l v e.due } [.timeline] [] ∧
          t.timeline = (s.timeline.filter fun f => decide (f.handle ≠ h)) ∧
          t.handleCounter = s.handleCounter ∧ t.admissionCounter = s.admissionCounter

/-- A ONESHOT that falls due writes its line, or fails on a faulted or INPUT line (R56, R57). An entry is not taken before its due tick
(R52): that ONESHOT_DUE then leaves the state is the model's choice (log 3). -/
def Obligations.OneshotFallsDue : Prop :=
  ∀ (s : State) (e : Entry) (rest : List Entry) (l : LineId) (v : Level), BoundOk s → TimelineOk s →
    s.timeline = e :: rest → e.kind = .oneshot l v → ∃ t : State, exec .oneshotDue s = .next t ∧
      (s.tick < e.due → t = s) ∧
      (e.due ≤ s.tick → t.timeline = rest ∧ t.handleCounter = s.handleCounter ∧
        t.admissionCounter = s.admissionCounter ∧
        (s.lines[l].fault ≠ .none → Makes s t [.timeline] [(e.owner, .actFailed e.handle l .lineFault e.due)]) ∧
        (s.lines[l].fault = .none → s.lines[l].mode = .input →
          Makes s t [.timeline] [(e.owner, .actFailed e.handle l .mode e.due)]) ∧
        (s.lines[l].fault = .none → s.lines[l].mode ≠ .input → GeneratorStopped s t l ∧
          LineBecomes s t l (s.lines[l].writeLevel s.tick v) ∧
          Makes s t [.lines, .timeline, .generators] (s.cadEnds l .overridden)))

/-! ## Sequences -/

/-- SEQ.ADD (R75, R76). -/
def Obligations.SeqAddAppends : Prop :=
  ∀ (s : State) (p : Port) (k : SessionId) (r : Request) (pl : List Byte) (n : Nat), 1 ≤ n → n ≤ 8 →
    pl.length = 2 + 12 * n → s.Takes p .seqAdd k r pl → ∃ t : State, exec (.seqAdd p) s = .next t ∧
      (16 ≤ field1 pl 0 ∨ 2 ≤ field1 pl 1 →
        s.OnlyReplies t p r { status := .badField, data := .position 0 }) ∧
      ∀ (i : SlotId) (list : StepList), field1 pl 0 = i.val → field1 pl 1 = list.code →
        let slot := s.slots[i]
        let limit := if list = .body then 32 else 8
        (slot.owner ≠ some k → s.OnlyReplies t p r (.plain .notFound)) ∧
        (slot.owner = some k → slot.state ≠ .loading → s.OnlyReplies t p r (.plain .state)) ∧
        (slot.owner = some k → slot.state = .loading →
          (∀ m : Nat, m < n → stepOf list pl (2 + 12 * m) = none →
            (∀ j : Nat, j < m → stepOf list pl (2 + 12 * j) ≠ none) →
            s.OnlyReplies t p r { status := .badField, data := .position (m + 1) }) ∧
          ∀ steps : List Step, steps.length = n →
            (∀ m : Nat, m < n → stepOf list pl (2 + 12 * m) = steps[m]?) →
            (limit < (slot.list list).length + n → s.OnlyReplies t p r (.plain .listFull)) ∧
            ((slot.list list).length + n ≤ limit → s.poolFree < n → s.OnlyReplies t p r (.plain .poolFull)) ∧
            ((slot.list list).length + n ≤ limit → n ≤ s.poolFree →
              let answer : ReplyData := .lengths t.slots[i].body.length t.slots[i].unwind.length t.poolFree
              s.Answers t p r { status := .ok, data := answer } [.pool, .slots] [] ∧
              t.poolFree = s.poolFree - n ∧
              (list = .body → SlotBecomes s t i { slot with body := slot.body ++ steps }) ∧
              (list = .unwind → SlotBecomes s t i { slot with unwind := slot.unwind ++ steps })))

/-- SEQ.NEW takes the lowest-numbered EMPTY slot (R74), SEQ.SEAL makes a LOADING slot READY (R73, R77), SEQ.FREE makes a slot that is
in no run EMPTY (R68, R69, R73, R101). -/
def Obligations.SeqNewSealFree : Prop :=
  ∀ (s : State) (p : Port) (k : SessionId) (r : Request),
    (s.Takes p .seqNew k r [] → ∃ t : State, exec (.seqNew p) s = .next t ∧
      ((∀ i : SlotId, s.slots[i].state ≠ .empty) → s.OnlyReplies t p r (.plain .slotsFull)) ∧
      ∀ i : SlotId, s.slots[i].state = .empty → (∀ j : SlotId, j < i → s.slots[j].state ≠ .empty) →
        s.Answers t p r { status := .ok, data := .slot i } [.slots] [] ∧
        SlotBecomes s t i { s.slots[i] with state := .loading, owner := some k }) ∧
    ∀ b : Byte,
      (s.Takes p .seqSeal k r [b] → ∃ t : State, exec (.seqSeal p) s = .next t ∧
        (16 ≤ b.toNat → s.OnlyReplies t p r (.plain .badField)) ∧
        ∀ i : SlotId, b.toNat = i.val →
          let slot := s.slots[i]
          let span := (slot.unwind.map Step.offset).sum
          (slot.owner ≠ some k → s.OnlyReplies t p r (.plain .notFound)) ∧
          (slot.owner = some k → slot.state ≠ .loading → s.OnlyReplies t p r (.plain .state)) ∧
          (slot.owner = some k → slot.state = .loading →
            (slot.body = [] → s.OnlyReplies t p r { status := .sealFail, data := .sealReason .emptyBody }) ∧
            (slot.body ≠ [] → 1000000 < span →
              s.OnlyReplies t p r { status := .sealFail, data := .sealReason .unwindSpan }) ∧
            (slot.body ≠ [] → span ≤ 1000000 → s.Answers t p r (.plain .ok) [.slots] [] ∧
              SlotBecomes s t i { slot with state := .ready }))) ∧
      (s.Takes p .seqFree k r [b] → ∃ t : State, exec (.seqFree p) s = .next t ∧
        (16 ≤ b.toNat → s.OnlyReplies t p r (.plain .badField)) ∧
        ∀ i : SlotId, b.toNat = i.val →
          let slot := s.slots[i]
          let inRun := slot.state = .armed ∨ slot.state = .running ∨ slot.state = .awaiting ∨ slot.state = .unwinding
          let free := s.poolFree + (slot.body.length + slot.unwind.length)
          (slot.owner ≠ some k → s.OnlyReplies t p r (.plain .notFound)) ∧
          (slot.owner = some k → inRun → s.OnlyReplies t p r (.plain .state)) ∧
          (slot.owner = some k → ¬inRun →
            s.Answers t p r { status := .ok, data := .poolFree free } [.pool, .slots] [] ∧ t.poolFree = free ∧
            SlotBecomes s t i { state := .empty, owner := none, body := [], unwind := [], cursor := none, start := none,
                                outcome := .none, reason := .none, failed := none, skipped := 0, handle := 0 }))

/-- SEQ.START (R66, R78, R79): its refusals in order and the armed run. From the armed state `u` the due entries are taken in order,
each as the command of its kind takes it, until the run's entry is not due, and then the reply is made; the bound on the number of takes
is the model's (log 28). With the first step due later than now none is taken. With no other entry due and one SET step as the whole body
the outcome is given whole: that CAD.END OVERRIDDEN of the line written comes before SEQ.END is the model's choice, which R154 leaves
open (log 9), as is the order of such notices among the entries taken. -/
def Obligations.SeqStartArms : Prop :=
  ∀ (s : State) (p : Port) (k : SessionId) (r : Request) (pl : List Byte), BoundOk s → TimelineOk s →
    pl.length = 10 → s.Takes p .seqStart k r pl → ∃ t : State, exec (.seqStart p) s = .next t ∧
      (16 ≤ field1 pl 0 ∨ whenOf pl 1 = none → s.OnlyReplies t p r (.plain .badField)) ∧
      ∀ (i : SlotId) (w : When), field1 pl 0 = i.val → whenOf pl 1 = some w →
        let slot := s.slots[i]
        let start := w.start s.tick
        let resting := slot.state = .ready ∨ slot.state = .done ∨ slot.state = .faulted ∨ slot.state = .cancelled
        (slot.owner ≠ some k → s.OnlyReplies t p r (.plain .notFound)) ∧
        (slot.owner = some k → ¬resting → s.OnlyReplies t p r (.plain .state)) ∧
        (slot.owner = some k → resting →
          (∀ (before after : List LineId) (l : LineId), slot.setLines = before ++ l :: after → s.holder l ≠ some k →
            (∀ m ∈ before, s.holder m = some k) →
            s.OnlyReplies t p r { status := .notHolder, data := .notHeld l }) ∧
          ((∀ l ∈ slot.setLines, s.holder l = some k) →
            (∀ x : Status, whenStatus s.tick start = some x →
              s.OnlyReplies t p r { status := x, data := .tick s.tick }) ∧
            (whenStatus s.tick start = none → 64 ≤ s.timeline.length →
              s.OnlyReplies t p r (.plain .timelineFull)) ∧
            ∀ (x : Step) (rest : List Step), whenStatus s.tick start = none → s.timeline.length < 64 →
              slot.body = x :: rest →
              let entry : Entry :=
                { handle := s.nextHandle, owner := k, due := start + x.offset, admission := s.nextAdmission,
                  kind := .step i .body 0 }
              let armed : Slot :=
                { slot with state := .armed, outcome := .none, reason := .none, failed := none, skipped := 0,
                            start := some start, cursor := some (.body, 0), handle := s.nextHandle }
              let answer : Answer :=
                { status := .ok, data := .started s.nextHandle start (start + x.offset) t.slots[i].state }
              t.Replied p r answer ∧
              (∃ u : State, ChangesOnly [.timeline, .slots] s u ∧ SlotBecomes s u i armed ∧
                u.timeline = insertEntry entry s.timeline ∧ u.handleCounter = s.nextHandle ∧
                u.admissionCounter = s.nextAdmission ∧
                Settled ((State.takeUntil s.nextHandle Config.takesBound u).answer p r answer) t) ∧
              (s.tick < start + x.offset → t.timeline = insertEntry entry s.timeline ∧ SlotBecomes s t i armed ∧
                t.handleCounter = s.nextHandle ∧ t.admissionCounter = s.nextAdmission ∧
                s.Answers t p r answer [.timeline, .slots] []) ∧
              ∀ (l : LineId) (v : Level), start + x.offset = s.tick → (∀ e ∈ s.timeline, s.tick < e.due) →
                x.kind = .set l v → s.lines[l].fault = .none → s.lines[l].mode ≠ .input → rest = [] →
                LineBecomes s t l (s.lines[l].writeLevel s.tick v) ∧ GeneratorStopped s t l ∧
                SlotBecomes s t i { armed with state := .done, outcome := .done, cursor := none, handle := 0 } ∧
                t.timeline = s.timeline ∧ t.handleCounter = s.nextHandle ∧ t.admissionCounter = s.nextAdmission ∧
                s.Answers t p r answer [.lines, .generators, .timeline, .slots]
                  (s.cadEnds l .overridden ++ [(k, .seqEnd i .done .none none 0 s.tick)])))

/-- SEQ.STOP (R73, R90, R94). From the state `u` in which the run has left its body the due entries are taken in order, each as the
command of its kind takes it, until the run's entry is not due, and then the reply is made; the bound on the number of takes is the
model's (log 28), and so is the order of the notices that one of them makes of two blocks (log 9). With unwind step 0, if any, due later
than now none is taken. -/
def Obligations.SeqStopLeavesBody : Prop :=
  ∀ (s : State) (p : Port) (k : SessionId) (r : Request) (b : Byte), s.Takes p .seqStop k r [b] →
    ∃ t : State, exec (.seqStop p) s = .next t ∧
      (16 ≤ b.toNat → s.OnlyReplies t p r (.plain .badField)) ∧
      ∀ i : SlotId, b.toNat = i.val →
        let slot := s.slots[i]
        let inBody := slot.state = .armed ∨ slot.state = .running ∨ slot.state = .awaiting
        (slot.owner ≠ some k → s.OnlyReplies t p r (.plain .notFound)) ∧
        (slot.owner = some k → ¬inBody → s.OnlyReplies t p r (.plain .state)) ∧
        ∀ n : Nat, slot.owner = some k → inBody → slot.cursor = some (.body, n) →
          (∃ u : State, ChangesOnly [.timeline, .slots, .numbers, .queues] s u ∧ s.BodyIsLeft u i .stopped n ∧
            Made s u (s.leavingEnds i .stopped n) ∧
            Settled ((State.takeUntil slot.handle Config.takesBound u).answer p r
              { status := .ok, data := .stopped t.slots[i].failed t.slots[i].state }) t) ∧
          ((∀ x ∈ slot.unwind.head?, 0 < x.offset) →
            s.Answers t p r { status := .ok, data := .stopped (some n) t.slots[i].state } [.timeline, .slots]
              (s.leavingEnds i .stopped n) ∧
            s.BodyIsLeft t i .stopped n)

/-- A body step falls due (R52, R81 to R83, R86, R88, R90). That the CAD.END of the line written comes before the SEQ.END of a run whose
last step wrote it is the model's choice (log 9). -/
def Obligations.BodyStepFallsDue : Prop :=
  ∀ (s : State) (e : Entry) (rest : List Entry) (i : SlotId) (n : Nat) (k : SessionId) (x : Step), BoundOk s → TimelineOk s →
    RunsOk s → s.timeline = e :: rest → e.kind = .step i .body n → e.due ≤ s.tick → e.owner = k →
    s.slots[i].body[n]? = some x →
    ∃ t : State, exec .stepDue s = .next t ∧
      (∀ (l : LineId) (v : Level), x.kind = .set l v →
        (s.lines[l].fault ≠ .none → s.BodyIsLeft t i .lineFault n ∧
          Makes s t [.timeline, .slots] (s.leavingEnds i .lineFault n)) ∧
        (s.lines[l].fault = .none → s.lines[l].mode = .input → s.BodyIsLeft t i .mode n ∧
          Makes s t [.timeline, .slots] (s.leavingEnds i .mode n)) ∧
        (s.lines[l].fault = .none → s.lines[l].mode ≠ .input → s.BodyGoesOn t i n ∧
          GeneratorStopped s t l ∧ LineBecomes s t l (s.lines[l].writeLevel s.tick v) ∧
          Makes s t [.lines, .timeline, .slots, .generators] (s.cadEnds l .overridden ++ s.bodyEnds i n))) ∧
      (∀ label : Nat, x.kind = .mark label → s.BodyGoesOn t i n ∧
        Makes s t [.timeline, .slots] ((k, .seqMark i label s.tick) :: s.bodyEnds i n)) ∧
      ∀ (l : LineId) (v : Level) (limit : Nat), x.kind = .await l v limit →
        (s.lines[l].sensed = v → s.BodyGoesOn t i n ∧ Makes s t [.timeline, .slots] (s.bodyEnds i n)) ∧
        (s.lines[l].sensed ≠ v →
          s.MovesTo t i { s.slots[i] with state := .awaiting, cursor := some (.body, n) } (s.tick + limit)
            (.deadline i .body n) ∧ Makes s t [.timeline, .slots] [])

/-- An unwind step falls due (R91, R92), and the deadline of an AWAIT (R85, R88). From `s` to `u` the step is taken; from `u` to `v`
the closing of a CLOSING session completes, when that ended its last run (R97, R151). That the CAD.END of the line written comes before
the SEQ.END is the model's choice (log 9). -/
def Obligations.UnwindStepAndDeadlineFallDue : Prop :=
  ∀ (s : State) (e : Entry) (rest : List Entry) (i : SlotId) (n : Nat) (k : SessionId), BoundOk s → SessionsOk s →
    TimelineOk s → RunsOk s → s.timeline = e :: rest → e.due ≤ s.tick → e.owner = k →
    (e.kind = .step i .unwind n → ∀ x : Step, s.slots[i].unwind[n]? = some x →
      ∃ t u v : State, exec .stepDue s = .next t ∧ Settled v t ∧
        (s.sessions[k].state = .opened → v = u) ∧
        (∀ (p : Port) (cause : CloseCause), s.sessions[k].state = .closing → s.sessions[k].port = some p →
          s.sessions[k].cause = some cause → u.Checks v p k cause) ∧
        (∀ label : Nat, x.kind = .mark label → s.UnwindGoesOn u i n s.slots[i].skipped ∧
          Made s u ((k, .seqMark i label s.tick) :: s.unwindEnds i n s.slots[i].skipped) ∧
          ChangesOnly [.timeline, .slots, .numbers, .queues] s u) ∧
        ∀ (l : LineId) (v' : Level), x.kind = .set l v' →
          let skip := s.holder l ≠ some k ∨ s.lines[l].fault ≠ .none ∨ s.lines[l].mode = .input
          (skip → s.UnwindGoesOn u i n (s.slots[i].skipped + 1) ∧
            Made s u (s.unwindEnds i n (s.slots[i].skipped + 1)) ∧
            ChangesOnly [.timeline, .slots, .numbers, .queues] s u) ∧
          (¬skip → s.UnwindGoesOn u i n s.slots[i].skipped ∧ GeneratorStopped s u l ∧
            LineBecomes s u l (s.lines[l].writeLevel s.tick v') ∧
            Made s u (s.cadEnds l .overridden ++ s.unwindEnds i n s.slots[i].skipped) ∧
            ChangesOnly [.lines, .timeline, .slots, .generators, .numbers, .queues] s u)) ∧
    (e.kind = .deadline i .body n → ∃ t : State, exec .deadlineDue s = .next t ∧
      s.BodyIsLeft t i .awaitTimeout n ∧ Makes s t [.timeline, .slots] (s.leavingEnds i .awaitTimeout n))

/-! ## Watches -/

/-- WATCH.SET (R121 to R123). -/
def Obligations.WatchSetMakesWatch : Prop :=
  ∀ (s : State) (p : Port) (k : SessionId) (r : Request) (b0 b1 b2 b3 b4 b5 : Byte), WatchesOk s →
    s.Takes p .watchSet k r [b0, b1, b2, b3, b4, b5] → ∃ t : State, exec (.watchSet p) s = .next t ∧
      let threshold := b4.toNat + 256 * b5.toNat
      (24 ≤ b0.toNat ∨ b1.toNat = 0 ∨ 3 < b1.toNat ∨
          ((b1.toNat = 1 ∨ b1.toNat = 3) ∧ (b2.toNat = 0 ∨ 3 < b2.toNat)) ∨ (b1.toNat = 2 ∧ 2 ≤ b3.toNat) ∨
          (b1.toNat = 3 ∧ threshold = 0) →
        s.OnlyReplies t p r (.plain .badField)) ∧
      ∀ (l : LineId) (e : EdgeSelect) (v : Level) (kind : WatchKind), b0.toNat = l.val →
        (b1.toNat = 1 ∧ b2.toNat = e.code ∧ kind = .edge e) ∨
          (b1.toNat = 2 ∧ b3.toNat = Level.code v ∧ kind = .level v) ∨
          (b1.toNat = 3 ∧ b2.toNat = e.code ∧ 1 ≤ threshold ∧ kind = .count e threshold) →
        let mine := fun w : WatchId => ∃ x : Watch, s.watches[w] = some x ∧ x.session = k ∧ x.line = l
        let count := (allWatches.filter fun w => decide (s.watches[w].map Watch.session = some k)).length
        let sensed := s.lines[l].sensed
        let fresh : Watch :=
          { session := k, line := l, kind := kind, state := .armed, first := none, last := none, coalesce := 0,
            running := 0, overrun := 0 }
        (∀ w : WatchId, mine w →
          s.OnlyReplies t p r { status := .duplicate, data := .watchExists w }) ∧
        ((∀ w : WatchId, ¬mine w) → (16 ≤ count ∨ ∀ w : WatchId, s.watches[w] ≠ none) →
          s.OnlyReplies t p r (.plain .watchFull)) ∧
        ∀ w : WatchId, (∀ w' : WatchId, ¬mine w') → count < 16 → s.watches[w] = none →
          (∀ w' : WatchId, w' < w → s.watches[w'] ≠ none) →
          let answer : Answer := { status := .ok, data := .watchMade w sensed }
          (kind ≠ .level sensed → WatchBecomes s t w (some fresh) ∧ s.Answers t p r answer [.watches] []) ∧
          (kind = .level sensed →
            WatchBecomes s t w (some { fresh with state := .pending, first := some s.tick, last := some s.tick }) ∧
            s.Answers t p r answer [.watches] [(k, .watchHit w l kind sensed s.tick)])

/-- WATCH.ACK (R133, R134) and WATCH.DROP (R137). -/
def Obligations.WatchAckAndDrop : Prop :=
  ∀ (s : State) (p : Port) (k : SessionId) (r : Request) (b : Byte),
    (s.Takes p .watchAck k r [b] → ∃ t : State, exec (.watchAck p) s = .next t ∧
      (32 ≤ b.toNat → s.OnlyReplies t p r (.plain .badField)) ∧
      ∀ w : WatchId, b.toNat = w.val →
        (s.watches[w] = none → s.OnlyReplies t p r (.plain .notFound)) ∧
        ∀ x : Watch, s.watches[w] = some x →
          (x.session ≠ k → s.OnlyReplies t p r (.plain .notFound)) ∧
          (x.session = k → x.state = .armed → s.OnlyReplies t p r (.plain .state)) ∧
          (x.session = k → x.state = .pending →
            let sensed := s.lines[x.line].sensed
            let acked : Watch := { x with state := .armed, first := none, last := none, coalesce := 0, overrun := 0 }
            (x.kind ≠ .level sensed →
              s.Answers t p r { status := .ok, data := .acknowledged x sensed .armed } [.watches] [] ∧
              WatchBecomes s t w (some acked)) ∧
            (x.kind = .level sensed →
              s.Answers t p r { status := .ok, data := .acknowledged x sensed .pending } [.watches]
                [(k, .watchHit w x.line x.kind sensed s.tick)] ∧
              WatchBecomes s t w (some { acked with state := .pending, first := some s.tick, last := some s.tick })))) ∧
    (s.Takes p .watchDrop k r [b] → ∃ t : State, exec (.watchDrop p) s = .next t ∧
      (32 ≤ b.toNat → s.OnlyReplies t p r (.plain .badField)) ∧
      ∀ w : WatchId, b.toNat = w.val →
        (s.watches[w] = none → s.OnlyReplies t p r (.plain .notFound)) ∧
        ∀ x : Watch, s.watches[w] = some x →
          (x.session ≠ k → s.OnlyReplies t p r (.plain .notFound)) ∧
          (x.session = k → s.Answers t p r { status := .ok, data := .dropped x } [.watches] [] ∧
            WatchBecomes s t w none))

/-! ## Generators -/

/-- CAD.SET (R105, R106). -/
def Obligations.CadSetBinds : Prop :=
  ∀ (s : State) (p : Port) (k : SessionId) (r : Request) (pl : List Byte), pl.length = 13 →
    s.Takes p .cadSet k r pl → ∃ t : State, exec (.cadSet p) s = .next t ∧
      (4 ≤ field1 pl 0 ∨ 24 ≤ field1 pl 1 ∨ 3 ≤ field1 pl 12 → s.OnlyReplies t p r (.plain .badField)) ∧
      ∀ (g : GenId) (l : LineId) (rest : RestLevel), field1 pl 0 = g.val → field1 pl 1 = l.val →
        field1 pl 12 = rest.code →
        let gen := s.generators[g]
        let line := s.lines[l]
        let period := field4 pl 2
        let high := field4 pl 6
        let free := gen.state = .free ∨ (gen.state = .stopped ∧ gen.owner = some k)
        let other := ∃ h : GenId, h ≠ g ∧ s.generators[h].state ≠ .free ∧ s.generators[h].line = some l
        let wave := 2 ≤ period ∧ period ≤ 1000000 ∧ 1 ≤ high ∧ high ≤ period - 1 ∧ (line.mode = .assist → line.assist ≤ high)
        (¬free → s.OnlyReplies t p r (.plain .state)) ∧
        (free → s.holder l ≠ some k → s.OnlyReplies t p r (.plain .notHolder)) ∧
        (free → s.holder l = some k →
          (line.fault ≠ .none → s.OnlyReplies t p r (.plain .lineFault)) ∧
          (line.fault = .none → line.mode = .input → s.OnlyReplies t p r (.plain .mode)) ∧
          (line.fault = .none → line.mode ≠ .input →
            (other → s.OnlyReplies t p r (.plain .lineBound)) ∧
            (¬other → ¬wave → s.OnlyReplies t p r (.plain .badField)) ∧
            (¬other → wave → s.Answers t p r (.plain .ok) [.generators] [] ∧
              GeneratorBecomes s t g { state := .stopped, owner := some k, line := some l, period := period, high := high,
                                       cycles := field2 pl 10, rest := rest, start := none, completed := 0 })))

/-- CAD.RUN (R107). -/
def Obligations.CadRunStarts : Prop :=
  ∀ (s : State) (p : Port) (k : SessionId) (r : Request) (pl : List Byte), BoundOk s → pl.length = 10 →
    s.Takes p .cadRun k r pl → ∃ t : State, exec (.cadRun p) s = .next t ∧
      (4 ≤ field1 pl 0 ∨ whenOf pl 1 = none → s.OnlyReplies t p r (.plain .badField)) ∧
      ∀ (g : GenId) (w : When), field1 pl 0 = g.val → whenOf pl 1 = some w →
        let gen := s.generators[g]
        let start := w.start s.tick
        (gen.owner ≠ some k → s.OnlyReplies t p r (.plain .notFound)) ∧
        (gen.owner = some k → gen.state ≠ .stopped → s.OnlyReplies t p r (.plain .state)) ∧
        ∀ l : LineId, gen.owner = some k → gen.state = .stopped → gen.line = some l →
          (s.lines[l].fault ≠ .none → s.OnlyReplies t p r (.plain .lineFault)) ∧
          (s.lines[l].fault = .none →
            (∀ x : Status, whenStatus s.tick start = some x →
              s.OnlyReplies t p r { status := x, data := .tick s.tick }) ∧
            (whenStatus s.tick start = none → s.tick < start →
              s.Answers t p r { status := .ok, data := .cadRun start .pending } [.generators] [] ∧
              GeneratorBecomes s t g { gen with state := .pending, start := some start, completed := 0 }) ∧
            (start = s.tick →
              s.Answers t p r { status := .ok, data := .cadRun start (.running start false) } [.lines, .generators] [] ∧
              GeneratorBecomes s t g { gen with state := .running start false, start := some start, completed := 0 } ∧
              LineBecomes s t l (s.lines[l].writeLevel s.tick .high)))

/-- CAD.HOLD stops a PENDING or RUNNING generator, with its rest level and no notice (R111), and CAD.FREE returns a STOPPED one to FREE
(R107, R116). -/
def Obligations.CadHoldAndFree : Prop :=
  ∀ (s : State) (p : Port) (k : SessionId) (r : Request) (b : Byte),
    (BoundOk s → s.Takes p .cadHold k r [b] → ∃ t : State, exec (.cadHold p) s = .next t ∧
      (4 ≤ b.toNat → s.OnlyReplies t p r (.plain .badField)) ∧
      ∀ g : GenId, b.toNat = g.val →
        let gen := s.generators[g]
        (gen.owner ≠ some k → s.OnlyReplies t p r (.plain .notFound)) ∧
        (gen.owner = some k → gen.state = .stopped → s.OnlyReplies t p r (.plain .state)) ∧
        ∀ l : LineId, gen.owner = some k → gen.active = true → gen.line = some l →
          s.Answers t p r { status := .ok, data := .cadHold gen.completed s.tick } [.lines, .generators] [] ∧
          GeneratorBecomes s t g { gen with state := .stopped } ∧
          (gen.rest = .keep → t.lines = s.lines) ∧
          (gen.rest = .low → LineBecomes s t l (s.lines[l].writeLevel s.tick .low)) ∧
          (gen.rest = .high → LineBecomes s t l (s.lines[l].writeLevel s.tick .high))) ∧
    (s.Takes p .cadFree k r [b] → ∃ t : State, exec (.cadFree p) s = .next t ∧
      (4 ≤ b.toNat → s.OnlyReplies t p r (.plain .badField)) ∧
      ∀ g : GenId, b.toNat = g.val →
        let gen := s.generators[g]
        (gen.owner ≠ some k → s.OnlyReplies t p r (.plain .notFound)) ∧
        (gen.owner = some k → gen.active = true → s.OnlyReplies t p r (.plain .state)) ∧
        (gen.owner = some k → gen.state = .stopped → s.Answers t p r (.plain .ok) [.generators] [] ∧
          GeneratorBecomes s t g { state := .free, owner := none, line := none, period := 0, high := 0, cycles := 0,
                                   rest := .keep, start := none, completed := 0 }))

/-- A generator's own ticks: its start (R108, R109), the LOW write of a cycle (R109) and the end of a cycle (R110). -/
def Obligations.GeneratorTicks : Prop :=
  ∀ (s : State) (g : GenId) (l : LineId) (u : Tick), s.generators[g].line = some l →
    let gen := s.generators[g]
    (gen.state = .pending → gen.start = some u → u ≤ s.tick → ∃ t : State, exec (.cadStart g) s = .next t ∧
      GeneratorBecomes s t g { gen with state := .running u false } ∧
      LineBecomes s t l (s.lines[l].writeLevel s.tick .high) ∧ ChangesOnly [.lines, .generators] s t) ∧
    (gen.state = .running u false → u + gen.high ≤ s.tick → ∃ t : State, exec (.cadLowWrite g) s = .next t ∧
      GeneratorBecomes s t g { gen with state := .running u true } ∧
      LineBecomes s t l (s.lines[l].writeLevel s.tick .low) ∧ ChangesOnly [.lines, .generators] s t) ∧
    (gen.state = .running u true → u + gen.period ≤ s.tick → ∃ t : State, exec (.cadCycleEnd g) s = .next t ∧
      let completed := if gen.completed < 4294967295 then gen.completed + 1 else gen.completed
      let last := gen.cycles ≠ 0 ∧ completed = gen.cycles
      (¬last → GeneratorBecomes s t g { gen with state := .running (u + gen.period) false, completed := completed } ∧
        LineBecomes s t l (s.lines[l].writeLevel s.tick .high) ∧ Makes s t [.lines, .generators] []) ∧
      (last → GeneratorBecomes s t g { gen with state := .stopped, completed := completed } ∧
        (gen.rest = .keep → t.lines = s.lines) ∧
        (gen.rest = .low → LineBecomes s t l (s.lines[l].writeLevel s.tick .low)) ∧
        (gen.rest = .high → LineBecomes s t l (s.lines[l].writeLevel s.tick .high)) ∧
        ∀ k : SessionId, gen.owner = some k →
          Makes s t [.lines, .generators] [(k, .cadEnd g (some l) .done completed s.tick)]))

/-! ## Ports -/

/-- RESTART (R174): accepted when no other session is OPEN or CLOSING; its port then takes no further request. -/
def Obligations.RestartAccepts : Prop :=
  ∀ (s : State) (p : Port) (k : SessionId) (r : Request), s.Takes p .restart k r [] →
    ∃ t : State, exec (.restart p) s = .next t ∧
      ((∃ j : SessionId, j ≠ k ∧ s.sessions[j].state ≠ .free) → s.OnlyReplies t p r (.plain .othersOpen)) ∧
      ((∀ j : SessionId, j ≠ k → s.sessions[j].state = .free) →
        t.takeable p = none ∧ ∃ u : State, u.port p = { s.port p with stopped := true } ∧
          (∀ q : Port, q ≠ p → u.port q = s.port q) ∧ ChangesOnly [.reception] s u ∧
          Settled (u.answer p r (.plain .ok)) t)

/-- What a port makes of the bytes of a frame that arrive at one tick with its receiver in HUNT (R161, R162, R164, R142). That a
frame's bytes come together is the model's choice (log 15). -/
def Obligations.FrameReception : Prop :=
  ∀ (s : State) (p : Port), s.heldInReset = false →
    (s.port p).awaitsIdle = false → (s.port p).receiver = .hunt →
    (∀ b : Byte, b ≠ 0xD5#8 → exec (.frameReceived p [b]) s = .next s) ∧
    (∀ b : Byte, b.toNat < 3 ∨ 120 < b.toNat → ∃ t : State, exec (.frameReceived p [0xD5#8, b]) s = .next t ∧
      t.port p = { s.port p with length := if (s.port p).length < 65535 then (s.port p).length + 1 else (s.port p).length } ∧
      (∀ q : Port, q ≠ p → t.port q = s.port q) ∧ ChangesOnly [.reception] s t) ∧
    ∀ (body : List Byte) (low high : Byte), 3 ≤ body.length → body.length ≤ 120 →
      let covered := BitVec.ofNat 8 body.length :: body
      let request : Request :=
        { session := field1 body 0 % 16, type := body.getD 1 0, tag := body.getD 2 0, payload := body.drop 3 }
      let good := low.toNat + 256 * high.toNat = (crc16 covered).toNat
      ∃ t : State, exec (.frameReceived p (0xD5#8 :: covered ++ [low, high])) s = .next t ∧
        (∀ q : Port, q ≠ p → t.port q = s.port q) ∧
        (¬good → ChangesOnly [.reception] s t ∧
          t.port p = { s.port p with crc := if (s.port p).crc < 65535 then (s.port p).crc + 1 else (s.port p).crc }) ∧
        (good → field1 body 0 / 16 ≠ 1 → t.port p = s.port p ∧ ChangesOnly [] s t) ∧
        (good → field1 body 0 / 16 = 1 → 4 ≤ (s.port p).inbound.length → ChangesOnly [.reception] s t ∧
          t.port p = { s.port p with
            overrun := if (s.port p).overrun < 65535 then (s.port p).overrun + 1 else (s.port p).overrun }) ∧
        (good → field1 body 0 / 16 = 1 → (s.port p).inbound.length < 4 →
          t.port p = { s.port p with inbound := (s.port p).inbound ++ [.waiting request] } ∧
          ChangesOnly [.sessions, .sending] s t ∧
          ∀ k : SessionId, t.sessions[k] =
            (if request.session = k.val + 1 ∧ s.sessions[k].state = .opened ∧ s.sessions[k].port = some p
              then { s.sessions[k] with lastHeard := some s.tick } else s.sessions[k]))

/-- The gap limit expires 1,001 ticks after the latest byte of a partial frame (R163), and the idle line after a reset or a break
makes the receiver listen again (R170, R176). That GAP_TIMEOUT leaves the state where the limit is not reached is the model's choice
(log 3). -/
def Obligations.GapLimitAndIdleLine : Prop :=
  ∀ (s : State) (p : Port),
    (∃ t : State, exec (.gapTimeout p) s = .next t ∧
      ((s.port p).receiver = .hunt → t = s) ∧
      ∀ (u len : Nat) (got : List Byte) (low : Option Byte),
        (s.port p).receiver = .length u ∨ (s.port p).receiver = .body len got u ∨ (s.port p).receiver = .check got low u →
        (s.tick < u + 1001 → t = s) ∧
        (u + 1001 ≤ s.tick → ChangesOnly [.reception] s t ∧ (∀ q : Port, q ≠ p → t.port q = s.port q) ∧
          t.port p = { s.port p with
            receiver := .hunt, gap := if (s.port p).gap < 65535 then (s.port p).gap + 1 else (s.port p).gap })) ∧
    (s.heldInReset = false → ∃ t : State, exec (.rxIdle p) s = .next t ∧
      t.port p = { s.port p with awaitsIdle := false } ∧ (∀ q : Port, q ≠ p → t.port q = s.port q) ∧
      ChangesOnly [.reception] s t)

/-- The end of a transmission other than an accepted RESTART's reply, when the frame has taken its time: a reply's slot is freed, and
the arbiter begins the oldest pending port frame, else the pending reply, else the next session's head notice (R164, R168, R169).
Notices made at this very tick wait for the tick's end (log 7). Before the frame's last byte leaves, FRAME_SENT changes nothing (log 3;
the rounding at 115,200 baud is log 17). An ENDED frame thus goes before a pending reply, that to the CLOSE of its session too: R168 and
R152 say so, the last but one sentence of R146 does not (log 32). -/
def Obligations.FrameSentChoosesNext : Prop :=
  ∀ (s : State) (p : Port) (pin : Level) (x : Transmission), (s.port p).transmitter = some x →
    (s.tick < x.ends s.baud → exec (.frameSent p pin) s = .next s) ∧
    (x.ends s.baud ≤ s.tick → (∀ r : Reply, x.frame = .reply r → ¬(r.type = 0x0C#8 ∧ r.status = .ok)) →
      ∃ (t u : State) (slots : List InboundSlot), exec (.frameSent p pin) s = .next t ∧
        u.port p = { s.port p with transmitter := none, inbound := slots } ∧
        (∀ q : Port, q ≠ p → u.port q = s.port q) ∧ ChangesOnly [.sending] s u ∧ Settled u t ∧
        ((∀ r : Reply, x.frame ≠ .reply r) ∨ .sending ∉ (s.port p).inbound → slots = (s.port p).inbound) ∧
        (∀ (r : Reply) (before after : List InboundSlot), x.frame = .reply r → .sending ∉ before →
          (s.port p).inbound = before ++ .sending :: after → slots = before ++ after) ∧
        let reply := answeredReply slots
        let ready := fun k : SessionId =>
          s.sessions[k].port = some p ∧ s.sessions[k].joinedNow < s.sessions[k].queue.length
        let last := (s.port p).roundRobin
        (∀ (f : PortFrame) (rest : List PortFrame), (s.port p).frames = f :: rest →
          (t.port p).transmitter = some { frame := .port f, begun := s.tick } ∧ (t.port p).frames = rest) ∧
        ((s.port p).frames = [] →
          (∀ r : Reply, reply = some r → (t.port p).transmitter = some { frame := .reply r, begun := s.tick }) ∧
          (reply = none → (∀ k : SessionId, ¬ready k) → (t.port p).transmitter = none) ∧
          ∀ (k : SessionId) (n : Notice) (rest : List Notice), reply = none → ready k → s.sessions[k].queue = n :: rest →
            (∀ j : SessionId, ready j → (k.val + 4 - last % 4) % 4 ≤ (j.val + 4 - last % 4) % 4) →
            (t.port p).transmitter = some { frame := .notice k n, begun := s.tick } ∧
              (t.port p).roundRobin = k.val + 1 ∧ t.sessions[k].queue = rest))

/-- What the part sends (R160, R177, R178, R181, R183): the bytes of every frame, its time, and the level of TX. The level at a tick that
is no bit's first is the one of the bit under way (log 17). -/
def Obligations.FrameBytes : Prop :=
  (∀ f : TxFrame,
    f.wire = [0xD5#8, BitVec.ofNat 8 f.body.length] ++ f.body ++
      fields [(2, (crc16 (BitVec.ofNat 8 f.body.length :: f.body)).toNat)]) ∧
  (∀ r : Reply, (TxFrame.reply r).body =
    fields [(1, 0x20 + r.session % 16), (1, r.type.toNat), (1, r.tag.toNat), (1, r.status.code)] ++ r.data.bytes) ∧
  (∀ (k : SessionId) (n : Notice), (TxFrame.notice k n).body =
    fields [(1, 0x31 + k.val), (1, n.body.code.toNat), (1, 0), (2, n.number.toNat), (2, n.lost)] ++ n.body.bytes) ∧
  (∀ (cause : ResetCause) (rate : Baud), (TxFrame.port (.startup cause rate)).body =
    fields [(1, 0x40), (1, 0xF0), (1, 0), (1, cause.code), (1, 0x42), (4, rate.rate)]) ∧
  (∀ (k : SessionId) (cause : CloseCause), (TxFrame.port (.ended k cause)).body =
    fields [(1, 0x41 + k.val), (1, 0xF1), (1, 0), (1, k.val + 1), (1, cause.code)]) ∧
  (∀ (l : LineId) (u : Tick) (faulted : Bool) (mode : Mode) (v w : Level) (h : Nat) (why : ActReason),
    (NoticeBody.grant l u faulted mode v).code = 0x80#8 ∧
    (NoticeBody.grant l u faulted mode v).bytes =
      fields [(1, l.val), (8, u), (1, if faulted then 1 else 0), (1, mode.code), (1, Level.code v)] ∧
    (NoticeBody.claimLapsed l u).code = 0x81#8 ∧ (NoticeBody.claimLapsed l u).bytes = fields [(1, l.val), (8, u)] ∧
    (NoticeBody.contention l v w u).code = 0x82#8 ∧
    (NoticeBody.contention l v w u).bytes = fields [(1, l.val), (1, Level.code v), (1, Level.code w), (8, u)] ∧
    (NoticeBody.actFailed h l why u).code = 0x83#8 ∧
    (NoticeBody.actFailed h l why u).bytes = fields [(2, h), (1, l.val), (1, why.code), (8, u)]) ∧
  (∀ (i : SlotId) (label : Nat) (u : Tick) (outcome : SeqOutcome) (why : SeqReason) (failed : Option Nat) (skipped : Nat),
    (NoticeBody.seqMark i label u).code = 0x84#8 ∧
    (NoticeBody.seqMark i label u).bytes = fields [(1, i.val), (2, label), (8, u)] ∧
    (NoticeBody.seqEnd i outcome why failed skipped u).code = 0x85#8 ∧
    (NoticeBody.seqEnd i outcome why failed skipped u).bytes =
      fields [(1, i.val), (1, outcome.code), (1, why.code), (1, failed.getD 0xFF), (1, skipped), (8, u)]) ∧
  (∀ (w : WatchId) (l : LineId) (kind : WatchKind) (v : Level) (u : Tick) (g : GenId) (line : Option LineId)
    (cause : CadEndCause) (count : Nat),
    (NoticeBody.watchHit w l kind v u).code = 0x86#8 ∧
    (NoticeBody.watchHit w l kind v u).bytes = fields [(1, w.val), (1, l.val), (1, kind.code), (1, Level.code v), (8, u)] ∧
    (NoticeBody.cadEnd g line cause count u).code = 0x87#8 ∧
    (NoticeBody.cadEnd g line cause count u).bytes =
      fields [(1, g.val), (1, (line.map Fin.val).getD 0xFF), (1, cause.code), (4, count), (8, u)]) ∧
  (∀ x : Transmission, x.ends .b1000000 = x.begun + (x.frame.body.length + 4) * 10 ∧
    let span := (x.frame.body.length + 4) * 10 * 1000000
    (x.ends .b115200 - x.begun) * 115200 < span + 115200 ∧ span < (x.ends .b115200 - x.begun) * 115200 + 115200) ∧
  ∀ (s : State) (p : Port),
    (s.heldInReset = true ∨ (s.port p).transmitter = none → s.txPin p = .high) ∧
    ∀ (x : Transmission) (i j : Nat), s.heldInReset = false → (s.port p).transmitter = some x → i < x.frame.wire.length →
      j < 10 → (s.tick - x.begun) * s.baud.rate / 1000000 = 10 * i + j →
      (j = 0 → s.txPin p = .low) ∧ (j = 9 → s.txPin p = .high) ∧
        (1 ≤ j → j ≤ 8 → (s.txPin p = .high ↔ (x.frame.wire.getD i 0).getLsbD (j - 1) = true))

/-- What follows the status in every reply (09 section 9.5), and the codes of R181. Where section 9.5 lays a reply out only by "the order
that rule lists its items", the order is read from the request's rule (log 23). -/
def Obligations.ReplyBytes : Prop :=
  let absent := 0xFFFFFFFFFFFFFFFF
  ([Level.low, .high].map Level.code = [0, 1] ∧ [Mode.input, .push, .sink, .assist].map Mode.code = [0, 1, 2, 3] ∧
    [false, true].map Bool.code = [0, 1] ∧ [StepList.body, .unwind].map StepList.code = [0, 1] ∧
    [SeqState.empty, .loading, .ready, .armed, .running, .awaiting, .unwinding, .done, .faulted, .cancelled].map
      SeqState.code = [0, 1, 2, 3, 4, 5, 6, 7, 8, 9] ∧
    [SeqOutcome.none, .done, .faulted, .cancelled].map SeqOutcome.code = [0, 1, 2, 3] ∧
    [SeqReason.none, .lineFault, .mode, .awaitTimeout, .stopped, .released, .sessionEnd].map SeqReason.code =
      [0, 1, 2, 3, 4, 5, 6] ∧
    [SealReason.emptyBody, .unwindSpan].map SealReason.code = [1, 2] ∧ [ActReason.lineFault, .mode].map ActReason.code = [1, 2] ∧
    [EdgeSelect.rise, .fall, .both].map EdgeSelect.code = [1, 2, 3] ∧ [WatchState.armed, .pending].map WatchState.code = [1, 2] ∧
    [RestLevel.keep, .low, .high].map RestLevel.code = [0, 1, 2] ∧
    [CadEndCause.done, .overridden, .fault, .released].map CadEndCause.code = [1, 2, 3, 4] ∧
    [SessionState.free, .opened, .closing].map SessionState.code = [0, 1, 2] ∧
    [none, some Port.a, some Port.b].map portCode = [0, 1, 2] ∧ [CloseCause.closed, .lapsed, .brk].map CloseCause.code = [1, 2, 3] ∧
    [ResetCause.power, .pin, .restart].map ResetCause.code = [1, 2, 3] ∧ [Baud.b115200, .b1000000].map Baud.rate = [115200, 1000000] ∧
    [Status.ok, .queued, .already, .badLength, .badType, .badField, .noSession, .sessionFull, .othersOpen, .notHolder, .held,
      .duplicate, .notFound, .inUse, .lineFault, .mode, .lineBound, .late, .horizon, .timelineFull, .kind, .slotsFull,
      .poolFull, .listFull, .sealFail, .state, .watchFull].map Status.code =
      [0x00, 0x01, 0x02, 0x10, 0x11, 0x12, 0x13, 0x14, 0x15, 0x18, 0x19, 0x1A, 0x1B, 0x1C, 0x20, 0x21, 0x22, 0x28, 0x29,
        0x2A, 0x30, 0x38, 0x39, 0x3A, 0x3B, 0x3C, 0x40]) ∧
  (∀ (e : EdgeSelect) (v : Level) (n : Nat), WatchKind.code (.edge e) = 1 ∧ WatchKind.code (.level v) = 2 ∧
    WatchKind.code (.count e n) = 3) ∧
  (∀ (u : Tick) (b : Bool), GenState.code .free = 0 ∧ GenState.code .stopped = 1 ∧ GenState.code .pending = 2 ∧
    GenState.code (.running u b) = 3) ∧
  ReplyData.none.bytes = [] ∧
  (∀ (k : SessionId) (p : Port) (n u : Nat) (next : Word16) (lost waiting : Nat),
    (ReplyData.opened k p n u).bytes = fields [(1, k.val + 1), (1, portCode (some p)), (2, n), (8, u)] ∧
    (ReplyData.pong u next lost waiting).bytes = fields [(8, u), (2, next.toNat), (2, lost), (1, waiting)] ∧
    (ReplyData.tick u).bytes = fields [(8, u)] ∧ (ReplyData.queued n k).bytes = fields [(1, n), (1, k.val + 1)] ∧
    (ReplyData.holder k).bytes = fields [(1, k.val + 1)] ∧ (ReplyData.position n).bytes = fields [(1, n)] ∧
    (ReplyData.poolFree n).bytes = fields [(2, n)] ∧ (ReplyData.cadHold n u).bytes = fields [(4, n), (8, u)] ∧
    (ReplyData.lengths n lost waiting).bytes = fields [(1, n), (1, lost), (2, waiting)] ∧
    (ReplyData.counts n lost waiting).bytes = fields [(1, n), (1, lost), (1, waiting)] ∧
    (ReplyData.admitted n u).bytes = fields [(2, n), (8, u)]) ∧
  (∀ x : StatusReport, (ReplyData.session x).bytes = fields ([(1, x.session.val + 1),
      (1, portCode x.record.port), (2, x.record.keepalive), (8, x.record.lastHeard.getD absent),
      (8, x.record.lapseTick.getD absent), (1, x.record.queue.length), (2, x.record.nextNumber.toNat), (2, x.record.lost),
      (1, x.leases), (1, x.places), (1, x.watches), (1, x.slots), (1, x.generators), (1, x.oneshots)] ++
      x.sessions.flatMap fun y => [(1, y.1.code), (1, portCode y.2)])) ∧
  (∀ (u : Tick) (a b c d : LineMap), (ReplyData.snapshot u a b c d).bytes =
    fields [(8, u), (3, a.toNat), (3, b.toNat), (3, c.toNat), (3, d.toNat)]) ∧
  (∀ a b : PortReport, (ReplyData.ports a b).bytes = fields ([a, b].flatMap fun x =>
    [(2, x.crc), (2, x.gap), (2, x.length), (2, x.overrun), (2, x.brk), (1, x.slots), (1, x.sessions)])) ∧
  (∀ (l : LineId) (u : Tick) (faulted : Bool) (mode : Mode) (v : Level),
    (ReplyData.lease u faulted mode v).bytes = fields [(8, u), (1, faulted.code), (1, mode.code), (1, Level.code v)] ∧
    (ReplyData.cancelled l v u).bytes = fields [(1, l.val), (1, Level.code v), (8, u)] ∧
    (ReplyData.notHeld l).bytes = fields [(1, l.val)]) ∧
  (∀ x : LineReport, (ReplyData.line x).bytes = fields [(1, x.mode.code), (1, Level.code x.commanded), (1, Level.code x.sensed),
    (1, x.pull.code), (1, x.pullConnected.code), (1, x.fault.code), (8, x.fault.time.getD absent),
    (1, (x.holder.map fun k => k.val + 1).getD 0), (1, x.queueLength), (1, (x.generator.map Fin.val).getD 0xFF),
    (1, x.filter), (1, x.assist), (1, x.settle), (1, x.check.code)]) ∧
  (∀ (total next : Nat) (items : List Entry), (ReplyData.entries total next items).bytes = fields ([(1, total), (1, next),
    (1, items.length)] ++ items.flatMap fun e =>
      [(2, e.handle), (1, e.kind.code), (1, e.kind.subject), (1, e.kind.levelCode), (8, e.due)])) ∧
  (∀ (l : LineId) (i : SlotId) (list : StepList) (n : Nat) (v : Level),
    [EntryKind.oneshot l v, .step i list n, .deadline i list n].map (fun x => (x.code, x.subject, x.levelCode)) =
      [(1, l.val, Level.code v), (2, i.val, 0), (3, i.val, 0)]) ∧
  (∀ (i : SlotId) (h start u : Nat) (state : SeqState) (failed : Option Nat) (why : SealReason),
    (ReplyData.slot i).bytes = fields [(1, i.val)] ∧ (ReplyData.sealReason why).bytes = fields [(1, why.code)] ∧
    (ReplyData.started h start u state).bytes = fields [(2, h), (8, start), (8, u), (1, state.code)] ∧
    (ReplyData.stopped failed state).bytes = fields [(1, failed.getD 0xFF), (1, state.code)]) ∧
  (∀ x : SlotReport, (ReplyData.slotRecord x).bytes = fields [(1, x.record.state.code),
    (1, (x.record.owner.map fun k => k.val + 1).getD 0), (1, x.record.body.length), (1, x.record.unwind.length),
    (1, (x.record.cursor.map fun c => c.1.code).getD 0xFF), (1, (x.record.cursor.map Prod.snd).getD 0),
    (1, (x.entry.map fun e => e.kind.code).getD 0), (8, (x.entry.map Entry.due).getD absent), (2, x.record.handle),
    (8, x.record.start.getD absent), (1, x.record.outcome.code), (1, x.record.reason.code),
    (1, x.record.failed.getD 0xFF), (1, x.record.skipped), (2, x.poolFree)]) ∧
  (∀ (w : WatchId) (x : Watch) (v : Level) (after : WatchState),
    let first := x.first.getD absent
    let last := x.last.getD absent
    (ReplyData.watchMade w v).bytes = fields [(1, w.val), (1, Level.code v)] ∧
    (ReplyData.watchExists w).bytes = fields [(1, w.val)] ∧
    (ReplyData.acknowledged x v after).bytes = fields [(1, x.kind.code), (8, first), (8, last), (2, x.coalesce),
      (2, x.overrun), (2, x.running), (1, Level.code v), (1, after.code)] ∧
    (ReplyData.dropped x).bytes = fields [(1, x.state.code), (8, first), (8, last), (2, x.coalesce), (2, x.running),
      (2, x.overrun)] ∧
    (ReplyData.watchRecord w x v).bytes = fields [(1, w.val), (1, x.session.val + 1), (1, x.line.val), (1, x.kind.code),
      (1, x.kind.edgeCode), (1, x.kind.levelCode), (2, x.kind.threshold), (1, x.state.code), (8, first), (8, last),
      (2, x.coalesce), (2, x.running), (2, x.overrun), (1, Level.code v)]) ∧
  (∀ (e : EdgeSelect) (v : Level) (n : Nat),
    [WatchKind.edge e, .level v, .count e n].map (fun x => (x.edgeCode, x.levelCode, x.threshold)) =
      [(e.code, 0, 0), (0, Level.code v, 0), (e.code, 0, n)]) ∧
  ∀ (x : Generator) (u : Tick) (state : GenState) (next : Option NextEvent), (ReplyData.cadRun u state).bytes =
      fields [(8, u), (1, state.code)] ∧
    (∀ (code : Nat) (due : Tick), (next = none ∧ code = 0 ∧ due = absent) ∨ (next = some (.rise due) ∧ code = 1) ∨
        (next = some (.fall due) ∧ code = 2) ∨ (next = some (.finish due) ∧ code = 3) →
      (ReplyData.generator x next).bytes = fields [(1, x.state.code), (1, (x.owner.map fun k => k.val + 1).getD 0),
        (1, (x.line.map Fin.val).getD 0xFF), (4, x.period), (4, x.high), (2, x.cycles), (1, x.rest.code),
        (8, x.start.getD absent), (4, x.completed), (1, code), (8, due)])

/-- A notice made for a session (R154, R155, R157). Which of the waiting notices are of this tick is the model's own record (log 7). -/
def Obligations.NoticeJoinsQueue : Prop :=
  ∀ (s : State) (k : SessionId) (body : NoticeBody),
    let old := s.sessions[k]
    let new := (s.notify k body).sessions[k]
    (old.state = .opened → old.queue.length < 32 →
      new = { old with queue := old.queue ++ [⟨old.nextNumber, old.lost, body⟩], nextNumber := old.nextNumber + 1,
                         joinedNow := old.joinedNow + 1 }) ∧
    (old.state = .opened → 32 ≤ old.queue.length →
      new = { old with nextNumber := old.nextNumber + 1, lost := if old.lost < 65535 then old.lost + 1 else old.lost }) ∧
    (old.state ≠ .opened → new = old) ∧
    (∀ j : SessionId, j ≠ k → (s.notify k body).sessions[j] = s.sessions[j]) ∧
    ChangesOnly [.numbers, .queues] s (s.notify k body)
end

