-- ==== Sys2Proof/Laws/State.lean ====
section
/-! SUPPORT. One lemma for each field of the state under each update of one record, and reading a record after its update. -/

namespace Sys2Proof.Machine

set_option Elab.async false

/-! ## modLine -/

@[simp] theorem State.modLine_pending (s : State) (l : LineId) (f : LineCell → LineCell) : (s.modLine l f).pending = s.pending := rfl
@[simp] theorem State.modLine_now (s : State) (l : LineId) (f : LineCell → LineCell) : (s.modLine l f).now = s.now := rfl
@[simp] theorem State.modLine_heldInReset (s : State) (l : LineId) (f : LineCell → LineCell) : (s.modLine l f).heldInReset = s.heldInReset := rfl
@[simp] theorem State.modLine_baud (s : State) (l : LineId) (f : LineCell → LineCell) : (s.modLine l f).baud = s.baud := rfl
@[simp] theorem State.modLine_lines (s : State) (l : LineId) (f : LineCell → LineCell) : (s.modLine l f).lines = s.lines.set l (f s.lines[l]) := rfl
@[simp] theorem State.modLine_leases (s : State) (l : LineId) (f : LineCell → LineCell) : (s.modLine l f).leases = s.leases := rfl
@[simp] theorem State.modLine_timeline (s : State) (l : LineId) (f : LineCell → LineCell) : (s.modLine l f).timeline = s.timeline := rfl
@[simp] theorem State.modLine_handleCounter (s : State) (l : LineId) (f : LineCell → LineCell) : (s.modLine l f).handleCounter = s.handleCounter := rfl
@[simp] theorem State.modLine_admissionCounter (s : State) (l : LineId) (f : LineCell → LineCell) : (s.modLine l f).admissionCounter = s.admissionCounter := rfl
@[simp] theorem State.modLine_slots (s : State) (l : LineId) (f : LineCell → LineCell) : (s.modLine l f).slots = s.slots := rfl
@[simp] theorem State.modLine_poolFree (s : State) (l : LineId) (f : LineCell → LineCell) : (s.modLine l f).poolFree = s.poolFree := rfl
@[simp] theorem State.modLine_watches (s : State) (l : LineId) (f : LineCell → LineCell) : (s.modLine l f).watches = s.watches := rfl
@[simp] theorem State.modLine_generators (s : State) (l : LineId) (f : LineCell → LineCell) : (s.modLine l f).generators = s.generators := rfl
@[simp] theorem State.modLine_sessions (s : State) (l : LineId) (f : LineCell → LineCell) : (s.modLine l f).sessions = s.sessions := rfl
@[simp] theorem State.modLine_portA (s : State) (l : LineId) (f : LineCell → LineCell) : (s.modLine l f).portA = s.portA := rfl
@[simp] theorem State.modLine_portB (s : State) (l : LineId) (f : LineCell → LineCell) : (s.modLine l f).portB = s.portB := rfl
@[simp] theorem State.modLine_freeIndex (s : State) (l : LineId) (f : LineCell → LineCell) : (s.modLine l f).freeIndex = s.freeIndex := rfl

/-! ## setLease -/

@[simp] theorem State.setLease_pending (s : State) (l : LineId) (c : LeaseCell) : (s.setLease l c).pending = s.pending := rfl
@[simp] theorem State.setLease_now (s : State) (l : LineId) (c : LeaseCell) : (s.setLease l c).now = s.now := rfl
@[simp] theorem State.setLease_heldInReset (s : State) (l : LineId) (c : LeaseCell) : (s.setLease l c).heldInReset = s.heldInReset := rfl
@[simp] theorem State.setLease_baud (s : State) (l : LineId) (c : LeaseCell) : (s.setLease l c).baud = s.baud := rfl
@[simp] theorem State.setLease_lines (s : State) (l : LineId) (c : LeaseCell) : (s.setLease l c).lines = s.lines := rfl
@[simp] theorem State.setLease_leases (s : State) (l : LineId) (c : LeaseCell) : (s.setLease l c).leases = s.leases.set l c := rfl
@[simp] theorem State.setLease_timeline (s : State) (l : LineId) (c : LeaseCell) : (s.setLease l c).timeline = s.timeline := rfl
@[simp] theorem State.setLease_handleCounter (s : State) (l : LineId) (c : LeaseCell) : (s.setLease l c).handleCounter = s.handleCounter := rfl
@[simp] theorem State.setLease_admissionCounter (s : State) (l : LineId) (c : LeaseCell) : (s.setLease l c).admissionCounter = s.admissionCounter := rfl
@[simp] theorem State.setLease_slots (s : State) (l : LineId) (c : LeaseCell) : (s.setLease l c).slots = s.slots := rfl
@[simp] theorem State.setLease_poolFree (s : State) (l : LineId) (c : LeaseCell) : (s.setLease l c).poolFree = s.poolFree := rfl
@[simp] theorem State.setLease_watches (s : State) (l : LineId) (c : LeaseCell) : (s.setLease l c).watches = s.watches := rfl
@[simp] theorem State.setLease_generators (s : State) (l : LineId) (c : LeaseCell) : (s.setLease l c).generators = s.generators := rfl
@[simp] theorem State.setLease_sessions (s : State) (l : LineId) (c : LeaseCell) : (s.setLease l c).sessions = s.sessions := rfl
@[simp] theorem State.setLease_portA (s : State) (l : LineId) (c : LeaseCell) : (s.setLease l c).portA = s.portA := rfl
@[simp] theorem State.setLease_portB (s : State) (l : LineId) (c : LeaseCell) : (s.setLease l c).portB = s.portB := rfl
@[simp] theorem State.setLease_freeIndex (s : State) (l : LineId) (c : LeaseCell) : (s.setLease l c).freeIndex = s.freeIndex := rfl

/-! ## setTimeline -/

@[simp] theorem State.setTimeline_pending (s : State) (t : List Entry) : (s.setTimeline t).pending = s.pending := rfl
@[simp] theorem State.setTimeline_now (s : State) (t : List Entry) : (s.setTimeline t).now = s.now := rfl
@[simp] theorem State.setTimeline_heldInReset (s : State) (t : List Entry) : (s.setTimeline t).heldInReset = s.heldInReset := rfl
@[simp] theorem State.setTimeline_baud (s : State) (t : List Entry) : (s.setTimeline t).baud = s.baud := rfl
@[simp] theorem State.setTimeline_lines (s : State) (t : List Entry) : (s.setTimeline t).lines = s.lines := rfl
@[simp] theorem State.setTimeline_leases (s : State) (t : List Entry) : (s.setTimeline t).leases = s.leases := rfl
@[simp] theorem State.setTimeline_timeline (s : State) (t : List Entry) : (s.setTimeline t).timeline = t := rfl
@[simp] theorem State.setTimeline_handleCounter (s : State) (t : List Entry) : (s.setTimeline t).handleCounter = s.handleCounter := rfl
@[simp] theorem State.setTimeline_admissionCounter (s : State) (t : List Entry) : (s.setTimeline t).admissionCounter = s.admissionCounter := rfl
@[simp] theorem State.setTimeline_slots (s : State) (t : List Entry) : (s.setTimeline t).slots = s.slots := rfl
@[simp] theorem State.setTimeline_poolFree (s : State) (t : List Entry) : (s.setTimeline t).poolFree = s.poolFree := rfl
@[simp] theorem State.setTimeline_watches (s : State) (t : List Entry) : (s.setTimeline t).watches = s.watches := rfl
@[simp] theorem State.setTimeline_generators (s : State) (t : List Entry) : (s.setTimeline t).generators = s.generators := rfl
@[simp] theorem State.setTimeline_sessions (s : State) (t : List Entry) : (s.setTimeline t).sessions = s.sessions := rfl
@[simp] theorem State.setTimeline_portA (s : State) (t : List Entry) : (s.setTimeline t).portA = s.portA := rfl
@[simp] theorem State.setTimeline_portB (s : State) (t : List Entry) : (s.setTimeline t).portB = s.portB := rfl
@[simp] theorem State.setTimeline_freeIndex (s : State) (t : List Entry) : (s.setTimeline t).freeIndex = s.freeIndex := rfl

/-! ## modSlot -/

@[simp] theorem State.modSlot_pending (s : State) (i : SlotId) (f : Slot → Slot) : (s.modSlot i f).pending = s.pending := rfl
@[simp] theorem State.modSlot_now (s : State) (i : SlotId) (f : Slot → Slot) : (s.modSlot i f).now = s.now := rfl
@[simp] theorem State.modSlot_heldInReset (s : State) (i : SlotId) (f : Slot → Slot) : (s.modSlot i f).heldInReset = s.heldInReset := rfl
@[simp] theorem State.modSlot_baud (s : State) (i : SlotId) (f : Slot → Slot) : (s.modSlot i f).baud = s.baud := rfl
@[simp] theorem State.modSlot_lines (s : State) (i : SlotId) (f : Slot → Slot) : (s.modSlot i f).lines = s.lines := rfl
@[simp] theorem State.modSlot_leases (s : State) (i : SlotId) (f : Slot → Slot) : (s.modSlot i f).leases = s.leases := rfl
@[simp] theorem State.modSlot_timeline (s : State) (i : SlotId) (f : Slot → Slot) : (s.modSlot i f).timeline = s.timeline := rfl
@[simp] theorem State.modSlot_handleCounter (s : State) (i : SlotId) (f : Slot → Slot) : (s.modSlot i f).handleCounter = s.handleCounter := rfl
@[simp] theorem State.modSlot_admissionCounter (s : State) (i : SlotId) (f : Slot → Slot) : (s.modSlot i f).admissionCounter = s.admissionCounter := rfl
@[simp] theorem State.modSlot_slots (s : State) (i : SlotId) (f : Slot → Slot) : (s.modSlot i f).slots = s.slots.set i (f s.slots[i]) := rfl
@[simp] theorem State.modSlot_poolFree (s : State) (i : SlotId) (f : Slot → Slot) : (s.modSlot i f).poolFree = s.poolFree := rfl
@[simp] theorem State.modSlot_watches (s : State) (i : SlotId) (f : Slot → Slot) : (s.modSlot i f).watches = s.watches := rfl
@[simp] theorem State.modSlot_generators (s : State) (i : SlotId) (f : Slot → Slot) : (s.modSlot i f).generators = s.generators := rfl
@[simp] theorem State.modSlot_sessions (s : State) (i : SlotId) (f : Slot → Slot) : (s.modSlot i f).sessions = s.sessions := rfl
@[simp] theorem State.modSlot_portA (s : State) (i : SlotId) (f : Slot → Slot) : (s.modSlot i f).portA = s.portA := rfl
@[simp] theorem State.modSlot_portB (s : State) (i : SlotId) (f : Slot → Slot) : (s.modSlot i f).portB = s.portB := rfl
@[simp] theorem State.modSlot_freeIndex (s : State) (i : SlotId) (f : Slot → Slot) : (s.modSlot i f).freeIndex = s.freeIndex := rfl

/-! ## setWatch -/

@[simp] theorem State.setWatch_pending (s : State) (w : WatchId) (r : Option Watch) : (s.setWatch w r).pending = s.pending := rfl
@[simp] theorem State.setWatch_now (s : State) (w : WatchId) (r : Option Watch) : (s.setWatch w r).now = s.now := rfl
@[simp] theorem State.setWatch_heldInReset (s : State) (w : WatchId) (r : Option Watch) : (s.setWatch w r).heldInReset = s.heldInReset := rfl
@[simp] theorem State.setWatch_baud (s : State) (w : WatchId) (r : Option Watch) : (s.setWatch w r).baud = s.baud := rfl
@[simp] theorem State.setWatch_lines (s : State) (w : WatchId) (r : Option Watch) : (s.setWatch w r).lines = s.lines := rfl
@[simp] theorem State.setWatch_leases (s : State) (w : WatchId) (r : Option Watch) : (s.setWatch w r).leases = s.leases := rfl
@[simp] theorem State.setWatch_timeline (s : State) (w : WatchId) (r : Option Watch) : (s.setWatch w r).timeline = s.timeline := rfl
@[simp] theorem State.setWatch_handleCounter (s : State) (w : WatchId) (r : Option Watch) : (s.setWatch w r).handleCounter = s.handleCounter := rfl
@[simp] theorem State.setWatch_admissionCounter (s : State) (w : WatchId) (r : Option Watch) : (s.setWatch w r).admissionCounter = s.admissionCounter := rfl
@[simp] theorem State.setWatch_slots (s : State) (w : WatchId) (r : Option Watch) : (s.setWatch w r).slots = s.slots := rfl
@[simp] theorem State.setWatch_poolFree (s : State) (w : WatchId) (r : Option Watch) : (s.setWatch w r).poolFree = s.poolFree := rfl
@[simp] theorem State.setWatch_watches (s : State) (w : WatchId) (r : Option Watch) : (s.setWatch w r).watches = s.watches.set w r := rfl
@[simp] theorem State.setWatch_generators (s : State) (w : WatchId) (r : Option Watch) : (s.setWatch w r).generators = s.generators := rfl
@[simp] theorem State.setWatch_sessions (s : State) (w : WatchId) (r : Option Watch) : (s.setWatch w r).sessions = s.sessions := rfl
@[simp] theorem State.setWatch_portA (s : State) (w : WatchId) (r : Option Watch) : (s.setWatch w r).portA = s.portA := rfl
@[simp] theorem State.setWatch_portB (s : State) (w : WatchId) (r : Option Watch) : (s.setWatch w r).portB = s.portB := rfl
@[simp] theorem State.setWatch_freeIndex (s : State) (w : WatchId) (r : Option Watch) : (s.setWatch w r).freeIndex = s.freeIndex := rfl

/-! ## modGenerator -/

@[simp] theorem State.modGenerator_pending (s : State) (g : GenId) (f : Generator → Generator) : (s.modGenerator g f).pending = s.pending := rfl
@[simp] theorem State.modGenerator_now (s : State) (g : GenId) (f : Generator → Generator) : (s.modGenerator g f).now = s.now := rfl
@[simp] theorem State.modGenerator_heldInReset (s : State) (g : GenId) (f : Generator → Generator) : (s.modGenerator g f).heldInReset = s.heldInReset := rfl
@[simp] theorem State.modGenerator_baud (s : State) (g : GenId) (f : Generator → Generator) : (s.modGenerator g f).baud = s.baud := rfl
@[simp] theorem State.modGenerator_lines (s : State) (g : GenId) (f : Generator → Generator) : (s.modGenerator g f).lines = s.lines := rfl
@[simp] theorem State.modGenerator_leases (s : State) (g : GenId) (f : Generator → Generator) : (s.modGenerator g f).leases = s.leases := rfl
@[simp] theorem State.modGenerator_timeline (s : State) (g : GenId) (f : Generator → Generator) : (s.modGenerator g f).timeline = s.timeline := rfl
@[simp] theorem State.modGenerator_handleCounter (s : State) (g : GenId) (f : Generator → Generator) : (s.modGenerator g f).handleCounter = s.handleCounter := rfl
@[simp] theorem State.modGenerator_admissionCounter (s : State) (g : GenId) (f : Generator → Generator) : (s.modGenerator g f).admissionCounter = s.admissionCounter := rfl
@[simp] theorem State.modGenerator_slots (s : State) (g : GenId) (f : Generator → Generator) : (s.modGenerator g f).slots = s.slots := rfl
@[simp] theorem State.modGenerator_poolFree (s : State) (g : GenId) (f : Generator → Generator) : (s.modGenerator g f).poolFree = s.poolFree := rfl
@[simp] theorem State.modGenerator_watches (s : State) (g : GenId) (f : Generator → Generator) : (s.modGenerator g f).watches = s.watches := rfl
@[simp] theorem State.modGenerator_generators (s : State) (g : GenId) (f : Generator → Generator) : (s.modGenerator g f).generators = s.generators.set g (f s.generators[g]) := rfl
@[simp] theorem State.modGenerator_sessions (s : State) (g : GenId) (f : Generator → Generator) : (s.modGenerator g f).sessions = s.sessions := rfl
@[simp] theorem State.modGenerator_portA (s : State) (g : GenId) (f : Generator → Generator) : (s.modGenerator g f).portA = s.portA := rfl
@[simp] theorem State.modGenerator_portB (s : State) (g : GenId) (f : Generator → Generator) : (s.modGenerator g f).portB = s.portB := rfl
@[simp] theorem State.modGenerator_freeIndex (s : State) (g : GenId) (f : Generator → Generator) : (s.modGenerator g f).freeIndex = s.freeIndex := rfl

/-! ## modSession -/

@[simp] theorem State.modSession_pending (s : State) (k : SessionId) (f : Session → Session) : (s.modSession k f).pending = s.pending := rfl
@[simp] theorem State.modSession_now (s : State) (k : SessionId) (f : Session → Session) : (s.modSession k f).now = s.now := rfl
@[simp] theorem State.modSession_heldInReset (s : State) (k : SessionId) (f : Session → Session) : (s.modSession k f).heldInReset = s.heldInReset := rfl
@[simp] theorem State.modSession_baud (s : State) (k : SessionId) (f : Session → Session) : (s.modSession k f).baud = s.baud := rfl
@[simp] theorem State.modSession_lines (s : State) (k : SessionId) (f : Session → Session) : (s.modSession k f).lines = s.lines := rfl
@[simp] theorem State.modSession_leases (s : State) (k : SessionId) (f : Session → Session) : (s.modSession k f).leases = s.leases := rfl
@[simp] theorem State.modSession_timeline (s : State) (k : SessionId) (f : Session → Session) : (s.modSession k f).timeline = s.timeline := rfl
@[simp] theorem State.modSession_handleCounter (s : State) (k : SessionId) (f : Session → Session) : (s.modSession k f).handleCounter = s.handleCounter := rfl
@[simp] theorem State.modSession_admissionCounter (s : State) (k : SessionId) (f : Session → Session) : (s.modSession k f).admissionCounter = s.admissionCounter := rfl
@[simp] theorem State.modSession_slots (s : State) (k : SessionId) (f : Session → Session) : (s.modSession k f).slots = s.slots := rfl
@[simp] theorem State.modSession_poolFree (s : State) (k : SessionId) (f : Session → Session) : (s.modSession k f).poolFree = s.poolFree := rfl
@[simp] theorem State.modSession_watches (s : State) (k : SessionId) (f : Session → Session) : (s.modSession k f).watches = s.watches := rfl
@[simp] theorem State.modSession_generators (s : State) (k : SessionId) (f : Session → Session) : (s.modSession k f).generators = s.generators := rfl
@[simp] theorem State.modSession_sessions (s : State) (k : SessionId) (f : Session → Session) : (s.modSession k f).sessions = s.sessions.set k (f s.sessions[k]) := rfl
@[simp] theorem State.modSession_portA (s : State) (k : SessionId) (f : Session → Session) : (s.modSession k f).portA = s.portA := rfl
@[simp] theorem State.modSession_portB (s : State) (k : SessionId) (f : Session → Session) : (s.modSession k f).portB = s.portB := rfl
@[simp] theorem State.modSession_freeIndex (s : State) (k : SessionId) (f : Session → Session) : (s.modSession k f).freeIndex = s.freeIndex := rfl

/-! ## setPoolFree -/

@[simp] theorem State.setPoolFree_pending (s : State) (n : Nat) : (s.setPoolFree n).pending = s.pending := rfl
@[simp] theorem State.setPoolFree_now (s : State) (n : Nat) : (s.setPoolFree n).now = s.now := rfl
@[simp] theorem State.setPoolFree_heldInReset (s : State) (n : Nat) : (s.setPoolFree n).heldInReset = s.heldInReset := rfl
@[simp] theorem State.setPoolFree_baud (s : State) (n : Nat) : (s.setPoolFree n).baud = s.baud := rfl
@[simp] theorem State.setPoolFree_lines (s : State) (n : Nat) : (s.setPoolFree n).lines = s.lines := rfl
@[simp] theorem State.setPoolFree_leases (s : State) (n : Nat) : (s.setPoolFree n).leases = s.leases := rfl
@[simp] theorem State.setPoolFree_timeline (s : State) (n : Nat) : (s.setPoolFree n).timeline = s.timeline := rfl
@[simp] theorem State.setPoolFree_handleCounter (s : State) (n : Nat) : (s.setPoolFree n).handleCounter = s.handleCounter := rfl
@[simp] theorem State.setPoolFree_admissionCounter (s : State) (n : Nat) : (s.setPoolFree n).admissionCounter = s.admissionCounter := rfl
@[simp] theorem State.setPoolFree_slots (s : State) (n : Nat) : (s.setPoolFree n).slots = s.slots := rfl
@[simp] theorem State.setPoolFree_poolFree (s : State) (n : Nat) : (s.setPoolFree n).poolFree = n := rfl
@[simp] theorem State.setPoolFree_watches (s : State) (n : Nat) : (s.setPoolFree n).watches = s.watches := rfl
@[simp] theorem State.setPoolFree_generators (s : State) (n : Nat) : (s.setPoolFree n).generators = s.generators := rfl
@[simp] theorem State.setPoolFree_sessions (s : State) (n : Nat) : (s.setPoolFree n).sessions = s.sessions := rfl
@[simp] theorem State.setPoolFree_portA (s : State) (n : Nat) : (s.setPoolFree n).portA = s.portA := rfl
@[simp] theorem State.setPoolFree_portB (s : State) (n : Nat) : (s.setPoolFree n).portB = s.portB := rfl
@[simp] theorem State.setPoolFree_freeIndex (s : State) (n : Nat) : (s.setPoolFree n).freeIndex = s.freeIndex := rfl

/-! ## modPort -/

@[simp] theorem State.modPort_pending (s : State) (p : Port) (f : PortCell → PortCell) : (s.modPort p f).pending = s.pending := by
  cases p <;> rfl
@[simp] theorem State.modPort_now (s : State) (p : Port) (f : PortCell → PortCell) : (s.modPort p f).now = s.now := by
  cases p <;> rfl
@[simp] theorem State.modPort_heldInReset (s : State) (p : Port) (f : PortCell → PortCell) : (s.modPort p f).heldInReset = s.heldInReset := by
  cases p <;> rfl
@[simp] theorem State.modPort_baud (s : State) (p : Port) (f : PortCell → PortCell) : (s.modPort p f).baud = s.baud := by
  cases p <;> rfl
@[simp] theorem State.modPort_lines (s : State) (p : Port) (f : PortCell → PortCell) : (s.modPort p f).lines = s.lines := by
  cases p <;> rfl
@[simp] theorem State.modPort_leases (s : State) (p : Port) (f : PortCell → PortCell) : (s.modPort p f).leases = s.leases := by
  cases p <;> rfl
@[simp] theorem State.modPort_timeline (s : State) (p : Port) (f : PortCell → PortCell) : (s.modPort p f).timeline = s.timeline := by
  cases p <;> rfl
@[simp] theorem State.modPort_handleCounter (s : State) (p : Port) (f : PortCell → PortCell) : (s.modPort p f).handleCounter = s.handleCounter := by
  cases p <;> rfl
@[simp] theorem State.modPort_admissionCounter (s : State) (p : Port) (f : PortCell → PortCell) : (s.modPort p f).admissionCounter = s.admissionCounter := by
  cases p <;> rfl
@[simp] theorem State.modPort_slots (s : State) (p : Port) (f : PortCell → PortCell) : (s.modPort p f).slots = s.slots := by
  cases p <;> rfl
@[simp] theorem State.modPort_poolFree (s : State) (p : Port) (f : PortCell → PortCell) : (s.modPort p f).poolFree = s.poolFree := by
  cases p <;> rfl
@[simp] theorem State.modPort_watches (s : State) (p : Port) (f : PortCell → PortCell) : (s.modPort p f).watches = s.watches := by
  cases p <;> rfl
@[simp] theorem State.modPort_generators (s : State) (p : Port) (f : PortCell → PortCell) : (s.modPort p f).generators = s.generators := by
  cases p <;> rfl
@[simp] theorem State.modPort_sessions (s : State) (p : Port) (f : PortCell → PortCell) : (s.modPort p f).sessions = s.sessions := by
  cases p <;> rfl
@[simp] theorem State.modPort_freeIndex (s : State) (p : Port) (f : PortCell → PortCell) : (s.modPort p f).freeIndex = s.freeIndex := by
  cases p <;> rfl
@[simp] theorem State.modPort_port_same (s : State) (p : Port) (f : PortCell → PortCell) :
    (s.modPort p f).port p = f (s.port p) := by
  cases p <;> rfl
theorem State.modPort_port_ne (s : State) {p q : Port} (f : PortCell → PortCell) (h : q ≠ p) :
    (s.modPort p f).port q = s.port q := by
  cases p <;> cases q <;> first | rfl | exact absurd rfl h
theorem State.modPort_port (s : State) (p q : Port) (f : PortCell → PortCell) :
    (s.modPort p f).port q = if q = p then f (s.port p) else s.port q := by
  cases p <;> cases q <;> rfl

@[simp] theorem State.modLine_port (s : State) (l : LineId) (f : LineCell → LineCell) (p : Port) : (s.modLine l f).port p = s.port p := by
  cases p <;> rfl
@[simp] theorem State.setLease_port (s : State) (l : LineId) (c : LeaseCell) (p : Port) : (s.setLease l c).port p = s.port p := by
  cases p <;> rfl
@[simp] theorem State.setTimeline_port (s : State) (t : List Entry) (p : Port) : (s.setTimeline t).port p = s.port p := by
  cases p <;> rfl
@[simp] theorem State.modSlot_port (s : State) (i : SlotId) (f : Slot → Slot) (p : Port) : (s.modSlot i f).port p = s.port p := by
  cases p <;> rfl
@[simp] theorem State.setWatch_port (s : State) (w : WatchId) (r : Option Watch) (p : Port) : (s.setWatch w r).port p = s.port p := by
  cases p <;> rfl
@[simp] theorem State.modGenerator_port (s : State) (g : GenId) (f : Generator → Generator) (p : Port) : (s.modGenerator g f).port p = s.port p := by
  cases p <;> rfl
@[simp] theorem State.modSession_port (s : State) (k : SessionId) (f : Session → Session) (p : Port) : (s.modSession k f).port p = s.port p := by
  cases p <;> rfl
@[simp] theorem State.setPoolFree_port (s : State) (n : Nat) (p : Port) : (s.setPoolFree n).port p = s.port p := by
  cases p <;> rfl

/-! ## The tick -/

@[simp] theorem State.modLine_tick (s : State) (l : LineId) (f : LineCell → LineCell) : (s.modLine l f).tick = s.tick := rfl
@[simp] theorem State.setLease_tick (s : State) (l : LineId) (c : LeaseCell) : (s.setLease l c).tick = s.tick := rfl
@[simp] theorem State.setTimeline_tick (s : State) (t : List Entry) : (s.setTimeline t).tick = s.tick := rfl
@[simp] theorem State.modSlot_tick (s : State) (i : SlotId) (f : Slot → Slot) : (s.modSlot i f).tick = s.tick := rfl
@[simp] theorem State.setWatch_tick (s : State) (w : WatchId) (r : Option Watch) : (s.setWatch w r).tick = s.tick := rfl
@[simp] theorem State.modGenerator_tick (s : State) (g : GenId) (f : Generator → Generator) : (s.modGenerator g f).tick = s.tick := rfl
@[simp] theorem State.modSession_tick (s : State) (k : SessionId) (f : Session → Session) : (s.modSession k f).tick = s.tick := rfl
@[simp] theorem State.setPoolFree_tick (s : State) (n : Nat) : (s.setPoolFree n).tick = s.tick := rfl
@[simp] theorem State.modPort_tick (s : State) (p : Port) (f : PortCell → PortCell) : (s.modPort p f).tick = s.tick := by
  cases p <;> rfl

/-! ## Reading a record after an update -/

theorem State.modLine_get (s : State) (l m : LineId) (f : LineCell → LineCell) :
    (s.modLine l f).lines[m] = if m = l then f s.lines[l] else s.lines[m] := by
  simp [Vector.getElem_set, Fin.ext_iff, eq_comm]
theorem State.modLine_get_same (s : State) (l : LineId) (f : LineCell → LineCell) : (s.modLine l f).lines[l] = f s.lines[l] := by
  simp
theorem State.modLine_get_ne (s : State) {l m : LineId} (f : LineCell → LineCell) (h : m ≠ l) : (s.modLine l f).lines[m] = s.lines[m] := by
  rw [State.modLine_get, if_neg h]
theorem State.setLease_get (s : State) (l m : LineId) (f : LeaseCell) :
    (s.setLease l f).leases[m] = if m = l then f else s.leases[m] := by
  simp [Vector.getElem_set, Fin.ext_iff, eq_comm]
theorem State.setLease_get_same (s : State) (l : LineId) (f : LeaseCell) : (s.setLease l f).leases[l] = f := by
  simp
theorem State.setLease_get_ne (s : State) {l m : LineId} (f : LeaseCell) (h : m ≠ l) : (s.setLease l f).leases[m] = s.leases[m] := by
  rw [State.setLease_get, if_neg h]
theorem State.modSlot_get (s : State) (l m : SlotId) (f : Slot → Slot) :
    (s.modSlot l f).slots[m] = if m = l then f s.slots[l] else s.slots[m] := by
  simp [Vector.getElem_set, Fin.ext_iff, eq_comm]
theorem State.modSlot_get_same (s : State) (l : SlotId) (f : Slot → Slot) : (s.modSlot l f).slots[l] = f s.slots[l] := by
  simp
theorem State.modSlot_get_ne (s : State) {l m : SlotId} (f : Slot → Slot) (h : m ≠ l) : (s.modSlot l f).slots[m] = s.slots[m] := by
  rw [State.modSlot_get, if_neg h]
theorem State.setWatch_get (s : State) (l m : WatchId) (f : Option Watch) :
    (s.setWatch l f).watches[m] = if m = l then f else s.watches[m] := by
  simp [Vector.getElem_set, Fin.ext_iff, eq_comm]
theorem State.setWatch_get_same (s : State) (l : WatchId) (f : Option Watch) : (s.setWatch l f).watches[l] = f := by
  simp
theorem State.setWatch_get_ne (s : State) {l m : WatchId} (f : Option Watch) (h : m ≠ l) : (s.setWatch l f).watches[m] = s.watches[m] := by
  rw [State.setWatch_get, if_neg h]
theorem State.modGenerator_get (s : State) (l m : GenId) (f : Generator → Generator) :
    (s.modGenerator l f).generators[m] = if m = l then f s.generators[l] else s.generators[m] := by
  simp [Vector.getElem_set, Fin.ext_iff, eq_comm]
theorem State.modGenerator_get_same (s : State) (l : GenId) (f : Generator → Generator) : (s.modGenerator l f).generators[l] = f s.generators[l] := by
  simp
theorem State.modGenerator_get_ne (s : State) {l m : GenId} (f : Generator → Generator) (h : m ≠ l) : (s.modGenerator l f).generators[m] = s.generators[m] := by
  rw [State.modGenerator_get, if_neg h]
theorem State.modSession_get (s : State) (l m : SessionId) (f : Session → Session) :
    (s.modSession l f).sessions[m] = if m = l then f s.sessions[l] else s.sessions[m] := by
  simp [Vector.getElem_set, Fin.ext_iff, eq_comm]
theorem State.modSession_get_same (s : State) (l : SessionId) (f : Session → Session) : (s.modSession l f).sessions[l] = f s.sessions[l] := by
  simp
theorem State.modSession_get_ne (s : State) {l m : SessionId} (f : Session → Session) (h : m ≠ l) : (s.modSession l f).sessions[m] = s.sessions[m] := by
  rw [State.modSession_get, if_neg h]

end Sys2Proof.Machine
end

