-- ==== Sys2Proof/Laws/Frames.lean ====
section
/-! SUPPORT. What each shared operation may change: one lemma an operation, by the parts of the state (`ChangesOnly`). -/

namespace Sys2Proof.Machine

set_option Elab.async false

/-! ## The relation -/

theorem Part.same_refl (s : State) (part : Part) : part.same s s := by
  cases part <;> simp [Part.same]

theorem Part.same_trans {s t u : State} {part : Part} (h : part.same s t) (h' : part.same t u) : part.same s u := by
  cases part <;> simp only [Part.same] at *
  case sessions => intro k; simp [-Fin.getElem_fin, h' k, h k]
  case numbers => intro k; simp [-Fin.getElem_fin, h' k, h k]
  case queues => intro k; simp [-Fin.getElem_fin, h' k, h k]
  case reception => intro p; simp [h' p, h p]
  case frames => intro p; simp [h' p, h p]
  case sending => intro p; simp [h' p, h p]
  all_goals simp [h, h']

theorem ChangesOnly.refl (parts : List Part) (s : State) : ChangesOnly parts s s :=
  fun part _ => part.same_refl s

theorem ChangesOnly.trans {parts : List Part} {s t u : State} (h : ChangesOnly parts s t) (h' : ChangesOnly parts t u) :
    ChangesOnly parts s u :=
  fun part hp => Part.same_trans (h part hp) (h' part hp)

theorem ChangesOnly.mono {parts more : List Part} {s t : State} (h : ChangesOnly parts s t) (sub : parts ⊆ more) :
    ChangesOnly more s t :=
  fun part hp => h part fun hq => hp (sub hq)

theorem ChangesOnly.foldl {α : Type} {parts : List Part} {f : State → α → State}
    (h : ∀ s a, ChangesOnly parts s (f s a)) (as : List α) (s : State) : ChangesOnly parts s (as.foldl f s) := by
  induction as generalizing s with
  | nil => exact .refl _ _
  | cons a as ih => exact (h s a).trans (ih (f s a))

/-- Two steps one after the other, each with its own parts. -/
theorem ChangesOnly.andThen {ps qs parts : List Part} {s t u : State} (h : ChangesOnly ps s t) (h' : ChangesOnly qs t u)
    (sub : ps ⊆ parts := by decide) (sub' : qs ⊆ parts := by decide) : ChangesOnly parts s u :=
  (h.mono sub).trans (h'.mono sub')

theorem ChangesOnly.tick {parts : List Part} {s t : State} (h : ChangesOnly parts s t)
    (hc : Part.clock ∉ parts := by decide) : t.tick = s.tick := by
  simp [State.tick, (h .clock hc).1]

theorem ChangesOnly.line {parts : List Part} {s t : State} (h : ChangesOnly parts s t) (l : LineId)
    (hp : Part.lines ∉ parts := by decide) : t.lines[l] = s.lines[l] := by
  have := h .lines hp; simp only [Part.same] at this; rw [this]

theorem ChangesOnly.lease {parts : List Part} {s t : State} (h : ChangesOnly parts s t) (l : LineId)
    (hp : Part.leases ∉ parts := by decide) : t.leases[l] = s.leases[l] := by
  have := h .leases hp; simp only [Part.same] at this; rw [this]

theorem ChangesOnly.slot {parts : List Part} {s t : State} (h : ChangesOnly parts s t) (i : SlotId)
    (hp : Part.slots ∉ parts := by decide) : t.slots[i] = s.slots[i] := by
  have := h .slots hp; simp only [Part.same] at this; rw [this]

theorem ChangesOnly.watch {parts : List Part} {s t : State} (h : ChangesOnly parts s t) (w : WatchId)
    (hp : Part.watches ∉ parts := by decide) : t.watches[w] = s.watches[w] := by
  have := h .watches hp; simp only [Part.same] at this; rw [this]

theorem ChangesOnly.generator {parts : List Part} {s t : State} (h : ChangesOnly parts s t) (g : GenId)
    (hp : Part.generators ∉ parts := by decide) : t.generators[g] = s.generators[g] := by
  have := h .generators hp; simp only [Part.same] at this; rw [this]

/-! ## One record -/

theorem modLine_changes (s : State) (l : LineId) (f : LineCell → LineCell) : ChangesOnly [.lines] s (s.modLine l f) := by
  intro part h; cases part <;> simp [Part.same] at *

theorem setLease_changes (s : State) (l : LineId) (c : LeaseCell) : ChangesOnly [.leases] s (s.setLease l c) := by
  intro part h; cases part <;> simp [Part.same] at *

theorem setTimeline_changes (s : State) (t : List Entry) : ChangesOnly [.timeline] s (s.setTimeline t) := by
  intro part h; cases part <;> simp [Part.same] at *

theorem modSlot_changes (s : State) (i : SlotId) (f : Slot → Slot) : ChangesOnly [.slots] s (s.modSlot i f) := by
  intro part h; cases part <;> simp [Part.same] at *

theorem setPoolFree_changes (s : State) (n : Nat) : ChangesOnly [.pool] s (s.setPoolFree n) := by
  intro part h; cases part <;> simp [Part.same] at *

theorem setWatch_changes (s : State) (w : WatchId) (r : Option Watch) : ChangesOnly [.watches] s (s.setWatch w r) := by
  intro part h; cases part <;> simp [Part.same] at *

theorem modGenerator_changes (s : State) (g : GenId) (f : Generator → Generator) :
    ChangesOnly [.generators] s (s.modGenerator g f) := by
  intro part h; cases part <;> simp [Part.same] at *

theorem modSession_changes (s : State) (k : SessionId) (f : Session → Session) :
    ChangesOnly [.sessions, .numbers, .queues] s (s.modSession k f) := by
  intro part h; cases part <;> simp [Part.same] at *

theorem modPort_changes (s : State) (p : Port) (f : PortCell → PortCell) :
    ChangesOnly [.reception, .frames, .sending] s (s.modPort p f) := by
  intro part h; cases part <;> simp [Part.same] at *

/-- An update of a port that leaves its receiving side. -/
theorem modPort_changes_sending (s : State) (p : Port) (f : PortCell → PortCell)
    (h : ∀ c, (f c).receiver = c.receiver ∧ (f c).awaitsIdle = c.awaitsIdle ∧ (f c).crc = c.crc ∧ (f c).gap = c.gap ∧
      (f c).length = c.length ∧ (f c).overrun = c.overrun ∧ (f c).brk = c.brk ∧ (f c).stopped = c.stopped) :
    ChangesOnly [.frames, .sending] s (s.modPort p f) := by
  intro part hp; cases part <;> simp [Part.same] at *
  intro q; rw [State.modPort_port]; split
  · rename_i e; subst e; exact h _
  · simp

/-- An update of a port's pending port frames. -/
theorem modPort_changes_frames (s : State) (p : Port) (f : PortCell → List PortFrame) :
    ChangesOnly [.frames] s (s.modPort p fun c => { c with frames := f c }) := by
  intro part hp; cases part <;> simp [Part.same] at *
  all_goals (intro q; rw [State.modPort_port]; split <;> simp_all)

/-- An update of a port's inbound slots. -/
theorem modPort_changes_inbound (s : State) (p : Port) (f : PortCell → List InboundSlot) :
    ChangesOnly [.sending] s (s.modPort p fun c => { c with inbound := f c }) := by
  intro part hp; cases part <;> simp [Part.same] at *
  all_goals (intro q; rw [State.modPort_port]; split <;> simp_all)

/-- An update of a port that leaves its sending side. -/
theorem modPort_changes_reception (s : State) (p : Port) (f : PortCell → PortCell)
    (h : ∀ c, (f c).inbound = c.inbound ∧ (f c).frames = c.frames ∧ (f c).transmitter = c.transmitter ∧
      (f c).roundRobin = c.roundRobin) :
    ChangesOnly [.reception] s (s.modPort p f) := by
  intro part hp; cases part <;> simp [Part.same] at *
  all_goals
    intro q; rw [State.modPort_port]; split
    · rename_i e; subst e; simp [h]
    · simp

/-- An update of a session record that leaves all but its numbers and its queue. -/
theorem modSession_changes_notices (s : State) (k : SessionId) (f : Session → Session)
    (h : ∀ r, (f r).state = r.state ∧ (f r).port = r.port ∧ (f r).keepalive = r.keepalive ∧ (f r).lastHeard = r.lastHeard ∧
      (f r).cause = r.cause) :
    ChangesOnly [.numbers, .queues] s (s.modSession k f) := by
  intro part hp; cases part <;> simp [Part.same] at *
  intro j
  have := State.modSession_get s k j f
  simp only [State.modSession_sessions, Fin.getElem_fin] at this
  rw [this]; split
  · rename_i e; subst e; exact h _
  · simp

/-- An update of a session record that leaves its numbers and its queue. -/
theorem modSession_changes_sessions (s : State) (k : SessionId) (f : Session → Session)
    (h : ∀ r, (f r).nextNumber = r.nextNumber ∧ (f r).lost = r.lost ∧ (f r).joinedNow = r.joinedNow ∧
      (f r).queue = r.queue) :
    ChangesOnly [.sessions] s (s.modSession k f) := by
  intro part hp; cases part <;> simp [Part.same] at *
  all_goals
    intro j
    have := State.modSession_get s k j f
    simp only [State.modSession_sessions, Fin.getElem_fin] at this
    rw [this]; split
    · rename_i e; subst e; simp [h]
    · simp

/-- An update of a session record's queue. -/
theorem modSession_changes_queues (s : State) (k : SessionId) (q : Session → List Notice) :
    ChangesOnly [.queues] s (s.modSession k fun r => { r with queue := q r }) := by
  intro part hp; cases part <;> simp [Part.same] at *
  all_goals
    intro j
    have := State.modSession_get s k j fun r => { r with queue := q r }
    simp only [State.modSession_sessions, Fin.getElem_fin] at this
    rw [this]; split
    · rename_i e; subst e; simp
    · simp

/-! ## Notices and writes -/

theorem notify_changes (s : State) (k : SessionId) (b : NoticeBody) : ChangesOnly [.numbers, .queues] s (s.notify k b) := by
  apply modSession_changes_notices
  intro r; unfold Session.receive; split
  · split <;> simp
  · simp

theorem notifyOwner_changes (s : State) (o : Option SessionId) (b : NoticeBody) :
    ChangesOnly [.numbers, .queues] s (s.notifyOwner o b) := by
  cases o
  · exact .refl _ _
  · exact notify_changes _ _ _

theorem sendCadEnd_changes (s : State) (g : GenId) (cause : CadEndCause) :
    ChangesOnly [.numbers, .queues] s (s.sendCadEnd g cause) :=
  notifyOwner_changes _ _ _

theorem stopBound_changes (s : State) (l : LineId) (cause : CadEndCause) :
    ChangesOnly [.generators, .numbers, .queues] s (s.stopBound l cause) := by
  unfold State.stopBound
  split
  · exact .refl _ _
  · split
    · exact (modGenerator_changes _ _ _).andThen (sendCadEnd_changes _ _ _)
    · exact .refl _ _

theorem writeLine_changes (s : State) (l : LineId) (v : Level) :
    ChangesOnly [.lines, .generators, .numbers, .queues] s (s.writeLine l v) :=
  (modLine_changes _ _ _).andThen (stopBound_changes _ _ _)

theorem ownWrite_changes (s : State) (l : Option LineId) (v : Level) : ChangesOnly [.lines] s (s.ownWrite l v) := by
  cases l
  · exact .refl _ _
  · exact modLine_changes _ _ _

theorem writeRest_changes (s : State) (l : Option LineId) (r : RestLevel) : ChangesOnly [.lines] s (s.writeRest l r) := by
  cases r
  · exact .refl _ _
  · exact ownWrite_changes _ _ _
  · exact ownWrite_changes _ _ _

/-! ## The end of a lease -/

theorem partLine_changes (s : State) (l : LineId) (p : Parting) :
    ChangesOnly [.lines, .generators, .numbers, .queues] s (s.partLine l p) := by
  unfold State.partLine
  split
  · exact .refl _ _
  · exact (modLine_changes _ _ _).andThen (stopBound_changes _ _ _)

theorem grantHead_changes (s : State) (l : LineId) : ChangesOnly [.leases, .numbers, .queues] s (s.grantHead l) := by
  unfold State.grantHead
  split
  · exact .refl _ _
  · exact (setLease_changes _ _ _).andThen (notify_changes _ _ _)

theorem dropLease_changes (s : State) (l : LineId) :
    ChangesOnly [.leases, .lines, .generators, .numbers, .queues] s (s.dropLease l) := by
  unfold State.dropLease
  split
  · exact .refl _ _
  · exact (setLease_changes _ _ _).andThen (partLine_changes _ _ _)

theorem endLease_changes (s : State) (l : LineId) :
    ChangesOnly [.leases, .lines, .generators, .numbers, .queues] s (s.endLease l) :=
  (dropLease_changes _ _).andThen (grantHead_changes _ _)

theorem endLeasesOf_changes (s : State) (k : SessionId) :
    ChangesOnly [.leases, .lines, .generators, .numbers, .queues] s (s.endLeasesOf k) :=
  (ChangesOnly.foldl dropLease_changes _ _).andThen (ChangesOnly.foldl grantHead_changes _ _)

theorem removePlaces_changes (s : State) (k : SessionId) : ChangesOnly [.leases] s (s.removePlaces k) := by
  intro part h; cases part <;> simp [Part.same, State.removePlaces, State.port] at *

/-! ## The Timeline -/

theorem removeEntry_changes (s : State) (h : Nat) : ChangesOnly [.timeline] s (s.removeEntry h) :=
  setTimeline_changes _ _

theorem enterTimeline_changes (s : State) (k : SessionId) (due : Tick) (kind : EntryKind) :
    ChangesOnly [.timeline] s (s.enterTimeline k due kind) := by
  intro part h; cases part <;> simp [Part.same, State.enterTimeline, State.port] at *

theorem readmit_changes (s : State) (h : Nat) (due : Tick) (kind : EntryKind) :
    ChangesOnly [.timeline] s (s.readmit h due kind) := by
  unfold State.readmit
  split
  · exact .refl _ _
  · intro part h; cases part <;> simp [Part.same, State.port] at *

theorem removeOneshots_changes (s : State) (k : SessionId) : ChangesOnly [.timeline] s (s.removeOneshots k) :=
  setTimeline_changes _ _

theorem removeOneshotsOn_changes (s : State) (k : SessionId) (l : LineId) :
    ChangesOnly [.timeline] s (s.removeOneshotsOn k l) :=
  setTimeline_changes _ _

/-! ## Runs of sequences -/

/-- What a run's own bookkeeping changes. -/
abbrev runParts : List Part := [.timeline, .slots, .numbers, .queues]

theorem endRun_changes (s : State) (i : SlotId) (state : SeqState) (outcome : SeqOutcome) :
    ChangesOnly runParts s (s.endRun i state outcome) :=
  ((removeEntry_changes _ _).andThen (modSlot_changes _ _ _) (parts := runParts)).andThen (notifyOwner_changes _ _ _)

theorem moveEntry_changes (s : State) (i : SlotId) (state : SeqState) (list : StepList) (n : Nat) (due : Tick)
    (kind : EntryKind) : ChangesOnly [.timeline, .slots] s (s.moveEntry i state list n due kind) :=
  (readmit_changes _ _ _ _).andThen (modSlot_changes _ _ _)

theorem finishBody_changes (s : State) (i : SlotId) : ChangesOnly runParts s (s.finishBody i) :=
  (modSlot_changes _ _ _).andThen (endRun_changes _ _ _ _)

theorem finishUnwind_changes (s : State) (i : SlotId) : ChangesOnly runParts s (s.finishUnwind i) :=
  endRun_changes _ _ _ _

theorem leaveBody_changes (s : State) (i : SlotId) (reason : SeqReason) (failed : Nat) :
    ChangesOnly runParts s (s.leaveBody i reason failed) := by
  unfold State.leaveBody
  dsimp only
  split
  · exact (modSlot_changes _ _ _).andThen (finishUnwind_changes _ _)
  · exact (modSlot_changes _ _ _).andThen (moveEntry_changes _ _ _ _ _ _ _)

theorem completeStep_changes (s : State) (i : SlotId) (list : StepList) (n : Nat) :
    ChangesOnly runParts s (s.completeStep i list n) := by
  unfold State.completeStep
  split
  · exact (moveEntry_changes _ _ _ _ _ _ _).mono (by decide)
  · cases list
    · exact finishBody_changes _ _
    · exact finishUnwind_changes _ _

/-- What taking a step may change besides: the line that a SET writes, and the generator bound to it. -/
abbrev stepParts : List Part := [.lines, .generators, .timeline, .slots, .numbers, .queues]

theorem takeBodyStep_changes (s : State) (i : SlotId) (n : Nat) : ChangesOnly stepParts s (s.takeBodyStep i n) := by
  unfold State.takeBodyStep
  dsimp only
  refine ((modSlot_changes s i fun r => { r with state := .running }).mono (by decide)).trans ?_
  split
  · exact (removeEntry_changes _ _).mono (by decide)
  · split
    · split
      · exact (leaveBody_changes _ _ _ _).mono (by decide)
      · split
        · exact (leaveBody_changes _ _ _ _).mono (by decide)
        · exact (writeLine_changes _ _ _).andThen (completeStep_changes _ _ _ _)
    · exact (notifyOwner_changes _ _ _).andThen (completeStep_changes _ _ _ _)
    · split
      · exact (completeStep_changes _ _ _ _).mono (by decide)
      · exact (moveEntry_changes _ _ _ _ _ _ _).mono (by decide)

theorem takeUnwindStep_changes (s : State) (i : SlotId) (n : Nat) : ChangesOnly stepParts s (s.takeUnwindStep i n) := by
  unfold State.takeUnwindStep
  split
  · exact (removeEntry_changes _ _).mono (by decide)
  · split
    · split
      · exact (modSlot_changes _ _ _).andThen (completeStep_changes _ _ _ _)
      · exact (writeLine_changes _ _ _).andThen (completeStep_changes _ _ _ _)
    · exact (notifyOwner_changes _ _ _).andThen (completeStep_changes _ _ _ _)
    · exact (completeStep_changes _ _ _ _).mono (by decide)

theorem stopSequence_changes (s : State) (i : SlotId) (reason : SeqReason) :
    ChangesOnly runParts s (s.stopSequence i reason) :=
  leaveBody_changes _ _ _ _

/-! ## Closing a session -/

theorem freeGenerator_changes (s : State) (g : GenId) : ChangesOnly [.generators] s (s.freeGenerator g) :=
  modGenerator_changes _ _ _

theorem freeGenerators_changes (s : State) (k : SessionId) : ChangesOnly [.generators] s (s.freeGenerators k) := by
  intro part h; cases part <;> simp [Part.same, State.freeGenerators, State.port] at *

theorem removeWatches_changes (s : State) (k : SessionId) : ChangesOnly [.watches] s (s.removeWatches k) := by
  intro part h; cases part <;> simp [Part.same, State.removeWatches, State.port] at *

theorem freeSlot_changes (s : State) (i : SlotId) : ChangesOnly [.pool, .slots] s (s.freeSlot i) :=
  (setPoolFree_changes _ _).andThen (modSlot_changes _ _ _)

theorem addPortFrame_changes (s : State) (p : Port) (f : PortFrame) : ChangesOnly [.frames] s (s.addPortFrame p f) :=
  modPort_changes_frames _ _ _

theorem sendEnded_changes (s : State) (k : SessionId) (r : Session) : ChangesOnly [.frames] s (s.sendEnded k r) := by
  unfold State.sendEnded
  split
  · exact addPortFrame_changes _ _ _
  · exact .refl _ _

/-- What the end of a closing changes. -/
abbrev closingParts : List Part :=
  [.lines, .leases, .generators, .slots, .pool, .sessions, .numbers, .queues, .frames]

theorem completeClosing_changes (s : State) (k : SessionId) : ChangesOnly closingParts s (s.completeClosing k) := by
  unfold State.completeClosing
  exact (((((ChangesOnly.foldl freeSlot_changes _ _).andThen (endLeasesOf_changes _ _) (parts := closingParts)).andThen
    (modSession_changes _ _ _) (parts := closingParts)).andThen (sendEnded_changes _ _ _)))

theorem checkClosing_changes (s : State) (k : SessionId) : ChangesOnly closingParts s (s.checkClosing k) := by
  unfold State.checkClosing
  split
  · exact completeClosing_changes _ _
  · exact .refl _ _

/-- What a session's entry into CLOSING, with its completion, may change. -/
abbrev enteringParts : List Part :=
  [.lines, .leases, .timeline, .slots, .pool, .watches, .generators, .sessions, .numbers, .queues, .frames]

/-- What steps 1 to 5 of R148 change. -/
abbrev putAwayParts : List Part := [.leases, .timeline, .watches, .generators, .sessions, .numbers, .queues]

theorem putAway_changes (s : State) (k : SessionId) (cause : CloseCause) :
    ChangesOnly putAwayParts s (s.putAway k cause) := by
  unfold State.putAway
  refine ChangesOnly.andThen ?_ (freeGenerators_changes _ _) (ps := putAwayParts)
  refine ChangesOnly.andThen ?_ (removeWatches_changes _ _) (ps := putAwayParts)
  refine ChangesOnly.andThen ?_ (removePlaces_changes _ _) (ps := putAwayParts)
  refine ChangesOnly.andThen ?_ (removeOneshots_changes _ _) (ps := putAwayParts)
  exact (modSession_changes _ _ _).mono (by decide)

theorem freeGenerators_get (s : State) (k : SessionId) (g : GenId) : (s.freeGenerators k).generators[g] =
    if s.generators[g].owner = some k then Generator.free else s.generators[g] := by
  simp only [State.freeGenerators, Fin.getElem_fin, Vector.getElem_ofFn]

theorem removePlaces_get (s : State) (k : SessionId) (l : LineId) : (s.removePlaces k).leases[l] =
    { s.leases[l] with queue := s.leases[l].queue.filter fun q => decide (q.session ≠ k) } := by
  simp only [State.removePlaces, Fin.getElem_fin, Vector.getElem_ofFn]

theorem removeWatches_get (s : State) (k : SessionId) (w : WatchId) : (s.removeWatches k).watches[w] =
    s.watches[w].filter fun r => decide (r.session ≠ k) := by
  simp only [State.removeWatches, Fin.getElem_fin, Vector.getElem_ofFn]

theorem freeGenerators_sessions (s : State) (k : SessionId) : (s.freeGenerators k).sessions = s.sessions := by
  simp [State.freeGenerators]
theorem removeWatches_sessions (s : State) (k : SessionId) : (s.removeWatches k).sessions = s.sessions := by
  simp [State.removeWatches]
theorem removePlaces_sessions (s : State) (k : SessionId) : (s.removePlaces k).sessions = s.sessions := by
  simp [State.removePlaces]
theorem removeOneshots_sessions (s : State) (k : SessionId) : (s.removeOneshots k).sessions = s.sessions := by
  simp [State.removeOneshots]
theorem freeGenerators_timeline (s : State) (k : SessionId) : (s.freeGenerators k).timeline = s.timeline := by
  simp [State.freeGenerators]
theorem removeWatches_timeline (s : State) (k : SessionId) : (s.removeWatches k).timeline = s.timeline := by
  simp [State.removeWatches]
theorem removePlaces_timeline (s : State) (k : SessionId) : (s.removePlaces k).timeline = s.timeline := by
  simp [State.removePlaces]
theorem removeOneshots_timeline (s : State) (k : SessionId) : (s.removeOneshots k).timeline =
    s.timeline.filter fun e => !(e.isOneshot && decide (e.owner = k)) := by
  simp [State.removeOneshots]

/-- What steps 1 to 5 of R148 do to each kind of record. -/
theorem putAway_generator (s : State) (k : SessionId) (cause : CloseCause) (g : GenId) :
    (s.putAway k cause).generators[g] = if s.generators[g].owner = some k then Generator.free else s.generators[g] := by
  unfold State.putAway
  rw [freeGenerators_get, (removeWatches_changes _ k).generator g, (removePlaces_changes _ k).generator g,
    (removeOneshots_changes _ k).generator g, (modSession_changes _ k _).generator g]

theorem putAway_lease (s : State) (k : SessionId) (cause : CloseCause) (l : LineId) : (s.putAway k cause).leases[l] =
    { s.leases[l] with queue := s.leases[l].queue.filter fun q => decide (q.session ≠ k) } := by
  unfold State.putAway
  rw [(freeGenerators_changes _ k).lease l, (removeWatches_changes _ k).lease l, removePlaces_get,
    (removeOneshots_changes _ k).lease l, (modSession_changes _ k _).lease l]

theorem putAway_watch (s : State) (k : SessionId) (cause : CloseCause) (w : WatchId) : (s.putAway k cause).watches[w] =
    s.watches[w].filter fun r => decide (r.session ≠ k) := by
  unfold State.putAway
  rw [(freeGenerators_changes _ k).watch w, removeWatches_get, (removePlaces_changes _ k).watch w,
    (removeOneshots_changes _ k).watch w, (modSession_changes _ k _).watch w]

theorem putAway_session (s : State) (k j : SessionId) (cause : CloseCause) : (s.putAway k cause).sessions[j] =
    if j = k then { s.sessions[k] with state := .closing, cause := some cause, queue := [], joinedNow := 0 } else s.sessions[j] := by
  have e : (s.putAway k cause).sessions =
      (s.modSession k fun r => { r with state := .closing, cause := some cause, queue := [], joinedNow := 0 }).sessions := by
    rw [State.putAway, freeGenerators_sessions, removeWatches_sessions, removePlaces_sessions, removeOneshots_sessions]
  rw [e]
  exact State.modSession_get s k j _

theorem putAway_timeline (s : State) (k : SessionId) (cause : CloseCause) : (s.putAway k cause).timeline =
    s.timeline.filter fun e => !(e.isOneshot && decide (e.owner = k)) := by
  rw [State.putAway, freeGenerators_timeline, removeWatches_timeline, removePlaces_timeline, removeOneshots_timeline,
    State.modSession_timeline]

theorem stopBodies_changes (s : State) (k : SessionId) : ChangesOnly runParts s (s.stopBodies k) :=
  ChangesOnly.foldl (fun _ _ => stopSequence_changes _ _ _) _ _

/-- What steps 1 to 6 of R148 may change. -/
abbrev beginningParts : List Part :=
  [.timeline, .leases, .slots, .watches, .generators, .sessions, .numbers, .queues]

theorem beginClosing_changes (s : State) (k : SessionId) (cause : CloseCause) :
    ChangesOnly beginningParts s (s.beginClosing k cause) := by
  unfold State.beginClosing
  split
  · exact (putAway_changes _ _ _).andThen (stopBodies_changes _ _)
  · exact .refl _ _

theorem enterClosing_changes (s : State) (k : SessionId) (cause : CloseCause) :
    ChangesOnly enteringParts s (s.enterClosing k cause) := by
  unfold State.enterClosing
  split
  · exact (beginClosing_changes _ _ _).andThen (checkClosing_changes _ _)
  · exact .refl _ _

/-! ## Taking entries -/

theorem takeOneshot_changes (s : State) (e : Entry) (l : LineId) (v : Level) :
    ChangesOnly [.lines, .generators, .timeline, .numbers, .queues] s (s.takeOneshot e l v) := by
  unfold State.takeOneshot
  dsimp only
  split
  · exact (removeEntry_changes _ _).andThen (notify_changes _ _ _)
  · split
    · exact (removeEntry_changes _ _).andThen (notify_changes _ _ _)
    · exact (removeEntry_changes _ _).andThen (writeLine_changes _ _ _)

/-- What taking a due entry may change: all but the queue of commands, the clock, the reset, the watches and the receivers. -/
abbrev takingParts : List Part :=
  [.lines, .leases, .timeline, .slots, .pool, .generators, .sessions, .numbers, .queues, .frames]

theorem takeStep_changes (s : State) (e : Entry) (i : SlotId) (list : StepList) (n : Nat) :
    ChangesOnly takingParts s (s.takeStep e i list n) := by
  cases list
  · exact (takeBodyStep_changes _ _ _).andThen (checkClosing_changes _ _)
  · exact (takeUnwindStep_changes _ _ _).andThen (checkClosing_changes _ _)

theorem takeDeadline_changes (s : State) (e : Entry) (i : SlotId) (n : Nat) :
    ChangesOnly takingParts s (s.takeDeadline e i n) :=
  (leaveBody_changes _ _ _ _).andThen (checkClosing_changes _ _)

theorem takeEntry_changes (s : State) (e : Entry) : ChangesOnly takingParts s (s.takeEntry e) := by
  unfold State.takeEntry
  split
  · exact (takeOneshot_changes _ _ _ _).mono (by decide)
  · exact takeStep_changes _ _ _ _ _
  · exact takeDeadline_changes _ _ _ _

theorem takeUntil_changes (h n : Nat) (s : State) : ChangesOnly takingParts s (State.takeUntil h n s) := by
  induction n generalizing s with
  | zero => exact .refl _ _
  | succ n ih =>
    unfold State.takeUntil
    split
    · split
      · exact (takeEntry_changes _ _).trans (ih _)
      · exact .refl _ _
    · exact .refl _ _

/-! ## Sending -/

theorem beginFrame_changes (s : State) (p : Port) (f : TxFrame) :
    ChangesOnly [.queues, .frames, .sending] s (s.beginFrame p f) := by
  cases f with
  | port f => exact (modPort_changes_sending _ _ _ (by simp)).mono (by decide)
  | reply r => exact (modPort_changes_sending _ _ _ (by simp)).mono (by decide)
  | notice k n => exact (modSession_changes_queues _ _ _).andThen (modPort_changes_sending _ _ _ (by simp))

theorem arbitrate_changes (s : State) (late : Bool) (p : Port) :
    ChangesOnly [.queues, .frames, .sending] s (s.arbitrate late p) := by
  unfold State.arbitrate
  split
  · exact .refl _ _
  · split
    · exact .refl _ _
    · exact beginFrame_changes _ _ _

theorem settle_changes (s : State) : ChangesOnly [.queues, .frames, .sending] s s.settle :=
  (arbitrate_changes _ _ _).trans (arbitrate_changes _ _ _)

theorem endTick_changes (s : State) : ChangesOnly [.queues, .frames, .sending] s s.endTick :=
  (arbitrate_changes _ _ _).trans (arbitrate_changes _ _ _)

theorem answer_changes (s : State) (p : Port) (r : Request) (a : Answer) : ChangesOnly [.sending] s (s.answer p r a) :=
  modPort_changes_inbound _ _ _

end Sys2Proof.Machine
end

