-- ==== Sys2Proof/Laws/Transmit.lean ====
section
/-! SUPPORT. The transmit arbiter, the reply to a request, and what taking a request amounts to. -/

namespace Sys2Proof.Machine

set_option Elab.async false

/-! ## Inbound slots -/

theorem answeredReply_answerOldest {slots : List InboundSlot} {r : Request} (reply : Reply)
    (h : oldestWaiting slots = some r) (hn : answeredReply slots = none) :
    answeredReply (answerOldest reply slots) = some reply := by
  induction slots with
  | nil => simp [oldestWaiting] at h
  | cons x xs ih => cases x <;> simp_all [oldestWaiting, answeredReply, answerOldest]

theorem answeredReply_markSending {slots : List InboundSlot} (h : answeredCount slots ≤ 1) :
    answeredReply (markSending slots) = none := by
  induction slots with
  | nil => rfl
  | cons x xs ih =>
    cases x
    · simp_all [answeredReply, markSending, answeredCount]
    · simp only [markSending, answeredReply]
      have hz : answeredCount xs = 0 := by simp [answeredCount] at h ⊢; exact h
      clear ih h
      induction xs with
      | nil => rfl
      | cons y ys ih => cases y <;> simp_all [answeredReply, answeredCount]
    · simp_all [answeredReply, markSending, answeredCount]

theorem answeredCount_markSending (slots : List InboundSlot) :
    answeredCount (markSending slots) = answeredCount slots - 1 := by
  induction slots with
  | nil => rfl
  | cons x xs ih => cases x <;> simp_all [markSending, answeredCount]

theorem answeredCount_answerOldest (reply : Reply) (slots : List InboundSlot) :
    answeredCount (answerOldest reply slots) ≤ answeredCount slots + 1 := by
  induction slots with
  | nil => simp [answerOldest]
  | cons x xs ih =>
    cases x <;> simp_all [answerOldest, answeredCount]

theorem answeredCount_eq_zero {slots : List InboundSlot} : answeredCount slots = 0 ↔ answeredReply slots = none := by
  induction slots with
  | nil => simp [answeredCount, answeredReply]
  | cons x xs ih => cases x <;> simp_all [answeredCount, answeredReply]

theorem answeredCount_freeSending (slots : List InboundSlot) : answeredCount (freeSending slots) = answeredCount slots := by
  induction slots with
  | nil => rfl
  | cons x xs ih => cases x <;> simp_all [freeSending, answeredCount]

@[simp] theorem length_markSending (slots : List InboundSlot) : (markSending slots).length = slots.length := by
  induction slots with
  | nil => rfl
  | cons x xs ih => cases x <;> simp_all [markSending]

@[simp] theorem length_answerOldest (reply : Reply) (slots : List InboundSlot) :
    (answerOldest reply slots).length = slots.length := by
  induction slots with
  | nil => rfl
  | cons x xs ih => cases x <;> simp_all [answerOldest]

theorem length_freeSending (slots : List InboundSlot) : (freeSending slots).length ≤ slots.length := by
  induction slots with
  | nil => simp [freeSending]
  | cons x xs ih => cases x <;> simp_all [freeSending]

/-! ## The arbiter (R168, R169) -/

theorem arbitrate_busy {s : State} {late : Bool} {p : Port} {x : Transmission} (h : (s.port p).transmitter = some x) :
    s.arbitrate late p = s := by
  simp [State.arbitrate, h]

theorem mem_rotation (n : Nat) (k : SessionId) : k ∈ rotation n := by
  simp only [rotation, allSessions, List.mem_map, List.mem_finRange, true_and]
  refine ⟨⟨(k.val + 3 * (n % 4)) % 4, Nat.mod_lt _ (by decide)⟩, ?_⟩
  ext; simp; omega

theorem nextSender_some {s : State} {late : Bool} {p : Port} {k : SessionId} (h : s.nextSender late p = some k) :
    s.sessions[k].port = some p ∧ s.sessions[k].offers late = true := by
  have := List.find?_some h
  simpa [-Fin.getElem_fin] using this

theorem nextSender_none {s : State} {late : Bool} {p : Port} (h : s.nextSender late p = none) (k : SessionId)
    (hk : s.sessions[k].port = some p) : s.sessions[k].offers late = false := by
  have := List.find?_eq_none.mp h k (mem_rotation _ k)
  simpa [-Fin.getElem_fin, hk] using this

/-- What the arbiter chooses is pending, and beginning it is beginning one frame (R168). -/
theorem beginFrame_beginsOne {s : State} {late : Bool} {p : Port} {f : TxFrame} (ht : (s.port p).transmitter = none)
    (h : s.nextFrame late p = some f) : s.BeginsOne (s.beginFrame p f) p := by
  refine ⟨ht, ?_⟩
  have port : ∀ g rest, (s.port p).frames = g :: rest → f = .port g → ∃ (f' : PortFrame) (rest' : List PortFrame),
      (s.port p).frames = f' :: rest' ∧ (s.beginFrame p f).port p =
        { s.port p with frames := rest', transmitter := some { frame := .port f', begun := s.tick } } ∧
      ∀ k : SessionId, s.sessions[k].port = some p → (s.beginFrame p f).sessions[k].queue = s.sessions[k].queue := by
    rintro g rest hf rfl
    refine ⟨g, rest, hf, ?_, fun k _ => ?_⟩
    · simp [State.beginFrame, hf]
    · simp [State.beginFrame]
  have reply : ∀ r, answeredReply (s.port p).inbound = some r → f = .reply r → ∃ r' : Reply,
      answeredReply (s.port p).inbound = some r' ∧ (s.beginFrame p f).port p =
        { s.port p with inbound := markSending (s.port p).inbound,
                        transmitter := some { frame := .reply r', begun := s.tick } } ∧
      ∀ k : SessionId, s.sessions[k].port = some p → (s.beginFrame p f).sessions[k].queue = s.sessions[k].queue := by
    rintro r hr rfl
    refine ⟨r, hr, ?_, fun k _ => ?_⟩
    · simp [State.beginFrame]
    · simp [State.beginFrame]
  unfold State.nextFrame at h
  split at h
  · rename_i g rest hf
    exact .inl (port g rest hf (Option.some.inj h).symm)
  · rename_i r hf hr
    exact .inr (.inl (reply r hr (Option.some.inj h).symm))
  · split at h
    · simp at h
    · rename_i k hk
      cases hq : s.sessions[k].queue with
      | nil => rw [hq] at h; simp at h
      | cons n rest =>
        rw [hq] at h
        obtain rfl : TxFrame.notice k n = f := by simpa using h
        refine .inr (.inr ⟨k, n, rest, (nextSender_some hk).1, hq, ?_, ?_, fun j hj _ => ?_⟩)
        · simp [State.beginFrame]
        · simp only [State.beginFrame, State.modPort_sessions, State.modSession_get_same, hq, List.tail_cons]
        · simp only [State.beginFrame, State.modPort_sessions]
          rw [State.modSession_get_ne _ _ hj]

/-- The arbiter of a port begins nothing, or one frame that was pending. -/
theorem arbitrate_begins (s : State) (late : Bool) (p : Port) :
    s.BeginsNothing (s.arbitrate late p) p ∨ s.BeginsOne (s.arbitrate late p) p := by
  unfold State.arbitrate
  split
  · exact .inl ⟨rfl, fun _ _ => rfl⟩
  · rename_i ht
    split
    · exact .inl ⟨rfl, fun _ _ => rfl⟩
    · rename_i f hf; exact .inr (beginFrame_beginsOne ht hf)

/-- The arbiter of one port leaves the other. -/
theorem arbitrate_port_ne (s : State) (late : Bool) {p q : Port} (h : q ≠ p) : (s.arbitrate late p).port q = s.port q := by
  unfold State.arbitrate
  split
  · rfl
  · split
    · rfl
    · rename_i f _
      cases f with
      | port g => exact State.modPort_port_ne _ _ h
      | reply r => exact State.modPort_port_ne _ _ h
      | notice k n => rw [State.beginFrame, State.modPort_port_ne _ _ h]; simp

/-- The arbiter of one port leaves the notices of sessions that are not bound to it. -/
theorem arbitrate_queue_other (s : State) (late : Bool) {p : Port} (k : SessionId) (h : s.sessions[k].port ≠ some p) :
    (s.arbitrate late p).sessions[k].queue = s.sessions[k].queue := by
  unfold State.arbitrate
  split
  · rfl
  · split
    · rfl
    · rename_i f hf
      cases f with
      | port g => simp [State.beginFrame]
      | reply r => simp [State.beginFrame]
      | notice j n =>
        have hj : s.sessions[j].port = some p := by
          unfold State.nextFrame at hf
          split at hf
          · simp at hf
          · simp at hf
          · split at hf
            · simp at hf
            · rename_i i hi
              cases hq : s.sessions[i].queue with
              | nil => rw [hq] at hf; simp at hf
              | cons m rest =>
                rw [hq] at hf
                have : i = j := by simp at hf; exact hf.1
                subst this; exact (nextSender_some hi).1
        have hne : k ≠ j := by rintro rfl; exact h hj
        rw [State.beginFrame, State.modPort_sessions, State.modSession_get_ne _ _ hne]

/-- A port whose transmitter is idle after its arbiter has chosen had nothing for the arbiter to choose (R168). -/
theorem arbitrate_conserves {s : State} {late : Bool} {p : Port} (h : ((s.arbitrate late p).port p).transmitter = none) :
    s.arbitrate late p = s ∧ (s.port p).frames = [] ∧ answeredReply (s.port p).inbound = none ∧
      ∀ k : SessionId, s.sessions[k].port = some p → s.sessions[k].queue = [] ∨ s.sessions[k].offers late = false := by
  unfold State.arbitrate at h ⊢
  cases ht : (s.port p).transmitter with
  | some x => simp [ht] at h
  | none =>
    cases hf : s.nextFrame late p with
    | some f =>
      simp only [ht, hf] at h
      cases f <;> simp [State.beginFrame] at h
    | none =>
      refine ⟨rfl, ?_⟩
      unfold State.nextFrame at hf
      split at hf
      · simp at hf
      · simp at hf
      · rename_i h1 h2
        refine ⟨h1, h2, fun k hk => ?_⟩
        split at hf
        · rename_i hn; exact .inr (nextSender_none hn k hk)
        · rename_i j hj
          have ho := (nextSender_some hj).2
          have hq : s.sessions[j].queue = [] := by simpa using hf
          exfalso
          unfold Session.offers at ho
          rw [hq] at ho
          split at ho <;> simp at ho

/-- Both arbiters having chosen, each port has begun nothing or one frame that was pending. -/
theorem arbitrate_settled (s : State) (late : Bool) : Settled s ((s.arbitrate late .a).arbitrate late .b) := by
  have hA := arbitrate_changes s late .a
  have hB := arbitrate_changes (s.arbitrate late .a) late .b
  have port : ∀ k : SessionId, (s.arbitrate late .a).sessions[k].port = s.sessions[k].port :=
    fun k => (hA .sessions (by decide) k).2.1
  refine ⟨hA.trans hB, fun p => ?_, fun k hk => ?_⟩
  · cases p
    · have e : ((s.arbitrate late .a).arbitrate late .b).port .a = (s.arbitrate late .a).port .a :=
        arbitrate_port_ne _ _ (by decide)
      have q : ∀ k : SessionId, s.sessions[k].port = some .a →
          ((s.arbitrate late .a).arbitrate late .b).sessions[k].queue = (s.arbitrate late .a).sessions[k].queue :=
        fun k hk => arbitrate_queue_other _ _ k (by rw [port, hk]; decide)
      rcases arbitrate_begins s late .a with h | ⟨ht, h⟩
      · exact .inl ⟨e.trans h.1, fun k hk => (q k hk).trans (h.2 k hk)⟩
      · refine .inr ⟨ht, ?_⟩
        rcases h with ⟨f, rest, h1, h2, h3⟩ | ⟨r, h1, h2, h3⟩ | ⟨k, n, rest, h0, h1, h2, h3, h4⟩
        · exact .inl ⟨f, rest, h1, e.trans h2, fun k hk => (q k hk).trans (h3 k hk)⟩
        · exact .inr (.inl ⟨r, h1, e.trans h2, fun k hk => (q k hk).trans (h3 k hk)⟩)
        · exact .inr (.inr ⟨k, n, rest, h0, h1, e.trans h2, (q k h0).trans h3, fun j hj hp => (q j hp).trans (h4 j hj hp)⟩)
    · have e : (s.arbitrate late .a).port .b = s.port .b := arbitrate_port_ne _ _ (by decide)
      have q : ∀ k : SessionId, s.sessions[k].port = some .b → (s.arbitrate late .a).sessions[k].queue = s.sessions[k].queue :=
        fun k hk => arbitrate_queue_other _ _ k (by rw [hk]; decide)
      have tick := hA.tick
      rcases arbitrate_begins (s.arbitrate late .a) late .b with h | ⟨ht, h⟩
      · exact .inl ⟨h.1.trans e, fun k hk => (h.2 k (by rw [port, hk])).trans (q k hk)⟩
      · rw [e] at ht
        simp only [State.BeginsOne, e, tick, port] at h ⊢
        refine .inr ⟨ht, ?_⟩
        rcases h with ⟨f, rest, h1, h2, h3⟩ | ⟨r, h1, h2, h3⟩ | ⟨k, n, rest, h0, h1, h2, h3, h4⟩
        · exact .inl ⟨f, rest, h1, h2, fun k hk => (h3 k hk).trans (q k hk)⟩
        · exact .inr (.inl ⟨r, h1, h2, fun k hk => (h3 k hk).trans (q k hk)⟩)
        · exact .inr (.inr ⟨k, n, rest, h0, (q k h0).symm.trans h1, h2, h3, fun j hj hp => (h4 j hj hp).trans (q j hp)⟩)
  · rw [arbitrate_queue_other _ _ k (by rw [port, hk]; simp), arbitrate_queue_other _ _ k (by rw [hk]; simp)]

theorem settle_settled (s : State) : Settled s s.settle := arbitrate_settled s false

theorem endTick_settled (s : State) : Settled s s.endTick := arbitrate_settled s true

/-- Both arbiters having chosen, an idle port has nothing that they choose among (R168). -/
theorem arbitrate_both_conserve (s : State) (late : Bool) {p : Port}
    (h : (((s.arbitrate late .a).arbitrate late .b).port p).transmitter = none) :
    let t := (s.arbitrate late .a).arbitrate late .b
    (t.port p).frames = [] ∧ answeredReply (t.port p).inbound = none ∧
      ∀ k : SessionId, t.sessions[k].port = some p → t.sessions[k].queue = [] ∨ t.sessions[k].offers late = false := by
  intro t
  have hB := arbitrate_changes (s.arbitrate late .a) late .b
  cases p
  · have e : t.port .a = (s.arbitrate late .a).port .a := arbitrate_port_ne _ _ (by decide)
    rw [e] at h ⊢
    obtain ⟨c, h1, h2, h3⟩ := arbitrate_conserves h
    refine ⟨by rw [c]; exact h1, by rw [c]; exact h2, fun k hk => ?_⟩
    have hp : (s.arbitrate late .a).sessions[k].port = some .a := by
      rw [← (hB .sessions (by decide) k).2.1]; exact hk
    have hq : t.sessions[k].queue = (s.arbitrate late .a).sessions[k].queue :=
      arbitrate_queue_other _ _ k (by rw [hp]; decide)
    have hj : t.sessions[k].joinedNow = (s.arbitrate late .a).sessions[k].joinedNow := (hB .numbers (by decide) k).2.2
    have := h3 k (by rw [← c]; exact hp)
    unfold Session.offers at this ⊢
    rw [hq, hj, c]; exact this
  · obtain ⟨c, h1, h2, h3⟩ := arbitrate_conserves h
    have ct : t = s.arbitrate late .a := c
    rw [ct]; exact ⟨h1, h2, h3⟩

/-- After both arbiters have chosen, no transmitter is idle with a frame to send but notices of this tick (R168). -/
theorem settle_workConserving (s : State) : WorkConserving s.settle := by
  intro p hp
  obtain ⟨h1, h2, h3⟩ := arbitrate_both_conserve s false hp
  refine ⟨h1, h2, fun k hk => ?_⟩
  rcases h3 k hk with h | h
  · rw [State.settle, h]; simp
  · simp only [Session.offers, Bool.false_eq_true, if_false, decide_eq_false_iff_not, Nat.not_lt] at h
    exact h

/-! ## What follows from `Settled` -/

theorem Settled.changes {s t : State} (h : Settled s t) : ChangesOnly [.queues, .frames, .sending] s t := h.1

theorem Settled.tick {s t : State} (h : Settled s t) : t.tick = s.tick := h.1.tick

/-- A transmission goes on. -/
theorem Settled.busy {s t : State} {p : Port} {x : Transmission} (h : Settled s t)
    (hx : (s.port p).transmitter = some x) : t.port p = s.port p := by
  rcases h.2.1 p with hn | ho
  · exact hn.1
  · rw [ho.1] at hx; simp at hx

/-- The reply that a port has ready is in its slot, or begun. -/
theorem Settled.reply {s t : State} {p : Port} {r : Reply} (h : Settled s t)
    (hr : answeredReply (s.port p).inbound = some r) :
    answeredReply (t.port p).inbound = some r ∨
      (t.port p).transmitter = some { frame := .reply r, begun := t.tick } := by
  rw [h.tick]
  rcases h.2.1 p with hn | ⟨-, ⟨f, rest, -, h2, -⟩ | ⟨r', h1, h2, -⟩ | ⟨k, n, rest, -, -, h2, -⟩⟩
  · left; rw [hn.1]; exact hr
  · left; rw [h2]; exact hr
  · right; rw [h2]; rw [hr] at h1; cases h1; rfl
  · left; rw [h2]; exact hr

/-- A port takes no request while one is answered. -/
theorem answeredReply_isSome_takeable {s : State} {p : Port} (h : (answeredReply (s.port p).inbound).isSome = true) :
    s.takeable p = none := by
  simp [State.takeable, h]

/-! ## Taking a request (R165 to R167) -/

theorem takeable_some {s : State} {p : Port} {r : Request} (h : s.takeable p = some r) :
    s.heldInReset = false ∧ (s.port p).stopped = false ∧ answeredReply (s.port p).inbound = none ∧
      oldestWaiting (s.port p).inbound = some r := by
  unfold State.takeable at h
  split at h
  · simp at h
  · rename_i hc; simp at hc; exact ⟨hc.1.1, hc.1.2, hc.2, h⟩

/-- The reply is made, where what served the request left the inbound slots and the transmitter. -/
theorem answer_replied {s u t : State} {p : Port} {r : Request} (h : s.takeable p = some r) (parts : List Part)
    (hu : ChangesOnly parts s u) {a : Answer} (ht : Settled (u.answer p r a) t)
    (hp : Part.sending ∉ parts := by decide) : t.Replied p r a := by
  obtain ⟨-, -, hn, hw⟩ := takeable_some h
  have hi := (hu .sending hp p).1
  have hk : t.tick = u.tick := ht.tick.trans (answer_changes u p r a).tick
  apply ht.reply
  rw [hk]
  simp only [State.answer, State.modPort_port_same, hi]
  exact answeredReply_answerOldest _ hw hn

/-- Making the reply changes nothing else. -/
theorem answer_settle_changes (u : State) (p : Port) (r : Request) (a : Answer) :
    ChangesOnly [.queues, .frames, .sending] u (u.answer p r a).settle :=
  (answer_changes _ _ _ _).andThen (settle_changes _)

theorem takeRequest_eq {s : State} {t : RequestType} {p : Port} {r : Request} (serve : Request → State → State × Answer)
    (h : s.takeable p = some r) (ht : r.type = t.code) :
    s.takeRequest t p serve =
      (if t.allows r.payload.length then ((serve r s).1.answer p r (serve r s).2).settle
       else (s.answer p r (Answer.plain .badLength)).settle) := by
  simp only [State.takeRequest, h, ht, if_true]
  split <;> rfl

/-- A request of an OPEN session, of an allowed length, is served and answered. -/
theorem takeSessioned_eq {s : State} {t : RequestType} {p : Port} {k : SessionId} {r : Request} {payload : List Byte}
    (serve : SessionId → List Byte → State → State × Answer) (h : s.Takes p t k r payload)
    (hl : t.allows payload.length = true) :
    s.takeSessioned t p serve = ((serve k payload s).1.answer p r (serve k payload s).2).settle := by
  obtain ⟨h1, h2, h3, h4⟩ := h
  rw [State.takeSessioned, takeRequest_eq _ h1 h2, h3, if_pos hl]
  simp [h4]

/-- What a request of an OPEN session does: what serves it, the notices that makes, the reply, and nothing else but what the
arbiters begin. -/
theorem takeSessioned_answers {s : State} {t : RequestType} {p : Port} {k : SessionId} {r : Request} {payload : List Byte}
    (serve : SessionId → List Byte → State → State × Answer) (h : s.Takes p t k r payload)
    (hl : t.allows payload.length = true) {u : State} {a : Answer} (he : serve k payload s = (u, a)) (parts : List Part)
    (hu : ChangesOnly (parts ++ [.numbers, .queues]) s u) {notes : List (SessionId × NoticeBody)} (hm : Made s u notes) :
    s.Answers (s.takeSessioned t p serve) p r a parts notes := by
  rw [takeSessioned_eq serve h hl, he]
  exact ⟨u, hu, hm, settle_settled _⟩

/-- A request that is answered and does nothing else. -/
theorem takeSessioned_onlyReplies {s : State} {t : RequestType} {p : Port} {k : SessionId} {r : Request}
    {payload : List Byte} (serve : SessionId → List Byte → State → State × Answer) (h : s.Takes p t k r payload)
    (hl : t.allows payload.length = true) {a : Answer} (he : serve k payload s = (s, a)) :
    s.OnlyReplies (s.takeSessioned t p serve) p r a := by
  rw [takeSessioned_eq serve h hl, he]
  exact settle_settled _

theorem State.OnlyReplies.changes {s t : State} {p : Port} {r : Request} {a : Answer} (h : s.OnlyReplies t p r a) :
    ChangesOnly [.queues, .frames, .sending] s t :=
  (answer_changes _ _ _ _).andThen h.1

/-- A request whose reply is made leaves every part but those it names, the queues, and the sending side. -/
theorem State.Answers.changes {s t : State} {p : Port} {r : Request} {a : Answer} {parts : List Part}
    {notes : List (SessionId × NoticeBody)} (h : s.Answers t p r a parts notes) :
    ChangesOnly (parts ++ [.numbers, .queues, .frames, .sending]) s t := by
  obtain ⟨u, h1, -, h3⟩ := h
  refine (h1.mono ?_).trans (((answer_changes u p r a).mono ?_).trans (h3.1.mono ?_)) <;>
    (intro x hx; simp at hx ⊢; tauto)

/-- An event leaves every part but those it names, the queues, and the sending side. -/
theorem Makes.changes {s t : State} {parts : List Part} {notes : List (SessionId × NoticeBody)} (h : Makes s t parts notes) :
    ChangesOnly (parts ++ [.numbers, .queues, .frames, .sending]) s t := by
  obtain ⟨u, h1, -, h3⟩ := h
  refine (h1.mono ?_).trans (h3.1.mono ?_) <;> (intro x hx; simp at hx ⊢; tauto)

end Sys2Proof.Machine
end

