-- ==== Sys2Proof/Laws/Notices.lean ====
section
/-! SUPPORT. What making a notice does, which notices an operation makes (`Made`), and what a report to the Cadence Unit does. -/

namespace Sys2Proof.Machine

set_option Elab.async false

/-! ## Making a notice (R154, R155, R157) -/

theorem notify_get (s : State) (k j : SessionId) (b : NoticeBody) :
    (s.notify k b).sessions[j] = if j = k then s.sessions[k].receive b else s.sessions[j] :=
  State.modSession_get _ _ _ _

/-- A notice leaves what says who a session is. -/
theorem receive_sessions (r : Session) (b : NoticeBody) : (r.receive b).state = r.state ∧ (r.receive b).port = r.port ∧
    (r.receive b).keepalive = r.keepalive ∧ (r.receive b).lastHeard = r.lastHeard ∧ (r.receive b).cause = r.cause := by
  unfold Session.receive; split
  · split <;> exact ⟨rfl, rfl, rfl, rfl, rfl⟩
  · exact ⟨rfl, rfl, rfl, rfl, rfl⟩

theorem receive_state (r : Session) (b : NoticeBody) : (r.receive b).state = r.state := (receive_sessions r b).1

/-- A session that is not OPEN receives nothing (R149, R157). -/
theorem receive_closed {r : Session} (b : NoticeBody) (h : r.state ≠ .opened) : r.receive b = r := by
  simp [Session.receive, h]

theorem received_nil (k : SessionId) (r : Session) : received k [] r = r := rfl

theorem received_append (k : SessionId) (ns ms : List (SessionId × NoticeBody)) (r : Session) :
    received k (ns ++ ms) r = received k ms (received k ns r) := by
  simp [received, List.foldl_append]

theorem received_singleton (k j : SessionId) (b : NoticeBody) (r : Session) :
    received k [(j, b)] r = if j = k then r.receive b else r := rfl

theorem received_state (k : SessionId) (ns : List (SessionId × NoticeBody)) (r : Session) :
    (received k ns r).state = r.state := by
  unfold received
  induction ns generalizing r with
  | nil => rfl
  | cons n ns ih =>
    rw [List.foldl_cons, ih]
    split
    · exact receive_state _ _
    · rfl

theorem received_closed (k : SessionId) (ns : List (SessionId × NoticeBody)) {r : Session} (h : r.state ≠ .opened) :
    received k ns r = r := by
  unfold received
  induction ns with
  | nil => rfl
  | cons n ns ih =>
    rw [List.foldl_cons]
    split
    · rw [receive_closed _ h]; exact ih
    · exact ih

/-- What a record's notices depend on, and what they become. -/
def Session.alike (r q : Session) : Prop :=
  r.queue = q.queue ∧ r.nextNumber = q.nextNumber ∧ r.lost = q.lost ∧ r.joinedNow = q.joinedNow

theorem receive_alike {r q : Session} (b : NoticeBody) (h : r.alike q) (hs : r.state = q.state) :
    (r.receive b).alike (q.receive b) := by
  obtain ⟨h1, h2, h3, h4⟩ := h
  simp only [Session.receive, Session.alike, h1, hs]
  by_cases ho : q.state = .opened
  · by_cases hl : q.queue.length < Config.noticePlaces
    · simp [ho, hl, h2, h3, h4]
    · simp [ho, hl, h2, h3, h4]
  · simp [ho, h1, h2, h3, h4]

theorem received_alike (k : SessionId) (ns : List (SessionId × NoticeBody)) {r q : Session} (h : r.alike q)
    (hs : r.state = q.state) : (received k ns r).alike (received k ns q) := by
  unfold received
  induction ns generalizing r q with
  | nil => exact h
  | cons n ns ih =>
    rw [List.foldl_cons, List.foldl_cons]
    split
    · exact ih (receive_alike _ h hs) (by rw [receive_state, receive_state, hs])
    · exact ih h hs

/-! ## Which notices an operation makes -/

/-- An operation that leaves the queues and numberings makes no notice. -/
theorem Made.of_changes {parts : List Part} {s t : State} (h : ChangesOnly parts s t) (hq : Part.queues ∉ parts := by decide)
    (hn : Part.numbers ∉ parts := by decide) : Made s t [] :=
  fun k => ⟨h .queues hq k, h .numbers hn k⟩

theorem Made.refl (s : State) : Made s s [] := Made.of_changes (.refl [] s)

/-- Two operations one after the other make the notices of both; the first leaves every session's state. -/
theorem Made.andThen {parts : List Part} {s t u : State} {ns ms : List (SessionId × NoticeBody)} (h : Made s t ns)
    (hc : ChangesOnly parts s t) (h' : Made t u ms) (hp : Part.sessions ∉ parts := by decide) : Made s u (ns ++ ms) := by
  intro k
  have a : (t.sessions[k]).alike (received k ns s.sessions[k]) := h k
  have e : t.sessions[k].state = (received k ns s.sessions[k]).state := by
    rw [received_state]; exact (hc .sessions hp k).1
  have b := received_alike k ms a e
  obtain ⟨h1, h2, h3, h4⟩ := h' k
  simp only [received_append]
  exact ⟨h1.trans b.1, h2.trans b.2.1, h3.trans b.2.2.1, h4.trans b.2.2.2⟩

/-- The same with a first operation that makes none. -/
theorem Made.after {parts : List Part} {s t u : State} {ms : List (SessionId × NoticeBody)} (hc : ChangesOnly parts s t)
    (h' : Made t u ms) (hp : Part.sessions ∉ parts := by decide) (hq : Part.queues ∉ parts := by decide)
    (hn : Part.numbers ∉ parts := by decide) : Made s u ms :=
  (Made.of_changes hc hq hn).andThen hc h' hp

/-- The same with a last operation that makes none. -/
theorem Made.before {parts : List Part} {s t u : State} {ns : List (SessionId × NoticeBody)} (h : Made s t ns)
    (hc : ChangesOnly parts t u) (hq : Part.queues ∉ parts := by decide) (hn : Part.numbers ∉ parts := by decide) :
    Made s u ns := by
  intro k
  obtain ⟨h1, h2, h3, h4⟩ := h k
  obtain ⟨n1, n2, n3⟩ := hc .numbers hn k
  exact ⟨(hc .queues hq k).trans h1, n1.trans h2, n2.trans h3, n3.trans h4⟩

theorem made_notify (s : State) (k : SessionId) (b : NoticeBody) : Made s (s.notify k b) [(k, b)] := by
  intro j
  rw [notify_get]
  by_cases e : j = k
  · subst e; rw [if_pos rfl, received_singleton, if_pos rfl]; exact ⟨rfl, rfl, rfl, rfl⟩
  · rw [if_neg e, received_singleton, if_neg fun c => e c.symm]; exact ⟨rfl, rfl, rfl, rfl⟩

/-- The notice to the owner of a record. -/
theorem made_notifyOwner (s : State) (o : Option SessionId) (b : NoticeBody) :
    Made s (s.notifyOwner o b) (match o with | some k => [(k, b)] | none => []) := by
  cases o
  · exact .refl _
  · exact made_notify _ _ _

/-- Operations one after the other, each with its notices. -/
theorem Made.foldl {α : Type} {parts : List Part} {f : State → α → State} {notes : α → List (SessionId × NoticeBody)}
    (hc : ∀ s a, ChangesOnly parts s (f s a)) (Inv : State → α → Prop) (hm : ∀ s a, Inv s a → Made s (f s a) (notes a))
    (as : List α) (hs : Part.sessions ∉ parts := by decide) (s : State)
    (hi : ∀ (before after : List α) (a : α), as = before ++ a :: after → Inv (before.foldl f s) a) :
    Made s (as.foldl f s) (as.flatMap notes) := by
  induction as generalizing s with
  | nil => exact .refl s
  | cons a as ih =>
    rw [List.flatMap_cons, List.foldl_cons]
    refine (hm s a (hi [] as a rfl)).andThen (hc s a) (ih (f s a) fun before after b e => ?_) hs
    have := hi (a :: before) after b (by rw [e]; rfl)
    simpa using this

/-! ## Reports to the Cadence Unit (R23, R112, R113) -/

theorem boundGenerator_some {s : State} {l : LineId} {g : GenId} (h : s.boundGenerator l = some g) :
    s.generators[g].state ≠ .free ∧ s.generators[g].line = some l := by
  have := List.find?_some h
  simpa [-Fin.getElem_fin] using this

theorem boundGenerator_none {s : State} {l : LineId} (h : s.boundGenerator l = none) (g : GenId)
    (hg : s.generators[g].state ≠ .free) : s.generators[g].line ≠ some l := by
  have := List.find?_eq_none.mp h g (List.mem_finRange g)
  simpa [-Fin.getElem_fin, hg] using this

/-- Under `BoundOk` the generator that is bound to a line is the one that is found. -/
theorem boundGenerator_eq {s : State} (hb : BoundOk s) {l : LineId} {g : GenId} (hg : s.generators[g].state ≠ .free)
    (hl : s.generators[g].line = some l) : s.boundGenerator l = some g := by
  cases h : s.boundGenerator l with
  | none => exact absurd hl (boundGenerator_none h g hg)
  | some j =>
    have := boundGenerator_some h
    rw [hb.2.2 j g this.1 hg (by rw [this.2, hl])]

theorem Generator.stop_of_not_active {r : Generator} (h : r.active = false) (hf : r.state ≠ .free) :
    ({ r with state := .stopped } : Generator) = r := by
  cases r with
  | mk state => cases state <;> simp_all [Generator.active]

/-- What a report to the Cadence Unit does to the generators. -/
theorem stopBound_generators {s : State} (hb : BoundOk s) (l : LineId) (cause : CadEndCause) (g : GenId) :
    (s.stopBound l cause).generators[g] = (if s.generators[g].state ≠ .free ∧ s.generators[g].line = some l
      then { s.generators[g] with state := .stopped } else s.generators[g]) := by
  have key : ∀ j, ((s.modGenerator j Generator.stop).sendCadEnd j cause).generators[g] =
      (s.modGenerator j Generator.stop).generators[g] :=
    fun j => (sendCadEnd_changes (s.modGenerator j Generator.stop) j cause).generator g
  cases hj : s.boundGenerator l with
  | none =>
    simp only [State.stopBound, hj]
    rw [if_neg fun c => boundGenerator_none hj g c.1 c.2]
  | some j =>
    have hj' := boundGenerator_some hj
    by_cases e : g = j
    · subst e
      rw [if_pos hj']
      by_cases ha : s.generators[g].active = true
      · simp only [State.stopBound, hj, if_pos ha]
        rw [key, State.modGenerator_get_same]; rfl
      · simp only [State.stopBound, hj, if_neg ha]
        exact (Generator.stop_of_not_active (by simpa using ha) hj'.1).symm
    · rw [if_neg fun c => e (hb.2.2 g j c.1 hj'.1 (by rw [c.2, hj'.2]))]
      by_cases ha : s.generators[j].active = true
      · simp only [State.stopBound, hj, if_pos ha]
        rw [key, State.modGenerator_get_ne _ _ e]
      · simp only [State.stopBound, hj, if_neg ha]

theorem Generator.not_free_of_active {r : Generator} (h : r.active = true) : r.state ≠ .free := by
  intro e; cases r; simp_all [Generator.active]

/-- The report of a line with a generator that is PENDING or RUNNING tells its owner. -/
theorem cadEnds_eq {s : State} (hb : BoundOk s) {l : LineId} (cause : CadEndCause) {g : GenId} {k : SessionId}
    (ha : s.generators[g].active = true) (hl : s.generators[g].line = some l) (ho : s.generators[g].owner = some k) :
    s.cadEnds l cause = [(k, .cadEnd g (some l) cause s.generators[g].completed s.tick)] := by
  have other : ∀ h : GenId, h ≠ g → ¬(s.generators[h].active = true ∧ s.generators[h].line = some l) := by
    rintro h hne ⟨h1, h2⟩
    exact hne (hb.2.2 h g (Generator.not_free_of_active h1) (Generator.not_free_of_active ha) (by rw [h2, hl]))
  have key : ∀ gs : List GenId, g ∈ gs → gs.Nodup → (gs.filterMap fun g =>
      if s.generators[g].active = true ∧ s.generators[g].line = some l then
        s.generators[g].owner.map fun k => (k, NoticeBody.cadEnd g (some l) cause s.generators[g].completed s.tick)
      else none) = [(k, .cadEnd g (some l) cause s.generators[g].completed s.tick)] := by
    intro gs hg hn
    induction gs with
    | nil => simp at hg
    | cons h gs ih =>
      have hn' := List.nodup_cons.mp hn
      by_cases e : h = g
      · subst e
        rw [List.filterMap_cons, if_pos ⟨ha, hl⟩, ho]
        simp only [Option.map_some, List.cons.injEq, true_and]
        rw [List.filterMap_eq_nil_iff]
        intro j hj
        exact if_neg (other j fun c => hn'.1 (c ▸ hj))
      · rw [List.filterMap_cons, if_neg (other h e)]
        exact ih (by rcases List.mem_cons.mp hg with c | c; exact absurd c.symm e; exact c) hn'.2
  exact key _ (List.mem_finRange g) (List.nodup_finRange 4)

/-- The report of a line with no generator that is PENDING or RUNNING tells no one. -/
theorem cadEnds_nil {s : State} {l : LineId} (cause : CadEndCause)
    (h : ∀ g : GenId, s.generators[g].active = true → s.generators[g].line ≠ some l) : s.cadEnds l cause = [] := by
  unfold State.cadEnds
  rw [List.filterMap_eq_nil_iff]
  intro g _
  exact if_neg fun c => h g c.1 c.2

/-- The notices of a report depend on the generators and the tick alone. -/
theorem cadEnds_congr {parts : List Part} {s u : State} (h : ChangesOnly parts s u) (l : LineId) (cause : CadEndCause)
    (hg : Part.generators ∉ parts := by decide) (hc : Part.clock ∉ parts := by decide) :
    u.cadEnds l cause = s.cadEnds l cause := by
  unfold State.cadEnds
  rw [h.tick hc]
  congr 1
  funext g
  rw [h.generator g hg]

theorem BoundOk.of_changes {parts : List Part} {s t : State} (hs : BoundOk s) (h : ChangesOnly parts s t)
    (hg : Part.generators ∉ parts := by decide) (hl : Part.leases ∉ parts := by decide)
    (hk : Part.sessions ∉ parts := by decide) : BoundOk t := by
  obtain ⟨h1, h2, h3⟩ := hs
  refine ⟨fun g hn => ?_, fun g hf => ?_, fun g j hn hm e => ?_⟩
  · rw [h.generator g hg] at hn ⊢
    obtain ⟨k, l, a, b, c, d⟩ := h1 g hn
    exact ⟨k, l, a, b, by rw [State.holder, h.lease l hl]; exact c, by rw [(h .sessions hk k).1]; exact d⟩
  · rw [h.generator g hg] at hf ⊢; exact h2 g hf
  · rw [h.generator g hg] at hn e
    rw [h.generator j hg] at hm e
    exact h3 g j hn hm e

/-- A report to the Cadence Unit makes the CAD.END notices of the line. -/
theorem made_stopBound {s : State} (hb : BoundOk s) (l : LineId) (cause : CadEndCause) :
    Made s (s.stopBound l cause) (s.cadEnds l cause) := by
  unfold State.stopBound
  cases hg : s.boundGenerator l with
  | none =>
    have : s.cadEnds l cause = [] :=
      cadEnds_nil cause fun g ha => boundGenerator_none hg g (Generator.not_free_of_active ha)
    rw [this]; exact .refl s
  | some g =>
    have b := boundGenerator_some hg
    dsimp only
    by_cases ha : s.generators[g].active = true
    · obtain ⟨k, l', ho, hl, -, -⟩ := hb.1 g b.1
      obtain rfl : l' = l := by rw [b.2] at hl; exact (Option.some.inj hl).symm
      rw [if_pos ha, cadEnds_eq hb cause ha hl ho]
      refine Made.after (modGenerator_changes s g Generator.stop) ?_
      unfold State.sendCadEnd
      rw [State.modGenerator_get_same]
      simp only [Generator.stop, ho, hl, State.modGenerator_tick]
      exact made_notify _ _ _
    · have : s.cadEnds l cause = [] := by
        refine cadEnds_nil cause fun h hh hl => ?_
        have : h = g := hb.2.2 h g (Generator.not_free_of_active hh) b.1 (by rw [hl, b.2])
        subst this; exact ha hh
      rw [if_neg ha, this]; exact .refl s

/-- A level write by another than the line's generator: its notices. -/
theorem made_writeLine {s : State} (hb : BoundOk s) (l : LineId) (v : Level) :
    Made s (s.writeLine l v) (s.cadEnds l .overridden) := by
  have c := modLine_changes s l (LineCell.writeLevel s.tick v)
  rw [← cadEnds_congr c]
  exact Made.after c (made_stopBound (hb.of_changes c) l .overridden)

/-- A level write by another than the line's generator: what becomes of the generators. -/
theorem writeLine_generatorStopped {s t : State} (hb : BoundOk s) (l : LineId) (v : Level) (parts : List Part)
    (h : ChangesOnly parts (s.writeLine l v) t) (hg : Part.generators ∉ parts := by decide) : GeneratorStopped s t l := by
  intro g
  have c := modLine_changes s l (LineCell.writeLevel s.tick v)
  rw [h.generator g hg, State.writeLine, stopBound_generators (hb.of_changes c), c.generator g]

end Sys2Proof.Machine
end

