-- ==== Sys2Proof/Laws/Requests.lean ====
section
/-! SUPPORT. What serving each request may change, by the parts of the state, and that a refusal changes nothing. -/

namespace Sys2Proof.Machine

set_option Elab.async false

/-! ## Lines -/

theorem applySetup_changes (s : State) (l : LineId) (f : SetupFields) :
    ChangesOnly [.lines, .generators, .numbers, .queues] s (s.applySetup l f) :=
  (modLine_changes _ _ _).andThen (stopBound_changes _ _ _)

theorem serveSetup_changes (k : SessionId) (p : List Byte) (s : State) :
    ChangesOnly [.lines, .generators, .numbers, .queues] s (serveSetup k p s).1 := by
  unfold serveSetup
  repeat' split
  all_goals first | exact .refl _ _ | exact applySetup_changes _ _ _

theorem serveDrive_changes (k : SessionId) (p : List Byte) (s : State) :
    ChangesOnly [.lines, .generators, .numbers, .queues] s (serveDrive k p s).1 := by
  unfold serveDrive
  repeat' split
  all_goals first | exact .refl _ _ | exact writeLine_changes _ _ _

theorem serveRead_changes (k : SessionId) (p : List Byte) (s : State) : ChangesOnly [] s (serveRead k p s).1 := by
  unfold serveRead; split <;> exact .refl _ _

theorem serveSnapshot_changes (k : SessionId) (p : List Byte) (s : State) : ChangesOnly [] s (serveSnapshot k p s).1 :=
  .refl _ _

theorem serveClear_changes (k : SessionId) (p : List Byte) (s : State) : ChangesOnly [.lines] s (serveClear k p s).1 := by
  unfold serveClear
  repeat' split
  all_goals first | exact .refl _ _ | exact modLine_changes _ _ _

/-! ## Leases -/

theorem serveClaim_changes (k : SessionId) (p : List Byte) (s : State) : ChangesOnly [.leases] s (serveClaim k p s).1 := by
  unfold serveClaim
  repeat' split
  all_goals first | exact .refl _ _ | exact setLease_changes _ _ _

theorem leaveQueue_changes (s : State) (k : SessionId) (l : LineId) : ChangesOnly [.leases] s (s.leaveQueue k l) :=
  setLease_changes _ _ _

theorem serveWithdraw_changes (k : SessionId) (p : List Byte) (s : State) :
    ChangesOnly [.leases] s (serveWithdraw k p s).1 := by
  unfold serveWithdraw
  repeat' split
  all_goals first | exact .refl _ _ | exact leaveQueue_changes _ _ _

theorem releaseGenerator_changes (s : State) (l : LineId) :
    ChangesOnly [.generators, .numbers, .queues] s (s.releaseGenerator l) := by
  unfold State.releaseGenerator
  split
  · exact .refl _ _
  · split
    · exact (sendCadEnd_changes _ _ _).andThen (freeGenerator_changes _ _)
    · exact (freeGenerator_changes _ _).mono (by decide)

/-- What a release may change. -/
abbrev releaseParts : List Part := [.lines, .leases, .timeline, .slots, .generators, .numbers, .queues]

theorem clearUses_changes (s : State) (k : SessionId) (l : LineId) : ChangesOnly releaseParts s (s.clearUses k l) := by
  unfold State.clearUses
  dsimp only
  exact ((removeOneshotsOn_changes _ _ _).andThen (releaseGenerator_changes _ _) (parts := releaseParts)).andThen
    (ChangesOnly.foldl (parts := runParts) (fun _ _ => stopSequence_changes _ _ _) _ _)

theorem serveRelease_changes (k : SessionId) (p : List Byte) (s : State) :
    ChangesOnly releaseParts s (serveRelease k p s).1 := by
  unfold serveRelease
  split
  · split
    · exact .refl _ _
    · split
      · exact (endLease_changes _ _).mono (by decide)
      · split
        · exact (clearUses_changes _ _ _).andThen (endLease_changes _ _)
        · exact .refl _ _
  · exact .refl _ _

/-! ## The Timeline -/

theorem serveTime_changes (k : SessionId) (p : List Byte) (s : State) : ChangesOnly [] s (serveTime k p s).1 := .refl _ _

theorem scheduleOneshot_changes (s : State) (k : SessionId) (l : LineId) (v : Level) (due : Tick) :
    ChangesOnly takingParts s (s.scheduleOneshot k l v due) :=
  (enterTimeline_changes _ _ _ _).andThen (takeUntil_changes _ _ _)

theorem serveAt_changes (k : SessionId) (p : List Byte) (s : State) : ChangesOnly takingParts s (serveAt k p s).1 := by
  unfold serveAt
  repeat' split
  all_goals first | exact .refl _ _ | exact scheduleOneshot_changes _ _ _ _ _

theorem serveCancel_changes (k : SessionId) (p : List Byte) (s : State) : ChangesOnly [.timeline] s (serveCancel k p s).1 := by
  unfold serveCancel
  repeat' split
  all_goals first | exact .refl _ _ | exact removeEntry_changes _ _

theorem servePendingList_changes (k : SessionId) (p : List Byte) (s : State) :
    ChangesOnly [] s (servePendingList k p s).1 := .refl _ _

/-! ## Sequences -/

theorem serveSeqNew_changes (k : SessionId) (p : List Byte) (s : State) : ChangesOnly [.slots] s (serveSeqNew k p s).1 := by
  unfold serveSeqNew
  split
  · exact .refl _ _
  · exact modSlot_changes _ _ _

theorem appendSteps_changes (s : State) (i : SlotId) (list : StepList) (steps : List Step) :
    ChangesOnly [.pool, .slots] s (s.appendSteps i list steps) :=
  (setPoolFree_changes _ _).andThen (modSlot_changes _ _ _)

theorem serveSeqAdd_changes (k : SessionId) (p : List Byte) (s : State) :
    ChangesOnly [.pool, .slots] s (serveSeqAdd k p s).1 := by
  unfold serveSeqAdd
  repeat' split
  all_goals first | exact .refl _ _ | exact appendSteps_changes _ _ _ _

theorem serveSeqSeal_changes (k : SessionId) (p : List Byte) (s : State) :
    ChangesOnly [.slots] s (serveSeqSeal k p s).1 := by
  unfold serveSeqSeal
  repeat' split
  all_goals first | exact .refl _ _ | exact modSlot_changes _ _ _

theorem armSequence_changes (s : State) (k : SessionId) (i : SlotId) (start : Tick) :
    ChangesOnly [.timeline, .slots] s (s.armSequence k i start) :=
  (enterTimeline_changes _ _ _ _).andThen (modSlot_changes _ _ _)

theorem startSequence_changes (s : State) (k : SessionId) (i : SlotId) (start : Tick) :
    ChangesOnly takingParts s (s.startSequence k i start) :=
  (armSequence_changes _ _ _ _).andThen (takeUntil_changes _ _ _)

theorem serveSeqStart_changes (k : SessionId) (p : List Byte) (s : State) :
    ChangesOnly takingParts s (serveSeqStart k p s).1 := by
  unfold serveSeqStart
  repeat' split
  all_goals first | exact .refl _ _ | exact startSequence_changes _ _ _ _

theorem haltSequence_changes (s : State) (i : SlotId) : ChangesOnly takingParts s (s.haltSequence i) :=
  (stopSequence_changes _ _ _).andThen (takeUntil_changes _ _ _)

theorem serveSeqStop_changes (k : SessionId) (p : List Byte) (s : State) :
    ChangesOnly takingParts s (serveSeqStop k p s).1 := by
  unfold serveSeqStop
  repeat' split
  all_goals first | exact .refl _ _ | exact haltSequence_changes _ _

theorem serveSeqQuery_changes (k : SessionId) (p : List Byte) (s : State) : ChangesOnly [] s (serveSeqQuery k p s).1 := by
  unfold serveSeqQuery; split <;> exact .refl _ _

theorem serveSeqFree_changes (k : SessionId) (p : List Byte) (s : State) :
    ChangesOnly [.pool, .slots] s (serveSeqFree k p s).1 := by
  unfold serveSeqFree
  repeat' split
  all_goals first | exact .refl _ _ | exact freeSlot_changes _ _

/-! ## Generators -/

theorem serveCadSet_changes (k : SessionId) (p : List Byte) (s : State) :
    ChangesOnly [.generators] s (serveCadSet k p s).1 := by
  unfold serveCadSet
  repeat' split
  all_goals first | exact .refl _ _ | exact modGenerator_changes _ _ _

theorem beginCycles_changes (s : State) (g : GenId) (start : Tick) :
    ChangesOnly [.lines, .generators] s (s.beginCycles g start) :=
  (modGenerator_changes _ _ _).andThen (ownWrite_changes _ _ _)

theorem runGenerator_changes (s : State) (g : GenId) (start : Tick) :
    ChangesOnly [.lines, .generators] s (s.runGenerator g start) := by
  unfold State.runGenerator
  dsimp only
  split
  · exact (modGenerator_changes _ _ _).mono (by decide)
  · exact (modGenerator_changes _ _ _).andThen (beginCycles_changes _ _ _)

theorem serveCadRun_changes (k : SessionId) (p : List Byte) (s : State) :
    ChangesOnly [.lines, .generators] s (serveCadRun k p s).1 := by
  unfold serveCadRun
  repeat' split
  all_goals first | exact .refl _ _ | exact runGenerator_changes _ _ _

theorem restGenerator_changes (s : State) (g : GenId) : ChangesOnly [.lines, .generators] s (s.restGenerator g) :=
  (modGenerator_changes _ _ _).andThen (writeRest_changes _ _ _)

theorem serveCadHold_changes (k : SessionId) (p : List Byte) (s : State) :
    ChangesOnly [.lines, .generators] s (serveCadHold k p s).1 := by
  unfold serveCadHold
  repeat' split
  all_goals first | exact .refl _ _ | exact restGenerator_changes _ _

theorem serveCadFree_changes (k : SessionId) (p : List Byte) (s : State) :
    ChangesOnly [.generators] s (serveCadFree k p s).1 := by
  unfold serveCadFree
  repeat' split
  all_goals first | exact .refl _ _ | exact freeGenerator_changes _ _

theorem serveCadRead_changes (k : SessionId) (p : List Byte) (s : State) : ChangesOnly [] s (serveCadRead k p s).1 := by
  unfold serveCadRead; split <;> exact .refl _ _

/-! ## Watches -/

theorem sendHit_changes (s : State) (w : WatchId) (r : Watch) (v : Level) :
    ChangesOnly [.numbers, .queues] s (s.sendHit w r v) :=
  notify_changes _ _ _

theorem armWatch_changes (s : State) (w : WatchId) (r : Watch) :
    ChangesOnly [.watches, .numbers, .queues] s (s.armWatch w r) := by
  unfold State.armWatch
  split
  · exact (setWatch_changes _ _ _).andThen (sendHit_changes _ _ _ _)
  · exact (setWatch_changes _ _ _).mono (by decide)

theorem serveWatchSet_changes (k : SessionId) (p : List Byte) (s : State) :
    ChangesOnly [.watches, .numbers, .queues] s (serveWatchSet k p s).1 := by
  unfold serveWatchSet
  repeat' split
  all_goals first | exact .refl _ _ | exact armWatch_changes _ _ _

theorem serveWatchAck_changes (k : SessionId) (p : List Byte) (s : State) :
    ChangesOnly [.watches, .numbers, .queues] s (serveWatchAck k p s).1 := by
  unfold serveWatchAck
  repeat' split
  all_goals first | exact .refl _ _ | exact armWatch_changes _ _ _

theorem serveWatchDrop_changes (k : SessionId) (p : List Byte) (s : State) :
    ChangesOnly [.watches] s (serveWatchDrop k p s).1 := by
  unfold serveWatchDrop
  repeat' split
  all_goals first | exact .refl _ _ | exact setWatch_changes _ _ _

theorem serveWatchRead_changes (k : SessionId) (p : List Byte) (s : State) : ChangesOnly [] s (serveWatchRead k p s).1 := by
  unfold serveWatchRead
  repeat' split
  all_goals exact .refl _ _

/-! ## Sessions and ports -/

theorem openRecord_changes (s : State) (k : SessionId) (p : Port) (n : Nat) :
    ChangesOnly [.sessions] s (s.openRecord k p n) :=
  modSession_changes_sessions _ _ _ (by simp)

theorem serveOpen_changes (p : Port) (r : Request) (s : State) : ChangesOnly [.sessions] s (serveOpen p r s).1 := by
  unfold serveOpen
  repeat' split
  all_goals first | exact .refl _ _ | exact openRecord_changes _ _ _ _

theorem serveClose_changes (k : SessionId) (p : List Byte) (s : State) :
    ChangesOnly enteringParts s (serveClose k p s).1 :=
  (beginClosing_changes _ _ _).mono (by decide)

theorem servePing_changes (k : SessionId) (p : List Byte) (s : State) : ChangesOnly [] s (servePing k p s).1 := .refl _ _

theorem serveStatus_changes (k : SessionId) (p : List Byte) (s : State) : ChangesOnly [] s (serveStatus k p s).1 := .refl _ _

theorem serveInfo_changes (r : Request) (s : State) : ChangesOnly [] s (serveInfo r s).1 := .refl _ _

theorem servePortstat_changes (k : SessionId) (p : List Byte) (s : State) : ChangesOnly [] s (servePortstat k p s).1 :=
  .refl _ _

theorem serveRestart_changes (q : Port) (k : SessionId) (p : List Byte) (s : State) :
    ChangesOnly [.reception] s (serveRestart q k p s).1 := by
  unfold serveRestart
  split
  · exact modPort_changes_reception _ _ _ (by simp)
  · exact .refl _ _

/-! ## All requests at once -/

/-- What serves a request of each type, as the dispatch of `exec` has it: the two types that need no session, and the rest. -/
def RequestType.serve (t : RequestType) (p : Port) (k : SessionId) : List Byte → State → State × Answer :=
  match t with
  | .openSession => fun _ s => (s, .plain .ok)
  | .info => fun _ s => (s, .plain .ok)
  | .closeSession => serveClose k | .ping => servePing k | .status => serveStatus k | .time => serveTime k
  | .snapshot => serveSnapshot k | .portstat => servePortstat k | .restart => serveRestart p k
  | .claim => serveClaim k | .release => serveRelease k | .withdraw => serveWithdraw k | .setup => serveSetup k
  | .drive => serveDrive k | .read => serveRead k | .clear => serveClear k
  | .atEdge => serveAt k | .cancel => serveCancel k | .pendingList => servePendingList k
  | .seqNew => serveSeqNew k | .seqAdd => serveSeqAdd k | .seqSeal => serveSeqSeal k | .seqStart => serveSeqStart k
  | .seqStop => serveSeqStop k | .seqQuery => serveSeqQuery k | .seqFree => serveSeqFree k
  | .watchSet => serveWatchSet k | .watchAck => serveWatchAck k | .watchDrop => serveWatchDrop k
  | .watchRead => serveWatchRead k
  | .cadSet => serveCadSet k | .cadRun => serveCadRun k | .cadHold => serveCadHold k | .cadFree => serveCadFree k
  | .cadRead => serveCadRead k

/-- What any request may change before its reply. -/
abbrev requestParts : List Part :=
  [.lines, .leases, .timeline, .slots, .pool, .watches, .generators, .sessions, .numbers, .queues, .reception, .frames]

theorem serve_changes (t : RequestType) (p : Port) (k : SessionId) (pl : List Byte) (s : State) :
    ChangesOnly requestParts s (t.serve p k pl s).1 := by
  cases t
  case openSession => exact .refl _ _
  case info => exact .refl _ _
  case closeSession => exact (serveClose_changes k pl s).mono (by decide)
  case ping => exact (servePing_changes k pl s).mono (by decide)
  case status => exact (serveStatus_changes k pl s).mono (by decide)
  case time => exact (serveTime_changes k pl s).mono (by decide)
  case snapshot => exact (serveSnapshot_changes k pl s).mono (by decide)
  case portstat => exact (servePortstat_changes k pl s).mono (by decide)
  case restart => exact (serveRestart_changes p k pl s).mono (by decide)
  case claim => exact (serveClaim_changes k pl s).mono (by decide)
  case release => exact (serveRelease_changes k pl s).mono (by decide)
  case withdraw => exact (serveWithdraw_changes k pl s).mono (by decide)
  case setup => exact (serveSetup_changes k pl s).mono (by decide)
  case drive => exact (serveDrive_changes k pl s).mono (by decide)
  case read => exact (serveRead_changes k pl s).mono (by decide)
  case clear => exact (serveClear_changes k pl s).mono (by decide)
  case atEdge => exact (serveAt_changes k pl s).mono (by decide)
  case cancel => exact (serveCancel_changes k pl s).mono (by decide)
  case pendingList => exact (servePendingList_changes k pl s).mono (by decide)
  case seqNew => exact (serveSeqNew_changes k pl s).mono (by decide)
  case seqAdd => exact (serveSeqAdd_changes k pl s).mono (by decide)
  case seqSeal => exact (serveSeqSeal_changes k pl s).mono (by decide)
  case seqStart => exact (serveSeqStart_changes k pl s).mono (by decide)
  case seqStop => exact (serveSeqStop_changes k pl s).mono (by decide)
  case seqQuery => exact (serveSeqQuery_changes k pl s).mono (by decide)
  case seqFree => exact (serveSeqFree_changes k pl s).mono (by decide)
  case watchSet => exact (serveWatchSet_changes k pl s).mono (by decide)
  case watchAck => exact (serveWatchAck_changes k pl s).mono (by decide)
  case watchDrop => exact (serveWatchDrop_changes k pl s).mono (by decide)
  case watchRead => exact (serveWatchRead_changes k pl s).mono (by decide)
  case cadSet => exact (serveCadSet_changes k pl s).mono (by decide)
  case cadRun => exact (serveCadRun_changes k pl s).mono (by decide)
  case cadHold => exact (serveCadHold_changes k pl s).mono (by decide)
  case cadFree => exact (serveCadFree_changes k pl s).mono (by decide)
  case cadRead => exact (serveCadRead_changes k pl s).mono (by decide)

/-- A request command is the taking of a request of its type. -/
theorem exec_command (t : RequestType) (p : Port) (s : State) (h1 : t ≠ .openSession) (h2 : t ≠ .info)
    (h3 : t ≠ .closeSession) : exec (t.command p) s = .next (s.takeSessioned t p (t.serve p)) := by
  cases t <;> first | rfl | exact absurd rfl h1 | exact absurd rfl h2 | exact absurd rfl h3

theorem exec_open (p : Port) (s : State) :
    exec (.openSession p) s = .next (s.takeRequest .openSession p (serveOpen p)) := rfl

theorem exec_close (p : Port) (s : State) : exec (.closeSession p) s = .next (s.takeClose p) := rfl

/-- What an accepted CLOSE does: steps 1 to 6 of R148, the reply, what the arbiters begin, step 7. -/
theorem takeClose_eq {s : State} {p : Port} {k : SessionId} {r : Request} (h : s.Takes p .closeSession k r []) :
    s.takeClose p = (((s.beginClosing k .closed).answer p r (.plain .ok)).settle).checkClosing k := by
  obtain ⟨h1, -, -, h4⟩ := id h
  unfold State.takeClose
  rw [h1, Option.bind_some, h4]
  dsimp only
  rw [takeSessioned_eq serveClose h rfl]
  rfl

theorem exec_info (p : Port) (s : State) : exec (.info p) s = .next (s.takeRequest .info p serveInfo) := rfl

end Sys2Proof.Machine
end

