-- ==== Sys2Proof/Laws/Events.lean ====
section
/-! SUPPORT. What each event may change, by the parts of the state, and what every command has in common. -/

namespace Sys2Proof.Machine

set_option Elab.async false

/-! ## Lines -/

theorem offerEdge_changes (s : State) (l : LineId) (v : Level) (w : WatchId) :
    ChangesOnly [.watches, .numbers, .queues] s (s.offerEdge l v w) := by
  unfold State.offerEdge
  split
  · exact .refl _ _
  · split
    · dsimp only
      split
      · exact (setWatch_changes _ _ _).andThen (sendHit_changes _ _ _ _)
      · exact (setWatch_changes _ _ _).mono (by decide)
    · exact .refl _ _

theorem offerAwait_changes (s : State) (l : LineId) (v : Level) (i : SlotId) :
    ChangesOnly runParts s (s.offerAwait l v i) := by
  unfold State.offerAwait
  split
  · split
    · exact completeStep_changes _ _ _ _
    · exact .refl _ _
  · exact .refl _ _

/-- What a sensed edge may change. -/
abbrev edgeParts : List Part := [.lines, .watches, .timeline, .slots, .numbers, .queues]

theorem senseEdge_changes (s : State) (l : LineId) : ChangesOnly edgeParts s (s.senseEdge l) := by
  unfold State.senseEdge
  dsimp only
  exact ((modLine_changes _ _ _).andThen (ChangesOnly.foldl (fun t w => offerEdge_changes t _ _ w) _ _)
    (parts := edgeParts)).andThen (ChangesOnly.foldl (fun t i => offerAwait_changes t _ _ i) _ _)

theorem faultLine_changes (s : State) (l : LineId) :
    ChangesOnly [.lines, .generators, .numbers, .queues] s (s.faultLine l) :=
  ((modLine_changes _ _ _).andThen (notifyOwner_changes _ _ _) (parts := [.lines, .numbers, .queues])).andThen
    (stopBound_changes _ _ _)

/-! ## Generators -/

theorem endCycle_changes (s : State) (g : GenId) (t : Tick) :
    ChangesOnly [.lines, .generators, .numbers, .queues] s (s.endCycle g t) := by
  unfold State.endCycle
  dsimp only
  split
  · exact ((modGenerator_changes _ _ _).andThen (restGenerator_changes _ _) (parts := [.lines, .generators])).andThen
      (sendCadEnd_changes _ _ _)
  · exact (modGenerator_changes _ _ _).andThen (beginCycles_changes _ _ _)

/-! ## Ports -/

theorem setReceiver_changes (s : State) (p : Port) (r : Receiver) : ChangesOnly [.reception] s (s.setReceiver p r) :=
  modPort_changes_reception _ _ _ (by simp)

theorem refresh_changes (s : State) (p : Port) (r : Request) : ChangesOnly [.sessions] s (s.refresh p r) := by
  unfold State.refresh
  split
  · exact .refl _ _
  · exact modSession_changes_sessions _ _ _ (by simp)

/-- What received bytes may change. -/
abbrev receiveParts : List Part := [.sessions, .reception, .sending]

theorem acceptRequest_changes (s : State) (p : Port) (r : Request) : ChangesOnly receiveParts s (s.acceptRequest p r) := by
  unfold State.acceptRequest
  split
  · exact (refresh_changes _ _ _).andThen (modPort_changes_inbound _ _ _)
  · exact (modPort_changes_reception _ _ _ (by simp)).mono (by decide)

theorem judgeFrame_changes (s : State) (p : Port) (body : List Byte) (crc : Nat) :
    ChangesOnly receiveParts s (s.judgeFrame p body crc) := by
  unfold State.judgeFrame
  split
  · exact (modPort_changes_reception _ _ _ (by simp)).mono (by decide)
  · split
    · exact acceptRequest_changes _ _ _
    · exact .refl _ _

theorem receiveByte_changes (s : State) (p : Port) (b : Byte) : ChangesOnly receiveParts s (s.receiveByte p b) := by
  unfold State.receiveByte
  split
  · split
    · exact (setReceiver_changes _ _ _).mono (by decide)
    · exact .refl _ _
  · split
    · exact (setReceiver_changes _ _ _).mono (by decide)
    · exact (setReceiver_changes _ _ _).andThen (modPort_changes_reception _ _ _ (by simp))
  · split
    · exact (setReceiver_changes _ _ _).mono (by decide)
    · exact (setReceiver_changes _ _ _).mono (by decide)
  · exact (setReceiver_changes _ _ _).mono (by decide)
  · exact (setReceiver_changes _ _ _).andThen (judgeFrame_changes _ _ _ _)

/-- The reply to a request taken at this tick is not sent. -/
theorem dropReply_made {c : PortCell} {r : Reply} {begun now : Tick} (h : c.transmitter = some { frame := .reply r, begun := begun })
    (hr : r.made = now) : c.dropReply now = { c with transmitter := none } := by
  simp [PortCell.dropReply, h, Transmission.repliesAt, hr]

/-- Any other frame under way goes on. -/
theorem dropReply_other {c : PortCell} {now : Tick}
    (h : ∀ (r : Reply) (begun : Tick), c.transmitter = some { frame := .reply r, begun := begun } → r.made ≠ now) :
    c.dropReply now = c := by
  have keep : c.transmitter.filter (fun x => !x.repliesAt now) = c.transmitter := by
    match hx : c.transmitter with
    | none => rfl
    | some { frame := .reply r, begun := begun } => simpa [Transmission.repliesAt] using h r begun hx
    | some { frame := .notice _ _, begun := _ } => rfl
    | some { frame := .port _, begun := _ } => rfl
  unfold PortCell.dropReply
  rw [keep]

/-- What a break may change. -/
abbrev breakParts : List Part :=
  [.lines, .leases, .timeline, .slots, .pool, .watches, .generators, .sessions, .numbers, .queues, .reception, .frames,
    .sending]

theorem takeBreak_changes (s : State) (p : Port) : ChangesOnly breakParts s (s.takeBreak p) := by
  unfold State.takeBreak
  exact ((modPort_changes _ _ _).andThen (ChangesOnly.foldl (fun t k => beginClosing_changes t k .brk) _ _)
    (parts := breakParts)).andThen (ChangesOnly.foldl (fun t k => checkClosing_changes t k) _ _)

theorem endTransmission_changes (s : State) (p : Port) (f : TxFrame) :
    ChangesOnly [.frames, .sending] s (s.modPort p (PortCell.endTransmission f)) :=
  modPort_changes_sending _ _ _ (by intro c; unfold PortCell.endTransmission; split <;> simp)

theorem startUp_pending (s : State) (cause : ResetCause) (pin : Level) : (s.startUp cause pin).pending = s.pending := by
  have := settle_changes (({ s.clearBlocks with heldInReset := false, baud := baudOf pin }.modPort .a fun c =>
      { c with frames := [.startup cause (baudOf pin)] }).modPort .b fun c =>
      { c with frames := [.startup cause (baudOf pin)] }) .pending (by decide)
  simpa [State.startUp, Part.same, State.clearBlocks] using this

/-! ## Every command -/

/-- A request of any type, with what its serving may change. -/
theorem takeRequest_changes {parts : List Part} (t : RequestType) (p : Port) (serve : Request → State → State × Answer)
    (h : ∀ r s, ChangesOnly parts s (serve r s).1) (sub : [Part.queues, .frames, .sending] ⊆ parts) (s : State) :
    ChangesOnly parts s (s.takeRequest t p serve) := by
  unfold State.takeRequest
  split
  · exact .refl _ _
  · rename_i r _
    split
    · dsimp only
      split
      · exact (h r s).trans ((answer_settle_changes _ _ _ _).mono sub)
      · exact (answer_settle_changes _ _ _ _).mono sub
    · exact .refl _ _

theorem takeSessioned_changes {parts : List Part} (t : RequestType) (p : Port)
    (serve : SessionId → List Byte → State → State × Answer) (h : ∀ k pl s, ChangesOnly parts s (serve k pl s).1)
    (sub : [Part.queues, .frames, .sending] ⊆ parts) (s : State) : ChangesOnly parts s (s.takeSessioned t p serve) := by
  apply takeRequest_changes _ _ _ _ sub
  intro r s
  split
  · exact .refl _ _
  · exact h _ _ _

/-- What any command but a full reset may change: all but the queue of commands, the clock and the reset. -/
abbrev commandParts : List Part :=
  [.lines, .leases, .timeline, .slots, .pool, .watches, .generators, .sessions, .numbers, .queues, .reception, .frames,
    .sending]

theorem command_changes (t : RequestType) (p : Port) (s : State) :
    ∃ u, exec (t.command p) s = .next u ∧ ChangesOnly commandParts s u := by
  by_cases h1 : t = .openSession
  · subst h1
    exact ⟨_, rfl, takeRequest_changes _ _ _ (fun r s => (serveOpen_changes p r s).mono (by decide)) (by decide) s⟩
  · by_cases h2 : t = .info
    · subst h2
      exact ⟨_, rfl, takeRequest_changes _ _ _ (fun r s => (serveInfo_changes r s).mono (by decide)) (by decide) s⟩
    · have taken := takeSessioned_changes (parts := commandParts) t p (t.serve p)
        (fun k pl s => (serve_changes t p k pl s).mono (by decide)) (by decide) s
      by_cases h3 : t = .closeSession
      · subst h3
        refine ⟨_, rfl, ?_⟩
        unfold State.takeClose
        dsimp only
        split
        · exact taken
        · exact taken.trans ((checkClosing_changes _ _).mono (by decide))
      · exact ⟨_, exec_command t p s h1 h2 h3, taken⟩

end Sys2Proof.Machine
end

