-- ==== Sys2Proof/Laws/Step.lean ====
section
/-! SUPPORT. What a step can be, and how an invariant of the commands becomes one of the steps. -/

namespace Sys2Proof.Machine

set_option Elab.async false

/-- What holds before a step leads to what holds after it: through the commands, the taking of a request of unknown type and the
tick. An invariant is the case where both are one. -/
theorem step_keeps {Pre Post : State → Prop} (weak : ∀ s, Pre s → Post s) (hp : ∀ s rest, Pre s → Pre { s with pending := rest })
    (hx : ∀ c s t, Pre s → exec c s = .next t → Post t) (hu : ∀ s p, Pre s → Post (s.takeUnknown p))
    (ha : ∀ s : State, Pre s → Post s.advance) {s t : State} (hs : Pre s) (h : step s = .next t) : Post t := by
  unfold step at h
  split at h
  · exact hx _ _ _ (hp _ _ hs) h
  · unfold State.idle at h
    split at h
    · cases h; exact weak _ hs
    · split at h
      · exact hx _ _ _ hs h
      · split at h
        · cases h; exact hu _ _ hs
        · split at h
          · cases h; exact hu _ _ hs
          · cases h; exact ha _ hs

theorem speaker_opened {s : State} {p : Port} {r : Request} {k : SessionId} (h : s.speaker p r = some k) :
    s.sessions[k].state = .opened ∧ s.sessions[k].port = some p := by
  unfold State.speaker at h
  split at h
  · simp at h
  · split at h
    · rename_i c; cases h; exact c
    · simp at h

/-- What holds before a request command leads to what holds after it, when the serving of every request does so and replies and what
the arbiters begin do not touch it. -/
theorem command_keeps {Pre Post : State → Prop} (weak : ∀ s, Pre s → Post s)
    (frame : ∀ s t, ChangesOnly [.queues, .frames, .sending] s t → Post s → Post t)
    (ho : ∀ p r s, Pre s → Post (serveOpen p r s).1)
    (hs : ∀ t p (k : SessionId) pl (s : State), Pre s → s.sessions[k].state = .opened → Post (RequestType.serve t p k pl s).1)
    (check : ∀ (s : State) (k : SessionId), Post s → Post (s.checkClosing k))
    (t : RequestType) (p : Port) {s u : State} (h : Pre s) (he : exec (t.command p) s = .next u) : Post u := by
  have taken : ∀ (serve : Request → State → State × Answer), (∀ r s, Pre s → Post (serve r s).1) →
      ∀ s, Pre s → Post (s.takeRequest t p serve) := by
    intro serve hserve s h
    unfold State.takeRequest
    split
    · exact weak _ h
    · split
      · dsimp only
        split
        · exact frame _ _ (answer_settle_changes _ _ _ _) (hserve _ _ h)
        · exact frame _ _ (answer_settle_changes _ _ _ _) (weak _ h)
      · exact weak _ h
  by_cases h1 : t = .openSession
  · subst h1; cases he; exact taken _ (fun r s => ho p r s) s h
  · by_cases h2 : t = .info
    · subst h2; cases he; exact taken _ (fun r s h => weak _ h) s h
    · have sessioned : Post (s.takeSessioned t p (t.serve p)) := by
        refine taken _ (fun r s h => ?_) s h
        split
        · exact weak _ h
        · rename_i k hk; exact hs t p k _ s h (speaker_opened hk).1
      by_cases h3 : t = .closeSession
      · subst h3
        cases he
        unfold State.takeClose
        dsimp only
        split
        · exact sessioned
        · exact check _ _ sessioned
      · rw [exec_command t p s h1 h2 h3] at he
        cases he
        exact sessioned

theorem takeUnknown_changes (s : State) (p : Port) : ChangesOnly [.queues, .frames, .sending] s (s.takeUnknown p) := by
  unfold State.takeUnknown
  split
  · exact .refl _ _
  · split
    · exact answer_settle_changes _ _ _ _
    · exact .refl _ _

/-- A due entry is the Timeline's first. -/
theorem dueEntry_some {s : State} {e : Entry} (h : s.dueEntry = some e) :
    ∃ rest : List Entry, s.timeline = e :: rest ∧ e.due ≤ s.tick := by
  unfold State.dueEntry at h
  split at h
  · cases h
  · rename_i f rest hf
    split at h
    · rename_i hd; cases h; exact ⟨rest, hf, hd⟩
    · cases h

/-- Every request command is the command of one request type. -/
theorem request_or_event (c : Instr) : (∃ t p, c = RequestType.command t p) ∨
    match c with
    | .frameReceived _ _ | .gapTimeout _ | .breakLine _ | .frameSent _ _ | .powerUp _ | .nrstAssert | .nrstRelease _
    | .sensedEdge _ | .contentionFault _ | .assistBurstEnd _ | .oneshotDue | .stepDue | .deadlineDue | .claimExpiry _ _
    | .keepaliveLapse _ | .cadStart _ | .cadLowWrite _ | .cadCycleEnd _ | .rawLevelChange _ _ | .rxIdle _ => True
    | _ => False := by
  cases c
  case openSession p => exact .inl ⟨.openSession, p, rfl⟩
  case closeSession p => exact .inl ⟨.closeSession, p, rfl⟩
  case ping p => exact .inl ⟨.ping, p, rfl⟩
  case status p => exact .inl ⟨.status, p, rfl⟩
  case info p => exact .inl ⟨.info, p, rfl⟩
  case time p => exact .inl ⟨.time, p, rfl⟩
  case snapshot p => exact .inl ⟨.snapshot, p, rfl⟩
  case portstat p => exact .inl ⟨.portstat, p, rfl⟩
  case restart p => exact .inl ⟨.restart, p, rfl⟩
  case claim p => exact .inl ⟨.claim, p, rfl⟩
  case release p => exact .inl ⟨.release, p, rfl⟩
  case withdraw p => exact .inl ⟨.withdraw, p, rfl⟩
  case setup p => exact .inl ⟨.setup, p, rfl⟩
  case drive p => exact .inl ⟨.drive, p, rfl⟩
  case read p => exact .inl ⟨.read, p, rfl⟩
  case clear p => exact .inl ⟨.clear, p, rfl⟩
  case atEdge p => exact .inl ⟨.atEdge, p, rfl⟩
  case cancel p => exact .inl ⟨.cancel, p, rfl⟩
  case pendingList p => exact .inl ⟨.pendingList, p, rfl⟩
  case seqNew p => exact .inl ⟨.seqNew, p, rfl⟩
  case seqAdd p => exact .inl ⟨.seqAdd, p, rfl⟩
  case seqSeal p => exact .inl ⟨.seqSeal, p, rfl⟩
  case seqStart p => exact .inl ⟨.seqStart, p, rfl⟩
  case seqStop p => exact .inl ⟨.seqStop, p, rfl⟩
  case seqQuery p => exact .inl ⟨.seqQuery, p, rfl⟩
  case seqFree p => exact .inl ⟨.seqFree, p, rfl⟩
  case watchSet p => exact .inl ⟨.watchSet, p, rfl⟩
  case watchAck p => exact .inl ⟨.watchAck, p, rfl⟩
  case watchDrop p => exact .inl ⟨.watchDrop, p, rfl⟩
  case watchRead p => exact .inl ⟨.watchRead, p, rfl⟩
  case cadSet p => exact .inl ⟨.cadSet, p, rfl⟩
  case cadRun p => exact .inl ⟨.cadRun, p, rfl⟩
  case cadHold p => exact .inl ⟨.cadHold, p, rfl⟩
  case cadFree p => exact .inl ⟨.cadFree, p, rfl⟩
  case cadRead p => exact .inl ⟨.cadRead, p, rfl⟩
  all_goals exact .inr trivial

/-- What holds before a command leads to what holds after it: through the serving of requests, the replies, and each event. -/
theorem exec_keeps {Pre Post : State → Prop} (weak : ∀ s, Pre s → Post s)
    (frame : ∀ s t, ChangesOnly [.queues, .frames, .sending] s t → Post s → Post t)
    (ho : ∀ p r s, Pre s → Post (serveOpen p r s).1)
    (hs : ∀ t p (k : SessionId) pl (s : State), Pre s → s.sessions[k].state = .opened → Post (RequestType.serve t p k pl s).1)
    (check : ∀ (s : State) (k : SessionId), Post s → Post (s.checkClosing k))
    (receive : ∀ s p b, Pre s → Pre (State.receiveByte s p b))
    (gap : ∀ (s : State) p, Pre s →
      Post ((s.setReceiver p .hunt).modPort p fun c => { c with gap := saturate Config.max16 c.gap }))
    (brk : ∀ s p, Pre s → Post (State.takeBreak s p))
    (sent : ∀ (s : State) p f, Pre s → Post (s.modPort p (PortCell.endTransmission f)))
    (start : ∀ s cause pin, Pre s → Post (State.startUp s cause pin))
    (clear : ∀ s : State, Pre s → Post s.clearBlocks ∧ Post { s.clearBlocks with heldInReset := true })
    (edge : ∀ s l, Pre s → Post (State.senseEdge s l)) (fault : ∀ s l, Pre s → Post (State.faultLine s l))
    (burst : ∀ (s : State) l, Pre s → Post (s.modLine l LineCell.endBurst))
    (taken : ∀ (s : State) (e : Entry), Pre s → s.dueEntry = some e → Post (s.takeEntry e))
    (expiry : ∀ (s : State) l k t, Pre s → Post ((s.leaveQueue k l).notify k (.claimLapsed l t)))
    (lapse : ∀ s k cause, Pre s → Post (State.enterClosing s k cause))
    (begin : ∀ (s : State) g t, Pre s → s.generators[g].startDue s.tick = some t → Post (s.beginCycles g t))
    (low : ∀ (s : State) g t, Pre s → s.generators[g].lowDue s.tick = some t →
      Post ((s.modGenerator g fun r => { r with state := .running t true }).ownWrite s.generators[g].line .low))
    (cycle : ∀ (s : State) g t, Pre s → s.generators[g].endDue s.tick = some t → Post (s.endCycle g t))
    (raw : ∀ (s : State) l v, Pre s → Post (s.modLine l fun _ => LineCell.reset v) ∧
      Post (s.modLine l (LineCell.sample s.tick v)))
    (idle : ∀ (s : State) p, Pre s → Post (s.modPort p fun c => { c with awaitsIdle := false }))
    {c : Instr} {s t : State} (h : Pre s) (he : exec c s = .next t) : Post t := by
  have settle : ∀ u : State, Post u → Post u.settle := fun u hu => frame _ _ (settle_changes u) hu
  rcases request_or_event c with ⟨ty, p, rfl⟩ | hc
  · exact command_keeps weak frame ho hs check ty p h he
  · cases c <;> first | exact absurd hc id | skip
    case frameReceived p bytes =>
      cases he
      split
      · exact weak _ h
      · have all : ∀ (bs : List Byte) (u : State), Pre u → Pre (bs.foldl (fun t b => t.receiveByte p b) u) := by
          intro bs
          induction bs with
          | nil => exact fun _ hu => hu
          | cons b bs ih => exact fun u hu => ih _ (receive u p b hu)
        exact weak _ (all bytes s h)
    case gapTimeout p =>
      cases he
      split
      · exact gap _ _ h
      · exact weak _ h
    case breakLine p =>
      cases he
      split
      · exact weak _ h
      · exact settle _ (brk _ _ h)
    case frameSent p pin =>
      cases he
      split
      · exact weak _ h
      · split
        · exact weak _ h
        · split
          · exact start _ _ _ h
          · exact settle _ (sent _ _ _ h)
    case powerUp pin =>
      cases he
      split
      · exact (clear _ h).1
      · exact start _ _ _ h
    case nrstAssert => cases he; exact (clear _ h).2
    case nrstRelease pin =>
      cases he
      split
      · exact start _ _ _ h
      · exact weak _ h
    case sensedEdge l =>
      cases he
      split
      · exact settle _ (edge _ _ h)
      · exact weak _ h
    case contentionFault l =>
      cases he
      split
      · exact settle _ (fault _ _ h)
      · exact weak _ h
    case assistBurstEnd l =>
      cases he
      split
      · exact burst _ _ h
      · exact weak _ h
    case oneshotDue =>
      cases he
      split
      · exact weak _ h
      · rename_i e hd
        have := taken _ e h hd
        unfold State.takeEntry at this
        split
        · rename_i hk; rw [hk] at this; exact settle _ this
        · exact weak _ h
        · exact weak _ h
    case stepDue =>
      cases he
      split
      · exact weak _ h
      · rename_i e hd
        have := taken _ e h hd
        unfold State.takeEntry at this
        split
        · exact weak _ h
        · rename_i hk; rw [hk] at this; exact settle _ this
        · exact weak _ h
    case deadlineDue =>
      cases he
      split
      · exact weak _ h
      · rename_i e hd
        have := taken _ e h hd
        unfold State.takeEntry at this
        split
        · exact weak _ h
        · exact weak _ h
        · rename_i hk; rw [hk] at this; exact settle _ this
    case claimExpiry l k =>
      cases he
      split
      · exact weak _ h
      · exact settle _ (expiry _ _ _ _ h)
    case keepaliveLapse k =>
      cases he
      split
      · exact settle _ (lapse _ _ _ h)
      · exact weak _ h
    case cadStart g =>
      cases he
      split
      · rename_i hd; exact begin _ _ _ h hd
      · exact weak _ h
    case cadLowWrite g =>
      cases he
      split
      · rename_i hd; exact low _ _ _ h hd
      · exact weak _ h
    case cadCycleEnd g =>
      cases he
      split
      · rename_i hd; exact settle _ (cycle _ _ _ h hd)
      · exact weak _ h
    case rawLevelChange l v =>
      cases he
      split
      · exact (raw _ _ _ h).1
      · exact (raw _ _ _ h).2
    case rxIdle p =>
      cases he
      split
      · exact weak _ h
      · exact idle _ _ h

end Sys2Proof.Machine
end

