-- ==== Sys2Proof/Laws/Lines.lean ====
section
/-! SUPPORT. What each change of a line cell keeps (`LineCell.Ok`), and what the operations on lines keep (`LinesOk`). -/

namespace Sys2Proof.Machine

set_option Elab.async false

/-! ## One cell -/

theorem LineCell.rewindow_ok {l : LineId} {c : LineCell} {now : Tick} {restart : Bool}
    (h1 : c.faulted = true → c.mode = .input) (h2 : c.mode = .assist → l.val < Config.assistLines)
    (h3 : c.phase ≠ .idle → c.mode = .assist ∧ c.commanded = .high) (h4 : c.change ≠ none ↔ c.raw ≠ c.sensed)
    (h5 : c.filter ≤ 255 ∧ 1 ≤ c.assist ∧ c.assist ≤ 15 ∧ 1 ≤ c.settle ∧ c.settle ≤ 255) :
    (c.rewindow now restart).Ok l := by
  refine ⟨h1, h2, h3, h4, ?_, h5⟩
  unfold LineCell.rewindow
  show (match c.driven with
      | none => none
      | some d => if (c.check && decide (c.sensed ≠ d)) = true then
          (if restart = true then some now else some (c.window.getD now)) else none) ≠ none ↔
    c.check = true ∧ c.driven ≠ none ∧ c.driven ≠ some c.sensed
  cases c.driven with
  | none => simp
  | some d =>
    by_cases hc : c.check = true
    · by_cases hd : c.sensed = d
      · simp [hc, hd]
      · cases restart <;> simp [hc, hd, Ne.symm hd]
    · simp [hc]

theorem LineCell.writeLevel_ok {l : LineId} {c : LineCell} (now : Tick) (v : Level) (h : c.Ok l) :
    (c.writeLevel now v).Ok l := by
  obtain ⟨h1, h2, h3, h4, -, h6⟩ := h
  refine LineCell.rewindow_ok h1 h2 ?_ h4 h6
  show c.phaseAfter now v ≠ .idle → c.mode = .assist ∧ v = .high
  unfold LineCell.phaseAfter
  cases v with
  | low => simp
  | high =>
    simp only
    split
    · rename_i e; exact fun _ => ⟨e.1, trivial⟩
    · exact fun hp => ⟨(h3 hp).1, trivial⟩

theorem LineCell.setup_ok {l : LineId} {c : LineCell} (now : Tick) {f : SetupFields} (h : c.Ok l)
    (hf : c.faulted = true → f.mode = .input) (ha : f.mode = .assist → l.val < Config.assistLines)
    (hr : f.filter ≤ 255 ∧ 1 ≤ f.assist ∧ f.assist ≤ 15 ∧ 1 ≤ f.settle ∧ f.settle ≤ 255) : (c.setup now f).Ok l := by
  obtain ⟨h1, h2, h3, h4, -, h6⟩ := h
  refine LineCell.rewindow_ok hf ha ?_ ?_ hr
  · show c.phaseAfterSetup now f ≠ .idle → f.mode = .assist ∧ f.level = .high
    unfold LineCell.phaseAfterSetup
    split
    · rename_i e; exact fun _ => e
    · exact fun hp => absurd rfl hp
  · show c.change.map _ ≠ none ↔ c.raw ≠ c.sensed
    rw [← h4]; cases c.change <;> simp

theorem LineCell.applyParting_ok {l : LineId} {c : LineCell} (now : Tick) (p : Parting) (h : c.Ok l) :
    (c.applyParting now p).Ok l := by
  have h' := h
  obtain ⟨h1, h2, h3, h4, -, h6⟩ := h'
  unfold LineCell.applyParting
  split
  · exact h
  · rename_i hn
    have hn : c.faulted = true → False := fun e => hn e
    cases p with
    | keep => exact h
    | float => exact LineCell.rewindow_ok (fun _ => rfl) (by simp) (by simp) h4 h6
    | low => exact LineCell.rewindow_ok (fun e => absurd e hn) (by simp) (by simp) h4 h6
    | high => exact LineCell.rewindow_ok (fun e => absurd e hn) (by simp) (by simp) h4 h6

theorem LineCell.takeFault_ok {l : LineId} {c : LineCell} (now : Tick) (h : c.Ok l) : (c.takeFault now).Ok l := by
  obtain ⟨-, -, -, h4, -, h6⟩ := h
  exact ⟨fun _ => rfl, by simp [LineCell.takeFault], by simp [LineCell.takeFault], h4,
    by simp [LineCell.takeFault, LineCell.driven], h6⟩

theorem LineCell.clearFault_ok {l : LineId} {c : LineCell} (h : c.Ok l) : c.clearFault.Ok l := by
  obtain ⟨-, h2, h3, h4, h5, h6⟩ := h
  exact ⟨by simp [LineCell.clearFault, LineCell.faulted], h2, h3, h4, h5, h6⟩

theorem LineCell.endBurst_ok {l : LineId} {c : LineCell} (h : c.Ok l) : c.endBurst.Ok l := by
  obtain ⟨h1, h2, -, h4, h5, h6⟩ := h
  exact ⟨h1, h2, by simp [LineCell.endBurst], h4, h5, h6⟩

theorem LineCell.sample_ok {l : LineId} {c : LineCell} (now : Tick) (v : Level) (h : c.Ok l) : (c.sample now v).Ok l := by
  obtain ⟨h1, h2, h3, -, h5, h6⟩ := h
  refine ⟨h1, h2, h3, ?_, h5, h6⟩
  show (if v = c.sensed then none else some _) ≠ none ↔ v ≠ c.sensed
  split <;> simp_all

theorem LineCell.takeEdge_ok {l : LineId} {c : LineCell} (now : Tick) (h : c.Ok l) : (c.takeEdge now).Ok l := by
  obtain ⟨h1, h2, h3, -, -, h6⟩ := h
  exact LineCell.rewindow_ok h1 h2 h3 (by simp) h6

theorem LineCell.reset_ok (l : LineId) (raw : Level) : (LineCell.reset raw).Ok l := by
  simp [LineCell.reset, LineCell.Ok, LineCell.faulted, LineCell.driven]

/-! ## The lines of the state -/

theorem LinesOk.of_changes {parts : List Part} {s t : State} (h : LinesOk s) (hc : ChangesOnly parts s t)
    (hp : Part.lines ∉ parts := by decide) : LinesOk t :=
  fun l => by rw [hc.line l hp]; exact h l

theorem LinesOk.modLine {s : State} (h : LinesOk s) (l : LineId) {f : LineCell → LineCell}
    (hf : (s.lines[l]).Ok l → (f s.lines[l]).Ok l) : LinesOk (s.modLine l f) := by
  intro m
  rw [State.modLine_get]
  split
  · rename_i e; subst e; exact hf (h m)
  · exact h m

theorem LinesOk.writeLine {s : State} (h : LinesOk s) (l : LineId) (v : Level) : LinesOk (s.writeLine l v) :=
  (h.modLine l (LineCell.writeLevel_ok _ _)).of_changes (stopBound_changes _ _ _)

theorem LinesOk.ownWrite {s : State} (h : LinesOk s) (l : Option LineId) (v : Level) : LinesOk (s.ownWrite l v) := by
  cases l
  · exact h
  · exact h.modLine _ (LineCell.writeLevel_ok _ _)

theorem LinesOk.writeRest {s : State} (h : LinesOk s) (l : Option LineId) (r : RestLevel) : LinesOk (s.writeRest l r) := by
  cases r
  · exact h
  · exact h.ownWrite _ _
  · exact h.ownWrite _ _

theorem LinesOk.dropLease {s : State} (h : LinesOk s) (l : LineId) : LinesOk (s.dropLease l) := by
  unfold State.dropLease
  split
  · exact h
  · have h' := h.of_changes (setLease_changes s l { s.leases[l] with lease := none })
    unfold State.partLine
    split
    · exact h'
    · exact (h'.modLine l (LineCell.applyParting_ok _ _)).of_changes (stopBound_changes _ _ _)

theorem LinesOk.foldl {α : Type} {f : State → α → State} (hf : ∀ s a, LinesOk s → LinesOk (f s a)) (as : List α)
    {s : State} (h : LinesOk s) : LinesOk (as.foldl f s) := by
  induction as generalizing s with
  | nil => exact h
  | cons a as ih => exact ih (hf s a h)

theorem LinesOk.grantHead {s : State} (h : LinesOk s) (l : LineId) : LinesOk (s.grantHead l) :=
  h.of_changes (grantHead_changes s l)

theorem LinesOk.endLease {s : State} (h : LinesOk s) (l : LineId) : LinesOk (s.endLease l) :=
  (h.dropLease l).grantHead l

theorem LinesOk.completeClosing {s : State} (h : LinesOk s) (k : SessionId) : LinesOk (s.completeClosing k) := by
  unfold State.completeClosing
  refine LinesOk.of_changes ?_ (sendEnded_changes _ _ _)
  refine LinesOk.of_changes ?_ (modSession_changes _ _ _)
  refine LinesOk.foldl (fun s l h => h.grantHead l) _ ?_
  refine LinesOk.foldl (fun s l h => h.dropLease l) _ ?_
  exact h.of_changes (ChangesOnly.foldl freeSlot_changes _ _)

theorem LinesOk.checkClosing {s : State} (h : LinesOk s) (k : SessionId) : LinesOk (s.checkClosing k) := by
  unfold State.checkClosing
  split
  · exact h.completeClosing k
  · exact h

theorem LinesOk.beginClosing {s : State} (h : LinesOk s) (k : SessionId) (cause : CloseCause) :
    LinesOk (s.beginClosing k cause) :=
  h.of_changes (beginClosing_changes s k cause)

theorem LinesOk.enterClosing {s : State} (h : LinesOk s) (k : SessionId) (cause : CloseCause) :
    LinesOk (s.enterClosing k cause) := by
  unfold State.enterClosing
  split
  · exact (h.beginClosing k cause).checkClosing k
  · exact h

theorem LinesOk.takeOneshot {s : State} (h : LinesOk s) (e : Entry) (l : LineId) (v : Level) :
    LinesOk (s.takeOneshot e l v) := by
  unfold State.takeOneshot
  have h' := h.of_changes (removeEntry_changes s e.handle)
  dsimp only
  split
  · exact h'.of_changes (notify_changes _ _ _)
  · split
    · exact h'.of_changes (notify_changes _ _ _)
    · exact h'.writeLine _ _

theorem LinesOk.takeBodyStep {s : State} (h : LinesOk s) (i : SlotId) (n : Nat) : LinesOk (s.takeBodyStep i n) := by
  unfold State.takeBodyStep
  have h' := h.of_changes (modSlot_changes s i fun r => { r with state := .running })
  dsimp only
  split
  · exact h'.of_changes (removeEntry_changes _ _)
  · split
    · split
      · exact h'.of_changes (leaveBody_changes _ _ _ _)
      · split
        · exact h'.of_changes (leaveBody_changes _ _ _ _)
        · exact (h'.writeLine _ _).of_changes (completeStep_changes _ _ _ _)
    · exact (h'.of_changes (notifyOwner_changes _ _ _)).of_changes (completeStep_changes _ _ _ _)
    · split
      · exact h'.of_changes (completeStep_changes _ _ _ _)
      · exact h'.of_changes (moveEntry_changes _ _ _ _ _ _ _)

theorem LinesOk.takeUnwindStep {s : State} (h : LinesOk s) (i : SlotId) (n : Nat) : LinesOk (s.takeUnwindStep i n) := by
  unfold State.takeUnwindStep
  split
  · exact h.of_changes (removeEntry_changes _ _)
  · split
    · split
      · exact (h.of_changes (modSlot_changes _ _ _)).of_changes (completeStep_changes _ _ _ _)
      · exact (h.writeLine _ _).of_changes (completeStep_changes _ _ _ _)
    · exact (h.of_changes (notifyOwner_changes _ _ _)).of_changes (completeStep_changes _ _ _ _)
    · exact h.of_changes (completeStep_changes _ _ _ _)

theorem LinesOk.takeEntry {s : State} (h : LinesOk s) (e : Entry) : LinesOk (s.takeEntry e) := by
  unfold State.takeEntry
  split
  · exact h.takeOneshot _ _ _
  · unfold State.takeStep
    split
    · exact (h.takeBodyStep _ _).checkClosing _
    · exact (h.takeUnwindStep _ _).checkClosing _
  · exact (h.of_changes (leaveBody_changes _ _ _ _)).checkClosing _

theorem LinesOk.takeUntil {h n : Nat} {s : State} (hs : LinesOk s) : LinesOk (State.takeUntil h n s) := by
  induction n generalizing s with
  | zero => exact hs
  | succ n ih =>
    unfold State.takeUntil
    split
    · split
      · exact ih (hs.takeEntry _)
      · exact hs
    · exact hs

theorem LinesOk.beginCycles {s : State} (h : LinesOk s) (g : GenId) (t : Tick) : LinesOk (s.beginCycles g t) :=
  (h.of_changes (modGenerator_changes s g fun r => { r with state := .running t false })).ownWrite _ _

theorem LinesOk.restGenerator {s : State} (h : LinesOk s) (g : GenId) : LinesOk (s.restGenerator g) :=
  (h.of_changes (modGenerator_changes s g Generator.stop)).writeRest _ _

end Sys2Proof.Machine
end

