-- ==== Sys2Proof/Laws/Pool.lean ====
section
/-! SUPPORT. Which operations leave every slot's lists and the pool as they are, and what the others do to the count of step
records (R69, R71). -/

namespace Sys2Proof.Machine

set_option Elab.async false

/-- The lists of every slot and the free count of the pool are in `t` as in `s`. -/
def SameLists (s t : State) : Prop :=
  t.poolFree = s.poolFree ∧ ∀ i : SlotId, t.slots[i].body = s.slots[i].body ∧ t.slots[i].unwind = s.slots[i].unwind

theorem SameLists.refl (s : State) : SameLists s s := ⟨rfl, fun _ => ⟨rfl, rfl⟩⟩

theorem SameLists.trans {s t u : State} (h : SameLists s t) (h' : SameLists t u) : SameLists s u :=
  ⟨h'.1.trans h.1, fun i => ⟨(h'.2 i).1.trans (h.2 i).1, (h'.2 i).2.trans (h.2 i).2⟩⟩

theorem SameLists.of_changes {parts : List Part} {s t : State} (h : ChangesOnly parts s t)
    (h1 : Part.slots ∉ parts := by decide) (h2 : Part.pool ∉ parts := by decide) : SameLists s t :=
  ⟨h .pool h2, fun i => by rw [h.slot i h1]; exact ⟨rfl, rfl⟩⟩

theorem SameLists.modSlot (s : State) (i : SlotId) {f : Slot → Slot}
    (h : (f s.slots[i]).body = s.slots[i].body ∧ (f s.slots[i]).unwind = s.slots[i].unwind) :
    SameLists s (s.modSlot i f) := by
  refine ⟨rfl, fun j => ?_⟩
  rw [State.modSlot_get]
  split
  · rename_i e; subst e; exact h
  · exact ⟨rfl, rfl⟩

theorem SameLists.foldl {α : Type} {f : State → α → State} (h : ∀ s a, SameLists s (f s a)) (as : List α) (s : State) :
    SameLists s (as.foldl f s) := by
  induction as generalizing s with
  | nil => exact .refl _
  | cons a as ih => exact (h s a).trans (ih (f s a))

theorem endRun_lists (s : State) (i : SlotId) (state : SeqState) (outcome : SeqOutcome) :
    SameLists s (s.endRun i state outcome) :=
  ((SameLists.of_changes (removeEntry_changes _ _)).trans (.modSlot _ _ ⟨rfl, rfl⟩)).trans
    (.of_changes (notifyOwner_changes _ _ _))

theorem moveEntry_lists (s : State) (i : SlotId) (state : SeqState) (list : StepList) (n : Nat) (due : Tick)
    (kind : EntryKind) : SameLists s (s.moveEntry i state list n due kind) :=
  (SameLists.of_changes (readmit_changes _ _ _ _)).trans (.modSlot _ _ ⟨rfl, rfl⟩)

theorem leaveBody_lists (s : State) (i : SlotId) (reason : SeqReason) (failed : Nat) :
    SameLists s (s.leaveBody i reason failed) := by
  unfold State.leaveBody
  dsimp only
  refine (SameLists.modSlot s i (f := fun r => { r with reason := reason, failed := some failed }) ⟨rfl, rfl⟩).trans ?_
  split
  · exact endRun_lists _ _ _ _
  · exact moveEntry_lists _ _ _ _ _ _ _

theorem completeStep_lists (s : State) (i : SlotId) (list : StepList) (n : Nat) :
    SameLists s (s.completeStep i list n) := by
  unfold State.completeStep
  split
  · exact moveEntry_lists _ _ _ _ _ _ _
  · cases list
    · exact (SameLists.modSlot s i (f := fun r => { r with reason := .none, failed := none, skipped := 0 })
        ⟨rfl, rfl⟩).trans (endRun_lists _ _ _ _)
    · exact endRun_lists _ _ _ _

theorem takeBodyStep_lists (s : State) (i : SlotId) (n : Nat) : SameLists s (s.takeBodyStep i n) := by
  unfold State.takeBodyStep
  dsimp only
  refine (SameLists.modSlot s i (f := fun r => { r with state := .running }) ⟨rfl, rfl⟩).trans ?_
  split
  · exact .of_changes (removeEntry_changes _ _)
  · split
    · split
      · exact leaveBody_lists _ _ _ _
      · split
        · exact leaveBody_lists _ _ _ _
        · exact (SameLists.of_changes (writeLine_changes _ _ _)).trans (completeStep_lists _ _ _ _)
    · exact (SameLists.of_changes (notifyOwner_changes _ _ _)).trans (completeStep_lists _ _ _ _)
    · split
      · exact completeStep_lists _ _ _ _
      · exact moveEntry_lists _ _ _ _ _ _ _

theorem takeUnwindStep_lists (s : State) (i : SlotId) (n : Nat) : SameLists s (s.takeUnwindStep i n) := by
  unfold State.takeUnwindStep
  split
  · exact .of_changes (removeEntry_changes _ _)
  · split
    · split
      · exact (SameLists.modSlot _ _ ⟨rfl, rfl⟩).trans (completeStep_lists _ _ _ _)
      · exact (SameLists.of_changes (writeLine_changes _ _ _)).trans (completeStep_lists _ _ _ _)
    · exact (SameLists.of_changes (notifyOwner_changes _ _ _)).trans (completeStep_lists _ _ _ _)
    · exact completeStep_lists _ _ _ _

theorem stopSequence_lists (s : State) (i : SlotId) (reason : SeqReason) : SameLists s (s.stopSequence i reason) :=
  leaveBody_lists _ _ _ _

theorem offerAwait_lists (s : State) (l : LineId) (v : Level) (i : SlotId) : SameLists s (s.offerAwait l v i) := by
  unfold State.offerAwait
  split
  · split
    · exact completeStep_lists _ _ _ _
    · exact .refl _
  · exact .refl _

/-! ## The count of step records -/

theorem PoolOk.of_lists {s t : State} (hs : PoolOk s) (h : SameLists s t) : PoolOk t := by
  have e : ∀ i : SlotId, t.slots[i].size = s.slots[i].size := fun i => by simp only [Slot.size, h.2 i]
  refine ⟨?_, fun i => by rw [(h.2 i).1, (h.2 i).2]; exact hs.2 i⟩
  rw [h.1, State.stepsHeld]
  simp only [e]
  exact hs.1

theorem PoolOk.of_changes {parts : List Part} {s t : State} (hs : PoolOk s) (h : ChangesOnly parts s t)
    (h1 : Part.slots ∉ parts := by decide) (h2 : Part.pool ∉ parts := by decide) : PoolOk t :=
  hs.of_lists (.of_changes h h1 h2)

/-- The sum of a list of numbers after the change of one place. -/
theorem sum_change {α : Type} [DecidableEq α] {as : List α} (hn : as.Nodup) {a : α} (ha : a ∈ as) {f g : α → Nat}
    (h : ∀ b, b ≠ a → g b = f b) : (as.map g).sum + f a = (as.map f).sum + g a := by
  induction as with
  | nil => simp at ha
  | cons b bs ih =>
    simp only [List.map_cons, List.sum_cons]
    have hb := (List.nodup_cons.mp hn)
    rcases List.mem_cons.mp ha with rfl | ha'
    · have : bs.map g = bs.map f := by
        apply List.map_congr_left
        intro c hc
        exact h c fun e => hb.1 (e ▸ hc)
      rw [this]; omega
    · have := ih hb.2 ha'
      have hne : g b = f b := h b fun e => hb.1 (e ▸ ha')
      omega

/-- The count of all lists after the change of one slot. -/
theorem stepsHeld_modSlot (s : State) (i : SlotId) (f : Slot → Slot) :
    (s.modSlot i f).stepsHeld + s.slots[i].size = s.stepsHeld + (f s.slots[i]).size := by
  have := sum_change (List.nodup_finRange 16) (List.mem_finRange i) (f := fun j : SlotId => s.slots[j].size)
    (g := fun j : SlotId => (s.modSlot i f).slots[j].size) fun b hb => congrArg Slot.size (State.modSlot_get_ne s f hb)
  rw [congrArg Slot.size (State.modSlot_get_same s i f)] at this
  exact this

theorem stepsHeld_setPoolFree (s : State) (n : Nat) : (s.setPoolFree n).stepsHeld = s.stepsHeld := rfl

theorem PoolOk.freeSlot {s : State} (h : PoolOk s) (i : SlotId) : PoolOk (s.freeSlot i) := by
  constructor
  · have a := stepsHeld_modSlot (s.setPoolFree (s.poolFree + (s.slots[i].body.length + s.slots[i].unwind.length))) i
      fun _ => Slot.free
    have b := h.1
    have c : (Slot.free).size = 0 := rfl
    have d : (s.slots[i]).size = s.slots[i].body.length + s.slots[i].unwind.length := rfl
    rw [c, stepsHeld_setPoolFree, State.setPoolFree_slots] at a
    rw [State.freeSlot, State.modSlot_poolFree, State.setPoolFree_poolFree]
    omega
  · intro j
    unfold State.freeSlot
    rw [State.modSlot_get]
    split
    · exact ⟨by simp [Slot.free], by simp [Slot.free]⟩
    · exact h.2 j

theorem PoolOk.appendSteps {s : State} (h : PoolOk s) (i : SlotId) (list : StepList) (steps : List Step)
    (hp : steps.length ≤ s.poolFree) (hl : (s.slots[i].list list).length + steps.length ≤ list.capacity) :
    PoolOk (s.appendSteps i list steps) := by
  constructor
  · have a := stepsHeld_modSlot (s.setPoolFree (s.poolFree - steps.length)) i (Slot.append list steps)
    have b := h.1
    have c : (Slot.append list steps s.slots[i]).size = s.slots[i].size + steps.length := by
      cases list <;> simp [Slot.append, Slot.size] <;> omega
    rw [stepsHeld_setPoolFree, State.setPoolFree_slots, c] at a
    rw [State.appendSteps, State.modSlot_poolFree, State.setPoolFree_poolFree]
    omega
  · intro j
    unfold State.appendSteps
    rw [State.modSlot_get]
    have hj := h.2 j
    split
    · rename_i e; subst e
      cases list
      · simp only [Slot.append, List.length_append, Slot.list, StepList.capacity, State.setPoolFree_slots] at *
        exact ⟨by omega, hj.2⟩
      · simp only [Slot.append, List.length_append, Slot.list, StepList.capacity, State.setPoolFree_slots] at *
        exact ⟨hj.1, by omega⟩
    · exact hj

theorem PoolOk.foldl {α : Type} {f : State → α → State} (hf : ∀ s a, PoolOk s → PoolOk (f s a)) (as : List α) {s : State}
    (h : PoolOk s) : PoolOk (as.foldl f s) := by
  induction as generalizing s with
  | nil => exact h
  | cons a as ih => exact ih (hf s a h)

theorem PoolOk.checkClosing {s : State} (h : PoolOk s) (k : SessionId) : PoolOk (s.checkClosing k) := by
  unfold State.checkClosing
  split
  · unfold State.completeClosing
    refine PoolOk.of_changes ?_ (sendEnded_changes _ _ _)
    refine PoolOk.of_changes ?_ (modSession_changes _ _ _)
    refine PoolOk.of_changes ?_ (endLeasesOf_changes _ _)
    exact h.foldl (fun s i h => h.freeSlot i) _
  · exact h

theorem PoolOk.beginClosing {s : State} (h : PoolOk s) (k : SessionId) (cause : CloseCause) :
    PoolOk (s.beginClosing k cause) := by
  unfold State.beginClosing
  split
  · exact (h.of_changes (putAway_changes _ _ _)).of_lists (SameLists.foldl (fun _ _ => stopSequence_lists _ _ _) _ _)
  · exact h

theorem PoolOk.enterClosing {s : State} (h : PoolOk s) (k : SessionId) (cause : CloseCause) :
    PoolOk (s.enterClosing k cause) := by
  unfold State.enterClosing
  split
  · exact (h.beginClosing k cause).checkClosing k
  · exact h

theorem PoolOk.takeEntry {s : State} (h : PoolOk s) (e : Entry) : PoolOk (s.takeEntry e) := by
  unfold State.takeEntry
  split
  · exact h.of_changes (takeOneshot_changes _ _ _ _)
  · unfold State.takeStep
    split
    · exact (h.of_lists (takeBodyStep_lists _ _ _)).checkClosing _
    · exact (h.of_lists (takeUnwindStep_lists _ _ _)).checkClosing _
  · exact (h.of_lists (leaveBody_lists _ _ _ _)).checkClosing _

theorem PoolOk.takeUntil {h n : Nat} {s : State} (hs : PoolOk s) : PoolOk (State.takeUntil h n s) := by
  induction n generalizing s with
  | zero => exact hs
  | succ n ih =>
    unfold State.takeUntil
    split
    · split
      · exact ih (hs.takeEntry _)
      · exact hs
    · exact hs

end Sys2Proof.Machine
end

