-- ==== Sys2Proof/Laws/Timeline.lean ====
section
/-! SUPPORT. The Timeline as a list in order: insertion, removal, handles and admission, and what every operation on it keeps
(`TimelineOk`). -/

namespace Sys2Proof.Machine

set_option Elab.async false

/-! ## Handles (R50) -/

theorem handleAfter_range (h : Nat) : 1 ≤ handleAfter h ∧ handleAfter h ≤ Config.max16 := by
  unfold handleAfter; split <;> simp_all [Config.max16]

theorem freshHandle_range (live : List Nat) (n h : Nat) :
    1 ≤ freshHandle live n h ∧ freshHandle live n h ≤ Config.max16 := by
  induction n generalizing h with
  | zero => exact handleAfter_range h
  | succ n ih =>
    unfold freshHandle; split
    · exact ih _
    · exact handleAfter_range h

/-- The value of the handle counter after `n` increases. -/
def handleAt (h : Nat) : Nat → Nat
  | 0 => h
  | n + 1 => handleAt (handleAfter h) n

theorem handleAt_inj {h : Nat} (hh : h ≤ Config.max16) : ∀ {m n : Nat}, m < n → n ≤ Config.max16 →
    1 ≤ m → handleAt h m ≠ handleAt h n := by
  have closed : ∀ n h, h ≤ Config.max16 → 1 ≤ n → n ≤ Config.max16 →
      handleAt h n = if h + n ≤ Config.max16 then h + n else h + n - Config.max16 := by
    intro n
    induction n with
    | zero => intro h _ h1; omega
    | succ n ih =>
      intro h hh _ hn
      rw [handleAt]
      by_cases e : n = 0
      · subst e
        simp only [handleAt, handleAfter]
        split <;> split <;> omega
      · rw [ih _ (handleAfter_range h).2 (by omega) (by omega)]
        unfold handleAfter
        split <;> split <;> split <;> omega
  intro m n hmn hn hm
  rw [closed m h hh hm (by omega), closed n h hh (by omega) hn]
  split <;> split <;> omega

/-- The handle that an admission gives is no live one, while fewer than `n + 1` are live. -/
theorem freshHandle_not_mem {live : List Nat} (n h : Nat) (hh : h ≤ Config.max16) (hn : n < Config.max16)
    (hl : live.length ≤ n) : freshHandle live n h ∉ live := by
  have key : ∀ (n : Nat) (h : Nat), freshHandle live n h ∉ live ∨ ∀ m, 1 ≤ m → m ≤ n + 1 → handleAt h m ∈ live := by
    intro n
    induction n with
    | zero =>
      intro h
      by_cases hm : handleAfter h ∈ live
      · right; intro m h1 h2
        have : m = 1 := by omega
        subst this; exact hm
      · exact .inl hm
    | succ n ih =>
      intro h
      unfold freshHandle
      split
      · rename_i hm
        rcases ih (handleAfter h) with h' | h'
        · exact .inl h'
        · right; intro m h1 h2
          cases m with
          | zero => omega
          | succ m =>
            cases m with
            | zero => exact hm
            | succ m => exact h' (m + 1) (by omega) (by omega)
      · rename_i hm; exact .inl hm
  rcases key n h with h' | h'
  · exact h'
  · exfalso
    have sub : ((List.range (n + 1)).map fun m => handleAt h (m + 1)) ⊆ live := by
      intro x hx
      obtain ⟨m, hm, rfl⟩ := List.mem_map.mp hx
      exact h' (m + 1) (by omega) (by have := List.mem_range.mp hm; omega)
    have nd : ((List.range (n + 1)).map fun m => handleAt h (m + 1)).Nodup := by
      refine List.Nodup.map_on ?_ List.nodup_range
      intro a ha b hb e
      have := List.mem_range.mp ha
      have := List.mem_range.mp hb
      rcases Nat.lt_trichotomy a b with hab | hab | hab
      · exact absurd e (handleAt_inj hh (by omega) (by omega) (by omega))
      · exact hab
      · exact absurd e.symm (handleAt_inj hh (by omega) (by omega) (by omega))
    have := (nd.subperm sub).length_le
    simp at this; omega

theorem nextHandle_fresh {s : State} (h : s.timeline.length ≤ Config.timelinePlaces) (hc : s.handleCounter ≤ Config.max16) :
    ∀ e ∈ s.timeline, e.handle ≠ s.nextHandle := by
  intro e he heq
  refine freshHandle_not_mem (live := s.timeline.map Entry.handle) Config.timelinePlaces s.handleCounter hc (by decide)
    (by simpa using h) ?_
  rw [← State.nextHandle, ← heq]
  exact List.mem_map_of_mem he

/-! ## Insertion in order (R48) -/

theorem mem_insertEntry {e f : Entry} {es : List Entry} : f ∈ insertEntry e es ↔ f = e ∨ f ∈ es := by
  induction es with
  | nil => simp [insertEntry]
  | cons g gs ih =>
    unfold insertEntry
    split
    · simp
    · simp [ih]; tauto

theorem length_insertEntry (e : Entry) (es : List Entry) : (insertEntry e es).length = es.length + 1 := by
  induction es with
  | nil => rfl
  | cons g gs ih =>
    unfold insertEntry
    split
    · rfl
    · simp [ih]

/-- What stands no earlier than `f` stands no earlier than what `f` comes after. -/
theorem not_before_of_before {e f g : Entry} (h : e.before f = true) (h' : g.before f = false) : g.before e = false := by
  have key : ∀ a b c x y z : Nat, (a < b ∨ a = b ∧ x < y) → ¬(c < b ∨ c = b ∧ z < y) → ¬(c < a ∨ c = a ∧ z < x) := by omega
  rw [Bool.eq_false_iff] at h' ⊢
  simp only [Entry.before, Bool.or_eq_true, Bool.and_eq_true, decide_eq_true_eq, BitVec.lt_def, ne_eq] at *
  exact key _ _ _ _ _ _ h h'

theorem before_irrefl (e : Entry) : e.before e = false := by
  simp [Entry.before]

theorem insertEntry_sorted {e : Entry} {es : List Entry} (hs : es.Pairwise fun f g => g.before f = false) :
    (insertEntry e es).Pairwise fun f g => g.before f = false := by
  induction es with
  | nil => simp [insertEntry]
  | cons g gs ih =>
    have hs' := List.pairwise_cons.mp hs
    unfold insertEntry
    split
    · rename_i hb
      refine List.pairwise_cons.mpr ⟨fun f hf => not_before_of_before hb ?_, hs⟩
      rcases List.mem_cons.mp hf with rfl | hf
      · exact before_irrefl f
      · exact hs'.1 f hf
    · rename_i hb
      refine List.pairwise_cons.mpr ⟨fun f hf => ?_, ih hs'.2⟩
      rcases mem_insertEntry.mp hf with rfl | hf
      · simpa using hb
      · exact hs'.1 f hf

theorem insertEntry_nodup {e : Entry} {es : List Entry} (hs : (es.map Entry.handle).Nodup)
    (hn : ∀ f ∈ es, f.handle ≠ e.handle) : ((insertEntry e es).map Entry.handle).Nodup := by
  induction es with
  | nil => simp [insertEntry]
  | cons g gs ih =>
    simp only [List.map_cons, List.nodup_cons] at hs
    unfold insertEntry
    split
    · simp only [List.map_cons, List.nodup_cons, List.mem_cons, not_or]
      refine ⟨⟨fun x => hn g List.mem_cons_self x.symm, fun x => ?_⟩, hs⟩
      obtain ⟨f, hf, hx⟩ := List.mem_map.mp x
      exact hn f (List.mem_cons_of_mem _ hf) hx
    · simp only [List.map_cons, List.nodup_cons]
      refine ⟨fun x => ?_, ih hs.2 fun f hf => hn f (List.mem_cons_of_mem _ hf)⟩
      obtain ⟨f, hf, hx⟩ := List.mem_map.mp x
      rcases mem_insertEntry.mp hf with rfl | hf
      · exact hn g List.mem_cons_self hx.symm
      · exact hs.1 (by rw [← hx]; exact List.mem_map_of_mem hf)

/-! ## What the operations keep -/

theorem TimelineOk.of_changes {parts : List Part} {s t : State} (hs : TimelineOk s) (h : ChangesOnly parts s t)
    (hp : Part.timeline ∉ parts := by decide) : TimelineOk t := by
  obtain ⟨a, b, -⟩ := h .timeline hp
  unfold TimelineOk
  rw [a, b]
  exact hs

/-- Entries may be taken out. -/
theorem TimelineOk.filter {s : State} (h : TimelineOk s) (q : Entry → Bool) :
    TimelineOk (s.setTimeline (s.timeline.filter q)) := by
  obtain ⟨h1, h2, h3, h4, h5⟩ := h
  refine ⟨(List.length_filter_le _ _).trans h1, h2.filter _, ?_, fun e he => h4 e (List.mem_of_mem_filter he), h5⟩
  exact h3.sublist (List.Sublist.map _ List.filter_sublist)

theorem TimelineOk.removeEntry {s : State} (h : TimelineOk s) (n : Nat) : TimelineOk (s.removeEntry n) := h.filter _

/-- Admission with a free place (R50, R51). -/
theorem TimelineOk.enterTimeline {s : State} (h : TimelineOk s) (hl : s.timeline.length < Config.timelinePlaces)
    (k : SessionId) (due : Tick) (kind : EntryKind) : TimelineOk (s.enterTimeline k due kind) := by
  obtain ⟨h1, h2, h3, h4, h5⟩ := h
  have hr := freshHandle_range (s.timeline.map Entry.handle) Config.timelinePlaces s.handleCounter
  refine ⟨?_, ?_, ?_, ?_, hr.2⟩
  · simp only [State.enterTimeline, length_insertEntry]; omega
  · exact insertEntry_sorted h2
  · exact insertEntry_nodup h3 (nextHandle_fresh h1 h5)
  · intro e he
    rcases mem_insertEntry.mp he with rfl | he
    · exact hr
    · exact h4 e he

/-- Re-admission (R65). -/
theorem TimelineOk.readmit {s : State} (h : TimelineOk s) (n : Nat) (due : Tick) (kind : EntryKind) :
    TimelineOk (s.readmit n due kind) := by
  unfold State.readmit
  split
  · exact h
  · rename_i e he
    obtain ⟨h1, h2, h3, h4, h5⟩ := h
    have hm : e ∈ s.timeline := List.mem_of_find?_eq_some he
    have hh : e.handle = n := by simpa using List.find?_some he
    refine ⟨?_, ?_, ?_, ?_, h5⟩
    · simp only [length_insertEntry]
      have : (s.timeline.filter fun f => decide (f.handle ≠ n)).length < s.timeline.length := by
        apply List.length_filter_lt_length_iff_exists.mpr
        exact ⟨e, hm, by simp [hh]⟩
      omega
    · exact insertEntry_sorted (h2.filter _)
    · refine insertEntry_nodup (h3.sublist (List.Sublist.map _ List.filter_sublist)) fun f hf => ?_
      have := List.of_mem_filter hf
      simp only [hh]; simpa using this
    · intro f hf
      rcases mem_insertEntry.mp hf with rfl | hf
      · exact h4 e hm
      · exact h4 f (List.mem_of_mem_filter hf)

theorem TimelineOk.foldl {α : Type} {f : State → α → State} (hf : ∀ s a, TimelineOk s → TimelineOk (f s a)) (as : List α)
    {s : State} (h : TimelineOk s) : TimelineOk (as.foldl f s) := by
  induction as generalizing s with
  | nil => exact h
  | cons a as ih => exact ih (hf s a h)

theorem TimelineOk.endRun {s : State} (h : TimelineOk s) (i : SlotId) (state : SeqState) (outcome : SeqOutcome) :
    TimelineOk (s.endRun i state outcome) :=
  ((h.removeEntry _).of_changes (modSlot_changes _ _ _)).of_changes (notifyOwner_changes _ _ _)

theorem TimelineOk.moveEntry {s : State} (h : TimelineOk s) (i : SlotId) (state : SeqState) (list : StepList) (n : Nat)
    (due : Tick) (kind : EntryKind) : TimelineOk (s.moveEntry i state list n due kind) :=
  (h.readmit _ _ _).of_changes (modSlot_changes _ _ _)

theorem TimelineOk.leaveBody {s : State} (h : TimelineOk s) (i : SlotId) (reason : SeqReason) (failed : Nat) :
    TimelineOk (s.leaveBody i reason failed) := by
  unfold State.leaveBody
  have h' := h.of_changes (modSlot_changes s i fun r => { r with reason := reason, failed := some failed })
  dsimp only
  split
  · exact h'.endRun _ _ _
  · exact h'.moveEntry _ _ _ _ _ _

theorem TimelineOk.completeStep {s : State} (h : TimelineOk s) (i : SlotId) (list : StepList) (n : Nat) :
    TimelineOk (s.completeStep i list n) := by
  unfold State.completeStep
  split
  · exact h.moveEntry _ _ _ _ _ _
  · cases list
    · exact (h.of_changes (modSlot_changes _ _ _)).endRun _ _ _
    · exact h.endRun _ _ _

theorem TimelineOk.takeBodyStep {s : State} (h : TimelineOk s) (i : SlotId) (n : Nat) : TimelineOk (s.takeBodyStep i n) := by
  unfold State.takeBodyStep
  have h' := h.of_changes (modSlot_changes s i fun r => { r with state := .running })
  dsimp only
  split
  · exact h'.removeEntry _
  · split
    · split
      · exact h'.leaveBody _ _ _
      · split
        · exact h'.leaveBody _ _ _
        · exact (h'.of_changes (writeLine_changes _ _ _)).completeStep _ _ _
    · exact (h'.of_changes (notifyOwner_changes _ _ _)).completeStep _ _ _
    · split
      · exact h'.completeStep _ _ _
      · exact h'.moveEntry _ _ _ _ _ _

theorem TimelineOk.takeUnwindStep {s : State} (h : TimelineOk s) (i : SlotId) (n : Nat) :
    TimelineOk (s.takeUnwindStep i n) := by
  unfold State.takeUnwindStep
  split
  · exact h.removeEntry _
  · split
    · split
      · exact (h.of_changes (modSlot_changes _ _ _)).completeStep _ _ _
      · exact (h.of_changes (writeLine_changes _ _ _)).completeStep _ _ _
    · exact (h.of_changes (notifyOwner_changes _ _ _)).completeStep _ _ _
    · exact h.completeStep _ _ _

theorem TimelineOk.checkClosing {s : State} (h : TimelineOk s) (k : SessionId) : TimelineOk (s.checkClosing k) :=
  h.of_changes (checkClosing_changes s k)

theorem TimelineOk.putAway {s : State} (h : TimelineOk s) (k : SessionId) (cause : CloseCause) :
    TimelineOk (s.putAway k cause) := by
  unfold State.putAway
  refine TimelineOk.of_changes ?_ (freeGenerators_changes _ _)
  refine TimelineOk.of_changes ?_ (removeWatches_changes _ _)
  refine TimelineOk.of_changes ?_ (removePlaces_changes _ _)
  exact (h.of_changes (modSession_changes _ _ _)).filter _

theorem TimelineOk.beginClosing {s : State} (h : TimelineOk s) (k : SessionId) (cause : CloseCause) :
    TimelineOk (s.beginClosing k cause) := by
  unfold State.beginClosing
  split
  · exact TimelineOk.foldl (fun s i h => h.leaveBody _ _ _) _ (h.putAway k cause)
  · exact h

theorem TimelineOk.enterClosing {s : State} (h : TimelineOk s) (k : SessionId) (cause : CloseCause) :
    TimelineOk (s.enterClosing k cause) := by
  unfold State.enterClosing
  split
  · exact (h.beginClosing k cause).checkClosing k
  · exact h

theorem TimelineOk.takeEntry {s : State} (h : TimelineOk s) (e : Entry) : TimelineOk (s.takeEntry e) := by
  unfold State.takeEntry
  split
  · unfold State.takeOneshot
    dsimp only
    split
    · exact (h.removeEntry _).of_changes (notify_changes _ _ _)
    · split
      · exact (h.removeEntry _).of_changes (notify_changes _ _ _)
      · exact (h.removeEntry _).of_changes (writeLine_changes _ _ _)
  · unfold State.takeStep
    split
    · exact (h.takeBodyStep _ _).checkClosing _
    · exact (h.takeUnwindStep _ _).checkClosing _
  · exact (h.leaveBody _ _ _).checkClosing _

theorem TimelineOk.takeUntil {h n : Nat} {s : State} (hs : TimelineOk s) : TimelineOk (State.takeUntil h n s) := by
  induction n generalizing s with
  | zero => exact hs
  | succ n ih =>
    unfold State.takeUntil
    split
    · split
      · exact ih (hs.takeEntry _)
      · exact hs
    · exact hs

end Sys2Proof.Machine
end

