-- ==== Sys2Proof/Laws/Bound.lean ====
section
/-! SUPPORT. Generators, their owners and their lines (`BoundOk`, R104): what keeps the binding, and what the end of a lease needs
for it. -/

namespace Sys2Proof.Machine

set_option Elab.async false

/-- The binding of every generator is in `t` as in `s`, but that some may have stopped or been freed. -/
theorem BoundOk.of_generators {s t : State} (hs : BoundOk s)
    (hg : ∀ g : GenId, (t.generators[g].state ≠ .free → s.generators[g].state ≠ .free ∧
      t.generators[g].owner = s.generators[g].owner ∧ t.generators[g].line = s.generators[g].line) ∧
      (t.generators[g].state = .free → t.generators[g] = Generator.free))
    (hl : ∀ (g : GenId) (k : SessionId) (l : LineId), t.generators[g].state ≠ .free → s.generators[g].owner = some k →
      s.generators[g].line = some l → s.holder l = some k → s.sessions[k].state = .opened →
      t.holder l = some k ∧ t.sessions[k].state = .opened) : BoundOk t := by
  refine ⟨fun g hf => ?_, fun g hf => (hg g).2 hf, fun g h hf hh e => ?_⟩
  · obtain ⟨a, b, c⟩ := (hg g).1 hf
    obtain ⟨k, l, h1, h2, h3, h4⟩ := hs.1 g a
    exact ⟨k, l, by rw [b, h1], by rw [c, h2], hl g k l hf h1 h2 h3 h4⟩
  · obtain ⟨a, -, c⟩ := (hg g).1 hf
    obtain ⟨a', -, c'⟩ := (hg h).1 hh
    exact hs.2.2 g h a a' (by rw [← c, ← c', e])

/-- A change of one generator that keeps its owner and line and does not free it. -/
theorem BoundOk.modGenerator {s : State} (hs : BoundOk s) (g : GenId) {f : Generator → Generator}
    (hf : s.generators[g].state ≠ .free) (h : (f s.generators[g]).owner = s.generators[g].owner ∧
      (f s.generators[g]).line = s.generators[g].line ∧ (f s.generators[g]).state ≠ .free) : BoundOk (s.modGenerator g f) := by
  refine hs.of_generators (fun j => ?_) fun g k l _ _ _ hl ho => ⟨hl, ho⟩
  rw [State.modGenerator_get]
  split
  · rename_i e; subst e
    exact ⟨fun _ => ⟨hf, h.1, h.2.1⟩, fun e => absurd e h.2.2⟩
  · exact ⟨fun a => ⟨a, rfl, rfl⟩, hs.2.1 j⟩

theorem BoundOk.freeGenerator {s : State} (hs : BoundOk s) (g : GenId) : BoundOk (s.freeGenerator g) := by
  refine hs.of_generators (fun j => ?_) fun g k l _ _ _ hl ho => ⟨hl, ho⟩
  rw [State.freeGenerator, State.modGenerator_get]
  split
  · exact ⟨fun e => absurd rfl e, fun _ => rfl⟩
  · exact ⟨fun a => ⟨a, rfl, rfl⟩, hs.2.1 j⟩

theorem BoundOk.stopBound {s : State} (hs : BoundOk s) (l : LineId) (cause : CadEndCause) :
    BoundOk (s.stopBound l cause) := by
  unfold State.stopBound
  split
  · exact hs
  · rename_i g hg
    split
    · exact (hs.modGenerator g (f := Generator.stop) (boundGenerator_some hg).1
        ⟨rfl, rfl, by simp [Generator.stop]⟩).of_changes (sendCadEnd_changes _ _ _)
    · exact hs

theorem BoundOk.writeLine {s : State} (hs : BoundOk s) (l : LineId) (v : Level) : BoundOk (s.writeLine l v) :=
  (hs.of_changes (modLine_changes _ _ _)).stopBound _ _

theorem BoundOk.partLine {s : State} (hs : BoundOk s) (l : LineId) (p : Parting) : BoundOk (s.partLine l p) := by
  unfold State.partLine
  split
  · exact hs
  · exact (hs.of_changes (modLine_changes _ _ _)).stopBound _ _

/-- No generator is bound to the line. -/
def Unbound (s : State) (l : LineId) : Prop :=
  ∀ g : GenId, s.generators[g].state ≠ .free → s.generators[g].line ≠ some l

theorem Unbound.of_generator {s t : State} {l : LineId} (h : Unbound s l)
    (hg : ∀ g : GenId, t.generators[g].state ≠ .free → s.generators[g].state ≠ .free ∧
      t.generators[g].line = s.generators[g].line) : Unbound t l :=
  fun g hf => by rw [(hg g hf).2]; exact h g (hg g hf).1

theorem stopBound_unbound (s : State) (l : LineId) (cause : CadEndCause) (g : GenId) :
    (s.stopBound l cause).generators[g].state ≠ .free → s.generators[g].state ≠ .free ∧
      (s.stopBound l cause).generators[g].line = s.generators[g].line := by
  unfold State.stopBound
  split
  · exact fun h => ⟨h, rfl⟩
  · rename_i j hj
    split
    · rw [(sendCadEnd_changes (s.modGenerator j Generator.stop) j cause).generator g, State.modGenerator_get]
      split
      · rename_i e; subst e
        exact fun _ => ⟨(boundGenerator_some hj).1, rfl⟩
      · exact fun h => ⟨h, rfl⟩
    · exact fun h => ⟨h, rfl⟩

/-- A lease may be changed on a line that no generator is bound to. -/
theorem BoundOk.setLease {s : State} (hs : BoundOk s) (l : LineId) (c : LeaseCell) (h : Unbound s l) :
    BoundOk (s.setLease l c) := by
  refine hs.of_generators (fun g => ⟨fun a => ⟨a, rfl, rfl⟩, hs.2.1 g⟩) fun g k m hf _ hm hl ho => ⟨?_, ho⟩
  have hne : m ≠ l := by rintro rfl; exact h g hf hm
  rw [State.holder, State.setLease_get_ne _ _ hne]; exact hl

/-- The claim queue of a line may be changed. -/
theorem BoundOk.setQueue {s : State} (hs : BoundOk s) (l : LineId) (q : List Place) :
    BoundOk (s.setLease l { s.leases[l] with queue := q }) := by
  refine hs.of_generators (fun g => ⟨fun a => ⟨a, rfl, rfl⟩, hs.2.1 g⟩) fun g k m hf _ hm hl ho => ⟨?_, ho⟩
  rw [State.holder, State.setLease_get]
  split
  · rename_i e; subst e; exact hl
  · exact hl

theorem dropLease_unbound {s : State} {l m : LineId} (h : Unbound s m) : Unbound (s.dropLease l) m := by
  unfold State.dropLease
  split
  · exact h
  · unfold State.partLine
    split
    · exact h
    · exact h.of_generator (stopBound_unbound _ _ _)

theorem BoundOk.dropLease {s : State} (hs : BoundOk s) (l : LineId) (h : Unbound s l) : BoundOk (s.dropLease l) := by
  unfold State.dropLease
  split
  · exact hs
  · exact (hs.setLease l _ h).partLine _ _

theorem grantHead_unbound {s : State} {l m : LineId} (h : Unbound s m) : Unbound (s.grantHead l) m :=
  h.of_generator fun g hf => by rw [(grantHead_changes s l).generator g] at hf ⊢; exact ⟨hf, rfl⟩

theorem BoundOk.grantHead {s : State} (hs : BoundOk s) (l : LineId) (h : Unbound s l) : BoundOk (s.grantHead l) := by
  unfold State.grantHead
  split
  · exact hs
  · exact (hs.setLease l _ h).of_changes (notify_changes _ _ _)

/-- A lease ends on a line that no generator is bound to (R34, R104). -/
theorem BoundOk.endLease {s : State} (hs : BoundOk s) (l : LineId) (h : Unbound s l) : BoundOk (s.endLease l) :=
  (hs.dropLease l h).grantHead l (dropLease_unbound h)

theorem BoundOk.endLeases {s : State} (hs : BoundOk s) (ls : List LineId) (h : ∀ l ∈ ls, Unbound s l) :
    BoundOk (ls.foldl State.grantHead (ls.foldl State.dropLease s)) := by
  have drops : ∀ (ms : List LineId) (u : State), BoundOk u → (∀ l ∈ ls, Unbound u l) → ms ⊆ ls →
      BoundOk (ms.foldl State.dropLease u) ∧ ∀ l ∈ ls, Unbound (ms.foldl State.dropLease u) l := by
    intro ms
    induction ms with
    | nil => exact fun u hu hl _ => ⟨hu, hl⟩
    | cons m ms ih =>
      exact fun u hu hl sub => ih _ (hu.dropLease m (hl m (sub List.mem_cons_self)))
        (fun l h => dropLease_unbound (hl l h)) (fun x hx => sub (List.mem_cons_of_mem _ hx))
  have grants : ∀ (ms : List LineId) (u : State), BoundOk u → (∀ l ∈ ls, Unbound u l) → ms ⊆ ls →
      BoundOk (ms.foldl State.grantHead u) := by
    intro ms
    induction ms with
    | nil => exact fun u hu _ _ => hu
    | cons m ms ih =>
      exact fun u hu hl sub => ih _ (hu.grantHead m (hl m (sub List.mem_cons_self)))
        (fun l h => grantHead_unbound (hl l h)) (fun x hx => sub (List.mem_cons_of_mem _ hx))
  obtain ⟨a, b⟩ := drops ls s hs h (fun _ hx => hx)
  exact grants ls _ a b (fun _ hx => hx)

/-- No line of a session that is not OPEN is bound. -/
theorem unbound_of_not_opened {s : State} (hs : BoundOk s) {k : SessionId} (hk : s.sessions[k].state ≠ .opened)
    {l : LineId} (hl : s.holder l = some k) : Unbound s l := by
  intro g hf e
  obtain ⟨j, m, h1, h2, h3, h4⟩ := hs.1 g hf
  rw [e] at h2
  cases h2
  rw [hl] at h3
  cases h3
  exact hk h4

theorem BoundOk.foldl {α : Type} {f : State → α → State} (hf : ∀ s a, BoundOk s → BoundOk (f s a)) (as : List α)
    {s : State} (h : BoundOk s) : BoundOk (as.foldl f s) := by
  induction as generalizing s with
  | nil => exact h
  | cons a as ih => exact ih (hf s a h)

theorem BoundOk.completeClosing {s : State} (hs : BoundOk s) (k : SessionId) (hk : s.sessions[k].state ≠ .opened) :
    BoundOk (s.completeClosing k) := by
  have hf : ChangesOnly [.pool, .slots] s ((s.slotsOf k).foldl State.freeSlot s) := ChangesOnly.foldl freeSlot_changes _ _
  have h1 : BoundOk ((s.slotsOf k).foldl State.freeSlot s) := hs.of_changes hf
  have hk1 : ((s.slotsOf k).foldl State.freeSlot s).sessions[k].state ≠ .opened := by
    rw [(hf .sessions (by decide) k).1]; exact hk
  have h2 : BoundOk (((s.slotsOf k).foldl State.freeSlot s).endLeasesOf k) := by
    refine h1.endLeases _ fun l hl => unbound_of_not_opened h1 hk1 ?_
    have := List.of_mem_filter hl
    simpa [State.holds] using this
  have hc := endLeasesOf_changes ((s.slotsOf k).foldl State.freeSlot s) k
  have hk2 : (((s.slotsOf k).foldl State.freeSlot s).endLeasesOf k).sessions[k].state ≠ .opened := by
    rw [(hc .sessions (by decide) k).1]; exact hk1
  unfold State.completeClosing
  refine BoundOk.of_changes ?_ (sendEnded_changes _ _ _)
  refine h2.of_generators (fun g => ⟨fun a => ⟨a, rfl, rfl⟩, h2.2.1 g⟩) fun g j l _ _ _ hl ho => ⟨hl, ?_⟩
  have hne : j ≠ k := by rintro rfl; exact hk2 ho
  rw [State.modSession_get_ne _ _ hne]; exact ho

theorem BoundOk.checkClosing {s : State} (hs : BoundOk s) (k : SessionId) : BoundOk (s.checkClosing k) := by
  unfold State.checkClosing
  split
  · rename_i c; exact hs.completeClosing k (by rw [c.1]; decide)
  · exact hs

theorem putAway_holder (s : State) (k : SessionId) (cause : CloseCause) (l : LineId) :
    (s.putAway k cause).holder l = s.holder l := by
  rw [State.holder, putAway_lease]
  rfl

theorem BoundOk.putAway {s : State} (hs : BoundOk s) (k : SessionId) (cause : CloseCause) :
    BoundOk (s.putAway k cause) := by
  refine hs.of_generators (fun g => ?_) fun g j l hf ho hl hh hj => ⟨?_, ?_⟩
  · rw [putAway_generator]
    split
    · exact ⟨fun e => absurd rfl e, fun _ => rfl⟩
    · exact ⟨fun a => ⟨a, rfl, rfl⟩, hs.2.1 g⟩
  · rw [putAway_holder]; exact hh
  · have hne : j ≠ k := by
      rintro rfl
      rw [putAway_generator, if_pos ho] at hf
      exact hf rfl
    rw [putAway_session, if_neg hne]; exact hj

theorem BoundOk.beginClosing {s : State} (hs : BoundOk s) (k : SessionId) (cause : CloseCause) :
    BoundOk (s.beginClosing k cause) := by
  unfold State.beginClosing
  split
  · exact (hs.putAway k cause).of_changes (stopBodies_changes _ _)
  · exact hs

theorem BoundOk.enterClosing {s : State} (hs : BoundOk s) (k : SessionId) (cause : CloseCause) :
    BoundOk (s.enterClosing k cause) := by
  unfold State.enterClosing
  split
  · exact (hs.beginClosing k cause).checkClosing k
  · exact hs

end Sys2Proof.Machine
end

