-- ==== Sys2Proof/Laws/Runs.lean ====
section
/-! SUPPORT. What the steps of a run do: one lemma an operation, in the words of Sys2Proof/Safety.lean (`MovesTo`, `RunEnds`,
`BodyGoesOn`, `BodyIsLeft`, `UnwindGoesOn`), the notices each makes, and that what the arbiters begin keeps each of them. -/

namespace Sys2Proof.Machine

set_option Elab.async false

/-! ## The entry of a slot -/

theorem find?_insertEntry {e : Entry} {es : List Entry} (hn : ∀ f ∈ es, f.handle ≠ e.handle) :
    (insertEntry e es).find? (fun f => decide (f.handle = e.handle)) = some e := by
  induction es with
  | nil => simp [insertEntry]
  | cons f es ih =>
    simp only [insertEntry]
    split
    · simp
    · rw [List.find?_cons_of_neg (by simpa using hn f (List.mem_cons_self ..))]
      exact ih fun g hg => hn g (List.mem_cons_of_mem _ hg)

theorem findEntry_some {s : State} {h : Nat} {e : Entry} (he : s.findEntry h = some e) : e ∈ s.timeline ∧ e.handle = h :=
  ⟨List.mem_of_find?_eq_some he, by simpa using List.find?_some he⟩

theorem findEntry_none {s : State} {h : Nat} (he : s.findEntry h = none) : ∀ e ∈ s.timeline, e.handle ≠ h := by
  intro e hm
  have := List.find?_eq_none.mp he e hm
  simpa using this

/-- What re-admission makes of the Timeline, when the entry is there (R65). -/
theorem readmit_some {s : State} {h : Nat} {e : Entry} (he : s.findEntry h = some e) (due : Tick) (kind : EntryKind) :
    s.readmit h due kind = { s with
      admissionCounter := s.nextAdmission,
      timeline := insertEntry { e with due := due, admission := s.nextAdmission, kind := kind }
        (s.timeline.filter fun f => decide (f.handle ≠ h)) } := by
  unfold State.readmit; rw [he]

theorem readmit_none {s : State} {h : Nat} (he : s.findEntry h = none) (due : Tick) (kind : EntryKind) :
    s.readmit h due kind = s := by
  unfold State.readmit; rw [he]

theorem readmit_findEntry {s : State} {h : Nat} {e : Entry} (he : s.findEntry h = some e) (due : Tick) (kind : EntryKind) :
    (s.readmit h due kind).findEntry h =
      some { handle := e.handle, owner := e.owner, due := due, admission := s.nextAdmission, kind := kind } := by
  rw [readmit_some he]
  have hh := (findEntry_some he).2
  subst hh
  exact find?_insertEntry (e := { e with due := due, admission := s.nextAdmission, kind := kind }) fun f hf => by
    simpa using (List.mem_filter.mp hf).2

theorem OthersStay.refl (s : State) (h : Nat) : OthersStay s s h := ⟨fun _ _ => Iff.rfl, rfl⟩

theorem readmit_others (s : State) (h : Nat) (due : Tick) (kind : EntryKind) : OthersStay s (s.readmit h due kind) h := by
  cases he : s.findEntry h with
  | none => rw [readmit_none he]; exact .refl _ _
  | some e =>
    rw [readmit_some he]
    refine ⟨fun f hf => ?_, rfl⟩
    rw [mem_insertEntry]
    have hh := (findEntry_some he).2
    constructor
    · rintro (rfl | hm)
      · exact absurd hh hf
      · exact List.mem_of_mem_filter hm
    · exact fun hm => .inr (List.mem_filter.mpr ⟨hm, by simpa using hf⟩)

theorem removeEntry_findEntry (s : State) (h : Nat) : (s.removeEntry h).findEntry h = none := by
  unfold State.findEntry State.removeEntry
  rw [State.setTimeline_timeline]
  apply List.find?_eq_none.mpr
  intro e he
  simpa using (List.mem_filter.mp he).2

theorem removeEntry_others (s : State) (h : Nat) : OthersStay s (s.removeEntry h) h := by
  refine ⟨fun f hf => ?_, rfl⟩
  unfold State.removeEntry
  rw [State.setTimeline_timeline, List.mem_filter]
  simp [hf]

theorem findEntry_of_changes {s t : State} {parts : List Part} (h : ChangesOnly parts s t) (n : Nat)
    (hp : Part.timeline ∉ parts := by decide) : t.findEntry n = s.findEntry n := by
  have a := h .timeline hp; simp only [Part.same] at a
  unfold State.findEntry; rw [a.1]

theorem nextAdmission_of_changes {s t : State} {parts : List Part} (h : ChangesOnly parts s t)
    (hp : Part.timeline ∉ parts := by decide) (hc : Part.clock ∉ parts := by decide) : t.nextAdmission = s.nextAdmission := by
  have a := h .timeline hp
  have b := h .clock hc
  simp only [Part.same] at a b
  unfold State.nextAdmission; rw [a.2.2, b.2]

/-! ## Moving and ending -/

theorem SlotBecomes.of_changes {s t u : State} {i : SlotId} {r : Slot} {parts : List Part} (h : SlotBecomes s t i r)
    (hc : ChangesOnly parts t u) (hp : Part.slots ∉ parts := by decide) : SlotBecomes s u i r :=
  ⟨by rw [hc.slot i hp]; exact h.1, fun j hj => by rw [hc.slot j hp]; exact h.2 j hj⟩

theorem OthersStay.of_changes {s t u : State} {n : Nat} {parts : List Part} (h : OthersStay s t n)
    (hc : ChangesOnly parts t u) (hp : Part.timeline ∉ parts := by decide) : OthersStay s u n := by
  have a := hc .timeline hp; simp only [Part.same] at a
  exact ⟨fun f hf => by rw [a.1]; exact h.1 f hf, a.2.1.trans h.2⟩

theorem State.MovesTo.of_changes {s t u : State} {i : SlotId} {r : Slot} {due : Tick} {kind : EntryKind} {parts : List Part}
    (h : s.MovesTo t i r due kind) (hc : ChangesOnly parts t u) (hp : Part.slots ∉ parts := by decide)
    (hq : Part.timeline ∉ parts := by decide) : s.MovesTo u i r due kind :=
  ⟨h.1.of_changes hc hp, h.2.1.of_changes hc hq, fun e he => by
    rw [findEntry_of_changes hc _ hq]
    exact ⟨(h.2.2 e he).1, ((hc .timeline hq).2.2).trans (h.2.2 e he).2⟩⟩

theorem State.RunEnds.of_changes {s t u : State} {i : SlotId} {r : Slot} {parts : List Part} (h : s.RunEnds t i r)
    (hc : ChangesOnly parts t u) (hp : Part.slots ∉ parts := by decide) (hq : Part.timeline ∉ parts := by decide) :
    s.RunEnds u i r :=
  ⟨h.1.of_changes hc hp, h.2.1.of_changes hc hq, by rw [findEntry_of_changes hc _ hq]; exact h.2.2.1,
    ((hc .timeline hq).2.2).trans h.2.2.2⟩

/-- `s` and `u` agree on what a run reads, but for slot `i`, which is `r` in `u`. -/
structure SameRun (s u : State) (i : SlotId) (r : Slot) : Prop where
  slot : u.slots[i] = r
  slots : ∀ j : SlotId, j ≠ i → u.slots[j] = s.slots[j]
  timeline : u.timeline = s.timeline
  handles : u.handleCounter = s.handleCounter
  admission : u.admissionCounter = s.admissionCounter
  next : u.nextAdmission = s.nextAdmission
  tick : u.tick = s.tick

theorem SameRun.refl (s : State) (i : SlotId) : SameRun s s i s.slots[i] :=
  ⟨rfl, fun _ _ => rfl, rfl, rfl, rfl, rfl, rfl⟩

theorem SameRun.modSlot {s u : State} {i : SlotId} {r : Slot} (h : SameRun s u i r) (f : Slot → Slot) :
    SameRun s (u.modSlot i f) i (f r) :=
  ⟨by rw [State.modSlot_get_same, h.slot], fun j hj => by rw [State.modSlot_get_ne _ _ hj, h.slots j hj], h.timeline,
    h.handles, h.admission, h.next, by rw [State.modSlot_tick, h.tick]⟩

/-- A change elsewhere. -/
theorem SameRun.of_changes {s u v : State} {i : SlotId} {r : Slot} {parts : List Part} (h : SameRun s u i r)
    (hc : ChangesOnly parts u v) (h1 : Part.slots ∉ parts := by decide) (h2 : Part.timeline ∉ parts := by decide)
    (h4 : Part.clock ∉ parts := by decide) : SameRun s v i r := by
  have a := hc .timeline h2
  simp only [Part.same] at a
  exact ⟨by rw [hc.slot i h1, h.slot], fun j hj => by rw [hc.slot j h1, h.slots j hj], a.1.trans h.timeline,
    a.2.1.trans h.handles, a.2.2.trans h.admission, (nextAdmission_of_changes hc h2 h4).trans h.next, (hc.tick h4).trans h.tick⟩

theorem SameRun.findEntry {s u : State} {i : SlotId} {r : Slot} (h : SameRun s u i r) (n : Nat) :
    u.findEntry n = s.findEntry n := by
  unfold State.findEntry; rw [h.timeline]

theorem SameRun.others {s u v : State} {i : SlotId} {r : Slot} (h : SameRun s u i r) {n : Nat} (ho : OthersStay u v n) :
    OthersStay s v n :=
  ⟨fun f hf => by rw [ho.1 f hf, h.timeline], ho.2.trans h.handles⟩

theorem moveEntry_moves {s u : State} {i : SlotId} {r : Slot} (h : SameRun s u i r)
    (hh : r.handle = s.slots[i].handle) (state : SeqState)
    (list : StepList) (n : Nat) (due : Tick) (kind : EntryKind) :
    s.MovesTo (u.moveEntry i state list n due kind) i { r with state := state, cursor := some (list, n) } due kind := by
  have c := modSlot_changes (u.readmit u.slots[i].handle due kind) i fun r =>
    { r with state := state, cursor := some (list, n) }
  refine ⟨⟨?_, fun j hj => ?_⟩, ?_, fun e he => ?_⟩
  · unfold State.moveEntry
    rw [State.modSlot_get_same, (readmit_changes _ _ _ _).slot i, h.slot]
  · unfold State.moveEntry
    rw [State.modSlot_get_ne _ _ hj, (readmit_changes _ _ _ _).slot j, h.slots j hj]
  · have o := h.others (readmit_others u u.slots[i].handle due kind)
    rw [h.slot, hh] at o
    unfold State.moveEntry
    rw [h.slot, hh] at c ⊢
    exact o.of_changes c
  · unfold State.moveEntry
    rw [h.slot, hh] at c ⊢
    have e' : u.findEntry s.slots[i].handle = some e := by rw [h.findEntry]; exact he
    rw [findEntry_of_changes c, readmit_findEntry e', h.next, State.modSlot_admissionCounter, readmit_some e']
    exact ⟨rfl, h.next⟩

theorem endRun_ends {s u : State} {i : SlotId} {r : Slot} (h : SameRun s u i r)
    (hh : r.handle = s.slots[i].handle) (state : SeqState) (outcome : SeqOutcome) :
    s.RunEnds (u.endRun i state outcome) i { r with state := state, outcome := outcome, cursor := none, handle := 0 } := by
  have hn := notifyOwner_changes ((u.removeEntry u.slots[i].handle).modSlot i fun r =>
      { r with state := state, outcome := outcome, cursor := none, handle := 0 }) u.slots[i].owner
    (.seqEnd i outcome u.slots[i].reason u.slots[i].failed u.slots[i].skipped u.tick)
  have hm := modSlot_changes (u.removeEntry u.slots[i].handle) i fun r =>
      { r with state := state, outcome := outcome, cursor := none, handle := 0 }
  refine State.RunEnds.of_changes ⟨⟨?_, fun j hj => ?_⟩, ?_, ?_, ?_⟩ hn
  · rw [State.modSlot_get_same, (removeEntry_changes _ _).slot i, h.slot]
  · rw [State.modSlot_get_ne _ _ hj, (removeEntry_changes _ _).slot j, h.slots j hj]
  · have o := h.others (removeEntry_others u u.slots[i].handle)
    rw [h.slot, hh] at o hm ⊢
    exact o.of_changes hm
  · rw [findEntry_of_changes hm, h.slot, hh]
    exact removeEntry_findEntry _ _
  · exact h.admission

/-! ## The steps of a run -/

/-- A slot that differs from this one in its state at most. -/
def Slot.SameBut (r x : Slot) : Prop :=
  r = { x with state := r.state }

theorem leaveBody_leaves {s u : State} {i : SlotId} {r : Slot} (h : SameRun s u i r) (hr : r.SameBut s.slots[i])
    (reason : SeqReason) (n : Nat) : s.BodyIsLeft (u.leaveBody i reason n) i reason n := by
  have hm := h.modSlot fun r => { r with reason := reason, failed := some n }
  have hu : r.unwind = s.slots[i].unwind := by rw [hr]
  have hh : r.handle = s.slots[i].handle := by rw [hr]
  refine ⟨fun x rest hx => ?_, fun hx => ?_⟩
  · have e : u.leaveBody i reason n = (u.modSlot i fun r => { r with reason := reason, failed := some n }).moveEntry i
        .unwinding .unwind 0 (s.tick + x.offset) (.step i .unwind 0) := by
      unfold State.leaveBody
      simp only [hm.slot, hu, hx, hm.tick]
    rw [e]
    have := moveEntry_moves hm hh .unwinding .unwind 0 (s.tick + x.offset) (.step i .unwind 0)
    rw [hr] at this; exact this
  · have e : u.leaveBody i reason n = (u.modSlot i fun r => { r with reason := reason, failed := some n }).endRun i
        reason.endState reason.endOutcome := by
      unfold State.leaveBody
      simp only [hm.slot, hu, hx, State.finishUnwind]
    rw [e]
    have := endRun_ends hm hh reason.endState reason.endOutcome
    rw [hr] at this; exact this

theorem completeStep_body {s u : State} {i : SlotId} {r : Slot} (h : SameRun s u i r) (hr : r.SameBut s.slots[i]) (n : Nat) :
    s.BodyGoesOn (u.completeStep i .body n) i n := by
  have hb : r.body = s.slots[i].body := by rw [hr]
  have hh : r.handle = s.slots[i].handle := by rw [hr]
  refine ⟨fun x hx => ?_, fun hx => ?_⟩
  · have e : u.completeStep i .body n = u.moveEntry i .running .body (n + 1) (s.tick + x.offset)
        (.step i .body (n + 1)) := by
      unfold State.completeStep
      simp only [h.slot, Slot.list, hb, hx, h.tick, if_true]
    rw [e]
    have := moveEntry_moves h hh .running .body (n + 1) (s.tick + x.offset) (.step i .body (n + 1))
    rw [hr] at this; exact this
  · have e : u.completeStep i .body n =
        (u.modSlot i fun r => { r with reason := .none, failed := none, skipped := 0 }).endRun i .done .done := by
      unfold State.completeStep
      simp only [h.slot, Slot.list, hb, hx, State.finishBody]
    rw [e]
    have := endRun_ends (h.modSlot fun r => { r with reason := .none, failed := none, skipped := 0 }) hh .done .done
    rw [hr] at this; exact this

theorem completeStep_unwind {s u : State} {i : SlotId} {r : Slot} (h : SameRun s u i r) (k : Nat)
    (hr : r = { s.slots[i] with skipped := k }) (n : Nat) : s.UnwindGoesOn (u.completeStep i .unwind n) i n k := by
  have hb : r.unwind = s.slots[i].unwind := by rw [hr]
  have hh : r.handle = s.slots[i].handle := by rw [hr]
  refine ⟨fun x hx => ?_, fun hx => ?_⟩
  · have e : u.completeStep i .unwind n = u.moveEntry i .unwinding .unwind (n + 1) (s.tick + x.offset)
        (.step i .unwind (n + 1)) := by
      unfold State.completeStep
      simp only [h.slot, Slot.list, hb, hx, h.tick, reduceCtorEq, if_false]
    rw [e]
    have := moveEntry_moves h hh .unwinding .unwind (n + 1) (s.tick + x.offset) (.step i .unwind (n + 1))
    rw [hr] at this; exact this
  · have e : u.completeStep i .unwind n = u.endRun i s.slots[i].reason.endState s.slots[i].reason.endOutcome := by
      unfold State.completeStep
      simp only [h.slot, Slot.list, hb, hx, State.finishUnwind]
      rw [hr]
    rw [e]
    have := endRun_ends h hh s.slots[i].reason.endState s.slots[i].reason.endOutcome
    rw [hr] at this; exact this

/-! ## The notices of a step -/

theorem made_endRun (s : State) (i : SlotId) (state : SeqState) (outcome : SeqOutcome) : Made s (s.endRun i state outcome)
    (s.toOwner i (.seqEnd i outcome s.slots[i].reason s.slots[i].failed s.slots[i].skipped s.tick)) := by
  unfold State.endRun State.toOwner
  have c := (removeEntry_changes s s.slots[i].handle).andThen (modSlot_changes (s.removeEntry s.slots[i].handle) i fun r =>
      { r with state := state, outcome := outcome, cursor := none, handle := 0 }) (parts := [.timeline, .slots])
  exact Made.after c (made_notifyOwner _ _ _)

theorem made_moveEntry (s : State) (i : SlotId) (state : SeqState) (list : StepList) (n : Nat) (due : Tick)
    (kind : EntryKind) : Made s (s.moveEntry i state list n due kind) [] :=
  .of_changes ((readmit_changes _ _ _ _).andThen (modSlot_changes _ _ _) (parts := [.timeline, .slots]))

/-- The notice to the owner of a slot whose owner is as it was. -/
theorem toOwner_congr {s u : State} {i : SlotId} (h : u.slots[i].owner = s.slots[i].owner) (b : NoticeBody) :
    u.toOwner i b = s.toOwner i b := by
  unfold State.toOwner; rw [h]

theorem made_leaveBody (s : State) (i : SlotId) (reason : SeqReason) (n : Nat) :
    Made s (s.leaveBody i reason n) (s.leavingEnds i reason n) := by
  have c := modSlot_changes s i fun r => { r with reason := reason, failed := some n }
  have e : (s.modSlot i fun r => { r with reason := reason, failed := some n }).slots[i] =
    { s.slots[i] with reason := reason, failed := some n } := State.modSlot_get_same _ _ _
  unfold State.leaveBody State.leavingEnds
  simp only [e]
  cases hu : s.slots[i].unwind with
  | cons x xs => exact Made.after c (made_moveEntry _ _ _ _ _ _ _)
  | nil =>
    refine Made.after c ?_
    have := made_endRun (s.modSlot i fun r => { r with reason := reason, failed := some n }) i reason.endState reason.endOutcome
    simp only [State.finishUnwind, e]
    rw [e, c.tick] at this
    rw [toOwner_congr (s := s) (by rw [e])] at this
    exact this

/-- The notices of a body step that completes, in a state whose slot differs from `s` in its state at most. -/
theorem made_completeBody {s u : State} {i : SlotId} {r : Slot} (h : SameRun s u i r) (hr : r.SameBut s.slots[i]) (n : Nat) :
    Made u (u.completeStep i .body n) (s.bodyEnds i n) := by
  have hb : r.body = s.slots[i].body := by rw [hr]
  have ho : r.owner = s.slots[i].owner := by rw [hr]
  unfold State.completeStep State.bodyEnds
  simp only [h.slot, Slot.list, hb]
  cases hx : s.slots[i].body[n + 1]? with
  | some x => exact made_moveEntry _ _ _ _ _ _ _
  | none =>
    have c := modSlot_changes u i fun r => { r with reason := .none, failed := none, skipped := 0 }
    have e : (u.modSlot i fun r => { r with reason := .none, failed := none, skipped := 0 }).slots[i] =
      { r with reason := .none, failed := none, skipped := 0 } := by rw [State.modSlot_get_same, h.slot]
    refine Made.after c ?_
    have := made_endRun (u.modSlot i fun r => { r with reason := .none, failed := none, skipped := 0 }) i .done .done
    rw [e, c.tick, h.tick] at this
    rw [toOwner_congr (s := s) (by rw [e]; exact ho)] at this
    exact this

/-- The notices of an unwind step that completes, in a state whose slot differs from `s` in its skipped count at most. -/
theorem made_completeUnwind {s u : State} {i : SlotId} {r : Slot} (h : SameRun s u i r) (k : Nat)
    (hr : r = { s.slots[i] with skipped := k }) (n : Nat) : Made u (u.completeStep i .unwind n) (s.unwindEnds i n k) := by
  unfold State.completeStep State.unwindEnds
  have hb : r.unwind = s.slots[i].unwind := by rw [hr]
  simp only [h.slot, Slot.list, hb]
  cases hx : s.slots[i].unwind[n + 1]? with
  | some x => exact made_moveEntry _ _ _ _ _ _ _
  | none =>
    have := made_endRun u i u.slots[i].reason.endState u.slots[i].reason.endOutcome
    simp only [State.finishUnwind]
    rw [h.slot, h.tick] at this
    rw [toOwner_congr (s := s) (by rw [h.slot, hr]), hr] at this
    rw [h.slot, hr]
    exact this

/-! ## What the arbiters begin -/

theorem State.BodyGoesOn.settled {s t u : State} {i : SlotId} {n : Nat} (h : s.BodyGoesOn t i n) (hs : Settled t u) :
    s.BodyGoesOn u i n :=
  ⟨fun x hx => (h.1 x hx).of_changes hs.changes, fun hx => (h.2 hx).of_changes hs.changes⟩

theorem State.BodyIsLeft.settled {s t u : State} {i : SlotId} {reason : SeqReason} {n : Nat} (h : s.BodyIsLeft t i reason n)
    (hs : Settled t u) : s.BodyIsLeft u i reason n :=
  ⟨fun x rest hx => (h.1 x rest hx).of_changes hs.changes, fun hx => (h.2 hx).of_changes hs.changes⟩

theorem State.UnwindGoesOn.settled {s t u : State} {i : SlotId} {n k : Nat} (h : s.UnwindGoesOn t i n k)
    (hs : Settled t u) : s.UnwindGoesOn u i n k :=
  ⟨fun x hx => (h.1 x hx).of_changes hs.changes, fun hx => (h.2 hx).of_changes hs.changes⟩

end Sys2Proof.Machine
end

