-- ==== Sys2Proof/Laws/Closing.lean ====
section
/-! SUPPORT. What the end of leases (R33 to R36, R40) and the completion of closing (R151) do, in the words of
Sys2Proof/Safety.lean (`parted`, `passedOn`, `grants`, `LeaseEnded`, `Completes`). -/

namespace Sys2Proof.Machine

set_option Elab.async false

/-! ## Whole records -/

theorem ChangesOnly.port {parts : List Part} {s t : State} (h : ChangesOnly parts s t) (p : Port)
    (hr : Part.reception ∉ parts := by decide) (hf : Part.frames ∉ parts := by decide)
    (hs : Part.sending ∉ parts := by decide) : t.port p = s.port p := by
  obtain ⟨a1, a2, a3, a4, a5, a6, a7, a8⟩ := h .reception hr p
  obtain ⟨c1, c2, c3⟩ := h .sending hs p
  have b := h .frames hf p
  cases ht : t.port p; cases hs' : s.port p
  simp_all

theorem ChangesOnly.session {parts : List Part} {s t : State} (h : ChangesOnly parts s t) (k : SessionId)
    (hs : Part.sessions ∉ parts := by decide) (hn : Part.numbers ∉ parts := by decide)
    (hq : Part.queues ∉ parts := by decide) : t.sessions[k] = s.sessions[k] := by
  obtain ⟨a1, a2, a3, a4, a5⟩ := h .sessions hs k
  obtain ⟨b1, b2, b3⟩ := h .numbers hn k
  have c := h .queues hq k
  cases ht : t.sessions[k]; cases hs' : s.sessions[k]
  simp_all

theorem notify_received (s : State) (k j : SessionId) (b : NoticeBody) :
    (s.notify k b).sessions[j] = received j [(k, b)] s.sessions[j] := by
  rw [notify_get, received_singleton]
  by_cases e : j = k
  · subst e; simp
  · rw [if_neg e, if_neg fun c => e c.symm]

/-! ## The end of leases -/

theorem boundGenerator_of_unbound {s : State} {l : LineId} (h : Unbound s l) : s.boundGenerator l = none :=
  List.find?_eq_none.mpr fun g _ => by
    have := h g
    simp [-Fin.getElem_fin]
    exact this

theorem applyParting_faulted {c : LineCell} (now : Tick) (p : Parting) (h : (c.faulted || decide (p = .keep)) = true) :
    c.applyParting now p = c := by
  unfold LineCell.applyParting
  cases p <;> simp_all

theorem modLine_id (s : State) (l : LineId) (f : LineCell → LineCell) (h : f s.lines[l] = s.lines[l]) : s.modLine l f = s := by
  unfold State.modLine
  rw [h]
  simp

/-- The parting state on a line that no generator is bound to (R34, R35). -/
theorem partLine_unbound {s : State} {l : LineId} (h : Unbound s l) (p : Parting) :
    s.partLine l p = s.modLine l (LineCell.applyParting s.tick p) := by
  unfold State.partLine
  split
  · rename_i c
    exact (modLine_id _ _ _ (applyParting_faulted _ _ c)).symm
  · unfold State.stopBound
    rw [boundGenerator_of_unbound (s := s.modLine l (LineCell.applyParting s.tick p)) h]

theorem setLease_id (s : State) (l : LineId) : s.setLease l s.leases[l] = s := by
  unfold State.setLease; simp

/-- The lease record of a line is removed and its parting state applied, where no generator is bound to the line. -/
theorem dropLease_unbound_eq {s : State} {l : LineId} (h : Unbound s l) :
    s.dropLease l = (s.setLease l { s.leases[l] with lease := none }).modLine l fun _ => s.parted l := by
  unfold State.dropLease State.parted
  cases hl : s.leases[l].lease with
  | none =>
    have e : ({ s.leases[l] with lease := none } : LeaseCell) = s.leases[l] := by
      cases hc : s.leases[l]; simp_all
    rw [e, setLease_id, modLine_id _ _ _ rfl]
  | some x =>
    dsimp only
    rw [partLine_unbound (s := s.setLease l { s.leases[l] with lease := none }) h]
    rfl

/-- These lines lose their leases, and their parting states are applied (R40). -/
theorem dropLeases_eq (ms : List LineId) (hn : ms.Nodup) {s : State} (h : ∀ l ∈ ms, Unbound s l) :
    let t := ms.foldl State.dropLease s
    ChangesOnly [.lines, .leases] s t ∧ (∀ l : LineId, t.lines[l] = if l ∈ ms then s.parted l else s.lines[l]) ∧
      ∀ l : LineId, t.leases[l] = if l ∈ ms then { s.leases[l] with lease := none } else s.leases[l] := by
  induction ms generalizing s with
  | nil => exact ⟨.refl _ _, fun l => by simp, fun l => by simp⟩
  | cons m ms ih =>
    obtain ⟨hm, hn⟩ := List.nodup_cons.mp hn
    have e := dropLease_unbound_eq (h m List.mem_cons_self)
    have c : ChangesOnly [.lines, .leases] s (s.dropLease m) := by
      rw [e]; exact (setLease_changes _ _ _).andThen (modLine_changes _ _ _)
    obtain ⟨i1, i2, i3⟩ := ih hn fun l hl => dropLease_unbound (l := m) (h l (List.mem_cons_of_mem _ hl))
    have line : ∀ l : LineId, (s.dropLease m).lines[l] = if l = m then s.parted m else s.lines[l] := by
      intro l; rw [e, State.modLine_get, State.setLease_lines]
    have lease : ∀ l : LineId, (s.dropLease m).leases[l] =
        if l = m then { s.leases[m] with lease := none } else s.leases[l] := by
      intro l; rw [e, State.modLine_leases, State.setLease_get]
    refine ⟨c.trans i1, fun l => ?_, fun l => ?_⟩
    · rw [List.foldl_cons, i2]
      by_cases em : l = m
      · subst em
        rw [if_neg hm, line, if_pos rfl, if_pos List.mem_cons_self]
      · have p : (s.dropLease m).parted l = s.parted l := by
          unfold State.parted
          rw [lease, if_neg em, line, if_neg em, c.tick]
        simp only [List.mem_cons, em, false_or, p, line, if_false]
    · rw [List.foldl_cons, i3]
      by_cases em : l = m
      · subst em
        rw [if_neg hm, lease, if_pos rfl, if_pos List.mem_cons_self]
      · simp only [List.mem_cons, em, false_or, lease, if_false]

/-- What the grant to the head of a line's queue makes of its lease record. -/
def State.granted (s : State) (l : LineId) : LeaseCell :=
  match s.leases[l].queue with
  | q :: rest => { lease := some { holder := q.session, parting := q.parting, granted := s.tick }, queue := rest }
  | [] => s.leases[l]

/-- The GRANT notice of a line, with the line as it is. -/
def State.grantNotes (s : State) (l : LineId) : List (SessionId × NoticeBody) :=
  match s.leases[l].queue with
  | q :: _ => [(q.session, .grant l s.tick s.lines[l].faulted s.lines[l].mode s.lines[l].commanded)]
  | [] => []

theorem grantHead_eq (s : State) (l : LineId) :
    (∀ m : LineId, (s.grantHead l).leases[m] = if m = l then s.granted l else s.leases[m]) ∧
      ∀ j : SessionId, (s.grantHead l).sessions[j] = received j (s.grantNotes l) s.sessions[j] := by
  unfold State.grantHead State.granted State.grantNotes
  cases hq : s.leases[l].queue with
  | nil =>
    refine ⟨fun m => ?_, fun j => rfl⟩
    dsimp only
    split
    · rename_i e; rw [e]
    · rfl
  | cons q rest =>
    refine ⟨fun m => ?_, fun j => ?_⟩
    · dsimp only
      rw [(notify_changes _ _ _).lease m, State.setLease_get]
    · dsimp only
      rw [notify_received, State.setLease_sessions]

/-- The heads of the queues of these lines are granted them (R36, R40). -/
theorem grantHeads_eq (ms : List LineId) (hn : ms.Nodup) (s : State) :
    let t := ms.foldl State.grantHead s
    (∀ l : LineId, t.leases[l] = if l ∈ ms then s.granted l else s.leases[l]) ∧
      ∀ j : SessionId, t.sessions[j] = received j (ms.flatMap s.grantNotes) s.sessions[j] := by
  induction ms generalizing s with
  | nil => exact ⟨fun l => by simp, fun j => rfl⟩
  | cons m ms ih =>
    obtain ⟨hm, hn⟩ := List.nodup_cons.mp hn
    obtain ⟨e1, e2⟩ := grantHead_eq s m
    obtain ⟨i1, i2⟩ := ih hn (s.grantHead m)
    have c := grantHead_changes s m
    have same : ∀ l : LineId, l ≠ m → (s.grantHead m).granted l = s.granted l ∧ (s.grantHead m).grantNotes l = s.grantNotes l := by
      intro l hl
      unfold State.granted State.grantNotes
      rw [e1 l, if_neg hl, c.tick, c.line l]
      exact ⟨rfl, rfl⟩
    refine ⟨fun l => ?_, fun j => ?_⟩
    · rw [List.foldl_cons, i1]
      by_cases em : l = m
      · subst em
        rw [if_neg hm, e1, if_pos rfl, if_pos List.mem_cons_self]
      · simp only [List.mem_cons, em, false_or, e1, if_false, (same l em).1]
    · rw [List.foldl_cons, i2, e2, List.flatMap_cons, received_append]
      congr 1
      rw [List.flatMap_congr]
      exact fun l hl => (same l fun e => hm (e ▸ hl)).2

/-- The end of these leases at one tick: every parting state, then every grant (R33, R40). -/
theorem endLeases_eq (ms : List LineId) (hn : ms.Nodup) {s : State} (h : ∀ l ∈ ms, Unbound s l) :
    let t := ms.foldl State.grantHead (ms.foldl State.dropLease s)
    (∀ l : LineId, t.lines[l] = if l ∈ ms then s.parted l else s.lines[l]) ∧
      (∀ l : LineId, t.leases[l] = if l ∈ ms then s.passedOn l else s.leases[l]) ∧
      (∀ j : SessionId, t.sessions[j] = received j (ms.flatMap s.grants) s.sessions[j]) ∧
      ChangesOnly [.lines, .leases, .numbers, .queues] s t := by
  obtain ⟨d1, d2, d3⟩ := dropLeases_eq ms hn h
  obtain ⟨g1, g2⟩ := grantHeads_eq ms hn (ms.foldl State.dropLease s)
  have gc := ChangesOnly.foldl grantHead_changes ms (ms.foldl State.dropLease s)
  have tick := d1.tick
  refine ⟨fun l => ?_, fun l => ?_, fun j => ?_, d1.andThen gc⟩
  · rw [gc.line l, d2]
  · rw [g1, d3]
    by_cases e : l ∈ ms
    · rw [if_pos e, if_pos e]
      unfold State.granted State.passedOn
      rw [d3, if_pos e, tick]
      dsimp only
      cases hq : s.leases[l].queue with
      | nil => simp [-Fin.getElem_fin]
      | cons q rest => rfl
    · simp only [e, if_false]
  · rw [g2, d1.session j]
    congr 1
    rw [List.flatMap_congr]
    intro l hl
    unfold State.grantNotes State.grants
    rw [d3, if_pos hl, tick, d2, if_pos hl]
    all_goals rfl

/-- The end of one lease (R33). -/
theorem endLease_eq {s : State} {l : LineId} (h : Unbound s l) :
    s.LeaseEnded (s.endLease l) l ∧ Made s (s.endLease l) (s.grants l) := by
  obtain ⟨h1, h2, h3, -⟩ := endLeases_eq [l] (List.nodup_singleton l) (s := s) (by simpa using h)
  refine ⟨⟨⟨?_, fun m hm => ?_⟩, ?_, fun m hm => ?_⟩, fun j => ?_⟩
  · exact (h1 l).trans (if_pos (List.mem_singleton.mpr rfl))
  · exact (h1 m).trans (if_neg fun c => hm (List.mem_singleton.mp c))
  · exact (h2 l).trans (if_pos (List.mem_singleton.mpr rfl))
  · exact (h2 m).trans (if_neg fun c => hm (List.mem_singleton.mp c))
  · have := h3 j
    simp only [List.foldl_cons, List.foldl_nil, List.flatMap_cons, List.flatMap_nil, List.append_nil] at this
    unfold State.endLease
    rw [this]
    exact ⟨rfl, rfl, rfl, rfl⟩

/-! ## The completion of closing -/

theorem freeSlots_eq (is : List SlotId) (hn : is.Nodup) (s : State) :
    let t := is.foldl State.freeSlot s
    (∀ i : SlotId, t.slots[i] = if i ∈ is then Slot.free else s.slots[i]) ∧
      t.poolFree = s.poolFree + (is.map fun i => s.slots[i].body.length + s.slots[i].unwind.length).sum := by
  induction is generalizing s with
  | nil => exact ⟨fun i => by simp, by simp⟩
  | cons m is ih =>
    obtain ⟨hm, hn⟩ := List.nodup_cons.mp hn
    obtain ⟨i1, i2⟩ := ih hn (s.freeSlot m)
    have slot : ∀ i : SlotId, (s.freeSlot m).slots[i] = if i = m then Slot.free else s.slots[i] := by
      intro i; unfold State.freeSlot; rw [State.modSlot_get, State.setPoolFree_slots]
    refine ⟨fun i => ?_, ?_⟩
    · rw [List.foldl_cons, i1, slot]
      by_cases em : i = m
      · subst em; simp
      · simp only [List.mem_cons, em, false_or, if_false]
    · rw [List.foldl_cons, i2, List.map_cons, List.sum_cons]
      have e : is.map (fun i => (s.freeSlot m).slots[i].body.length + (s.freeSlot m).slots[i].unwind.length) =
          is.map fun i => s.slots[i].body.length + s.slots[i].unwind.length := by
        apply List.map_congr_left
        intro i hi
        rw [slot, if_neg fun (c : i = m) => hm (c ▸ hi)]
      rw [e]
      unfold State.freeSlot
      rw [State.modSlot_poolFree, State.setPoolFree_poolFree]
      omega

theorem nodup_lines (q : LineId → Bool) : (allLines.filter q).Nodup := (List.nodup_finRange 24).filter _
theorem nodup_slots (q : SlotId → Bool) : (allSlots.filter q).Nodup := (List.nodup_finRange 16).filter _

theorem mem_linesHeldBy {s : State} {k : SessionId} {l : LineId} : l ∈ s.linesHeldBy k ↔ s.holder l = some k := by
  unfold State.linesHeldBy State.holds
  simp [allLines, List.mem_finRange]

theorem mem_slotsOf {s : State} {k : SessionId} {i : SlotId} : i ∈ s.slotsOf k ↔ s.slots[i].owner = some k := by
  unfold State.slotsOf
  simp [-Fin.getElem_fin, allSlots, List.mem_finRange]

/-- The completion of a session's closing (R151, R152). -/
theorem completeClosing_completes {s : State} (hb : BoundOk s) {k : SessionId} {p : Port} {cause : CloseCause}
    (hk : s.sessions[k].state ≠ .opened) (hp : s.sessions[k].port = some p) (hc : s.sessions[k].cause = some cause) :
    s.Completes (s.completeClosing k) p k cause := by
  obtain ⟨f1, f2⟩ := freeSlots_eq (s.slotsOf k) (nodup_slots _) s
  have fc := ChangesOnly.foldl freeSlot_changes (s.slotsOf k) s
  have held : ((s.slotsOf k).foldl State.freeSlot s).linesHeldBy k = s.linesHeldBy k := by
    unfold State.linesHeldBy State.holds State.holder
    congr 1
    funext l
    rw [fc.lease l]
  have unbound : ∀ l ∈ s.linesHeldBy k, Unbound ((s.slotsOf k).foldl State.freeSlot s) l := fun l hl =>
    Unbound.of_generator (unbound_of_not_opened hb hk (mem_linesHeldBy.mp hl)) fun g => by
      rw [fc.generator g]; exact fun a => ⟨a, rfl⟩
  obtain ⟨e1, e2, e3, e4⟩ := endLeases_eq (s.linesHeldBy k) (nodup_lines _) unbound
  have part : ∀ l, ((s.slotsOf k).foldl State.freeSlot s).parted l = s.parted l := fun l => by
    unfold State.parted; rw [fc.lease l, fc.line l, fc.tick]
  have pass : ∀ l, ((s.slotsOf k).foldl State.freeSlot s).passedOn l = s.passedOn l := fun l => by
    unfold State.passedOn; rw [fc.lease l, fc.tick]
  have notes : ∀ l, ((s.slotsOf k).foldl State.freeSlot s).grants l = s.grants l := fun l => by
    unfold State.grants; rw [fc.lease l, fc.tick, part]
  have eo : ((s.slotsOf k).foldl State.freeSlot s).endLeasesOf k =
      (s.linesHeldBy k).foldl State.grantHead ((s.linesHeldBy k).foldl State.dropLease
        ((s.slotsOf k).foldl State.freeSlot s)) := by
    unfold State.endLeasesOf; rw [held]
  have sent : ∀ u : State, u.sendEnded k s.sessions[k] = u.addPortFrame p (.ended k cause) := fun u => by
    unfold State.sendEnded; rw [hp, hc]
  have gen : ∀ l : LineId, (l ∈ s.linesHeldBy k) = (s.holder l = some k) := fun l => propext mem_linesHeldBy
  have mc := modSession_changes (((s.slotsOf k).foldl State.freeSlot s).endLeasesOf k) k fun _ => Session.free
  unfold State.completeClosing
  rw [sent]
  have ac := addPortFrame_changes ((((s.slotsOf k).foldl State.freeSlot s).endLeasesOf k).modSession k fun _ => Session.free) p
    (.ended k cause)
  have all : ChangesOnly [.lines, .leases, .slots, .pool, .sessions, .numbers, .queues] s ((((s.slotsOf k).foldl State.freeSlot s).endLeasesOf k).modSession k fun _ =>
      Session.free) := by
    rw [eo]
    rw [eo] at mc
    exact (fc.andThen e4 (parts := [.lines, .leases, .slots, .pool, .sessions, .numbers, .queues])).andThen mc
  refine ⟨fun i => ?_, ?_, fun l => ?_, fun l => ?_, ?_, fun j hj => ?_, ?_, fun q hq => ?_, ?_⟩
  · rw [ac.slot i, mc.slot i, eo, e4.slot i, f1]
    simp only [mem_slotsOf]
  · have a := (ac .pool (by decide)); have b := mc .pool (by decide); have d := e4 .pool (by decide)
    simp only [Part.same] at a b d
    rw [a, b, eo, d, f2]; rfl
  · rw [ac.line l, mc.line l, eo, e1, part, fc.line l]; simp only [gen]
  · rw [ac.lease l, mc.lease l, eo, e2, pass, fc.lease l]; simp only [gen]
  · rw [ac.session k, State.modSession_get_same]
  · rw [ac.session j, State.modSession_get_ne _ _ hj, eo, e3, fc.session j]
    congr 1
    rw [List.flatMap_congr (g := s.grants) fun l _ => notes l]
    rfl
  · unfold State.addPortFrame
    rw [State.modPort_port_same]
    have := all.port p
    rw [this]
  · unfold State.addPortFrame
    rw [State.modPort_port_ne _ _ hq]
    exact all.port q
  · exact all.andThen ac

theorem runsSequence_iff {s : State} {k : SessionId} : s.runsSequence k = true ↔ s.running k := by
  unfold State.runsSequence State.running
  rw [List.any_eq_true]
  simp only [mem_slotsOf]

/-- Step 7 of R148 for a CLOSING session (R158). -/
theorem checkClosing_checks {s : State} (hb : BoundOk s) {k : SessionId} {p : Port} {cause : CloseCause}
    (hk : s.sessions[k].state = .closing) (hp : s.sessions[k].port = some p) (hc : s.sessions[k].cause = some cause) :
    s.Checks (s.checkClosing k) p k cause := by
  unfold State.checkClosing
  refine ⟨fun h => ?_, fun h => ?_⟩
  · rw [if_neg fun c => by rw [runsSequence_iff.mpr h] at c; simp at c]
  · rw [if_pos ⟨hk, by rw [← runsSequence_iff] at h; simpa using h⟩]
    exact completeClosing_completes hb (by rw [hk]; decide) hp hc

/-- A session that is not CLOSING is left as it is. -/
theorem checkClosing_open {s : State} {k : SessionId} (h : s.sessions[k].state ≠ .closing) : s.checkClosing k = s := by
  unfold State.checkClosing; rw [if_neg fun c => h c.1]

end Sys2Proof.Machine
end

