-- ==== Sys2Proof/Laws/Stops.lean ====
section
/-! SUPPORT. What stopping several runs does (R39, R94, R97), and the entry of a session into CLOSING (R148), in the words of
Sys2Proof/Safety.lean (`StopsRuns`, `Enters`). -/

namespace Sys2Proof.Machine

set_option Elab.async false

/-! ## Entries by their handles -/

/-- In a Timeline in order an entry is known by its handle. -/
theorem TimelineOk.same {s : State} (h : TimelineOk s) {e f : Entry} (he : e ∈ s.timeline) (hf : f ∈ s.timeline)
    (hh : e.handle = f.handle) : e = f :=
  List.inj_on_of_nodup_map h.2.2.1 he hf hh

theorem TimelineOk.findEntry {s : State} (h : TimelineOk s) {e : Entry} (he : e ∈ s.timeline) :
    s.findEntry e.handle = some e := by
  cases hf : s.findEntry e.handle with
  | none => exact absurd rfl (findEntry_none hf e he)
  | some f =>
    obtain ⟨hm, hh⟩ := findEntry_some hf
    rw [h.same hm he hh]

/-- What a run of a slot that leaves its body makes of the entries with its handle. -/
theorem State.BodyIsLeft.entries {s t : State} {i : SlotId} {reason : SeqReason} {n : Nat} (h : s.BodyIsLeft t i reason n)
    (hs : TimelineOk s) (ht : TimelineOk t) {e : Entry} (he : e ∈ s.timeline) (hh : e.handle = s.slots[i].handle) :
    (s.slots[i].unwind = [] → ∀ f ∈ t.timeline, f.handle ≠ s.slots[i].handle) ∧
    ∀ (x : Step) (rest : List Step), s.slots[i].unwind = x :: rest → ∃ admission : BitVec 64,
      ∀ f : Entry, f.handle = e.handle → (f ∈ t.timeline ↔ f = { e with
        due := s.tick + x.offset, admission := admission, kind := .step i .unwind 0 }) := by
  refine ⟨fun hu => findEntry_none (h.2 hu).2.2.1, fun x rest hu => ⟨s.nextAdmission, fun f hf => ?_⟩⟩
  have hfind := ((h.1 x rest hu).2.2 e (by rw [← hh]; exact hs.findEntry he)).1
  obtain ⟨hm, -⟩ := findEntry_some hfind
  constructor
  · exact fun hft => ht.same hft hm hf
  · rintro rfl; exact hm

/-! ## Stopping several runs -/

/-- Slots whose runs can be stopped one after the other: each has an entry of its own. -/
def Stoppable (s : State) (is : List SlotId) : Prop :=
  (∀ i ∈ is, ∃ e ∈ s.timeline, e.handle = s.slots[i].handle) ∧
    ∀ i ∈ is, ∀ j ∈ is, s.slots[i].handle = s.slots[j].handle → i = j

/-- What a slot becomes when its run is stopped. -/
def Slot.stopped (r : Slot) (reason : SeqReason) : Slot :=
  if r.unwind = [] then
    { r with state := .cancelled, outcome := .cancelled, reason := reason, failed := some r.at, cursor := none, handle := 0 }
  else { r with state := .unwinding, reason := reason, failed := some r.at, cursor := some (.unwind, 0) }

/-- What stopping the runs of these slots does, one after the other, in the words of `StopsRuns`. -/
structure Stops (s t : State) (is : List SlotId) (reason : SeqReason) : Prop where
  slots : ∀ i : SlotId, t.slots[i] = if i ∈ is then s.slots[i].stopped reason else s.slots[i]
  others : ∀ e : Entry, (∀ i ∈ is, s.slots[i].handle ≠ e.handle) → (e ∈ t.timeline ↔ e ∈ s.timeline)
  ended : ∀ i ∈ is, s.slots[i].unwind = [] → ∀ e ∈ t.timeline, e.handle ≠ s.slots[i].handle
  moved : ∀ i ∈ is, ∀ (x : Step) (rest : List Step), s.slots[i].unwind = x :: rest → ∀ e ∈ s.timeline,
    e.handle = s.slots[i].handle → ∃ admission : BitVec 64, ∀ f : Entry, f.handle = e.handle → (f ∈ t.timeline ↔ f = { e with
      due := s.tick + x.offset, admission := admission, kind := .step i .unwind 0 })
  handles : t.handleCounter = s.handleCounter

theorem stopSequence_left (s : State) (i : SlotId) (reason : SeqReason) :
    s.BodyIsLeft (s.stopSequence i reason) i reason s.slots[i].at :=
  leaveBody_leaves (.refl s i) rfl reason _

theorem stopSequence_slot (s : State) (i j : SlotId) {reason : SeqReason} (hr : reason.isFault = false) :
    (s.stopSequence i reason).slots[j] = if j = i then s.slots[i].stopped reason else s.slots[j] := by
  have h := stopSequence_left s i reason
  by_cases e : j = i
  · subst e
    rw [if_pos rfl]
    unfold Slot.stopped
    cases hu : s.slots[j].unwind with
    | nil =>
      rw [(h.2 hu).1.1, if_pos rfl]
      simp [SeqReason.endState, SeqReason.endOutcome, hr]
      exact hu
    | cons x xs => rw [(h.1 x xs hu).1.1, if_neg (by simp), ← hu]
  · rw [if_neg e]
    cases hu : s.slots[i].unwind with
    | nil => exact (h.2 hu).1.2 j e
    | cons x xs => exact (h.1 x xs hu).1.2 j e

theorem stopSequence_others (s : State) (i : SlotId) (reason : SeqReason) :
    OthersStay s (s.stopSequence i reason) s.slots[i].handle := by
  have h := stopSequence_left s i reason
  cases hu : s.slots[i].unwind with
  | nil => exact (h.2 hu).2.1
  | cons x xs => exact (h.1 x xs hu).2.1

theorem stopAll_stops {reason : SeqReason} (hr : reason.isFault = false) (is : List SlotId) (hn : is.Nodup) {s : State}
    (hs : TimelineOk s) (hi : Stoppable s is) :
    TimelineOk (is.foldl (fun t i => t.stopSequence i reason) s) ∧
      Stops s (is.foldl (fun t i => t.stopSequence i reason) s) is reason := by
  induction is generalizing s with
  | nil => exact ⟨hs, ⟨fun i => by simp, fun _ _ => Iff.rfl, by simp, by simp, rfl⟩⟩
  | cons m is ih =>
    obtain ⟨hm, hn⟩ := List.nodup_cons.mp hn
    rw [List.foldl_cons]
    have hs' : TimelineOk (s.stopSequence m reason) := hs.leaveBody _ _ _
    have left := stopSequence_left s m reason
    have slot := fun j => stopSequence_slot s m j hr
    have others := stopSequence_others s m reason
    have keep : ∀ i ∈ is, (s.stopSequence m reason).slots[i] = s.slots[i] := fun i hi => by
      rw [slot, if_neg fun (e : i = m) => hm (e ▸ hi)]
    have differ : ∀ i ∈ is, s.slots[i].handle ≠ s.slots[m].handle := fun i h e =>
      hm (hi.2 i (List.mem_cons_of_mem _ h) m List.mem_cons_self e ▸ h)
    have hi' : Stoppable (s.stopSequence m reason) is := by
      refine ⟨fun i h => ?_, fun i h j h' e => ?_⟩
      · obtain ⟨e, he, hh⟩ := hi.1 i (List.mem_cons_of_mem _ h)
        refine ⟨e, (others.1 e (by rw [hh]; exact differ i h)).mpr he, by rw [keep i h]; exact hh⟩
      · rw [keep i h, keep j h'] at e
        exact hi.2 i (List.mem_cons_of_mem _ h) j (List.mem_cons_of_mem _ h') e
    obtain ⟨ok, rest⟩ := ih hn hs' hi'
    have tick : (s.stopSequence m reason).tick = s.tick := (stopSequence_changes s m reason).tick
    obtain ⟨em, hem, hhm⟩ := hi.1 m List.mem_cons_self
    have mine := left.entries hs hs' hem hhm
    have stay : ∀ f : Entry, f.handle = s.slots[m].handle →
        (f ∈ (is.foldl (fun t i => t.stopSequence i reason) (s.stopSequence m reason)).timeline ↔
          f ∈ (s.stopSequence m reason).timeline) := fun f hf =>
      rest.others f fun i h => by rw [keep i h, hf]; exact differ i h
    refine ⟨ok, ⟨fun i => ?_, fun e he => ?_, fun i h hu e he => ?_, fun i h x xs hu e he hh => ?_, ?_⟩⟩
    · rw [rest.slots]
      by_cases e : i = m
      · subst e
        rw [if_neg hm, slot, if_pos rfl, if_pos List.mem_cons_self]
      · simp only [List.mem_cons, e, false_or, slot, if_false]
    · rw [rest.others e fun i h => by rw [keep i h]; exact he i (List.mem_cons_of_mem _ h)]
      exact others.1 e fun c => he m List.mem_cons_self c.symm
    · rcases List.mem_cons.mp h with rfl | h
      · intro c
        exact mine.1 hu e ((stay e c).mp he) c
      · rw [← keep i h]
        exact rest.ended i h (by rw [keep i h]; exact hu) e he
    · rcases List.mem_cons.mp h with rfl | h
      · obtain rfl := hs.same he hem (by rw [hh, hhm])
        obtain ⟨a, ha⟩ := mine.2 x xs hu
        exact ⟨a, fun f hf => by rw [stay f (by rw [hf, hh]), ha f hf]⟩
      · have hne : e.handle ≠ s.slots[m].handle := by rw [hh]; exact differ i h
        have := rest.moved i h x xs (by rw [keep i h]; exact hu) e ((others.1 e hne).mpr he) (by rw [keep i h]; exact hh)
        rw [tick] at this
        exact this
    · exact rest.handles.trans others.2

/-- What `Stops` says after entries that belong to no stopped run have been removed. -/
theorem Stops.stopsRuns {s u t : State} {is : List SlotId} {reason : SeqReason} {gone : Entry → Prop} (h : Stops u t is reason)
    (slots : ∀ i : SlotId, u.slots[i] = s.slots[i]) (timeline : ∀ e : Entry, e ∈ u.timeline ↔ e ∈ s.timeline ∧ ¬gone e)
    (tick : u.tick = s.tick) (handles : u.handleCounter = s.handleCounter)
    (own : ∀ i ∈ is, ∃ e ∈ u.timeline, e.handle = s.slots[i].handle) :
    s.StopsRuns t (fun i => i ∈ is) gone reason := by
  refine ⟨fun i hi => ?_, fun i hi => ⟨fun hu => ?_, fun hu => ?_⟩, fun e he => ?_, fun i hi => ⟨fun hu => ?_, fun x rest hu => ?_⟩,
    h.handles.trans handles⟩
  · rw [h.slots, if_neg hi, slots]
  · rw [h.slots, if_pos hi, slots]
    unfold Slot.stopped
    rw [if_neg hu]
  · rw [h.slots, if_pos hi, slots]
    unfold Slot.stopped
    rw [if_pos hu]
  · rw [h.others e fun i hi => by rw [slots]; exact he i hi, timeline]
  · intro e he
    rw [← slots i]
    exact h.ended i hi (by rw [slots]; exact hu) e he
  · obtain ⟨e, he, hh⟩ := own i hi
    obtain ⟨a, ha⟩ := h.moved i hi x rest (by rw [slots]; exact hu) e he (by rw [slots]; exact hh)
    rw [tick] at ha
    exact ⟨e, a, ((timeline e).mp he).1, hh, ha⟩

/-! ## Runs and their entries -/

/-- The entry of a slot in a run. -/
theorem RunsOk.entry {s : State} (h : RunsOk s) {i : SlotId} (hi : s.slots[i].inRun = true) : ∃ e ∈ s.timeline,
    e.handle = s.slots[i].handle ∧ s.slots[i].owner = some e.owner ∧ s.slots[i].RunEntry i e.kind := h.1 i hi

/-- An entry that a run owns is no one-shot, and names the slot alone. -/
theorem Slot.RunEntry.names {i : SlotId} {r : Slot} {kind : EntryKind} (h : r.RunEntry i kind) :
    kind.names i ∧ ∀ j : SlotId, kind.names j → j = i := by
  have step : ∀ (list : StepList) (n : Nat) (j : SlotId), (EntryKind.step i list n).names j → j = i := by
    rintro list n j (⟨_, _, e⟩ | ⟨_, _, e⟩)
    · cases e; rfl
    · cases e
  have deadline : ∀ (list : StepList) (n : Nat) (j : SlotId), (EntryKind.deadline i list n).names j → j = i := by
    rintro list n j (⟨_, _, e⟩ | ⟨_, _, e⟩)
    · cases e
    · cases e; rfl
  rcases h with ⟨-, -, -, rfl⟩ | ⟨n, -, -, ⟨-, rfl⟩ | ⟨-, rfl⟩⟩ | ⟨n, -, -, -, rfl⟩
  · exact ⟨.inl ⟨_, _, rfl⟩, step _ _⟩
  · exact ⟨.inl ⟨_, _, rfl⟩, step _ _⟩
  · exact ⟨.inr ⟨_, _, rfl⟩, deadline _ _⟩
  · exact ⟨.inl ⟨_, _, rfl⟩, step _ _⟩

theorem EntryKind.names_not_oneshot {e : Entry} {i : SlotId} (h : e.kind.names i) : e.isOneshot = false := by
  unfold Entry.isOneshot
  rcases h with ⟨_, _, e⟩ | ⟨_, _, e⟩ <;> rw [e]

theorem Entry.onLine_isOneshot {e : Entry} {l : LineId} (h : e.isOneshot = false) : e.onLine l = false := by
  unfold Entry.isOneshot at h
  unfold Entry.onLine
  split
  · rename_i c; rw [c] at h; cases h
  · rfl
  · rfl

/-- Two slots in a run have different handles. -/
theorem RunsOk.handle_ne {s : State} (h : RunsOk s) (ht : TimelineOk s) {i j : SlotId} (hi : s.slots[i].inRun = true)
    (hj : s.slots[j].inRun = true) (e : s.slots[i].handle = s.slots[j].handle) : i = j := by
  obtain ⟨a, ha, h1, -, k1⟩ := h.entry hi
  obtain ⟨b, hb, h2, -, k2⟩ := h.entry hj
  obtain rfl := ht.same ha hb (by rw [h1, h2, e])
  exact k2.names.2 i k1.names.1

theorem Slot.inRun_of_inBody {r : Slot} (h : r.inBody = true) : r.inRun = true := by
  simp [Slot.inRun, h]

/-- Runs in their body can be stopped, when only one-shots have been removed and the slots are as they were. -/
theorem RunsOk.stoppable {s u : State} (h : RunsOk s) (ht : TimelineOk s) {is : List SlotId}
    (hi : ∀ i ∈ is, s.slots[i].inBody = true) (slots : ∀ i : SlotId, u.slots[i] = s.slots[i])
    (timeline : ∀ e ∈ s.timeline, e.isOneshot = false → e ∈ u.timeline) : Stoppable u is := by
  refine ⟨fun i hm => ?_, fun i hm j hm' e => ?_⟩
  · obtain ⟨e, he, hh, -, hk⟩ := h.entry (Slot.inRun_of_inBody (hi i hm))
    exact ⟨e, timeline e he (EntryKind.names_not_oneshot hk.names.1), by rw [slots]; exact hh⟩
  · rw [slots, slots] at e
    exact h.handle_ne ht (Slot.inRun_of_inBody (hi i hm)) (Slot.inRun_of_inBody (hi j hm')) e

/-! ## Entering CLOSING -/

theorem mem_bodiesOf {s : State} {k : SessionId} {i : SlotId} :
    i ∈ s.bodiesOf k ↔ s.slots[i].owner = some k ∧ s.slots[i].inBody = true := by
  unfold State.bodiesOf
  rw [List.mem_filter, mem_slotsOf]

theorem nodup_bodiesOf (s : State) (k : SessionId) : (s.bodiesOf k).Nodup := (nodup_slots _).filter _

/-- A notice for a session that is not OPEN changes nothing. -/
theorem notify_closed {s : State} {k : SessionId} (b : NoticeBody) (h : s.sessions[k].state ≠ .opened) :
    s.notify k b = s := by
  unfold State.notify State.modSession
  rw [receive_closed b h]
  simp

/-- A step of a run of a session that is not OPEN leaves every session's record. -/
theorem stopSequence_sessions {s : State} {i : SlotId} {k : SessionId} (ho : s.slots[i].owner = some k)
    (h : s.sessions[k].state ≠ .opened) (reason : SeqReason) (j : SessionId) :
    (s.stopSequence i reason).sessions[j] = s.sessions[j] := by
  have c := stopSequence_changes s i reason
  obtain ⟨m1, m2, m3, m4⟩ := made_leaveBody s i reason s.slots[i].at j
  have e : received j (s.leavingEnds i reason s.slots[i].at) s.sessions[j] = s.sessions[j] := by
    unfold State.leavingEnds
    split
    · rfl
    · unfold State.toOwner
      rw [ho, received_singleton]
      split
      · rename_i e; subst e; exact receive_closed _ h
      · rfl
  rw [e] at m1 m2 m3 m4
  obtain ⟨a1, a2, a3, a4, a5⟩ := c .sessions (by decide) j
  cases ht : (s.stopSequence i reason).sessions[j]
  cases hs : s.sessions[j]
  have m1' : (s.stopSequence i reason).sessions[j].queue = s.sessions[j].queue := m1
  have m2' : (s.stopSequence i reason).sessions[j].nextNumber = s.sessions[j].nextNumber := m2
  have m3' : (s.stopSequence i reason).sessions[j].lost = s.sessions[j].lost := m3
  have m4' : (s.stopSequence i reason).sessions[j].joinedNow = s.sessions[j].joinedNow := m4
  simp_all

theorem stopAll_sessions {k : SessionId} {reason : SeqReason} (hr : reason.isFault = false) (is : List SlotId) {s : State}
    (ho : ∀ i ∈ is, s.slots[i].owner = some k) (h : s.sessions[k].state ≠ .opened) (j : SessionId) :
    (is.foldl (fun t i => t.stopSequence i reason) s).sessions[j] = s.sessions[j] := by
  induction is generalizing s with
  | nil => rfl
  | cons m is ih =>
    have e := stopSequence_sessions (ho m List.mem_cons_self) h reason
    rw [List.foldl_cons, ih, e]
    · intro i hi
      have owner : (s.slots[m].stopped reason).owner = s.slots[m].owner := by unfold Slot.stopped; split <;> rfl
      rw [stopSequence_slot s m i hr]
      split
      · rw [owner]; exact ho m List.mem_cons_self
      · exact ho i (List.mem_cons_of_mem _ hi)
    · rw [e]; exact h

theorem putAway_handles (s : State) (k : SessionId) (cause : CloseCause) : (s.putAway k cause).handleCounter = s.handleCounter := by
  simp only [State.putAway, State.freeGenerators, State.removeWatches, State.removePlaces, State.removeOneshots,
    State.setTimeline_handleCounter, State.modSession_handleCounter]

/-- A session enters CLOSING (R148 steps 1 to 6). -/
theorem beginClosing_enters {s : State} (ht : TimelineOk s) (hr : RunsOk s) {k : SessionId} (hk : s.sessions[k].state = .opened)
    (cause : CloseCause) : s.Enters (s.beginClosing k cause) k cause := by
  unfold State.beginClosing
  rw [if_pos hk]
  have c := putAway_changes s k cause
  have slots : ∀ i : SlotId, (s.putAway k cause).slots[i] = s.slots[i] := fun i => c.slot i
  have timeline : ∀ e : Entry, e ∈ (s.putAway k cause).timeline ↔ e ∈ s.timeline ∧ ¬(e.isOneshot = true ∧ e.owner = k) := by
    intro e
    rw [putAway_timeline, List.mem_filter]
    cases h : e.isOneshot <;> simp
  have bodies : (s.putAway k cause).bodiesOf k = s.bodiesOf k := by
    unfold State.bodiesOf State.slotsOf
    simp only [slots]
  have ok := ht.putAway k cause
  have stoppable := hr.stoppable (u := s.putAway k cause) ht (is := s.bodiesOf k) (fun i h => (mem_bodiesOf.mp h).2) slots
    fun e he hn => (timeline e).mpr ⟨he, fun c => by rw [hn] at c; simp at c⟩
  obtain ⟨-, stops⟩ := stopAll_stops (reason := .sessionEnd) rfl (s.bodiesOf k) (nodup_bodiesOf s k) ok stoppable
  have sessions := stopAll_sessions (k := k) (reason := .sessionEnd) rfl (s.bodiesOf k) (s := s.putAway k cause)
    (fun i h => by rw [slots]; exact (mem_bodiesOf.mp h).1) (by rw [putAway_session, if_pos rfl]; simp)
  have sc := stopBodies_changes (s.putAway k cause) k
  unfold State.stopBodies at sc ⊢
  rw [bodies] at sc ⊢
  have handles := putAway_handles s k cause
  refine ⟨?_, fun j hj => ?_, fun l => ?_, fun w => ?_, fun g => ?_, ?_, c.andThen sc⟩
  · rw [sessions, putAway_session, if_pos rfl]
  · rw [sessions, putAway_session, if_neg hj]
  · rw [sc.lease l, putAway_lease]
  · rw [sc.watch w, putAway_watch]
  · rw [sc.generator g, putAway_generator]
  · have := stops.stopsRuns slots timeline c.tick handles fun i h => by
      obtain ⟨e, he, hh⟩ := stoppable.1 i h
      exact ⟨e, he, by rw [← slots i]; exact hh⟩
    simpa only [mem_bodiesOf] using this

end Sys2Proof.Machine
end

