-- ==== Sys2Proof/Laws/Admissions.lean ====
section
/-! SUPPORT. The admission numbers of the Timeline's entries while the 64-bit counter has numbers left (R51). -/

namespace Sys2Proof.Machine

set_option Elab.async false

/-- The Timeline and its admission numbers are in order, and the counter has at least `n` numbers left. -/
def Admitting (n : Nat) (s : State) : Prop :=
  TimelineOk s ∧ AdmissionsOk s ∧ s.admissionCounter.toNat + n < 2 ^ 64

theorem Admitting.mono {m n : Nat} {s : State} (h : Admitting n s) (hm : m ≤ n) : Admitting m s :=
  ⟨h.1, h.2.1, by have := h.2.2; omega⟩

theorem Admitting.of_changes {n : Nat} {parts : List Part} {s t : State} (h : Admitting n s) (hc : ChangesOnly parts s t)
    (hp : Part.timeline ∉ parts := by decide) : Admitting n t := by
  obtain ⟨a, -, c⟩ := hc .timeline hp
  refine ⟨h.1.of_changes hc hp, ?_, by rw [c]; exact h.2.2⟩
  unfold AdmissionsOk
  rw [a, c]
  exact h.2.1

/-- The next number is one more than the counter, while there is one. -/
theorem nextAdmission_toNat {s : State} (h : s.admissionCounter.toNat + 1 < 2 ^ 64) :
    s.nextAdmission.toNat = s.admissionCounter.toNat + 1 := by
  unfold State.nextAdmission
  split
  · rename_i c
    rw [c] at h
    simp at h
  · rw [BitVec.toNat_add]
    exact Nat.mod_eq_of_lt h

/-- An entry with a number above those of the others joins them in order. -/
theorem insertEntry_admissions {e : Entry} {es : List Entry} (sorted : es.Pairwise fun f g => g.before f = false)
    (order : es.Pairwise fun f g => f.due = g.due → f.admission < g.admission) (above : ∀ f ∈ es, f.admission < e.admission) :
    (insertEntry e es).Pairwise fun f g => f.due = g.due → f.admission < g.admission := by
  induction es with
  | nil => simp [insertEntry]
  | cons g gs ih =>
    have hs := List.pairwise_cons.mp sorted
    have ho := List.pairwise_cons.mp order
    have below := above g List.mem_cons_self
    unfold insertEntry
    split
    · rename_i hb
      have first : e.due < g.due := by
        simp only [Entry.before, Bool.or_eq_true, Bool.and_eq_true, decide_eq_true_eq] at hb
        rcases hb with hb | ⟨-, hb⟩
        · exact hb
        · rw [BitVec.lt_def] at hb below; omega
      refine List.pairwise_cons.mpr ⟨fun f hf he => ?_, order⟩
      exfalso
      rcases List.mem_cons.mp hf with rfl | hf
      · exact Nat.lt_irrefl _ (he ▸ first)
      · have := hs.1 f hf
        simp only [Entry.before, Bool.or_eq_false_iff, decide_eq_false_iff_not] at this
        exact this.1 (he ▸ first)
    · refine List.pairwise_cons.mpr ⟨fun f hf => ?_, ih hs.2 ho.2 fun f hf => above f (List.mem_cons_of_mem _ hf)⟩
      rcases mem_insertEntry.mp hf with rfl | hf
      · exact fun _ => below
      · exact ho.1 f hf

theorem insertEntry_admissions_nodup {e : Entry} {es : List Entry} (hs : (es.map Entry.admission).Nodup)
    (hn : ∀ f ∈ es, f.admission ≠ e.admission) : ((insertEntry e es).map Entry.admission).Nodup := by
  induction es with
  | nil => simp [insertEntry]
  | cons g gs ih =>
    simp only [List.map_cons, List.nodup_cons] at hs
    unfold insertEntry
    split
    · simp only [List.map_cons, List.nodup_cons]
      refine ⟨fun h => ?_, hs⟩
      obtain ⟨f, hf, he⟩ := List.mem_map.mp (List.map_cons .. ▸ h)
      exact hn f hf he
    · simp only [List.map_cons, List.nodup_cons]
      refine ⟨fun h => ?_, ih hs.2 fun f hf => hn f (List.mem_cons_of_mem _ hf)⟩
      obtain ⟨f, hf, he⟩ := List.mem_map.mp h
      rcases mem_insertEntry.mp hf with rfl | hf
      · exact hn g List.mem_cons_self he.symm
      · exact hs.1 (List.mem_map.mpr ⟨f, hf, he⟩)

/-- An entry with the next number joins entries that are left of a Timeline in order. -/
theorem AdmissionsOk.insert {s t : State} (ht : TimelineOk s) (h : AdmissionsOk s) (room : s.admissionCounter.toNat + 1 < 2 ^ 64)
    {e : Entry} {es : List Entry} (sub : es.Sublist s.timeline) (number : e.admission = s.nextAdmission)
    (timeline : t.timeline = insertEntry e es) (counter : t.admissionCounter = s.nextAdmission) : AdmissionsOk t := by
  have next := nextAdmission_toNat room
  have above : ∀ f ∈ es, f.admission < e.admission := fun f hf => by
    have := h.2.2 f (sub.subset hf)
    rw [BitVec.le_def] at this
    rw [BitVec.lt_def, number, next]
    omega
  unfold AdmissionsOk
  rw [timeline, counter]
  refine ⟨insertEntry_admissions (ht.2.1.sublist sub) (h.1.sublist sub) above,
    insertEntry_admissions_nodup (h.2.1.sublist (sub.map _)) fun f hf => BitVec.ne_of_lt (above f hf), fun f hf => ?_⟩
  rcases mem_insertEntry.mp hf with rfl | hf
  · rw [number]; exact BitVec.le_refl _
  · have := h.2.2 f (sub.subset hf)
    rw [BitVec.le_def] at this ⊢
    rw [next]
    omega

theorem Admitting.filter {n : Nat} {s : State} (h : Admitting n s) (q : Entry → Bool) :
    Admitting n (s.setTimeline (s.timeline.filter q)) :=
  ⟨h.1.filter q, ⟨h.2.1.1.filter _, h.2.1.2.1.sublist (List.Sublist.map _ List.filter_sublist),
    fun e he => h.2.1.2.2 e (List.mem_of_mem_filter he)⟩, h.2.2⟩

theorem Admitting.removeEntry {n : Nat} {s : State} (h : Admitting n s) (i : Nat) : Admitting n (s.removeEntry i) := h.filter _

/-- An admission uses one number. -/
theorem Admitting.enterTimeline {n : Nat} {s : State} (h : Admitting (n + 1) s) (hl : s.timeline.length < Config.timelinePlaces)
    (k : SessionId) (due : Tick) (kind : EntryKind) : Admitting n (s.enterTimeline k due kind) := by
  have room : s.admissionCounter.toNat + 1 < 2 ^ 64 := by have := h.2.2; omega
  refine ⟨h.1.enterTimeline hl _ _ _, .insert h.1 h.2.1 room (List.Sublist.refl _) rfl rfl rfl, ?_⟩
  have := nextAdmission_toNat room
  have := h.2.2
  simp only [State.enterTimeline]
  omega

/-- A re-admission uses at most one number. -/
theorem Admitting.readmit {n : Nat} {s : State} (h : Admitting (n + 1) s) (i : Nat) (due : Tick) (kind : EntryKind) :
    Admitting n (s.readmit i due kind) := by
  refine ⟨h.1.readmit i due kind, ?_⟩
  have room : s.admissionCounter.toNat + 1 < 2 ^ 64 := by have := h.2.2; omega
  unfold State.readmit
  split
  · exact (h.mono (Nat.le_succ n)).2
  · refine ⟨.insert h.1 h.2.1 room List.filter_sublist rfl rfl rfl, ?_⟩
    have := nextAdmission_toNat room
    have := h.2.2
    dsimp only
    omega

/-- Operations that each use at most `m` numbers, one after the other. -/
theorem Admitting.foldl {α : Type} {m n : Nat} {f : State → α → State} (hf : ∀ n s a, Admitting (n + m) s → Admitting n (f s a))
    (as : List α) {s : State} (h : Admitting (n + m * as.length) s) : Admitting n (as.foldl f s) := by
  induction as generalizing s with
  | nil => exact h
  | cons a as ih => exact ih (hf _ s a (h.mono (by rw [List.length_cons, Nat.mul_succ]; omega)))

/-! ## The operations of the engine -/

theorem Admitting.endRun {n : Nat} {s : State} (h : Admitting n s) (i : SlotId) (state : SeqState) (outcome : SeqOutcome) :
    Admitting n (s.endRun i state outcome) :=
  ((h.removeEntry _).of_changes (modSlot_changes _ _ _)).of_changes (notifyOwner_changes _ _ _)

theorem Admitting.moveEntry {n : Nat} {s : State} (h : Admitting (n + 1) s) (i : SlotId) (state : SeqState) (list : StepList)
    (m : Nat) (due : Tick) (kind : EntryKind) : Admitting n (s.moveEntry i state list m due kind) :=
  (h.readmit _ _ _).of_changes (modSlot_changes _ _ _)

theorem Admitting.leaveBody {n : Nat} {s : State} (h : Admitting (n + 1) s) (i : SlotId) (reason : SeqReason) (failed : Nat) :
    Admitting n (s.leaveBody i reason failed) := by
  unfold State.leaveBody
  have h' := h.of_changes (modSlot_changes s i fun r => { r with reason := reason, failed := some failed })
  dsimp only
  split
  · exact (h'.mono (Nat.le_succ n)).endRun _ _ _
  · exact h'.moveEntry _ _ _ _ _ _

theorem Admitting.stopSequence {n : Nat} {s : State} (h : Admitting (n + 1) s) (i : SlotId) (reason : SeqReason) :
    Admitting n (s.stopSequence i reason) := h.leaveBody _ _ _

theorem Admitting.completeStep {n : Nat} {s : State} (h : Admitting (n + 1) s) (i : SlotId) (list : StepList) (m : Nat) :
    Admitting n (s.completeStep i list m) := by
  unfold State.completeStep
  split
  · exact h.moveEntry _ _ _ _ _ _
  · cases list
    · exact ((h.mono (Nat.le_succ n)).of_changes (modSlot_changes _ _ _)).endRun _ _ _
    · exact (h.mono (Nat.le_succ n)).endRun _ _ _

theorem Admitting.takeBodyStep {n : Nat} {s : State} (h : Admitting (n + 1) s) (i : SlotId) (m : Nat) :
    Admitting n (s.takeBodyStep i m) := by
  unfold State.takeBodyStep
  have h' := h.of_changes (modSlot_changes s i fun r => { r with state := .running })
  dsimp only
  split
  · exact (h'.mono (Nat.le_succ n)).removeEntry _
  · split
    · split
      · exact h'.leaveBody _ _ _
      · split
        · exact h'.leaveBody _ _ _
        · exact (h'.of_changes (writeLine_changes _ _ _)).completeStep _ _ _
    · exact (h'.of_changes (notifyOwner_changes _ _ _)).completeStep _ _ _
    · split
      · exact h'.completeStep _ _ _
      · exact h'.moveEntry _ _ _ _ _ _

theorem Admitting.takeUnwindStep {n : Nat} {s : State} (h : Admitting (n + 1) s) (i : SlotId) (m : Nat) :
    Admitting n (s.takeUnwindStep i m) := by
  unfold State.takeUnwindStep
  split
  · exact (h.mono (Nat.le_succ n)).removeEntry _
  · split
    · split
      · exact (h.of_changes (modSlot_changes _ _ _)).completeStep _ _ _
      · exact (h.of_changes (writeLine_changes _ _ _)).completeStep _ _ _
    · exact (h.of_changes (notifyOwner_changes _ _ _)).completeStep _ _ _
    · exact h.completeStep _ _ _

theorem Admitting.checkClosing {n : Nat} {s : State} (h : Admitting n s) (k : SessionId) : Admitting n (s.checkClosing k) :=
  h.of_changes (checkClosing_changes s k)

theorem Admitting.putAway {n : Nat} {s : State} (h : Admitting n s) (k : SessionId) (cause : CloseCause) :
    Admitting n (s.putAway k cause) := by
  unfold State.putAway
  refine Admitting.of_changes ?_ (freeGenerators_changes _ _)
  refine Admitting.of_changes ?_ (removeWatches_changes _ _)
  refine Admitting.of_changes ?_ (removePlaces_changes _ _)
  exact (h.of_changes (modSession_changes _ _ _)).filter _

theorem length_bodiesOf (s : State) (k : SessionId) : (s.bodiesOf k).length ≤ 16 := by
  unfold State.bodiesOf State.slotsOf
  exact (List.length_filter_le _ _).trans ((List.length_filter_le _ _).trans (by decide))

/-- The entry of a session into CLOSING uses at most one number for each of its slots. -/
theorem Admitting.beginClosing {n : Nat} {s : State} (h : Admitting (n + 16) s) (k : SessionId) (cause : CloseCause) :
    Admitting n (s.beginClosing k cause) := by
  unfold State.beginClosing
  split
  · unfold State.stopBodies
    refine Admitting.foldl (m := 1) (fun n s i h => h.stopSequence i .sessionEnd) _ ((h.putAway k cause).mono ?_)
    have := length_bodiesOf (s.putAway k cause) k
    omega
  · exact h.mono (by omega)

theorem Admitting.enterClosing {n : Nat} {s : State} (h : Admitting (n + 16) s) (k : SessionId) (cause : CloseCause) :
    Admitting n (s.enterClosing k cause) := by
  unfold State.enterClosing
  split
  · exact (h.beginClosing k cause).checkClosing k
  · exact h.mono (by omega)

/-- An entry that is taken uses at most one number. -/
theorem Admitting.takeEntry {n : Nat} {s : State} (h : Admitting (n + 1) s) (e : Entry) : Admitting n (s.takeEntry e) := by
  have h' := h.mono (Nat.le_succ n)
  unfold State.takeEntry
  split
  · unfold State.takeOneshot
    dsimp only
    split
    · exact (h'.removeEntry _).of_changes (notify_changes _ _ _)
    · split
      · exact (h'.removeEntry _).of_changes (notify_changes _ _ _)
      · exact (h'.removeEntry _).of_changes (writeLine_changes _ _ _)
  · unfold State.takeStep
    split
    · exact (h.takeBodyStep _ _).checkClosing _
    · exact (h.takeUnwindStep _ _).checkClosing _
  · exact (h.leaveBody _ _ _).checkClosing _

theorem Admitting.takeUntil {handle m n : Nat} {s : State} (h : Admitting (n + m) s) :
    Admitting n (State.takeUntil handle m s) := by
  induction m generalizing s with
  | zero => exact h
  | succ m ih =>
    unfold State.takeUntil
    split
    · split
      · exact ih (Admitting.takeEntry (n := n + m) h _)
      · exact h.mono (by omega)
    · exact h.mono (by omega)

/-- A break uses at most one number for each slot of each session of the port. -/
theorem Admitting.takeBreak {n : Nat} {s : State} (h : Admitting (n + 64) s) (p : Port) : Admitting n (s.takeBreak p) := by
  have few : (s.sessionsOn p).length ≤ 4 := (List.length_filter_le _ _).trans (by decide)
  unfold State.takeBreak
  refine Admitting.foldl (m := 0) (fun n s k h => h.checkClosing k) _ ?_
  refine Admitting.foldl (m := 16) (fun n s k h => h.beginClosing k .brk) _ ?_
  exact (h.of_changes (modPort_changes _ _ _)).mono (by omega)

/-- A sensed edge uses at most one number for each slot. -/
theorem Admitting.senseEdge {n : Nat} {s : State} (h : Admitting (n + 16) s) (l : LineId) : Admitting n (s.senseEdge l) := by
  unfold State.senseEdge
  dsimp only
  have h1 := h.of_changes (modLine_changes s l (LineCell.takeEdge s.tick))
  generalize s.modLine l (LineCell.takeEdge s.tick) = u at h1
  generalize u.lines[l].sensed = v
  have h2 := h1.of_changes (ChangesOnly.foldl (fun t w => offerEdge_changes t l v w) allWatches u)
  refine Admitting.foldl (m := 1) (fun n s i h => ?_) allSlots (h2.mono (by simp [allSlots]))
  unfold State.offerAwait
  split
  · split
    · exact h.completeStep _ _ _
    · exact h.mono (Nat.le_succ n)
  · exact h.mono (Nat.le_succ n)

end Sys2Proof.Machine
end

