-- ==== Sys2Proof/Laws/Watches.lean ====
section
/-! SUPPORT. The limits of watches and the order of their records (`WatchesOk`; R119, R121, R125 to R130): what keeps them. -/

namespace Sys2Proof.Machine

set_option Elab.async false

/-- A watch's own record is in order, and its session OPEN. -/
def Watch.OkIn (s : State) (x : Watch) : Prop :=
  s.sessions[x.session].state = .opened ∧
    (x.state = .armed → x.first = none ∧ x.last = none ∧ x.coalesce = 0 ∧ x.overrun = 0) ∧
    (x.state = .pending → x.first ≠ none ∧ x.last ≠ none) ∧
    (∀ (e : EdgeSelect) (n : Nat), x.kind = .count e n → 1 ≤ n ∧ n ≤ Config.max16 ∧ x.running < n) ∧
    x.coalesce ≤ Config.max16 ∧ x.overrun ≤ Config.max16

theorem WatchesOk.record {s : State} (h : WatchesOk s) {w : WatchId} {x : Watch} (hw : s.watches[w] = some x) : x.OkIn s :=
  h.2.2 w x hw

/-- The watches may go, and their records may change in order while session and line stay. -/
theorem WatchesOk.of_watches {s t : State} (h : WatchesOk s)
    (ht : ∀ (w : WatchId) (y : Watch), t.watches[w] = some y → y.OkIn t ∧
      ∃ x : Watch, s.watches[w] = some x ∧ y.session = x.session ∧ y.line = x.line) : WatchesOk t := by
  refine ⟨fun k => ?_, fun v w x y hx hy hs hl => ?_, fun w x hx => (ht w x hx).1⟩
  · refine Nat.le_trans ?_ (h.1 k)
    apply List.Sublist.length_le
    have sub : (allWatches.filter fun w => decide (t.watches[w].map Watch.session = some k)) =
        (allWatches.filter fun w => decide (s.watches[w].map Watch.session = some k)).filter
          fun w => decide (t.watches[w].map Watch.session = some k) := by
      rw [List.filter_filter]
      congr 1
      funext w
      by_cases hw : t.watches[w].map Watch.session = some k
      · cases hy : t.watches[w] with
        | none => rw [hy] at hw; cases hw
        | some y =>
          obtain ⟨x, hx, e, -⟩ := (ht w y hy).2
          rw [hy] at hw
          simp only [Option.map_some, Option.some.injEq] at hw
          simp [-Fin.getElem_fin, hx, ← e, hw]
      · simp [-Fin.getElem_fin, hw]
    rw [sub]
    exact List.filter_sublist
  · obtain ⟨x', hx', e1, e2⟩ := (ht v x hx).2
    obtain ⟨y', hy', e3, e4⟩ := (ht w y hy).2
    exact h.2.1 v w x' y' hx' hy' (by rw [← e1, ← e3, hs]) (by rw [← e2, ← e4, hl])

/-- A record stays in order while its session stays OPEN. -/
theorem Watch.OkIn.of_opened {s t : State} {x : Watch} (h : x.OkIn s) (ht : t.sessions[x.session].state = .opened) :
    x.OkIn t :=
  ⟨ht, h.2⟩

theorem WatchesOk.of_sessions {s t : State} (h : WatchesOk s) (hw : ∀ w : WatchId, t.watches[w] = s.watches[w])
    (ho : ∀ k : SessionId, s.sessions[k].state = .opened → t.sessions[k].state = .opened) : WatchesOk t :=
  h.of_watches fun w y hy => by
    rw [hw] at hy
    exact ⟨(h.record hy).of_opened (ho _ (h.record hy).1), y, hy, rfl, rfl⟩

theorem WatchesOk.of_changes {parts : List Part} {s t : State} (h : WatchesOk s) (hc : ChangesOnly parts s t)
    (hw : Part.watches ∉ parts := by decide) (hs : Part.sessions ∉ parts := by decide) : WatchesOk t :=
  h.of_sessions (fun w => hc.watch w hw) fun k hk => by rw [(hc .sessions hs k).1]; exact hk

theorem WatchesOk.foldl {α : Type} {f : State → α → State} (hf : ∀ s a, WatchesOk s → WatchesOk (f s a)) (as : List α)
    {s : State} (h : WatchesOk s) : WatchesOk (as.foldl f s) := by
  induction as generalizing s with
  | nil => exact h
  | cons a as ih => exact ih (hf s a h)

/-! ## One record -/

theorem saturate_le {max n : Nat} (h : n ≤ max) : saturate max n ≤ max := by
  unfold saturate; split <;> omega

/-- A matching edge on an ARMED COUNT watch (R129). -/
theorem onMatch_count_armed {r : Watch} {e : EdgeSelect} {n : Nat} (now : Tick) (hk : r.kind = .count e n) (hs : r.state = .armed) :
    r.onMatch now = if r.running + 1 = n then (({ r with running := 0 } : Watch).fired now, true)
      else ({ r with running := r.running + 1 }, false) := by
  unfold Watch.onMatch Watch.counted
  simp only [hk, hs]
  by_cases h : r.running + 1 = n <;> simp [h]

/-- A matching edge on a PENDING COUNT watch (R130). -/
theorem onMatch_count_pending {r : Watch} {e : EdgeSelect} {n : Nat} (now : Tick) (hk : r.kind = .count e n)
    (hs : r.state = .pending) :
    r.onMatch now = if r.running + 1 = n then
        ({ r.coalesced now with running := 0, overrun := saturate Config.max16 r.overrun }, false)
      else ({ r.coalesced now with running := r.running + 1 }, false) := by
  unfold Watch.onMatch Watch.counted
  simp only [hk, hs]
  by_cases h : r.running + 1 = n <;> simp [h, Watch.coalesced]

/-- A matching event on a watch that counts nothing (R125 to R128). -/
theorem onMatch_plain {r : Watch} (now : Tick) (hk : ∀ (e : EdgeSelect) (n : Nat), r.kind ≠ .count e n) :
    (r.state = .armed → r.onMatch now = (r.fired now, true)) ∧ (r.state = .pending → r.onMatch now = (r.coalesced now, false)) := by
  unfold Watch.onMatch
  constructor <;> intro hs <;> cases hc : r.kind <;> simp_all

theorem onMatch_same (now : Tick) (r : Watch) : (r.onMatch now).1.session = r.session ∧ (r.onMatch now).1.line = r.line := by
  by_cases hk : ∃ (e : EdgeSelect) (n : Nat), r.kind = .count e n
  · obtain ⟨e, n, hk⟩ := hk
    cases hs : r.state
    · rw [onMatch_count_armed now hk hs]; split <;> exact ⟨rfl, rfl⟩
    · rw [onMatch_count_pending now hk hs]; split <;> exact ⟨rfl, rfl⟩
  · have := onMatch_plain (r := r) now fun e n h => hk ⟨e, n, h⟩
    cases hs : r.state
    · rw [this.1 hs]; exact ⟨rfl, rfl⟩
    · rw [this.2 hs]; exact ⟨rfl, rfl⟩

theorem Watch.OkIn.fired {s : State} {r : Watch} (h : r.OkIn s) (now : Tick) : (r.fired now).OkIn s :=
  ⟨h.1, fun e => by simp [Watch.fired] at e, fun _ => ⟨by simp [Watch.fired], by simp [Watch.fired]⟩, h.2.2.2.1, h.2.2.2.2.1,
    h.2.2.2.2.2⟩

theorem Watch.OkIn.coalesced {s : State} {r : Watch} (h : r.OkIn s) (now : Tick) (hs : r.state = .pending) :
    (r.coalesced now).OkIn s :=
  ⟨h.1, fun e => by simp [Watch.coalesced, hs] at e, fun _ => ⟨(h.2.2.1 hs).1, by simp [Watch.coalesced]⟩, h.2.2.2.1,
    saturate_le h.2.2.2.2.1, h.2.2.2.2.2⟩

/-- The running count may become any number below the threshold. -/
theorem Watch.OkIn.run {s : State} {r : Watch} (h : r.OkIn s) {m : Nat}
    (hm : ∀ (e : EdgeSelect) (n : Nat), r.kind = .count e n → m < n) : ({ r with running := m } : Watch).OkIn s :=
  ⟨h.1, h.2.1, h.2.2.1, fun e n hk => ⟨(h.2.2.2.1 e n hk).1, (h.2.2.2.1 e n hk).2.1, hm e n hk⟩, h.2.2.2.2.1, h.2.2.2.2.2⟩

/-- A matching event keeps the record in order (R125 to R130). -/
theorem Watch.OkIn.onMatch {s : State} {r : Watch} (h : r.OkIn s) (now : Tick) : (r.onMatch now).1.OkIn s := by
  by_cases hk : ∃ (e : EdgeSelect) (n : Nat), r.kind = .count e n
  · obtain ⟨e, n, hk⟩ := hk
    obtain ⟨k1, k2, k3⟩ := h.2.2.2.1 e n hk
    have zero : ∀ (e' : EdgeSelect) (n' : Nat), r.kind = .count e' n' → 0 < n' := fun e' n' hk' => (h.2.2.2.1 e' n' hk').1
    have next : r.running + 1 ≠ n → ∀ (e' : EdgeSelect) (n' : Nat), r.kind = .count e' n' → r.running + 1 < n' := by
      intro hr e' n' hk'
      rw [hk] at hk'; cases hk'
      exact Nat.lt_of_le_of_ne k3 hr
    cases hs : r.state
    · rw [onMatch_count_armed now hk hs]
      split
      · exact (h.run zero).fired now
      · rename_i hr; exact h.run (next hr)
    · rw [onMatch_count_pending now hk hs]
      split
      · obtain ⟨a1, a2, a3, a4, a5, a6⟩ := (h.coalesced now hs).run (m := 0) zero
        exact ⟨a1, fun e => by simp [Watch.coalesced, hs] at e, a3, a4, a5, saturate_le h.2.2.2.2.2⟩
      · rename_i hr; exact (h.coalesced now hs).run (next hr)
  · have := onMatch_plain (r := r) now fun e n h => hk ⟨e, n, h⟩
    cases hs : r.state
    · rw [this.1 hs]; exact h.fired now
    · rw [this.2 hs]; exact h.coalesced now hs

/-- A watch that is put in the place of one of the same session and line. -/
theorem WatchesOk.setWatch {s : State} (h : WatchesOk s) {w : WatchId} {x y : Watch} (hw : s.watches[w] = some x)
    (hy : y.OkIn s) (hs : y.session = x.session) (hl : y.line = x.line) : WatchesOk (s.setWatch w (some y)) := by
  refine h.of_watches fun v z hz => ?_
  rw [State.setWatch_get] at hz
  split at hz
  · rename_i e; subst e; cases hz
    exact ⟨hy, x, hw, hs, hl⟩
  · exact ⟨h.record hz, z, hz, rfl, rfl⟩

theorem WatchesOk.dropWatch {s : State} (h : WatchesOk s) (w : WatchId) : WatchesOk (s.setWatch w none) := by
  refine h.of_watches fun v z hz => ?_
  rw [State.setWatch_get] at hz
  split at hz
  · cases hz
  · exact ⟨h.record hz, z, hz, rfl, rfl⟩

theorem WatchesOk.offerEdge {s : State} (h : WatchesOk s) (l : LineId) (v : Level) (w : WatchId) :
    WatchesOk (s.offerEdge l v w) := by
  unfold State.offerEdge
  split
  · exact h
  · rename_i r hr
    have ok := h.setWatch hr ((h.record hr).onMatch s.tick) (onMatch_same _ _).1 (onMatch_same _ _).2
    split
    · dsimp only
      split
      · exact ok.of_changes (sendHit_changes _ _ _ _)
      · exact ok
    · exact h

theorem WatchesOk.senseEdge {s : State} (h : WatchesOk s) (l : LineId) : WatchesOk (s.senseEdge l) := by
  unfold State.senseEdge
  dsimp only
  refine WatchesOk.foldl (fun t i ht => ht.of_changes (offerAwait_changes _ _ _ _)) _ ?_
  exact WatchesOk.foldl (fun t w ht => ht.offerEdge _ _ _) _ (h.of_changes (modLine_changes _ _ _))

/-! ## WATCH.SET and WATCH.ACK -/

theorem acknowledged_okIn {s : State} {r : Watch} (h : r.OkIn s) : r.acknowledged.OkIn s :=
  ⟨h.1, fun _ => ⟨rfl, rfl, rfl, rfl⟩, fun e => by simp [Watch.acknowledged] at e, h.2.2.2.1, Nat.zero_le _, Nat.zero_le _⟩

theorem watchKindOf_threshold {p : List Byte} {e : EdgeSelect} {n : Nat} (h : watchKindOf p = some (.count e n)) :
    1 ≤ n ∧ n ≤ Config.max16 := by
  unfold watchKindOf at h
  have bound : field2 p 4 ≤ Config.max16 := by
    have a := (p.getD 4 0).isLt
    have b := (p.getD 5 0).isLt
    simp only [field2, field1, Config.max16]
    omega
  split at h
  · cases hs : selectOf (field1 p 2) <;> rw [hs] at h <;> simp at h
  · cases hs : levelOf (field1 p 3) <;> rw [hs] at h <;> simp at h
  · split at h
    · split at h
      · rename_i hn
        simp only [Option.some.injEq, WatchKind.count.injEq] at h
        obtain ⟨-, rfl⟩ := h
        exact ⟨hn, bound⟩
      · cases h
    · cases h
  · cases h

/-- A new watch of an OPEN session, where there is room and the session has none on the line (R121, R122). -/
theorem WatchesOk.newWatch {s : State} (h : WatchesOk s) {k : SessionId} {l : LineId} {w : WatchId} {y : Watch}
    (hw : s.watches[w] = none) (hc : s.watchCount k < Config.sessionWatches) (hn : s.watchOn k l = none) (hy : y.OkIn s)
    (hs : y.session = k) (hl : y.line = l) : WatchesOk (s.setWatch w (some y)) := by
  have others : ∀ (v : WatchId) (x : Watch), s.watches[v] = some x → x.session = k → x.line ≠ l := by
    intro v x hx e c
    have := List.find?_eq_none.mp hn v (List.mem_finRange v)
    rw [hx] at this
    simp [e, c] at this
  refine ⟨fun j => ?_, fun v u a b ha hb he hle => ?_, fun v x hx => ?_⟩
  · by_cases e : j = k
    · subst e
      have count : (allWatches.filter fun v => decide ((s.setWatch w (some y)).watches[v].map Watch.session = some j)).length ≤
          (allWatches.filter fun v => decide (s.watches[v].map Watch.session = some j)).length + 1 := by
        have sub : (allWatches.filter fun v => decide ((s.setWatch w (some y)).watches[v].map Watch.session = some j)) ⊆
            w :: allWatches.filter fun v => decide (s.watches[v].map Watch.session = some j) := by
          intro v hv
          rw [List.mem_filter] at hv
          by_cases e : v = w
          · subst e; exact List.mem_cons_self
          · rw [State.setWatch_get_ne _ _ e] at hv
            exact List.mem_cons_of_mem _ (List.mem_filter.mpr hv)
        have nd : (allWatches.filter fun v => decide ((s.setWatch w (some y)).watches[v].map Watch.session = some j)).Nodup :=
          (List.nodup_finRange 32).filter _
        have := (nd.subperm sub).length_le
        simpa using this
      unfold State.watchCount at hc
      have e : (allWatches.countP fun v => decide (s.watches[v].map Watch.session = some j)) =
        (allWatches.filter fun v => decide (s.watches[v].map Watch.session = some j)).length := List.countP_eq_length_filter
      omega
    · refine Nat.le_trans (Nat.le_of_eq ?_) (h.1 j)
      congr 2
      funext v
      rw [State.setWatch_get]
      split
      · rename_i ev; subst ev
        simp [-Fin.getElem_fin, hw, hs, Ne.symm e]
      · rfl
  · rw [State.setWatch_get] at ha hb
    split at ha
    · rename_i ev
      split at hb
      · rename_i eu; rw [ev, eu]
      · cases ha
        exact absurd (hle.symm.trans hl) (others u b hb (he.symm.trans hs))
    · split at hb
      · cases hb
        exact absurd (hle.trans hl) (others v a ha (he.trans hs))
      · exact h.2.1 v u a b ha hb he hle
  · rw [State.setWatch_get] at hx
    split at hx
    · cases hx; exact hy
    · exact h.record hx

theorem WatchesOk.armWatch {s : State} {w : WatchId} {r : Watch}
    (h : ∀ y : Watch, y.OkIn s → y.session = r.session → y.line = r.line → WatchesOk (s.setWatch w (some y)))
    (hr : r.OkIn s) : WatchesOk (s.armWatch w r) := by
  unfold State.armWatch
  split
  · exact (h _ (hr.fired _) rfl rfl).of_changes (sendHit_changes _ _ _ _)
  · exact h _ hr rfl rfl

theorem ownWatch_ok {s : State} {k : SessionId} {p : List Byte} {w : WatchId} {r : Watch}
    (h : s.ownWatch k p = .ok (w, r)) : s.watches[w] = some r ∧ r.session = k := by
  unfold State.ownWatch at h
  split at h
  · cases h
  · split at h
    · cases h
    · split at h
      · rename_i hr hk; cases h; exact ⟨hr, hk⟩
      · cases h

theorem WatchesOk.serveWatchSet {s : State} (h : WatchesOk s) {k : SessionId} (hk : s.sessions[k].state = .opened)
    (p : List Byte) : WatchesOk (serveWatchSet k p s).1 := by
  unfold Machine.serveWatchSet
  split
  · rename_i l kind hl hkind
    split
    · exact h
    · rename_i hon
      split
      · exact h
      · rename_i w hfree
        unfold State.freeWatch at hfree
        split at hfree
        · rename_i hc
          have hw : s.watches[w] = none := by simpa using List.find?_some hfree
          have fresh : (Watch.fresh k l kind).OkIn s :=
            ⟨hk, fun _ => ⟨rfl, rfl, rfl, rfl⟩, fun e => by simp [Watch.fresh] at e, fun e n hc => by
              simp only [Watch.fresh] at hc
              subst hc
              obtain ⟨a, b⟩ := watchKindOf_threshold hkind
              exact ⟨a, b, a⟩, Nat.zero_le _, Nat.zero_le _⟩
          exact WatchesOk.armWatch (fun y hy hs hl => h.newWatch hw hc hon hy hs hl) fresh
        · cases hfree
  · exact h

theorem WatchesOk.serveWatchAck {s : State} (h : WatchesOk s) (k : SessionId) (p : List Byte) :
    WatchesOk (serveWatchAck k p s).1 := by
  unfold Machine.serveWatchAck
  split
  · exact h
  · rename_i w r hr
    have hw := (ownWatch_ok hr).1
    split
    · exact h
    · exact WatchesOk.armWatch (fun y hy hs hl => h.setWatch hw hy hs hl) (acknowledged_okIn (h.record hw))

theorem WatchesOk.serveWatchDrop {s : State} (h : WatchesOk s) (k : SessionId) (p : List Byte) :
    WatchesOk (serveWatchDrop k p s).1 := by
  unfold Machine.serveWatchDrop
  split
  · exact h
  · exact h.dropWatch _

/-! ## Closing (R138) -/

theorem WatchesOk.putAway {s : State} (h : WatchesOk s) (k : SessionId) (cause : CloseCause) : WatchesOk (s.putAway k cause) := by
  refine h.of_watches fun w y hy => ?_
  rw [putAway_watch] at hy
  obtain ⟨hw, hne⟩ := Option.filter_eq_some_iff.mp hy
  have hne : y.session ≠ k := by simpa using hne
  exact ⟨(h.record hw).of_opened (by rw [putAway_session, if_neg hne]; exact (h.record hw).1), y, hw, rfl, rfl⟩

theorem WatchesOk.beginClosing {s : State} (h : WatchesOk s) (k : SessionId) (cause : CloseCause) :
    WatchesOk (s.beginClosing k cause) := by
  unfold State.beginClosing
  split
  · exact (h.putAway k cause).of_changes (stopBodies_changes _ _)
  · exact h

theorem WatchesOk.checkClosing {s : State} (h : WatchesOk s) (k : SessionId) : WatchesOk (s.checkClosing k) := by
  unfold State.checkClosing
  split
  · rename_i c
    unfold State.completeClosing
    refine WatchesOk.of_changes ?_ (sendEnded_changes _ _ _)
    have hc : ChangesOnly [.lines, .leases, .slots, .pool, .generators, .numbers, .queues] s
        (((s.slotsOf k).foldl State.freeSlot s).endLeasesOf k) :=
      (ChangesOnly.foldl freeSlot_changes _ _).andThen (endLeasesOf_changes _ _)
    have h' := h.of_changes hc
    refine h'.of_sessions (fun w => rfl) fun j hj => ?_
    have : j ≠ k := by
      rintro rfl
      rw [(hc .sessions (by decide) j).1, c.1] at hj; cases hj
    rw [State.modSession_get_ne _ _ this]; exact hj
  · exact h

theorem WatchesOk.enterClosing {s : State} (h : WatchesOk s) (k : SessionId) (cause : CloseCause) :
    WatchesOk (s.enterClosing k cause) := by
  unfold State.enterClosing
  split
  · exact (h.beginClosing k cause).checkClosing k
  · exact h

theorem WatchesOk.takeBreak {s : State} (h : WatchesOk s) (p : Port) : WatchesOk (s.takeBreak p) := by
  unfold State.takeBreak
  refine WatchesOk.foldl (fun t k ht => ht.checkClosing k) _ ?_
  refine WatchesOk.foldl (fun t k ht => ht.beginClosing k .brk) _ ?_
  exact h.of_changes (modPort_changes _ _ _)

theorem WatchesOk.takeEntry {s : State} (h : WatchesOk s) (e : Entry) : WatchesOk (s.takeEntry e) := by
  unfold State.takeEntry
  split
  · exact h.of_changes (takeOneshot_changes _ _ _ _)
  · unfold State.takeStep
    split
    · exact (h.of_changes (takeBodyStep_changes _ _ _)).checkClosing _
    · exact (h.of_changes (takeUnwindStep_changes _ _ _)).checkClosing _
  · exact (h.of_changes (leaveBody_changes _ _ _ _)).checkClosing _

theorem WatchesOk.takeUntil {h n : Nat} {s : State} (hs : WatchesOk s) : WatchesOk (State.takeUntil h n s) := by
  induction n generalizing s with
  | zero => exact hs
  | succ n ih =>
    unfold State.takeUntil
    split
    · split
      · exact ih (hs.takeEntry _)
      · exact hs
    · exact hs

end Sys2Proof.Machine
end

