-- ==== Sys2Proof/Laws/Leases.lean ====
section
/-! SUPPORT. Leases and claim queues in order (`LeasesOk`; R25, R26): what keeps them. -/

namespace Sys2Proof.Machine

set_option Elab.async false

/-- The lease record and claim queue of one line are in order. -/
def LeaseCell.OkIn (s : State) (c : LeaseCell) : Prop :=
  (c.lease = none → c.queue = []) ∧ (c.queue.map Place.session).Nodup ∧ c.queue.length ≤ Config.claimPlaces ∧
    (∀ q ∈ c.queue, c.lease.map Lease.holder ≠ some q.session ∧ s.sessions[q.session].state = .opened) ∧
    ∀ k : SessionId, c.lease.map Lease.holder = some k → s.sessions[k].state ≠ .free

theorem LeasesOk.cell {s : State} (h : LeasesOk s) (l : LineId) : s.leases[l].OkIn s := h l

/-- A record stays in order while OPEN sessions stay OPEN and no other becomes FREE. -/
theorem LeaseCell.OkIn.of_sessions {s t : State} {c : LeaseCell} (h : c.OkIn s)
    (ho : ∀ k : SessionId, s.sessions[k].state = .opened → t.sessions[k].state = .opened)
    (hf : ∀ k : SessionId, s.sessions[k].state ≠ .free → t.sessions[k].state ≠ .free) : c.OkIn t :=
  ⟨h.1, h.2.1, h.2.2.1, fun q hq => ⟨(h.2.2.2.1 q hq).1, ho _ (h.2.2.2.1 q hq).2⟩, fun k hk => hf k (h.2.2.2.2 k hk)⟩

theorem LeasesOk.of_sessions {s t : State} (h : LeasesOk s) (hl : ∀ l : LineId, t.leases[l] = s.leases[l])
    (ho : ∀ k : SessionId, s.sessions[k].state = .opened → t.sessions[k].state = .opened)
    (hf : ∀ k : SessionId, s.sessions[k].state ≠ .free → t.sessions[k].state ≠ .free) : LeasesOk t := fun l => by
  have := (h.cell l).of_sessions ho hf
  unfold State.holder
  rw [hl]
  exact this

theorem LeasesOk.of_changes {parts : List Part} {s t : State} (h : LeasesOk s) (hc : ChangesOnly parts s t)
    (hl : Part.leases ∉ parts := by decide) (hs : Part.sessions ∉ parts := by decide) : LeasesOk t :=
  h.of_sessions (fun l => hc.lease l hl) (fun k hk => by rw [(hc .sessions hs k).1]; exact hk)
    fun k hk => by rw [(hc .sessions hs k).1]; exact hk

theorem LeasesOk.foldl {α : Type} {f : State → α → State} (hf : ∀ s a, LeasesOk s → LeasesOk (f s a)) (as : List α)
    {s : State} (h : LeasesOk s) : LeasesOk (as.foldl f s) := by
  induction as generalizing s with
  | nil => exact h
  | cons a as ih => exact ih (hf s a h)

theorem LeasesOk.setLease {s : State} (h : LeasesOk s) (l : LineId) {c : LeaseCell} (hc : c.OkIn s) :
    LeasesOk (s.setLease l c) := fun m => by
  unfold State.holder
  rw [State.setLease_get]
  split
  · exact hc
  · exact h.cell m

/-- Places may be taken out of a queue. -/
theorem LeaseCell.OkIn.filter {s : State} {c : LeaseCell} (h : c.OkIn s) (f : Place → Bool) :
    ({ c with queue := c.queue.filter f } : LeaseCell).OkIn s :=
  ⟨fun e => by simp [h.1 e], h.2.1.sublist (List.Sublist.map _ List.filter_sublist),
    (List.length_filter_le _ _).trans h.2.2.1, fun q hq => h.2.2.2.1 q (List.mem_of_mem_filter hq), h.2.2.2.2⟩

theorem LeasesOk.leaveQueue {s : State} (h : LeasesOk s) (k : SessionId) (l : LineId) : LeasesOk (s.leaveQueue k l) :=
  h.setLease l ((h.cell l).filter _)

/-- Sessions that are all different are at most four. -/
theorem sessions_length {ks : List SessionId} (h : ks.Nodup) : ks.length ≤ 4 := by
  simpa using h.length_le_card

/-- CLAIM (R28, R30). -/
theorem LeasesOk.serveClaim {s : State} (h : LeasesOk s) {k : SessionId} (hk : s.sessions[k].state = .opened)
    (p : List Byte) : LeasesOk (serveClaim k p s).1 := by
  unfold Machine.serveClaim
  split
  · rename_i l parting _ _
    split
    · rename_i hl
      refine h.setLease l ?_
      have e := (h.cell l).1 hl
      refine ⟨fun c => (nomatch c), ?_, ?_, fun q hq => ?_, fun j hj => ?_⟩
      · dsimp only; rw [e]; exact List.nodup_nil
      · dsimp only; rw [e]; exact Nat.zero_le _
      · dsimp only at hq; rw [e] at hq; cases hq
      · simp only [Option.map_some, Option.some.injEq] at hj
        subst hj; rw [hk]; decide
    · rename_i lease hl
      split
      · exact h
      · rename_i hne
        split
        · exact h
        · split
          · exact h
          · rename_i hw
            obtain ⟨h1, h2, h3, h4, h5⟩ := h.cell l
            have new : ∀ q ∈ s.leases[l].queue, q.session ≠ k := by
              intro q hq e
              exact hw (List.any_eq_true.mpr ⟨q, hq, by simpa using e⟩)
            have nd : ((s.leases[l].queue.map Place.session) ++ [k]).Nodup := by
              rw [List.nodup_append]
              refine ⟨h2, List.nodup_singleton k, fun a ha b hb => ?_⟩
              obtain ⟨q, hq, rfl⟩ := List.mem_map.mp ha
              rw [List.mem_singleton] at hb
              subst hb
              exact new q hq
            refine h.setLease l ⟨fun c => ?_, ?_, ?_, fun q hq => ?_, h5⟩
            · dsimp only at c; rw [hl] at c; cases c
            · dsimp only; rw [List.map_append]; exact nd
            · have all : (lease.holder :: ((s.leases[l].queue.map Place.session) ++ [k])).Nodup := by
                refine List.nodup_cons.mpr ⟨fun c => ?_, nd⟩
                rcases List.mem_append.mp c with c | c
                · obtain ⟨q, hq, e⟩ := List.mem_map.mp c
                  exact (h4 q hq).1 (by rw [hl, e]; rfl)
                · exact hne (List.mem_singleton.mp c)
              have := sessions_length all
              simp only [List.length_cons, List.length_append, List.length_map, List.length_nil] at this
              simp only [List.length_append, List.length_cons, List.length_nil, Config.claimPlaces]
              omega
            · rcases List.mem_append.mp hq with hq | hq
              · exact h4 q hq
              · rw [List.mem_singleton] at hq
                subst hq
                refine ⟨fun c => hne ?_, hk⟩
                rw [hl] at c
                simpa using c
  · exact h

/-! ## The end of leases -/

theorem dropLease_lease (s : State) (l m : LineId) :
    (s.dropLease l).leases[m] = if m = l then { s.leases[l] with lease := none } else s.leases[m] := by
  unfold State.dropLease
  split
  · rename_i e
    split
    · rename_i em; subst em
      cases hc : s.leases[m]; simp_all
    · rfl
  · rw [(partLine_changes _ l _).lease m, State.setLease_get]

/-- The lease records after the end of these leases (R33, R36, R40). -/
theorem endLeases_leases (ms : List LineId) (hn : ms.Nodup) (s : State) (l : LineId) :
    (ms.foldl State.grantHead (ms.foldl State.dropLease s)).leases[l] = if l ∈ ms then s.passedOn l else s.leases[l] := by
  have drops : ∀ (ms : List LineId), ms.Nodup → ∀ (s : State) (l : LineId), (ms.foldl State.dropLease s).leases[l] =
      if l ∈ ms then { s.leases[l] with lease := none } else s.leases[l] := by
    intro ms
    induction ms with
    | nil => intro _ s l; simp
    | cons m ms ih =>
      intro hn s l
      obtain ⟨hm, hn⟩ := List.nodup_cons.mp hn
      rw [List.foldl_cons, ih hn]
      by_cases e : l = m
      · subst e; rw [if_neg hm, dropLease_lease, if_pos rfl, if_pos List.mem_cons_self]
      · simp only [List.mem_cons, e, false_or, dropLease_lease, if_false]
  have tick := (ChangesOnly.foldl dropLease_changes ms s).tick
  rw [(grantHeads_eq ms hn _).1, drops ms hn]
  by_cases e : l ∈ ms
  · rw [if_pos e, if_pos e]
    unfold State.granted State.passedOn
    rw [drops ms hn, if_pos e, tick]
    dsimp only
    cases hq : s.leases[l].queue with
    | nil => simp [-Fin.getElem_fin]
    | cons q rest => rfl
  · simp only [e, if_false]

/-- What a line has when its lease has ended is in order, and its holder, if any, was waiting. -/
theorem LeasesOk.passedOn {s : State} (h : LeasesOk s) (l : LineId) : (s.passedOn l).OkIn s ∧
    ∀ k : SessionId, (s.passedOn l).lease.map Lease.holder = some k → s.sessions[k].state = .opened := by
  obtain ⟨h1, h2, h3, h4, h5⟩ := h.cell l
  unfold State.passedOn
  cases hq : s.leases[l].queue with
  | nil => exact ⟨⟨fun _ => rfl, List.nodup_nil, Nat.zero_le _, fun _ c => (nomatch c), fun _ c => (nomatch c)⟩, fun _ c => (nomatch c)⟩
  | cons q rest =>
    rw [hq] at h2 h3 h4
    have nd := List.nodup_cons.mp h2
    have hopen := (h4 q List.mem_cons_self).2
    refine ⟨⟨fun c => (nomatch c), nd.2, Nat.le_of_succ_le h3, fun q' hq' => ⟨fun c => nd.1 ?_, (h4 q' (List.mem_cons_of_mem _ hq')).2⟩,
      fun k hk => ?_⟩, fun k hk => ?_⟩
    · simp only [Option.map_some, Option.some.injEq] at c
      rw [c]; exact List.mem_map_of_mem hq'
    · simp only [Option.map_some, Option.some.injEq] at hk
      subst hk; rw [hopen]; decide
    · simp only [Option.map_some, Option.some.injEq] at hk
      subst hk; exact hopen

theorem LeasesOk.endLeases {s : State} (h : LeasesOk s) (ms : List LineId) (hn : ms.Nodup) :
    LeasesOk (ms.foldl State.grantHead (ms.foldl State.dropLease s)) := fun l => by
  have hc : ChangesOnly [.lines, .leases, .generators, .numbers, .queues] s
      (ms.foldl State.grantHead (ms.foldl State.dropLease s)) :=
    (ChangesOnly.foldl dropLease_changes _ _).andThen (ChangesOnly.foldl grantHead_changes _ _)
  have key : ((ms.foldl State.grantHead (ms.foldl State.dropLease s)).leases[l]).OkIn
      (ms.foldl State.grantHead (ms.foldl State.dropLease s)) := by
    have ho : ∀ k : SessionId, (ms.foldl State.grantHead (ms.foldl State.dropLease s)).sessions[k].state =
        s.sessions[k].state := fun k => (hc .sessions (by decide) k).1
    rw [endLeases_leases ms hn]
    refine LeaseCell.OkIn.of_sessions (s := s) ?_ (fun k hk => (ho k).trans hk) fun k hk => by rw [ho k]; exact hk
    split
    · exact (h.passedOn l).1
    · exact h.cell l
  exact key

theorem LeasesOk.endLease {s : State} (h : LeasesOk s) (l : LineId) : LeasesOk (s.endLease l) :=
  h.endLeases [l] (List.nodup_singleton l)

/-! ## Closing (R41, R151) -/

theorem LeasesOk.putAway {s : State} (h : LeasesOk s) (k : SessionId) (cause : CloseCause) : LeasesOk (s.putAway k cause) :=
  fun l => by
  have key : ((s.putAway k cause).leases[l]).OkIn (s.putAway k cause) := by
    rw [putAway_lease]
    have ok := (h.cell l).filter fun q => decide (q.session ≠ k)
    refine ⟨ok.1, ok.2.1, ok.2.2.1, fun q hq => ⟨(ok.2.2.2.1 q hq).1, ?_⟩, fun j hj => ?_⟩
    · have hne : q.session ≠ k := by simpa using List.of_mem_filter hq
      rw [putAway_session, if_neg hne]
      exact (ok.2.2.2.1 q hq).2
    · rw [putAway_session]
      split
      · simp
      · exact ok.2.2.2.2 j hj
  exact key

theorem LeasesOk.beginClosing {s : State} (h : LeasesOk s) (k : SessionId) (cause : CloseCause) :
    LeasesOk (s.beginClosing k cause) := by
  unfold State.beginClosing
  split
  · exact (h.putAway k cause).of_changes (stopBodies_changes _ _)
  · exact h

theorem LeasesOk.checkClosing {s : State} (h : LeasesOk s) (k : SessionId) : LeasesOk (s.checkClosing k) := by
  unfold State.checkClosing
  split
  · rename_i c
    unfold State.completeClosing
    refine LeasesOk.of_changes ?_ (sendEnded_changes _ _ _)
    have fc := ChangesOnly.foldl freeSlot_changes (s.slotsOf k) s
    have h' := h.of_changes fc
    have hk : ((s.slotsOf k).foldl State.freeSlot s).sessions[k].state = .closing := by
      rw [(fc .sessions (by decide) k).1, c.1]
    generalize (s.slotsOf k).foldl State.freeSlot s = u at h' hk
    have nd : (u.linesHeldBy k).Nodup := nodup_lines _
    have ok : LeasesOk (u.endLeasesOf k) := h'.endLeases _ nd
    have ec := endLeasesOf_changes u k
    have hk' : (u.endLeasesOf k).sessions[k].state = .closing := by rw [(ec .sessions (by decide) k).1, hk]
    have none : ∀ l : LineId, (u.endLeasesOf k).holder l ≠ some k := by
      intro l e
      have el : (u.endLeasesOf k).leases[l] = if l ∈ u.linesHeldBy k then u.passedOn l else u.leases[l] :=
        endLeases_leases _ nd u l
      unfold State.holder at e
      rw [el] at e
      split at e
      · have := (h'.passedOn l).2 k e
        rw [hk] at this; cases this
      · rename_i hl; exact hl (mem_linesHeldBy.mpr e)
    intro l
    have key : (((u.endLeasesOf k).modSession k fun _ => Session.free).leases[l]).OkIn
        ((u.endLeasesOf k).modSession k fun _ => Session.free) := by
      obtain ⟨o1, o2, o3, o4, o5⟩ := ok.cell l
      refine ⟨o1, o2, o3, fun q hq => ⟨(o4 q hq).1, ?_⟩, fun j hj => ?_⟩
      · have : q.session ≠ k := by
          intro e
          subst e
          have := (o4 q hq).2
          rw [hk'] at this; cases this
        rw [State.modSession_get_ne _ _ this]; exact (o4 q hq).2
      · have : j ≠ k := by rintro rfl; exact none l hj
        rw [State.modSession_get_ne _ _ this]; exact o5 j hj
    exact key
  · exact h

theorem LeasesOk.enterClosing {s : State} (h : LeasesOk s) (k : SessionId) (cause : CloseCause) :
    LeasesOk (s.enterClosing k cause) := by
  unfold State.enterClosing
  split
  · exact (h.beginClosing k cause).checkClosing k
  · exact h

theorem LeasesOk.takeBreak {s : State} (h : LeasesOk s) (p : Port) : LeasesOk (s.takeBreak p) := by
  unfold State.takeBreak
  refine LeasesOk.foldl (fun t k ht => ht.checkClosing k) _ ?_
  refine LeasesOk.foldl (fun t k ht => ht.beginClosing k .brk) _ ?_
  exact h.of_changes (modPort_changes _ _ _)

theorem LeasesOk.takeEntry {s : State} (h : LeasesOk s) (e : Entry) : LeasesOk (s.takeEntry e) := by
  unfold State.takeEntry
  split
  · exact h.of_changes (takeOneshot_changes _ _ _ _)
  · unfold State.takeStep
    split
    · exact (h.of_changes (takeBodyStep_changes _ _ _)).checkClosing _
    · exact (h.of_changes (takeUnwindStep_changes _ _ _)).checkClosing _
  · exact (h.of_changes (leaveBody_changes _ _ _ _)).checkClosing _

theorem LeasesOk.takeUntil {h n : Nat} {s : State} (hs : LeasesOk s) : LeasesOk (State.takeUntil h n s) := by
  induction n generalizing s with
  | zero => exact hs
  | succ n ih =>
    unfold State.takeUntil
    split
    · split
      · exact ih (hs.takeEntry _)
      · exact hs
    · exact hs

end Sys2Proof.Machine
end

