-- ==== Sys2Proof/Laws/Operands.lean ====
section
/-! SUPPORT. The small lemmas of the operand forms: which numbers are names and codes, and which are none. -/

namespace Sys2Proof.Machine

set_option Elab.async false

theorem nameOf_val {n : Nat} (x : Fin n) : nameOf n x.val = some x := by
  simp [nameOf]

theorem nameOf_of_eq {n c : Nat} {x : Fin n} (h : c = x.val) : nameOf n c = some x := by
  rw [h, nameOf_val]

theorem nameOf_none {n c : Nat} (h : n ≤ c) : nameOf n c = none := by
  simp [nameOf, Nat.not_lt.mpr h]

theorem levelOf_of_eq {c : Nat} {v : Level} (h : c = Level.code v) : levelOf c = some v := by
  subst h; cases v <;> rfl

theorem levelOf_none {c : Nat} (h : 2 ≤ c) : levelOf c = none := by
  obtain ⟨m, rfl⟩ := Nat.exists_eq_add_of_le h
  rw [Nat.add_comm]; rfl

theorem flagOf_of_eq {c : Nat} {v : Bool} (h : c = Bool.code v) : flagOf c = some v := by
  subst h; cases v <;> rfl

theorem flagOf_none {c : Nat} (h : 2 ≤ c) : flagOf c = none := by
  obtain ⟨m, rfl⟩ := Nat.exists_eq_add_of_le h
  rw [Nat.add_comm]; rfl

theorem modeOf_of_eq {c : Nat} {v : Mode} (h : c = v.code) : modeOf c = some v := by
  subst h; cases v <;> rfl

theorem modeOf_none {c : Nat} (h : 4 ≤ c) : modeOf c = none := by
  obtain ⟨m, rfl⟩ := Nat.exists_eq_add_of_le h
  rw [Nat.add_comm]; rfl

theorem partingOf_of_eq {c : Nat} {v : Parting} (h : c = v.code) : partingOf c = some v := by
  subst h; cases v <;> rfl

theorem partingOf_none {c : Nat} (h : 4 ≤ c) : partingOf c = none := by
  obtain ⟨m, rfl⟩ := Nat.exists_eq_add_of_le h
  rw [Nat.add_comm]; rfl

theorem listOf_of_eq {c : Nat} {v : StepList} (h : c = v.code) : listOf c = some v := by
  subst h; cases v <;> rfl

theorem listOf_none {c : Nat} (h : 2 ≤ c) : listOf c = none := by
  obtain ⟨m, rfl⟩ := Nat.exists_eq_add_of_le h
  rw [Nat.add_comm]; rfl

theorem selectOf_of_eq {c : Nat} {v : EdgeSelect} (h : c = v.code) : selectOf c = some v := by
  subst h; cases v <;> rfl

theorem selectOf_none {c : Nat} (h : c = 0 ∨ 4 ≤ c) : selectOf c = none := by
  rcases h with rfl | h
  · rfl
  · obtain ⟨m, rfl⟩ := Nat.exists_eq_add_of_le h
    rw [Nat.add_comm]; rfl

theorem restOf_of_eq {c : Nat} {v : RestLevel} (h : c = v.code) : restOf c = some v := by
  subst h; cases v <;> rfl

theorem restOf_none {c : Nat} (h : 3 ≤ c) : restOf c = none := by
  obtain ⟨m, rfl⟩ := Nat.exists_eq_add_of_le h
  rw [Nat.add_comm]; rfl

theorem holds_iff (s : State) (k : SessionId) (l : LineId) : s.holds k l = true ↔ s.holder l = some k := by
  simp [State.holds]

theorem holds_false (s : State) (k : SessionId) (l : LineId) : s.holds k l = false ↔ s.holder l ≠ some k := by
  simp [State.holds]

theorem faulted_iff (c : LineCell) : c.faulted = true ↔ c.fault ≠ .none := by
  unfold LineCell.faulted; cases c.fault <;> simp

theorem faulted_false {c : LineCell} (h : c.fault = .none) : c.faulted = false := by
  unfold LineCell.faulted; rw [h]

end Sys2Proof.Machine
end

