-- ==== Sys2Proof/Laws/RunRecords.lean ====
section
/-! SUPPORT. Slots, runs and their Timeline entries in order (`RunsOk`; R68, R72, R74, R77, R97, R151): what keeps them. -/

namespace Sys2Proof.Machine

set_option Elab.async false

/-! ## Small facts -/

theorem Slot.RunEntry.inRun {i : SlotId} {r : Slot} {kind : EntryKind} (h : r.RunEntry i kind) : r.inRun = true := by
  rcases h with ⟨h, -⟩ | ⟨n, -, -, ⟨h, -⟩ | ⟨h, -⟩⟩ | ⟨n, -, -, h, -⟩ <;> simp [Slot.inRun, Slot.inBody, h]

theorem Slot.inRun_plain {r : Slot} (h : r.inRun = true) : r.state ≠ .empty ∧ r.state ≠ .loading := by
  cases hs : r.state <;> simp_all [Slot.inRun, Slot.inBody]

/-- The slots and entries are as they were, and so is what the runs need of the sessions. -/
theorem RunsOk.of_same {s t : State} (h : RunsOk s) (hs : ∀ i : SlotId, t.slots[i] = s.slots[i])
    (ht : ∀ e ∈ t.timeline, e ∈ s.timeline) (hr : ∀ e ∈ s.timeline, e.isOneshot = false → e ∈ t.timeline)
    (ho : ∀ k : SessionId, s.sessions[k].state = .opened → t.sessions[k].state = .opened)
    (hf : ∀ k : SessionId, s.sessions[k].state ≠ .free → t.sessions[k].state ≠ .free) : RunsOk t := by
  obtain ⟨h1, h2, h3, h4, h5, h6, h7⟩ := h
  refine ⟨fun i hi => ?_, fun i e he hn => ?_, fun i hi => ?_, fun i hi => ?_, fun i hi => ?_, fun i hi => ?_, fun i k hk => ?_⟩ <;>
    simp only [hs] at *
  · obtain ⟨e, he, a, b, c⟩ := h1 i hi
    exact ⟨e, hr e he (EntryKind.names_not_oneshot c.names.1), a, b, c⟩
  · exact h2 i e (ht e he) hn
  · exact h3 i hi
  · exact h4 i hi
  · exact h5 i hi
  · exact h6 i hi
  · exact ⟨hf k (h7 i k hk).1, fun hb => ho k ((h7 i k hk).2 hb)⟩

theorem RunsOk.of_changes {parts : List Part} {s t : State} (h : RunsOk s) (hc : ChangesOnly parts s t)
    (h1 : Part.slots ∉ parts := by decide) (h2 : Part.timeline ∉ parts := by decide)
    (h3 : Part.sessions ∉ parts := by decide) : RunsOk t := by
  have a := (hc .timeline h2).1
  exact h.of_same (fun i => hc.slot i h1) (fun e he => by rw [a] at he; exact he) (fun e he _ => by rw [a]; exact he)
    (fun k hk => by rw [(hc .sessions h3 k).1]; exact hk) fun k hk => by rw [(hc .sessions h3 k).1]; exact hk

/-- The entry that names a slot is the one that its run owns. -/
theorem RunsOk.named {s : State} (h : RunsOk s) (ht : TimelineOk s) {i : SlotId} {e : Entry} (he : e ∈ s.timeline)
    (hn : e.kind.names i) : s.slots[i].inRun = true ∧ e.handle = s.slots[i].handle ∧ s.slots[i].owner = some e.owner ∧
      s.slots[i].RunEntry i e.kind := by
  obtain ⟨hi, hh⟩ := h.2.1 i e he hn
  obtain ⟨f, hf, a, b, c⟩ := h.entry hi
  obtain rfl := ht.same he hf (hh.trans a.symm)
  exact ⟨hi, hh, b, c⟩

/-! ## One slot -/

/-- A slot that is in no run is changed. -/
theorem RunsOk.of_slot {s t : State} (h : RunsOk s) {i : SlotId} {r : Slot} (hs : SlotBecomes s t i r)
    (rest : s.slots[i].inRun = false) (hr : r.inRun = false) (hc : r.cursor = none ∧ r.handle = 0)
    (he : r.state = .empty → r = Slot.free) (hn : r.state ≠ .empty → r.owner ≠ none) (hb : r.state ≠ .empty → r.state ≠ .loading → r.body ≠ [])
    (ho : ∀ k : SessionId, r.owner = some k → s.sessions[k].state ≠ .free) (tl : t.timeline = s.timeline)
    (state : ∀ k : SessionId, t.sessions[k].state = s.sessions[k].state) : RunsOk t := by
  obtain ⟨h1, h2, h3, h4, h5, h6, h7⟩ := h
  obtain ⟨hi, hj⟩ := hs
  have body : r.inBody = false := by
    cases hx : r.inBody
    · rfl
    · rw [Slot.inRun_of_inBody hx] at hr; cases hr
  refine ⟨fun j x => ?_, fun j e he' hn' => ?_, fun j x => ?_, fun j x => ?_, fun j x => ?_, fun j x => ?_, fun j k x => ?_⟩ <;>
    by_cases e' : j = i
  · subst e'; rw [hi, hr] at x; cases x
  · rw [hj j e'] at x ⊢; rw [tl]; exact h1 j x
  · subst e'; rw [tl] at he'; rw [(h2 j e he' hn').1] at rest; cases rest
  · rw [hj j e']; rw [tl] at he'; exact h2 j e he' hn'
  · subst e'; rw [hi]; exact hc
  · rw [hj j e'] at x ⊢; exact h3 j x
  · subst e'; rw [hi] at x ⊢; exact he x
  · rw [hj j e'] at x ⊢; exact h4 j x
  · subst e'; rw [hi] at x ⊢; exact hn x
  · rw [hj j e'] at x ⊢; exact h5 j x
  · subst e'; rw [hi] at x ⊢; exact hb x
  · rw [hj j e'] at x ⊢; exact h6 j x
  · subst e'; rw [hi] at x ⊢; rw [state]
    exact ⟨ho k x, fun c => by rw [body] at c; cases c⟩
  · rw [hj j e'] at x ⊢; rw [state]; exact h7 j k x

/-- A run ends. -/
theorem RunsOk.of_ends {s t : State} (h : RunsOk s) (ht : TimelineOk s) {i : SlotId} {r : Slot} (hm : s.RunEnds t i r)
    (live : s.slots[i].inRun = true) (hr : r.inRun = false) (hc : r.cursor = none ∧ r.handle = 0) (he : r.state ≠ .empty)
    (hb : r.body = s.slots[i].body) (ho : r.owner = s.slots[i].owner)
    (state : ∀ k : SessionId, t.sessions[k].state = s.sessions[k].state) : RunsOk t := by
  have named := fun (j : SlotId) (e : Entry) (he : e ∈ s.timeline) hn => h.named ht (i := j) (e := e) he hn
  have hne := fun (j : SlotId) hj hl => h.handle_ne ht (i := j) (j := i) hj hl
  obtain ⟨h1, h2, h3, h4, h5, h6, h7⟩ := h
  obtain ⟨⟨hi, hj⟩, ⟨stay, -⟩, gone, -⟩ := hm
  have gone := findEntry_none gone
  have plain := Slot.inRun_plain live
  have body : r.inBody = false := by
    cases hx : r.inBody
    · rfl
    · rw [Slot.inRun_of_inBody hx] at hr; cases hr
  refine ⟨fun j x => ?_, fun j e he' hn' => ?_, fun j x => ?_, fun j x => ?_, fun j x => ?_, fun j x => ?_, fun j k x => ?_⟩ <;>
    by_cases e' : j = i
  · subst e'; rw [hi, hr] at x; cases x
  · rw [hj j e'] at x ⊢
    obtain ⟨e, he, a, b, c⟩ := h1 j x
    exact ⟨e, (stay e (by rw [a]; exact fun c => e' (hne j x live c))).mpr he, a, b, c⟩
  · subst e'
    have hm : e ∈ s.timeline := (stay e (gone e he')).mp he'
    exact absurd (named j e hm hn').2.1 (gone e he')
  · rw [hj j e']
    exact h2 j e ((stay e (gone e he')).mp he') hn'
  · subst e'; rw [hi]; exact hc
  · rw [hj j e'] at x ⊢; exact h3 j x
  · subst e'; rw [hi] at x; exact absurd x he
  · rw [hj j e'] at x ⊢; exact h4 j x
  · subst e'; rw [hi, ho]; exact h5 j plain.1
  · rw [hj j e'] at x ⊢; exact h5 j x
  · subst e'; rw [hi, hb]; exact fun _ => h6 j plain.1 plain.2
  · rw [hj j e'] at x ⊢; exact h6 j x
  · subst e'; rw [hi] at x ⊢; rw [state]
    rw [ho] at x
    exact ⟨(h7 j k x).1, fun c => by rw [body] at c; cases c⟩
  · rw [hj j e'] at x ⊢; rw [state]; exact h7 j k x

/-- A run goes on. -/
theorem RunsOk.of_moves {s t : State} (h : RunsOk s) (ht : TimelineOk s) (ht' : TimelineOk t) {i : SlotId} {r : Slot}
    {due : Tick} {kind : EntryKind} (hm : s.MovesTo t i r due kind) (live : s.slots[i].inRun = true)
    (hr : r.RunEntry i kind) (hh : r.handle = s.slots[i].handle) (ho : r.owner = s.slots[i].owner)
    (hb : r.inBody = true → s.slots[i].inBody = true)
    (hbody : r.body = s.slots[i].body)
    (state : ∀ k : SessionId, t.sessions[k].state = s.sessions[k].state) : RunsOk t := by
  have hne := fun (j : SlotId) hj hl => h.handle_ne ht (i := j) (j := i) hj hl
  obtain ⟨h1, h2, h3, h4, h5, h6, h7⟩ := h
  obtain ⟨⟨hi, hj⟩, ⟨stay, -⟩, entry⟩ := hm
  obtain ⟨e0, he0, a0, b0, -⟩ := h1 i live
  obtain ⟨hf, hfh⟩ := findEntry_some (entry e0 (by rw [← a0]; exact ht.findEntry he0)).1
  have plain := Slot.inRun_plain hr.inRun
  have was := Slot.inRun_plain live
  refine ⟨fun j x => ?_, fun j e he' hn' => ?_, fun j x => ?_, fun j x => ?_, fun j x => ?_, fun j x => ?_, fun j k x => ?_⟩ <;>
    by_cases e' : j = i
  · subst e'
    rw [hi]
    exact ⟨_, hf, hfh.trans hh.symm, by rw [ho, b0], hr⟩
  · rw [hj j e'] at x ⊢
    obtain ⟨e, he, a, b, c⟩ := h1 j x
    exact ⟨e, (stay e (by rw [a]; exact fun c => e' (hne j x live c))).mpr he, a, b, c⟩
  · subst e'
    rw [hi]
    refine ⟨hr.inRun, ?_⟩
    by_cases hx : e.handle = s.slots[j].handle
    · rw [hx, hh]
    · rw [hh]; exact (h2 j e ((stay e hx).mp he') hn').2
  · rw [hj j e']
    have hx : e.handle ≠ s.slots[i].handle := by
      intro hx
      obtain rfl := ht'.same he' hf (by rw [hx, hfh])
      exact e' (hr.names.2 j hn')
    exact h2 j e ((stay e hx).mp he') hn'
  · subst e'; rw [hi, hr.inRun] at x; cases x
  · rw [hj j e'] at x ⊢; exact h3 j x
  · subst e'; rw [hi] at x; exact absurd x plain.1
  · rw [hj j e'] at x ⊢; exact h4 j x
  · subst e'; rw [hi, ho]; exact h5 j was.1
  · rw [hj j e'] at x ⊢; exact h5 j x
  · subst e'; rw [hi, hbody]; exact fun _ => h6 j was.1 was.2
  · rw [hj j e'] at x ⊢; exact h6 j x
  · subst e'; rw [hi] at x ⊢; rw [state]
    rw [ho] at x
    exact ⟨(h7 j k x).1, fun c => (h7 j k x).2 (hb c)⟩
  · rw [hj j e'] at x ⊢; rw [state]; exact h7 j k x

/-! ## The steps of a run -/

theorem SeqReason.endState_plain (reason : SeqReason) : reason.endState ≠ .empty ∧
    (∀ r : Slot, r.state = reason.endState → r.inRun = false) := by
  constructor
  · cases reason <;> simp [SeqReason.endState, SeqReason.isFault]
  · intro r hr
    cases reason <;> simp_all [Slot.inRun, Slot.inBody, SeqReason.endState, SeqReason.isFault]

/-- Body step `n` of a run completes. -/
theorem RunsOk.bodyGoesOn {s t : State} (h : RunsOk s) (ht : TimelineOk s) (ht' : TimelineOk t) {i : SlotId} {n : Nat}
    (hg : s.BodyGoesOn t i n) (hb : s.slots[i].inBody = true)
    (state : ∀ k : SessionId, t.sessions[k].state = s.sessions[k].state) : RunsOk t := by
  have live := Slot.inRun_of_inBody hb
  cases hx : s.slots[i].body[n + 1]? with
  | some x =>
    have hl : n + 1 < s.slots[i].body.length := (List.getElem?_eq_some_iff.mp hx).1
    exact h.of_moves ht ht' (hg.1 x hx) live (.inr (.inl ⟨n + 1, hl, rfl, .inl ⟨rfl, rfl⟩⟩)) rfl rfl (fun _ => hb) rfl state
  | none => exact h.of_ends ht (hg.2 hx) live rfl ⟨rfl, rfl⟩ (by simp) rfl rfl state

/-- A run leaves its body. -/
theorem RunsOk.bodyIsLeft {s t : State} (h : RunsOk s) (ht : TimelineOk s) (ht' : TimelineOk t) {i : SlotId}
    {reason : SeqReason} {n : Nat} (hg : s.BodyIsLeft t i reason n) (hb : s.slots[i].inBody = true)
    (state : ∀ k : SessionId, t.sessions[k].state = s.sessions[k].state) : RunsOk t := by
  have live := Slot.inRun_of_inBody hb
  cases hx : s.slots[i].unwind with
  | cons x xs =>
    refine h.of_moves ht ht' (hg.1 x xs hx) live (.inr (.inr ⟨0, ?_, rfl, rfl, rfl⟩)) rfl rfl (fun c => ?_) rfl state
    · show 0 < s.slots[i].unwind.length
      rw [hx]; exact Nat.succ_pos _
    · simp [Slot.inBody] at c
  | nil =>
    exact h.of_ends ht (hg.2 hx) live (reason.endState_plain.2 _ rfl) ⟨rfl, rfl⟩ reason.endState_plain.1 rfl rfl state

/-- Unwind step `n` of a run completes. -/
theorem RunsOk.unwindGoesOn {s t : State} (h : RunsOk s) (ht : TimelineOk s) (ht' : TimelineOk t) {i : SlotId} {n k : Nat}
    (hg : s.UnwindGoesOn t i n k) (hu : s.slots[i].inRun = true)
    (state : ∀ k : SessionId, t.sessions[k].state = s.sessions[k].state) : RunsOk t := by
  cases hx : s.slots[i].unwind[n + 1]? with
  | some x =>
    have hl : n + 1 < s.slots[i].unwind.length := (List.getElem?_eq_some_iff.mp hx).1
    exact h.of_moves ht ht' (hg.1 x hx) hu (.inr (.inr ⟨n + 1, hl, rfl, rfl, rfl⟩)) rfl rfl
      (fun c => by simp [Slot.inBody] at c) rfl state
  | none =>
    exact h.of_ends ht (hg.2 hx) hu (s.slots[i].reason.endState_plain.2 _ rfl) ⟨rfl, rfl⟩
      s.slots[i].reason.endState_plain.1 rfl rfl state

/-- A body step that is there is taken: the run goes on, leaves its body, or waits (R81 to R83, R88). -/
theorem takeBodyStep_cases {s : State} {i : SlotId} {n : Nat} {x : Step} (hx : s.slots[i].body[n]? = some x) :
    s.BodyGoesOn (s.takeBodyStep i n) i n ∨ (∃ reason : SeqReason, s.BodyIsLeft (s.takeBodyStep i n) i reason n) ∨
      ∃ limit : Nat, s.MovesTo (s.takeBodyStep i n) i { s.slots[i] with state := .awaiting, cursor := some (.body, n) }
        (s.tick + limit) (.deadline i .body n) := by
  have same : SameRun s (s.modSlot i fun r => { r with state := .running }) i { s.slots[i] with state := .running } :=
    (SameRun.refl s i).modSlot _
  have but : Slot.SameBut { s.slots[i] with state := .running } s.slots[i] := rfl
  unfold State.takeBodyStep
  dsimp only
  rw [same.slot]
  dsimp only
  rw [hx]
  dsimp only
  split
  · split
    · exact .inr (.inl ⟨_, leaveBody_leaves same but _ _⟩)
    · split
      · exact .inr (.inl ⟨_, leaveBody_leaves same but _ _⟩)
      · exact .inl (completeStep_body (same.of_changes (writeLine_changes _ _ _)) but n)
  · exact .inl (completeStep_body (same.of_changes (notifyOwner_changes _ _ _)) but n)
  · split
    · exact .inl (completeStep_body same but n)
    · rename_i limit _ _
      refine .inr (.inr ⟨limit, ?_⟩)
      have := moveEntry_moves same rfl .awaiting .body n (s.tick + limit) (.deadline i .body n)
      exact this

/-- An unwind step that is there is taken: the run goes on or ends (R91, R92). -/
theorem takeUnwindStep_goesOn {s : State} {i : SlotId} {n : Nat} {x : Step} (hx : s.slots[i].unwind[n]? = some x) :
    ∃ k : Nat, s.UnwindGoesOn (s.takeUnwindStep i n) i n k := by
  have same := SameRun.refl s i
  unfold State.takeUnwindStep
  rw [hx]
  dsimp only
  split
  · split
    · exact ⟨_, completeStep_unwind (same.modSlot _) _ rfl n⟩
    · exact ⟨_, completeStep_unwind (same.of_changes (writeLine_changes _ _ _)) _ rfl n⟩
  · exact ⟨_, completeStep_unwind (same.of_changes (notifyOwner_changes _ _ _)) _ rfl n⟩
  · exact ⟨_, completeStep_unwind same _ rfl n⟩

/-- The run whose entry names a body step. -/
theorem RunsOk.bodyStep {s : State} (h : RunsOk s) (ht : TimelineOk s) {e : Entry} {i : SlotId} {n : Nat}
    (he : e ∈ s.timeline) (hk : e.kind = .step i .body n) : s.slots[i].inBody = true ∧ n < s.slots[i].body.length := by
  obtain ⟨-, -, -, entry⟩ := h.named ht he (i := i) (.inl ⟨_, _, hk⟩)
  rw [hk] at entry
  rcases entry with ⟨h1, -, h2, h3⟩ | ⟨m, h1, -, ⟨h2, h3⟩ | ⟨-, h3⟩⟩ | ⟨m, -, -, -, h3⟩
  · cases h3; exact ⟨by simp [-Fin.getElem_fin, Slot.inBody, h1], h2⟩
  · cases h3; exact ⟨by simp [-Fin.getElem_fin, Slot.inBody, h2], h1⟩
  · cases h3
  · cases h3

/-- The run whose entry names an unwind step. -/
theorem RunsOk.unwindStep {s : State} (h : RunsOk s) (ht : TimelineOk s) {e : Entry} {i : SlotId} {n : Nat}
    (he : e ∈ s.timeline) (hk : e.kind = .step i .unwind n) : s.slots[i].state = .unwinding ∧ n < s.slots[i].unwind.length := by
  obtain ⟨-, -, -, entry⟩ := h.named ht he (i := i) (.inl ⟨_, _, hk⟩)
  rw [hk] at entry
  rcases entry with ⟨-, -, -, h3⟩ | ⟨m, -, -, ⟨-, h3⟩ | ⟨-, h3⟩⟩ | ⟨m, h1, -, h2, h3⟩
  · cases h3
  · cases h3
  · cases h3
  · cases h3; exact ⟨h2, h1⟩

/-- The run whose entry is a DEADLINE. -/
theorem RunsOk.deadline {s : State} (h : RunsOk s) (ht : TimelineOk s) {e : Entry} {i : SlotId} {list : StepList} {n : Nat}
    (he : e ∈ s.timeline) (hk : e.kind = .deadline i list n) : s.slots[i].state = .awaiting := by
  obtain ⟨-, -, -, entry⟩ := h.named ht he (i := i) (.inr ⟨_, _, hk⟩)
  rw [hk] at entry
  rcases entry with ⟨-, -, -, h3⟩ | ⟨m, -, -, ⟨-, h3⟩ | ⟨h2, -⟩⟩ | ⟨m, -, -, -, h3⟩
  · cases h3
  · cases h3
  · exact h2
  · cases h3

theorem RunsOk.takeBodyStep {s : State} (h : RunsOk s) (ht : TimelineOk s) {e : Entry} {i : SlotId} {n : Nat}
    (he : e ∈ s.timeline) (hk : e.kind = .step i .body n) : RunsOk (s.takeBodyStep i n) := by
  have ht' : TimelineOk (s.takeBodyStep i n) := ht.takeBodyStep i n
  have state : ∀ k : SessionId, (s.takeBodyStep i n).sessions[k].state = s.sessions[k].state := fun k =>
    ((takeBodyStep_changes s i n) .sessions (by decide) k).1
  obtain ⟨hb, hn⟩ := h.bodyStep ht he hk
  rcases takeBodyStep_cases (List.getElem?_eq_getElem hn) with c | ⟨reason, c⟩ | ⟨limit, c⟩
  · exact h.bodyGoesOn ht ht' c hb state
  · exact h.bodyIsLeft ht ht' c hb state
  · exact h.of_moves ht ht' c (Slot.inRun_of_inBody hb) (.inr (.inl ⟨n, hn, rfl, .inr ⟨rfl, rfl⟩⟩)) rfl rfl
      (fun _ => hb) rfl state

theorem RunsOk.takeUnwindStep {s : State} (h : RunsOk s) (ht : TimelineOk s) {e : Entry} {i : SlotId} {n : Nat}
    (he : e ∈ s.timeline) (hk : e.kind = .step i .unwind n) : RunsOk (s.takeUnwindStep i n) := by
  obtain ⟨hu, hn⟩ := h.unwindStep ht he hk
  obtain ⟨k, c⟩ := takeUnwindStep_goesOn (List.getElem?_eq_getElem hn)
  exact h.unwindGoesOn ht (ht.takeUnwindStep i n) c (by simp [-Fin.getElem_fin, Slot.inRun, hu]) fun k =>
    ((takeUnwindStep_changes s i n) .sessions (by decide) k).1

theorem RunsOk.leaveBody {s : State} (h : RunsOk s) (ht : TimelineOk s) {i : SlotId} (hb : s.slots[i].inBody = true)
    (reason : SeqReason) (n : Nat) : RunsOk (s.leaveBody i reason n) :=
  h.bodyIsLeft ht (ht.leaveBody i reason n) (leaveBody_leaves (.refl s i) rfl reason n) hb fun k =>
    ((leaveBody_changes s i reason n) .sessions (by decide) k).1

/-- A sensed edge completes an AWAIT (R84). -/
theorem RunsOk.offerAwait {s : State} (h : RunsOk s) (ht : TimelineOk s) (l : LineId) (v : Level) (i : SlotId) :
    RunsOk (s.offerAwait l v i) ∧ TimelineOk (s.offerAwait l v i) := by
  have state : ∀ k : SessionId, (s.offerAwait l v i).sessions[k].state = s.sessions[k].state := fun k =>
    ((offerAwait_changes s l v i) .sessions (by decide) k).1
  unfold State.offerAwait at state ⊢
  split
  · rename_i n l' v' ha
    have hb : s.slots[i].inBody = true := by
      unfold Slot.awaited at ha
      split at ha
      · rename_i hs _; simp [-Fin.getElem_fin, Slot.inBody, hs]
      · cases ha
    rw [ha] at state
    dsimp only at state
    split
    · rename_i c
      rw [if_pos c] at state
      have ht' := ht.completeStep i .body n
      exact ⟨h.bodyGoesOn ht ht' (completeStep_body (.refl s i) rfl n) hb state, ht'⟩
    · exact ⟨h, ht⟩
  · exact ⟨h, ht⟩

/-! ## Entries that are no run's -/

/-- A one-shot is taken out. -/
theorem RunsOk.removeOneshot {s : State} (h : RunsOk s) (ht : TimelineOk s) {e : Entry} (he : e ∈ s.timeline)
    (ho : e.isOneshot = true) : RunsOk (s.removeEntry e.handle) := by
  refine h.of_same (fun _ => rfl) (fun f hf => List.mem_of_mem_filter hf) (fun f hf hn => ?_) (fun _ hk => hk) fun _ hk => hk
  unfold State.removeEntry
  rw [State.setTimeline_timeline, List.mem_filter]
  refine ⟨hf, ?_⟩
  simp only [ne_eq, decide_eq_true_eq]
  intro c
  rw [ht.same hf he c, ho] at hn
  cases hn

theorem RunsOk.filterOneshots {s : State} (h : RunsOk s) (q : Entry → Bool)
    (hq : ∀ e : Entry, e.isOneshot = false → q e = true) : RunsOk (s.setTimeline (s.timeline.filter q)) :=
  h.of_same (fun _ => rfl) (fun _ hf => List.mem_of_mem_filter hf)
    (fun f hf hn => List.mem_filter.mpr ⟨hf, hq f hn⟩) (fun _ hk => hk) fun _ hk => hk

/-- A one-shot is admitted (R54). -/
theorem RunsOk.enterOneshot {s : State} (h : RunsOk s) (k : SessionId) (due : Tick) (l : LineId) (v : Level) :
    RunsOk (s.enterTimeline k due (.oneshot l v)) := by
  obtain ⟨h1, h2, h3, h4, h5, h6, h7⟩ := h
  refine ⟨fun i hi => ?_, fun i e he hn => ?_, h3, h4, h5, h6, h7⟩
  · obtain ⟨e, he, a⟩ := h1 i hi
    exact ⟨e, mem_insertEntry.mpr (.inr he), a⟩
  · rcases mem_insertEntry.mp he with rfl | he
    · rcases hn with ⟨_, _, c⟩ | ⟨_, _, c⟩ <;> cases c
    · exact h2 i e he hn

/-- A sealed sequence is armed (R66, R79). -/
theorem RunsOk.armSequence {s : State} (h : RunsOk s) (ht : TimelineOk s) {k : SessionId} {i : SlotId}
    (hl : s.timeline.length ≤ Config.timelinePlaces) (hk : s.sessions[k].state = .opened)
    (ho : s.slots[i].owner = some k) (hr : s.slots[i].resting = true) (start : Tick) : RunsOk (s.armSequence k i start) := by
  have fresh := nextHandle_fresh hl ht.2.2.2.2
  have rest : s.slots[i].inRun = false ∧ s.slots[i].state ≠ .empty ∧ s.slots[i].state ≠ .loading := by
    cases hs : s.slots[i].state <;> simp_all [-Fin.getElem_fin, Slot.inRun, Slot.inBody, Slot.resting]
  obtain ⟨h1, h2, h3, h4, h5, h6, h7⟩ := h
  have at_ : (s.armSequence k i start).slots[i] = { s.slots[i] with
      state := .armed, outcome := .none, reason := .none, failed := none, skipped := 0, start := some start,
      cursor := some (.body, 0), handle := s.nextHandle } := State.modSlot_get_same _ _ _
  have ne : ∀ j : SlotId, j ≠ i → (s.armSequence k i start).slots[j] = s.slots[j] := fun j hj => State.modSlot_get_ne _ _ hj
  have tl : ∀ e : Entry, e ∈ (s.armSequence k i start).timeline ↔ e = {
      handle := s.nextHandle, owner := k, due := s.slots[i].firstDue start, admission := s.nextAdmission,
      kind := .step i .body 0 } ∨ e ∈ s.timeline :=
    fun e => mem_insertEntry
  have sess : (s.armSequence k i start).sessions = s.sessions := rfl
  have body := h6 i rest.2.1 rest.2.2
  refine ⟨fun j x => ?_, fun j e he hn => ?_, fun j x => ?_, fun j x => ?_, fun j x => ?_, fun j x => ?_, fun j k' x => ?_⟩ <;>
    by_cases e' : j = i
  · subst e'
    rw [at_]
    refine ⟨_, (tl _).mpr (.inl rfl), rfl, ho, .inl ⟨rfl, rfl, ?_, rfl⟩⟩
    exact List.length_pos_iff.mpr body
  · rw [ne j e'] at x ⊢
    obtain ⟨e, he, a⟩ := h1 j x
    exact ⟨e, (tl e).mpr (.inr he), a⟩
  · subst e'
    rw [at_]
    refine ⟨rfl, ?_⟩
    rcases (tl e).mp he with rfl | he
    · rfl
    · rw [(h2 j e he hn).1] at rest; cases rest.1
  · rw [ne j e']
    rcases (tl e).mp he with rfl | he
    · rcases hn with ⟨_, _, c⟩ | ⟨_, _, c⟩
      · simp only [EntryKind.step.injEq] at c; exact absurd c.1.symm e'
      · cases c
    · exact h2 j e he hn
  · subst e'; rw [at_] at x; cases x
  · rw [ne j e'] at x ⊢; exact h3 j x
  · subst e'; rw [at_] at x; cases x
  · rw [ne j e'] at x ⊢; exact h4 j x
  · subst e'; rw [at_]; exact h5 j rest.2.1
  · rw [ne j e'] at x ⊢; exact h5 j x
  · subst e'; rw [at_]; exact fun _ => body
  · rw [ne j e'] at x ⊢; exact h6 j x
  · subst e'
    rw [at_] at x ⊢
    rw [sess]
    rw [show s.slots[j].owner = some k' from x] at ho
    cases ho
    exact ⟨by rw [hk]; decide, fun _ => hk⟩
  · rw [ne j e'] at x ⊢; rw [sess]; exact h7 j k' x

/-! ## Several runs that are stopped -/

/-- Runs in their body are stopped, after one-shots may have been removed and a session may have left OPEN. -/
theorem RunsOk.of_stops {s u t : State} (h : RunsOk s) (ht : TimelineOk s) {is : List SlotId} {reason : SeqReason}
    (hs : Stops u t is reason) (hb : ∀ i ∈ is, s.slots[i].inBody = true) (slots : ∀ i : SlotId, u.slots[i] = s.slots[i])
    (less : ∀ e ∈ u.timeline, e ∈ s.timeline) (more : ∀ e ∈ s.timeline, e.isOneshot = false → e ∈ u.timeline)
    (hf : ∀ k : SessionId, s.sessions[k].state ≠ .free → t.sessions[k].state ≠ .free)
    (ho : ∀ (i : SlotId) (k : SessionId), i ∉ is → s.slots[i].inBody = true → s.slots[i].owner = some k →
      t.sessions[k].state = .opened) : RunsOk t := by
  have live := fun i hi => Slot.inRun_of_inBody (hb i hi)
  have hne := fun (i j : SlotId) hi hj he => h.handle_ne ht (i := i) (j := j) hi hj he
  have named := fun (j : SlotId) (e : Entry) (he : e ∈ s.timeline) hn => h.named ht (i := j) (e := e) he hn
  have stopped : ∀ i ∈ is, t.slots[i] = s.slots[i].stopped reason := fun i hi => by rw [hs.slots, if_pos hi, slots]
  have kept : ∀ i : SlotId, i ∉ is → t.slots[i] = s.slots[i] := fun i hi => by rw [hs.slots, if_neg hi, slots]
  have nil : ∀ i ∈ is, s.slots[i].unwind = [] → t.slots[i] = { s.slots[i] with
      state := .cancelled, outcome := .cancelled, reason := reason, failed := some s.slots[i].at, cursor := none, handle := 0 } := fun i hi hu => by
    rw [stopped i hi]; unfold Slot.stopped; rw [if_pos hu]
  have cons : ∀ i ∈ is, s.slots[i].unwind ≠ [] → t.slots[i] = { s.slots[i] with
      state := .unwinding, reason := reason, failed := some s.slots[i].at, cursor := some (.unwind, 0) } := fun i hi hu => by
    rw [stopped i hi]; unfold Slot.stopped; rw [if_neg hu]
  have same : ∀ i : SlotId, t.slots[i].owner = s.slots[i].owner ∧ t.slots[i].body = s.slots[i].body := fun i => by
    by_cases hi : i ∈ is
    · by_cases hu : s.slots[i].unwind = []
      · rw [nil i hi hu]; exact ⟨rfl, rfl⟩
      · rw [cons i hi hu]; exact ⟨rfl, rfl⟩
    · rw [kept i hi]; exact ⟨rfl, rfl⟩
  obtain ⟨h1, h2, h3, h4, h5, h6, h7⟩ := h
  refine ⟨fun i x => ?_, fun i e he hn => ?_, fun i x => ?_, fun i x => ?_, fun i x => ?_, fun i x => ?_, fun i k x => ?_⟩
  · by_cases hi : i ∈ is
    · obtain ⟨e, he, a, b, c⟩ := h1 i (live i hi)
      by_cases hu : s.slots[i].unwind = []
      · rw [nil i hi hu] at x; cases x
      · obtain ⟨y, ys, hy⟩ := List.exists_cons_of_ne_nil hu
        obtain ⟨adm, hm⟩ := hs.moved i hi y ys (by rw [slots]; exact hy) e
          (more e he (EntryKind.names_not_oneshot c.names.1)) (by rw [slots]; exact a)
        refine ⟨_, (hm { e with due := u.tick + y.offset, admission := adm, kind := .step i .unwind 0 } rfl).mpr rfl, ?_⟩
        rw [cons i hi hu]
        exact ⟨a, b, .inr (.inr ⟨0, List.length_pos_iff.mpr hu, rfl, rfl, rfl⟩)⟩
    · rw [kept i hi] at x ⊢
      obtain ⟨e, he, a, b, c⟩ := h1 i x
      refine ⟨e, (hs.others e fun j hj d => ?_).mpr (more e he (EntryKind.names_not_oneshot c.names.1)), a, b, c⟩
      rw [slots] at d
      exact hi (hne j i (live j hj) x (d.trans a) ▸ hj)
  · by_cases hx : ∃ j ∈ is, s.slots[j].handle = e.handle
    · obtain ⟨j, hj, hh⟩ := hx
      obtain ⟨f, hf', a, b, c⟩ := h1 j (live j hj)
      by_cases hu : s.slots[j].unwind = []
      · exact absurd (by rw [slots]; exact hh.symm) (hs.ended j hj (by rw [slots]; exact hu) e he)
      · obtain ⟨y, ys, hy⟩ := List.exists_cons_of_ne_nil hu
        obtain ⟨adm, hm⟩ := hs.moved j hj y ys (by rw [slots]; exact hy) f
          (more f hf' (EntryKind.names_not_oneshot c.names.1)) (by rw [slots]; exact a)
        have ee := (hm e (hh.symm.trans a.symm)).mp he
        have ij : i = j := by
          rw [ee] at hn
          rcases hn with ⟨_, _, d⟩ | ⟨_, _, d⟩
          · simp only [EntryKind.step.injEq] at d; exact d.1.symm
          · cases d
        subst ij
        rw [cons i hj hu]
        exact ⟨rfl, hh.symm⟩
    · have hx' : ∀ j ∈ is, u.slots[j].handle ≠ e.handle := fun j hj c => hx ⟨j, hj, by rw [← slots]; exact c⟩
      have hes := less e ((hs.others e hx').mp he)
      obtain ⟨a, b⟩ := h2 i e hes hn
      have hi : i ∉ is := fun c => hx ⟨i, c, b.symm⟩
      rw [kept i hi]
      exact ⟨a, b⟩
  · by_cases hi : i ∈ is
    · by_cases hu : s.slots[i].unwind = []
      · rw [nil i hi hu]; exact ⟨rfl, rfl⟩
      · rw [cons i hi hu] at x; cases x
    · rw [kept i hi] at x ⊢; exact h3 i x
  · by_cases hi : i ∈ is
    · by_cases hu : s.slots[i].unwind = []
      · rw [nil i hi hu] at x; cases x
      · rw [cons i hi hu] at x; cases x
    · rw [kept i hi] at x ⊢; exact h4 i x
  · rw [(same i).1]
    by_cases hi : i ∈ is
    · exact h5 i (Slot.inRun_plain (live i hi)).1
    · rw [kept i hi] at x; exact h5 i x
  · rw [(same i).2]
    by_cases hi : i ∈ is
    · exact fun _ => h6 i (Slot.inRun_plain (live i hi)).1 (Slot.inRun_plain (live i hi)).2
    · rw [kept i hi] at x ⊢; exact h6 i x
  · rw [(same i).1] at x
    refine ⟨hf k (h7 i k x).1, fun c => ?_⟩
    by_cases hi : i ∈ is
    · by_cases hu : s.slots[i].unwind = []
      · rw [nil i hi hu] at c; cases c
      · rw [cons i hi hu] at c; cases c
    · rw [kept i hi] at c; exact ho i k hi c x

/-! ## Closing -/

theorem RunsOk.beginClosing {s : State} (h : RunsOk s) (ht : TimelineOk s) (k : SessionId) (cause : CloseCause) :
    RunsOk (s.beginClosing k cause) := by
  unfold State.beginClosing
  split
  · have c := putAway_changes s k cause
    have slots : ∀ i : SlotId, (s.putAway k cause).slots[i] = s.slots[i] := fun i => c.slot i
    have timeline : ∀ e : Entry, e ∈ (s.putAway k cause).timeline ↔ e ∈ s.timeline ∧ ¬(e.isOneshot = true ∧ e.owner = k) := by
      intro e
      rw [putAway_timeline, List.mem_filter]
      cases h : e.isOneshot <;> simp
    have bodies : (s.putAway k cause).bodiesOf k = s.bodiesOf k := by
      unfold State.bodiesOf State.slotsOf
      simp only [slots]
    have more : ∀ e ∈ s.timeline, e.isOneshot = false → e ∈ (s.putAway k cause).timeline := fun e he hn =>
      (timeline e).mpr ⟨he, fun d => by rw [hn] at d; cases d.1⟩
    have hb : ∀ i ∈ s.bodiesOf k, s.slots[i].inBody = true := fun i hi => (mem_bodiesOf.mp hi).2
    have stops := (stopAll_stops (reason := .sessionEnd) rfl (s.bodiesOf k) (nodup_bodiesOf s k) (ht.putAway k cause)
      (h.stoppable ht hb slots more)).2
    have sc := stopBodies_changes (s.putAway k cause) k
    unfold State.stopBodies at sc ⊢
    rw [bodies] at sc ⊢
    have state : ∀ j : SessionId, ((s.bodiesOf k).foldl (fun t i => t.stopSequence i .sessionEnd)
        (s.putAway k cause)).sessions[j].state = if j = k then .closing else s.sessions[j].state := fun j => by
      rw [(sc .sessions (by decide) j).1, putAway_session]
      split <;> rfl
    refine h.of_stops ht stops hb slots (fun e he => ((timeline e).mp he).1) more (fun j hj => ?_) fun i j hi hx hj => ?_
    · rw [state]; split
      · decide
      · exact hj
    · have hne : j ≠ k := by rintro rfl; exact hi (mem_bodiesOf.mpr ⟨hj, hx⟩)
      rw [state, if_neg hne]
      exact (h.2.2.2.2.2.2 i j hj).2 hx
  · exact h

theorem RunsOk.checkClosing {s : State} (h : RunsOk s) (k : SessionId) : RunsOk (s.checkClosing k) := by
  unfold State.checkClosing
  split
  · rename_i c
    have rest : ∀ i : SlotId, s.slots[i].owner = some k → s.slots[i].inRun = false := by
      intro i hi
      cases hr : s.slots[i].inRun
      · rfl
      · have := runsSequence_iff.mpr ⟨i, hi, hr⟩
        rw [c.2] at this; cases this
    have slots : ∀ i : SlotId, (s.completeClosing k).slots[i] = if s.slots[i].owner = some k then Slot.free else s.slots[i] := by
      intro i
      unfold State.completeClosing
      rw [(sendEnded_changes _ _ _).slot i, State.modSession_slots, (endLeasesOf_changes _ _).slot i,
        (freeSlots_eq (s.slotsOf k) (show (s.slotsOf k).Nodup from nodup_slots _) s).1]
      simp only [mem_slotsOf]
    have tl : (s.completeClosing k).timeline = s.timeline :=
      ((completeClosing_changes s k) .timeline (by decide)).1
    have state : ∀ j : SessionId, j ≠ k → (s.completeClosing k).sessions[j].state = s.sessions[j].state := by
      intro j hj
      unfold State.completeClosing
      rw [(sendEnded_changes _ _ _).session j, State.modSession_get_ne _ _ hj, ((endLeasesOf_changes _ _) .sessions (by decide) j).1,
        ((ChangesOnly.foldl freeSlot_changes (s.slotsOf k) s) .sessions (by decide) j).1]
    obtain ⟨h1, h2, h3, h4, h5, h6, h7⟩ := h
    refine ⟨fun i x => ?_, fun i e he hn => ?_, fun i x => ?_, fun i x => ?_, fun i x => ?_, fun i x => ?_, fun i j x => ?_⟩ <;>
      by_cases e' : s.slots[i].owner = some k
    · rw [slots, if_pos e'] at x; cases x
    · rw [slots, if_neg e'] at x ⊢; rw [tl]; exact h1 i x
    · rw [tl] at he
      have := (h2 i e he hn).1
      rw [rest i e'] at this; cases this
    · rw [slots, if_neg e']; rw [tl] at he; exact h2 i e he hn
    · rw [slots, if_pos e']; exact ⟨rfl, rfl⟩
    · rw [slots, if_neg e'] at x ⊢; exact h3 i x
    · rw [slots, if_pos e']
    · rw [slots, if_neg e'] at x ⊢; exact h4 i x
    · rw [slots, if_pos e'] at x; exact absurd rfl x
    · rw [slots, if_neg e'] at x ⊢; exact h5 i x
    · rw [slots, if_pos e'] at x; exact absurd rfl x
    · rw [slots, if_neg e'] at x ⊢; exact h6 i x
    · rw [slots, if_pos e'] at x; cases x
    · rw [slots, if_neg e'] at x ⊢
      have hne : j ≠ k := by rintro rfl; exact e' x
      rw [state j hne]; exact h7 i j x
  · exact h

theorem RunsOk.enterClosing {s : State} (h : RunsOk s) (ht : TimelineOk s) (k : SessionId) (cause : CloseCause) :
    RunsOk (s.enterClosing k cause) := by
  unfold State.enterClosing
  split
  · exact (h.beginClosing ht k cause).checkClosing k
  · exact h

/-! ## Entries that fall due -/

theorem RunsOk.takeEntry {s : State} (h : RunsOk s) (ht : TimelineOk s) {e : Entry} (he : e ∈ s.timeline) :
    RunsOk (s.takeEntry e) := by
  unfold State.takeEntry
  split
  · rename_i l v hk
    have h' := h.removeOneshot ht he (by simp [Entry.isOneshot, hk])
    unfold State.takeOneshot
    dsimp only
    split
    · exact h'.of_changes (notify_changes _ _ _)
    · split
      · exact h'.of_changes (notify_changes _ _ _)
      · exact h'.of_changes (writeLine_changes _ _ _)
  · rename_i i list n hk
    unfold State.takeStep
    split
    · exact (h.takeBodyStep ht he hk).checkClosing _
    · exact (h.takeUnwindStep ht he hk).checkClosing _
  · rename_i i list n hk
    have := h.deadline ht he hk
    exact (h.leaveBody ht (i := i) (by simp [-Fin.getElem_fin, Slot.inBody, this]) _ _).checkClosing _

theorem RunsOk.takeUntil {h n : Nat} {s : State} (hs : RunsOk s) (ht : TimelineOk s) : RunsOk (State.takeUntil h n s) := by
  induction n generalizing s with
  | zero => exact hs
  | succ n ih =>
    unfold State.takeUntil
    split
    · split
      · rename_i e hd
        have he : e ∈ s.timeline := by
          unfold State.dueEntry at hd
          split at hd
          · cases hd
          · rename_i f fs hf
            split at hd
            · cases hd; rw [hf]; exact List.mem_cons_self
            · cases hd
        exact ih (hs.takeEntry ht he) (ht.takeEntry e)
      · exact hs
    · exact hs

end Sys2Proof.Machine
end

