-- ==== Sys2Proof/WellFormed.lean ====
section
/-! DEFINITION. Which commands are well formed. Line, session, slot, generator and watch operands are bounded by their
types; what is left to check is the run of bytes of FRAME_RECEIVED. -/

namespace Sys2Proof

/-- FRAME_RECEIVED brings at least one byte and no more than the longest frame, LEN + 4 bytes with LEN 120 (R160, R177).
Every other command is well formed. -/
def Instr.wellFormed : Instr → Bool
  | .frameReceived _ bytes => decide (0 < bytes.length) && decide (bytes.length ≤ Config.maxBody + 4)
  | .openSession _ | .closeSession _ | .ping _ | .status _ | .info _ | .time _ | .snapshot _ | .portstat _ | .restart _ => true
  | .claim _ | .release _ | .withdraw _ | .setup _ | .drive _ | .read _ | .clear _ => true
  | .atEdge _ | .cancel _ | .pendingList _ => true
  | .seqNew _ | .seqAdd _ | .seqSeal _ | .seqStart _ | .seqStop _ | .seqQuery _ | .seqFree _ => true
  | .watchSet _ | .watchAck _ | .watchDrop _ | .watchRead _ => true
  | .cadSet _ | .cadRun _ | .cadHold _ | .cadFree _ | .cadRead _ => true
  | .gapTimeout _ | .breakLine _ | .frameSent _ _ | .powerUp _ | .nrstAssert | .nrstRelease _ => true
  | .sensedEdge _ | .contentionFault _ | .assistBurstEnd _ | .oneshotDue | .stepDue | .deadlineDue => true
  | .claimExpiry _ _ | .keepaliveLapse _ | .cadStart _ | .cadLowWrite _ | .cadCycleEnd _ => true
  | .rawLevelChange _ _ | .rxIdle _ => true

end Sys2Proof
end

