-- ==== Sys2Proof/Tests/Slice0.lean ====
section
/-! SUPPORT. The model's own tests: the well-formedness smoke test, and for the statements a concrete state and operands that meet
the hypotheses of each clause, seen in the status that the clause gives. -/

namespace Sys2Proof.Machine

set_option maxRecDepth 16384
set_option Elab.async false

/-! ## Small states -/

/-- Session 1 as OPEN on a port, heard at tick 0. -/
def openOn (p : Port) : Session :=
  { state := .opened, port := some p, keepalive := 0, lastHeard := some 0, queue := [], nextNumber := 0, lost := 0,
    cause := none, joinedNow := 0 }

/-- A request of session 1 with tag 7. -/
def requestFor (type : RequestType) (payload : List Byte) : Request :=
  { session := 1, type := type.code, tag := 7, payload := payload }

/-- After reset at tick 1000: session 1 is OPEN on port A, session 2 on port B, both transmitters are idle. -/
def base : State :=
  { State.reset with
    now := 1000
    sessions := (State.reset.sessions.set 0 (openOn .a)).set 1 (openOn .b)
    portA := { PortCell.reset none with awaitsIdle := false }
    portB := { PortCell.reset none with awaitsIdle := false } }

/-- The state with this request waiting on port A. -/
def asking (s : State) (r : Request) : State :=
  { s with portA := { PortCell.reset none with awaitsIdle := false, inbound := [.waiting r] } }

/-- The status of the reply that port A has begun. -/
def State.begunStatus (s : State) : Option Status :=
  match s.portA.transmitter with
  | some { frame := .reply r, begun := _ } => some r.status
  | _ => none

/-- The state that a command leaves. -/
def State.after (s : State) (c : Instr) : State :=
  match exec c s with
  | .next t => t
  | .fault _ | .refused _ => s

/-- The status of the reply to a request of session 1 with this payload. -/
def statusTo (s : State) (type : RequestType) (payload : List Byte) : Option Status :=
  ((asking s (requestFor type payload)).after (type.command .a)).begunStatus

/-- A line leased to a session. -/
def State.lend (s : State) (l : LineId) (k : SessionId) : State :=
  s.setLease l { lease := some { holder := k, parting := .keep, granted := 0 }, queue := [] }

/-- A line leased to session 1 in this mode. -/
def State.lendIn (s : State) (l : LineId) (mode : Mode) : State :=
  (s.lend l 0).modLine l fun c => { c with mode := mode }

/-- A faulted line leased to session 1. -/
def State.lendFaulted (s : State) (l : LineId) : State :=
  (s.lend l 0).modLine l fun c => { c with fault := .contention 3 }

/-- A lease of a session, and a place in a claim queue that expires at tick 1000. -/
def leaseOf (k : SessionId) : Lease := { holder := k, parting := .low, granted := 0 }
def placeOf (k : SessionId) : Place := { session := k, parting := .high, expiry := some 1000 }

/-- A slot of session 1 in this state, with the entry of handle 5 at step 0 of its body. -/
def slotWith (state : SeqState) (body unwind : List Step) : Slot :=
  { state := state, owner := some 0, body := body, unwind := unwind, cursor := some (.body, 0), start := some 0,
    outcome := .none, reason := .none, failed := none, skipped := 0, handle := 5 }

/-- Slot 15 with this record, and this entry of session 1 on the Timeline, due at tick 1000. -/
def State.withRun (s : State) (r : Slot) (kind : EntryKind) : State :=
  ({ s with handleCounter := 5, admissionCounter := 1 }.setTimeline
    [{ handle := 5, owner := 0, due := 1000, admission := 1, kind := kind }]).modSlot 15 fun _ => r

/-- A SET step of line 23 to HIGH, an AWAIT of line 23 HIGH, a MARK. -/
def setStep : Step := { offset := 1, kind := .set 23 .high }
def awaitStep : Step := { offset := 1, kind := .await 23 .low 1000000 }
def markStep : Step := { offset := 1, kind := .mark 65535 }

/-- Generator 3 on line 23 of session 1, in this state. -/
def generatorIn (state : GenState) : Generator :=
  { state := state, owner := some 0, line := some 23, period := 2, high := 1, cycles := 1, rest := .low, start := some 998,
    completed := 0 }

/-- Line 23 leased to session 1 in PUSH mode, with generator 3 in this state. -/
def cadence (state : GenState) : State :=
  (base.lendIn 23 .push).modGenerator 3 fun _ => generatorIn state

/-- A watch of session 1 on line 23. -/
def watchIn (kind : WatchKind) (state : WatchState) : Watch :=
  { session := 0, line := 23, kind := kind, state := state, first := none, last := none, coalesce := 65535, running := 1,
    overrun := 65535 }

/-- Line 23 with this raw level, and a filter change that started at tick 996. -/
def changing (v : Level) : State :=
  base.modLine 23 fun c => { c with raw := v, sensed := (match v with | .low => .high | .high => .low), change := some 996 }

/-- A filter change that ends at tick 1000, with this watch. -/
def watched (kind : WatchKind) (state : WatchState) : State :=
  (changing .low).setWatch 31 (some (watchIn kind state))

/-! ## Well-formedness -/

theorem test_wellFormed_refuses_no_bytes : (Instr.frameReceived .a []).wellFormed = false := by decide

theorem test_wellFormed_refuses_too_many_bytes : (Instr.frameReceived .a (List.replicate 125 0)).wellFormed = false := by
  decide

theorem test_wellFormed_admits :
    (Instr.frameReceived .b (List.replicate 124 0)).wellFormed = true ∧ Instr.nrstAssert.wellFormed = true := by decide

/-! ## The invariants -/

/-- A state with no generator, no Timeline entry and no step record in use, such as `base`, meets the premises that statements
name. -/
theorem test_base_meets_premises : SessionsOk base ∧ TimelineOk base ∧ AdmissionsOk base ∧ BoundOk base ∧ PoolOk base := by
  refine ⟨?_, ?_, ?_, ?_, ?_⟩
  · unfold SessionsOk; decide
  · unfold TimelineOk; decide
  · unfold AdmissionsOk; decide
  · unfold BoundOk; decide
  · unfold PoolOk; decide

theorem test_base_meets_lines : LinesOk base := by
  unfold LinesOk LineCell.Ok; decide

theorem test_base_meets_ports : WorkConserving base ∧ InboundOk base := by
  constructor
  · intro p _; cases p <;> decide
  · intro p; cases p <;> decide

/-- Claim queues in order: none, and a held line with one waiter. -/
theorem test_meets_LeasesOk :
    LeasesOk base ∧ LeasesOk (base.setLease 23 { lease := some (leaseOf 1), queue := [placeOf 0] }) := by
  constructor <;> (unfold LeasesOk; decide)

/-- Slot 15 in a run with the entry of handle 5, beside entries that name no slot. -/
theorem test_meets_RunsOk {s : State} {r : Slot} {kind : EntryKind} {others : List Entry}
    (slots : ∀ j : SlotId, j ≠ 15 → s.slots[j] = Slot.free) (slot : s.slots[(15 : SlotId)] = r)
    (timeline : s.timeline = { handle := 5, owner := 0, due := 1000, admission := 1, kind := kind } :: others)
    (alone : ∀ e ∈ others, ∀ i : SlotId, ¬e.kind.names i) (run : r.RunEntry 15 kind)
    (names : ∀ i : SlotId, kind.names i → i = 15) (owner : r.owner = some 0) (handle : r.handle = 5) (live : r.inRun = true)
    (body : r.body ≠ [])
    (session : s.sessions[(0 : SessionId)].state = .opened ∨
      s.sessions[(0 : SessionId)].state = .closing ∧ r.inBody = false) : RunsOk s := by
  have free : Slot.free.inRun = false := rfl
  have state : r.state ≠ .empty := fun e => by simp [Slot.inRun, Slot.inBody, e] at live
  refine ⟨fun i h => ?_, fun i e he hn => ?_, fun i h => ?_, fun i h => ?_, fun i h => ?_, fun i h => ?_, fun i k h => ?_⟩ <;>
    by_cases e15 : i = 15
  · subst e15
    rw [timeline, slot]
    exact ⟨_, List.mem_cons_self .., handle.symm, owner, run⟩
  · rw [slots i e15, free] at h; cases h
  · subst e15
    rw [slot]
    rw [timeline] at he
    rcases List.mem_cons.mp he with rfl | he
    · exact ⟨live, handle.symm⟩
    · exact absurd hn (alone e he _)
  · rw [timeline] at he
    rcases List.mem_cons.mp he with rfl | he
    · exact absurd (names i hn) e15
    · exact absurd hn (alone e he _)
  · subst e15; rw [slot, live] at h; cases h
  · rw [slots i e15]; exact ⟨rfl, rfl⟩
  · subst e15; rw [slot] at h; exact absurd h state
  · exact slots i e15
  · subst e15; rw [slot, owner]; simp
  · rw [slots i e15] at h; exact absurd rfl h
  · subst e15; rw [slot]; exact fun _ => body
  · rw [slots i e15] at h; exact absurd rfl h
  · subst e15
    rw [slot, owner] at h
    cases h
    rw [slot]
    rcases session with c | c
    · exact ⟨by rw [c]; decide, fun _ => c⟩
    · exact ⟨by rw [c.1]; decide, fun h => by rw [c.2] at h; cases h⟩
  · rw [slots i e15] at h; cases h

/-- Sixteen watches of session 1, on lines 0 to 15. -/
def sixteenWatches : State :=
  { base with watches := Vector.ofFn fun w : WatchId =>
      if h : w.val < 16 then some { watchIn (.edge .rise) .armed with line := ⟨w.val, by omega⟩, coalesce := 0, overrun := 0 }
      else none }

theorem test_meets_WatchesOk : WatchesOk base ∧ WatchesOk sixteenWatches := by
  have none : ∀ w : WatchId, base.watches[w] = none := by decide
  have at_ : ∀ w : WatchId, sixteenWatches.watches[w] = if h : w.val < 16 then
      some { watchIn (.edge .rise) .armed with line := ⟨w.val, by omega⟩, coalesce := 0, overrun := 0 } else .none := fun w => by
    simp only [sixteenWatches, Fin.getElem_fin, Vector.getElem_ofFn]
  refine ⟨⟨by decide, fun v w x y h => ?_, fun w x h => ?_⟩, ⟨by decide, fun v w x y hx hy _ hl => ?_, fun w x h => ?_⟩⟩
  · rw [none] at h; cases h
  · rw [none] at h; cases h
  · rw [at_] at hx hy
    split at hx
    · split at hy
      · cases hx; cases hy
        exact Fin.ext (by simpa using hl)
      · cases hy
    · cases hx
  · rw [at_] at h
    split at h
    · cases h
      simp [watchIn, Config.max16]
      rfl
    · cases h

/-- A state with a premise and a next state: the hypotheses of the statements about every step. -/
theorem test_base_steps : ∃ t : State, step base = .next t := by
  refine ⟨base.advance, ?_⟩
  have live : base.heldInReset = false := rfl
  have nothing : base.dueEvent = none := by decide
  have known : base.unknownRequest .a = false ∧ base.unknownRequest .b = false := by decide
  show base.idle = _
  simp [State.idle, live, nothing, known.1, known.2]

theorem test_cadence_meets_BoundOk : BoundOk (cadence .stopped) ∧ BoundOk (cadence (.running 998 true)) := by
  constructor <;> (unfold BoundOk; decide)

/-! ## The machine -/

/-- StepRunsFrontCommand, EveryRequestIsAnswered and each statement about a request: the hypotheses hold of `asking`. -/
theorem test_takes (s : State) (type : RequestType) (payload : List Byte) (live : s.heldInReset = false)
    (opened : s.sessions[(0 : SessionId)].state = .opened) (bound : s.sessions[(0 : SessionId)].port = some .a) :
    (asking s (requestFor type payload)).Takes .a type 0 (requestFor type payload) payload := by
  refine ⟨?_, rfl, rfl, ?_⟩
  · simp [asking, State.takeable, State.port, live, PortCell.reset, answeredReply, oldestWaiting]
  · have h : sessionOf (requestFor type payload).session = some 0 := rfl
    simp only [State.speaker, h]
    exact if_pos ⟨opened, bound⟩

/-- The same for any request that waits, whatever session it names. -/
theorem test_takeable (s : State) (r : Request) (live : s.heldInReset = false) : (asking s r).takeable .a = some r := by
  simp [asking, State.takeable, State.port, live, PortCell.reset, answeredReply, oldestWaiting]

/-- A request that waits touches none of the premises that the statements about requests name. -/
theorem test_asking_keeps_premises (s : State) (r : Request)
    (h : BoundOk s ∧ TimelineOk s ∧ SessionsOk s ∧ RunsOk s ∧ LeasesOk s ∧ WatchesOk s) :
    BoundOk (asking s r) ∧ TimelineOk (asking s r) ∧ SessionsOk (asking s r) ∧ RunsOk (asking s r) ∧ LeasesOk (asking s r) ∧
      WatchesOk (asking s r) := h

theorem test_base_live : base.heldInReset = false ∧ base.sessions[(0 : SessionId)].state = .opened ∧
    base.sessions[(0 : SessionId)].port = some .a := by decide

theorem test_step_front : ({ base with pending := [.time .b, .nrstAssert] } : State).pending = .time .b :: [.nrstAssert] := rfl

theorem test_step_clauses :
    base.dueEvent = none ∧ base.unknownRequest .a = false ∧ base.unknownRequest .b = false ∧ base.now ≠ BitVec.allOnes 64 ∧
      (asking base (requestFor .time [])).dueEvent = some (.time .a) ∧ (base.after .nrstAssert).heldInReset = true := by decide

theorem test_dispatch_clauses :
    statusTo base .time [0] = some .badLength ∧ statusTo base .seqAdd (List.replicate 13 0) = some .badLength ∧
      ((asking base { requestFor .time [] with session := 2 }).after (.time .a)).begunStatus = some .noSession ∧
      ((asking base { requestFor .time [] with session := 0 }).after (.time .a)).begunStatus = some .noSession ∧
      ((asking base { requestFor .time [] with session := 5 }).after (.time .a)).begunStatus = some .noSession := by decide

/-- A request of no known type, for a port that is taken next, and a known one that waits on the other port. -/
theorem test_unknown_clauses :
    let r : Request := { requestFor .time [] with type := 0x7F }
    (∀ type : RequestType, r.type ≠ type.code) ∧ (asking base r).dueEvent = none ∧
      ((asking base r).takeUnknown .a).begunStatus = some .badType := by
  refine ⟨fun type => by cases type <;> decide, by decide⟩

/-- A notice made at a tick waits for the tick's end, and is begun there. -/
theorem test_notice_waits :
    let s := (base.notify 0 (.claimLapsed 0 0)).settle
    s.portA.transmitter = none ∧ s.sessions[(0 : SessionId)].joinedNow = 1 ∧ s.endTick.portA.transmitter.isSome = true := by
  decide

/-! ## Full reset -/

/-- Port A sends the reply to an accepted RESTART. -/
def restarting : State :=
  base.modPort .a fun c => { c with transmitter := some { frame := .reply ((Answer.plain .ok).reply (requestFor .restart []) 0),
                                                          begun := 900 } }

theorem test_reset_clauses :
    (∃ x r, (restarting.port .a).transmitter = some x ∧ x.frame = .reply r ∧ r.type = 0x0C#8 ∧ r.status = .ok ∧
      x.ends restarting.baud ≤ restarting.tick) ∧
      (restarting.after (.frameSent .a .low)).baud = .b115200 ∧ (base.after (.powerUp .high)).now = 0 ∧
      ((base.after .nrstAssert).after (.nrstRelease .high)).heldInReset = false := by
  refine ⟨⟨_, _, rfl, rfl, rfl, rfl, by decide⟩, ?_⟩
  decide

/-! ## Sessions -/

theorem test_open_clauses :
    ((asking base { requestFor .openSession [0, 0] with session := 0 }).after (.openSession .a)).sessions[(2 : SessionId)].state
        = .opened ∧
      ((asking base { requestFor .openSession [10, 0] with session := 0 }).after (.openSession .a)).begunStatus = some .ok ∧
      ((asking base { requestFor .openSession [96, 234] with session := 0 }).after (.openSession .a)).begunStatus = some .ok ∧
      ((asking base { requestFor .openSession [97, 234] with session := 0 }).after (.openSession .a)).begunStatus
        = some .badField ∧
      ((asking base { requestFor .openSession [9, 0] with session := 0 }).after (.openSession .a)).begunStatus
        = some .badField ∧
      statusTo base .openSession [0, 0] = some .badField ∧
      ((asking { base with sessions := Vector.replicate 4 (openOn .b) }
        { requestFor .openSession [0, 0] with session := 0 }).after (.openSession .a)).begunStatus = some .sessionFull := by
  decide

/-- Session 1 with a keepalive interval of 10 ms, heard at tick 0, at this tick. -/
def silent (now : BitVec 64) : State :=
  ({ base with now := now }).modSession 0 fun r => { r with keepalive := 10 }

theorem test_close_clauses :
    ((asking base (requestFor .closeSession [])).after (.closeSession .a)).sessions[(0 : SessionId)].state = .free ∧
      ((asking (base.withRun (slotWith .running [setStep] [markStep]) (.step 15 .body 0))
        (requestFor .closeSession [])).after (.closeSession .a)).sessions[(0 : SessionId)].state = .closing ∧
      ((silent 10000).after (.keepaliveLapse 0)).sessions[(0 : SessionId)].state = .free ∧
      ((silent 9999).after (.keepaliveLapse 0)).sessions[(0 : SessionId)].state = .opened ∧
      (base.after (.keepaliveLapse 0)).sessions[(0 : SessionId)].state = .opened := by decide

/-- A run in the body of slot 15 of session 1, with an unwind list. -/
def bodyRun : State :=
  base.withRun (slotWith .running [setStep] [markStep]) (.step 15 .body 0)

/-- No other slot is in use beside slot 15 of a state with a run. -/
theorem test_withRun_slots (s : State) (r : Slot) (kind : EntryKind) (h : s.slots = State.reset.slots) (j : SlotId) (hj : j ≠ 15) :
    (s.withRun r kind).slots[j] = Slot.free := by
  unfold State.withRun
  rw [State.modSlot_get_ne _ _ hj, State.setTimeline_slots]
  simp only [h]
  simp [State.reset]

/-- CloseAndLapseEndSession, BreakClosesSessions: a session with a run, and the conditions of a lapse. -/
theorem test_close_meets : BoundOk bodyRun ∧ TimelineOk bodyRun ∧ RunsOk bodyRun ∧ bodyRun.heldInReset = false ∧
    (bodyRun.port .a).awaitsIdle = false ∧ (silent 10000).sessions[(0 : SessionId)].lastHeard = some 0 ∧
    (silent 10000).sessions[(0 : SessionId)].port = some .a ∧ 0 + 10 * 1000 ≤ (silent 10000).tick := by
  refine ⟨?_, ?_, ?_, by decide⟩
  · unfold BoundOk; decide
  · unfold TimelineOk; decide
  · refine test_meets_RunsOk (test_withRun_slots _ _ _ rfl) (State.modSlot_get_same _ _ _) rfl (by simp)
      (.inr (.inl ⟨0, by decide, rfl, .inl ⟨rfl, rfl⟩⟩)) ?_ rfl rfl rfl (List.cons_ne_nil _ _) (.inl rfl)
    rintro i (⟨_, _, h⟩ | ⟨_, _, h⟩)
    · simp at h; exact h.1.symm
    · simp at h

/-- On an idle transmitter the reply to CLOSE is begun before the ENDED frame of the session is made (R146, R168). -/
theorem test_close_reply_first :
    statusTo base .closeSession [] = some .ok ∧
      ((asking base (requestFor .closeSession [])).after (.closeSession .a)).portA.frames = [.ended 0 .closed] := by decide

/-- Port A sends a STARTUP frame while session 1 closes. -/
def busyClose : State :=
  (asking base (requestFor .closeSession [])).modPort .a fun c =>
    { c with transmitter := some { frame := .port (.startup .power .b1000000), begun := 0 } }

/-- On a busy transmitter both wait, and the port frame is the next (R168; log 32). -/
theorem test_close_busy :
    (busyClose.after (.closeSession .a)).portA.frames = [.ended 0 .closed] ∧
      answeredReply (busyClose.after (.closeSession .a)).portA.inbound =
        some ((Answer.plain .ok).reply (requestFor .closeSession []) 1000) ∧
      ((busyClose.after (.closeSession .a)).after (.frameSent .a .high)).portA.transmitter =
        some { frame := .port (.ended 0 .closed), begun := 1000 } := by decide

theorem test_break_clauses :
    (base.after (.breakLine .a)).sessions[(0 : SessionId)].state = .free ∧
      ((base.withRun (slotWith .running [setStep] [markStep]) (.step 15 .body 0)).after
        (.breakLine .a)).sessions[(0 : SessionId)].cause = some .brk ∧
      (base.after (.breakLine .a)).sessions[(1 : SessionId)].state = .opened ∧
      ((base.modPort .a fun c => { c with brk := 65535 }).after (.breakLine .a)).portA.brk = 65535 := by decide

/-- Port A has taken a TIME at this tick and, its transmitter being idle, begun the reply. -/
def justAnswered : State :=
  (asking base (requestFor .time [])).after (.time .a)

/-- Port A has so accepted a RESTART, and begun the reply. -/
def justRestarting : State :=
  (asking (base.modSession 1 fun _ => Session.free) (requestFor .restart [])).after (.restart .a)

/-- A break discards the reply to a request taken at its tick, and no other reply under way (R171, R174). -/
theorem test_break_discards_reply :
    justAnswered.begunStatus = some .ok ∧
      (justAnswered.after (.breakLine .a)).portA.transmitter =
        some { frame := .port (.ended 0 .brk), begun := 1000 } ∧
      (({ justAnswered with now := 1001 } : State).after (.breakLine .a)).begunStatus = some .ok ∧
      ((restarting.modPort .a fun c => { c with stopped := true }).after (.breakLine .a)).portA.stopped = true := by decide

/-- After a break at the tick of an accepted RESTART the port takes requests again, and no reset follows (R174). -/
theorem test_break_undoes_restart :
    justRestarting.portA.stopped = true ∧ justRestarting.begunStatus = some .ok ∧
      (justRestarting.after (.breakLine .a)).portA.stopped = false ∧
      (justRestarting.after (.breakLine .a)).portA.transmitter = some { frame := .port (.ended 0 .brk), begun := 1000 } := by decide

/-- Sessions 1 and 3 on port A, session 2 on port B; session 1 holds line 23, sessions 3 and 2 wait for it. -/
def contested : State :=
  ({ base with sessions := base.sessions.set 2 (openOn .a) }).setLease 23
    { lease := some (leaseOf 0), queue := [placeOf 2, placeOf 1] }

/-- A break of port A grants the line to the waiter on port B (R41, R159), and both ENDED frames are made. -/
theorem test_break_grants_other_port :
    (contested.after (.breakLine .a)).leases[(23 : LineId)].lease.map Lease.holder = some 1 ∧
      (contested.after (.breakLine .a)).portA.frames = [.ended 2 .brk] ∧
      ((contested.after (.breakLine .a)).portA.transmitter.map Transmission.frame) = some (.port (.ended 0 .brk)) := by decide

/-! ## Requests that change nothing -/

theorem test_reports_clauses :
    statusTo base .time [] = some .ok ∧ statusTo base .ping [] = some .ok ∧ statusTo base .status [] = some .ok ∧
      statusTo base .info [] = some .ok ∧ statusTo base .portstat [] = some .ok ∧ statusTo base .snapshot [] = some .ok ∧
      statusTo base .read [24] = some .badField ∧ statusTo base .read [23] = some .ok ∧
      statusTo base .pendingList [255] = some .ok ∧
      statusTo base .seqQuery [16] = some .badField ∧ statusTo base .seqQuery [15] = some .ok ∧
      statusTo base .watchRead [32] = some .badField ∧ statusTo base .watchRead [31] = some .notFound ∧
      statusTo (watched (.edge .fall) .armed) .watchRead [31] = some .ok := by decide

theorem test_cadRead_clauses :
    statusTo base .cadRead [4] = some .badField ∧ statusTo base .cadRead [3] = some .ok ∧
      (generatorIn .stopped).nextEvent = none ∧ (generatorIn .pending).nextEvent = some (.rise 998) ∧
      (generatorIn (.running 998 false)).nextEvent = some (.fall 999) ∧
      (generatorIn (.running 998 true)).nextEvent = some (.finish 1000) ∧
      ({ generatorIn (.running 998 true) with cycles := 0 } : Generator).nextEvent = some (.rise 1000) := by decide

/-! ## Leases -/

theorem test_claim_clauses :
    statusTo base .claim [24, 0, 0, 0] = some .badField ∧ statusTo base .claim [23, 4, 0, 0] = some .badField ∧
      statusTo base .claim [23, 3, 0, 0] = some .ok ∧ statusTo (base.lend 23 0) .claim [23, 0, 0, 0] = some .already ∧
      statusTo (base.lend 23 1) .claim [23, 0, 0, 0] = some .held ∧
      statusTo (base.lend 23 1) .claim [23, 0, 255, 255] = some .queued ∧
      statusTo (base.setLease 23 { lease := some (leaseOf 1), queue := [placeOf 0] }) .claim [23, 0, 1, 0]
        = some .duplicate := by decide

theorem test_withdraw_clauses :
    statusTo base .withdraw [24] = some .badField ∧ statusTo base .withdraw [23] = some .notFound ∧
      statusTo (base.setLease 23 { lease := some (leaseOf 1), queue := [placeOf 0] }) .withdraw [23] = some .ok := by decide

theorem test_expiry_clauses :
    ((base.setLease 23 { lease := some (leaseOf 1), queue := [placeOf 0] }).after (.claimExpiry 23 0)).leases[(23 : LineId)]
        = { lease := some (leaseOf 1), queue := [] } := by decide

theorem test_expiry_meets :
    let s := base.setLease 23 { lease := some (leaseOf 1), queue := [placeOf 0] }
    placeOf 0 ∈ s.leases[(23 : LineId)].queue ∧ (placeOf 0).expiry = some 1000 ∧ 1000 ≤ s.tick ∧
      ∀ q ∈ s.leases[(23 : LineId)].queue, q.session = 0 → q = placeOf 0 := by decide

/-- Line 23 held and in use: a one-shot, a bound generator and a sequence. -/
def inUse : State :=
  ((cadence (.running 998 true)).withRun (slotWith .running [setStep] []) (.step 15 .body 0)).setTimeline
    [{ handle := 5, owner := 0, due := 1000, admission := 1, kind := .step 15 .body 0 },
     { handle := 4, owner := 0, due := 2000, admission := 0, kind := .oneshot 23 .high }]

theorem test_release_clauses :
    statusTo base .release [24, 0] = some .badField ∧ statusTo base .release [23, 2] = some .badField ∧
      statusTo base .release [23, 1] = some .notHolder ∧ statusTo (base.lend 23 0) .release [23, 1] = some .ok ∧
      statusTo inUse .release [23, 0] = some .inUse ∧ statusTo inUse .release [23, 1] = some .ok ∧
      ((base.setLease 23 { lease := some (leaseOf 0), queue := [placeOf 1] }).endLease 23).holder 23 = some 1 := by decide

theorem test_forced_release_meets :
    let s := asking inUse (requestFor .release [23, 1])
    BoundOk s ∧ TimelineOk s ∧ RunsOk s ∧ s.usedBy 0 23 ∧ s.holder 23 = some 0 := by
  refine ⟨?_, ?_, ?_, Or.inr (Or.inl ⟨3, by decide, by decide⟩), by decide⟩
  · unfold BoundOk; decide
  · unfold TimelineOk; decide
  · have slot : inUse.slots[(15 : SlotId)] = slotWith .running [setStep] [] := by
      unfold inUse; rw [State.setTimeline_slots]; exact State.modSlot_get_same _ _ _
    refine test_meets_RunsOk (test_withRun_slots _ _ _ rfl) slot rfl ?_
      (.inr (.inl ⟨0, by decide, rfl, .inl ⟨rfl, rfl⟩⟩)) ?_ rfl rfl rfl (List.cons_ne_nil _ _) (.inl rfl)
    · intro e he i h
      simp at he; subst he
      rcases h with ⟨_, _, h⟩ | ⟨_, _, h⟩ <;> simp at h
    · rintro i (⟨_, _, h⟩ | ⟨_, _, h⟩)
      · simp at h; exact h.1.symm
      · simp at h

/-! ## Lines -/

theorem test_setup_clauses :
    statusTo base .setup [24, 0, 0, 0, 1, 1, 0, 0] = some .badField ∧
      statusTo base .setup [23, 0, 0, 0, 1, 1, 0, 0] = some .notHolder ∧
      statusTo (base.lend 23 0) .setup [23, 4, 0, 0, 1, 1, 0, 0] = some .badField ∧
      statusTo (base.lend 23 0) .setup [23, 0, 0, 0, 16, 1, 0, 0] = some .badField ∧
      statusTo (base.lend 16 0) .setup [16, 3, 1, 255, 15, 255, 1, 1] = some .mode ∧
      statusTo (base.lend 15 0) .setup [15, 3, 1, 255, 15, 255, 1, 1] = some .ok ∧
      statusTo (base.lendFaulted 23) .setup [23, 1, 0, 0, 1, 1, 0, 0] = some .lineFault ∧
      statusTo (base.lendFaulted 23) .setup [23, 0, 0, 0, 1, 1, 0, 0] = some .ok ∧
      statusTo (cadence .stopped) .setup [23, 0, 0, 0, 1, 1, 0, 0] = some .lineBound := by decide

theorem test_drive_clauses :
    statusTo base .drive [24, 0] = some .badField ∧ statusTo base .drive [23, 2] = some .badField ∧
      statusTo base .drive [23, 1] = some .notHolder ∧
      statusTo (base.lendFaulted 23) .drive [23, 1] = some .lineFault ∧
      statusTo (base.lend 0 0) .drive [0, 0] = some .mode ∧
      statusTo (base.lendIn 23 .push) .drive [23, 0] = some .ok := by decide

theorem test_clear_clauses :
    statusTo base .clear [24] = some .badField ∧ statusTo base .clear [23] = some .notHolder ∧
      statusTo (base.lendFaulted 23) .clear [23] = some .ok := by decide

/-- A line cell in this mode with LOW commanded. -/
def lowIn (mode : Mode) : LineCell :=
  { LineCell.reset .high with mode := mode, commanded := .low, window := some 9 }

theorem test_cell_clauses :
    ((lowIn .assist).writeLevel 7 .high).phase = .driving 9 ∧ ((lowIn .push).writeLevel 7 .high).window = none ∧
      ((lowIn .push).writeLevel 7 .low).window = some 9 ∧
      ({ lowIn .push with sensed := .low }.writeLevel 7 .high).window = some 7 ∧
      ((lowIn .push).applyParting 7 .float).mode = .input ∧ ((lowIn .push).applyParting 7 .low).window = some 9 ∧
      ((lowIn .sink).applyParting 7 .low).window = some 7 ∧ (lowIn .sink).pin = .drivenLow ∧
      (LineCell.reset .high).pin = .pulledHigh ∧ ({ LineCell.reset .high with pull := false }).pin = .floating ∧
      ({ LineCell.reset .high with mode := .push }).pin = .drivenHigh := by decide

theorem test_line_event_clauses :
    ((base.after (.rawLevelChange 23 .low)).lines[(23 : LineId)].change = some 1000) ∧
      ((base.modLine 23 fun c => { c with mode := .push, window := some 980 }).after
        (.contentionFault 23)).lines[(23 : LineId)].fault = .contention 1000 ∧
      ((base.modLine 23 fun c => { c with mode := .push, window := some 981 }).after
        (.contentionFault 23)).lines[(23 : LineId)].fault = .none ∧
      ((base.modLine 0 fun c => { c with mode := .assist, phase := .driving 1000 }).after
        (.assistBurstEnd 0)).lines[(0 : LineId)].phase = .idle ∧
      ((base.modLine 0 fun c => { c with mode := .assist, phase := .driving 1001 }).after
        (.assistBurstEnd 0)).lines[(0 : LineId)].phase = .driving 1001 := by decide

/-- What watch 31 becomes at the edge. -/
def watchAfter (kind : WatchKind) (state : WatchState) : Option Watch :=
  ((watched kind state).after (.sensedEdge 23)).watches[(31 : WatchId)]

theorem test_edge_clauses :
    ((changing .low).after (.sensedEdge 23)).lines[(23 : LineId)].sensed = .low ∧
      (watchAfter (.edge .fall) .armed).map Watch.state = some .pending ∧
      watchAfter (.edge .rise) .armed = some (watchIn (.edge .rise) .armed) ∧
      (watchAfter (.level .low) .pending).map Watch.last = some (some 1000) ∧
      (watchAfter (.count .both 2) .armed).map Watch.running = some 0 ∧
      (watchAfter (.count .both 3) .armed).map Watch.running = some 2 ∧
      (watchAfter (.count .both 3) .pending).map Watch.running = some 2 ∧
      (watchAfter (.count .both 2) .pending).map Watch.overrun = some 65535 := by decide

/-- A sensed edge and then the CLOSE of the watch's session at one tick: no WATCH.HIT is sent (R138, R157). -/
theorem test_edge_then_close :
    let s := (asking (watched (.edge .fall) .armed) (requestFor .closeSession [])).after (.sensedEdge 23)
    s.sessions[(0 : SessionId)].queue.length = 1 ∧ s.portA.transmitter = none ∧
      (s.after (.closeSession .a)).begunStatus = some .ok ∧
      (s.after (.closeSession .a)).sessions[(0 : SessionId)].queue = [] := by decide

/-- Slot 15 waits for line 23 to be LOW. -/
def awaiting (rest : List Step) : State :=
  (changing .low).withRun (slotWith .awaiting (awaitStep :: rest) []) (.deadline 15 .body 0)

theorem test_await_clauses :
    ((awaiting []).after (.sensedEdge 23)).slots[(15 : SlotId)].state = .done ∧
      ((awaiting [markStep]).after (.sensedEdge 23)).slots[(15 : SlotId)].cursor = some (.body, 1) ∧
      ∀ i j : SlotId, (awaiting []).slots[i].inRun = true → (awaiting []).slots[j].inRun = true →
        (awaiting []).slots[i].handle = (awaiting []).slots[j].handle → i = j := by decide

/-! ## The Timeline -/

theorem test_handle_clauses :
    ({ base with handleCounter := 65535 }).nextHandle = 1 ∧ ({ base with handleCounter := 65534 }).nextHandle = 65535 ∧
      ({ (base.withRun Slot.free (.oneshot 0 .low)) with handleCounter := 4 }).nextHandle = 6 := by decide

theorem test_when_clauses :
    whenOf [0, 9, 9, 9, 9, 9, 9, 9, 9] 0 = some .now ∧ whenOf [1, 0, 1, 0, 0, 9, 9, 9, 9] 0 = some (.after 256) ∧
      whenOf [2, 0, 0, 0, 0, 1, 0, 0, 0] 0 = some (.at_ 4294967296) ∧ whenOf [3, 0, 0, 0, 0, 0, 0, 0, 0] 0 = none ∧
      whenStatus 1000 999 = some .late ∧ whenStatus 1000 1000 = none ∧ whenStatus 1000 4294968295 = none ∧
      whenStatus 1000 4294968296 = some .horizon := by decide

/-- An AT request for this line and level, with this form of `when` and value byte. -/
def atPayload (l v form value : Byte) : List Byte := [l, v, form, value, 0, 0, 0, 0, 0, 0, 0]

/-- A Timeline with all places used. -/
def fullTimeline (s : State) : State :=
  s.setTimeline ((List.range 64).map fun n => { handle := n + 1, owner := 1, due := 2000, admission := BitVec.ofNat 64 n, kind := .oneshot 0 .low })

theorem test_at_clauses :
    statusTo base .atEdge (atPayload 24 0 0 0) = some .badField ∧ statusTo base .atEdge (atPayload 23 0 3 0) = some .badField ∧
      statusTo base .atEdge (atPayload 23 0 0 0) = some .notHolder ∧
      statusTo (base.lendFaulted 23) .atEdge (atPayload 23 0 0 0) = some .lineFault ∧
      statusTo (base.lend 23 0) .atEdge (atPayload 23 0 0 0) = some .mode ∧
      statusTo (base.lendIn 23 .push) .atEdge (atPayload 23 1 2 255) = some .late ∧
      statusTo (fullTimeline (base.lendIn 23 .push)) .atEdge (atPayload 23 1 1 1) = some .timelineFull ∧
      statusTo (base.lendIn 23 .push) .atEdge (atPayload 23 0 0 0) = some .ok := by decide

theorem test_at_admits :
    ((asking (base.lendIn 23 .push) (requestFor .atEdge (atPayload 23 0 1 1))).after (.atEdge .a)).timeline.length = 1 ∧
      ((asking (base.lendIn 23 .push) (requestFor .atEdge (atPayload 23 0 0 0))).after
        (.atEdge .a)).lines[(23 : LineId)].commanded = .low := by decide

theorem test_cancel_clauses :
    statusTo base .cancel [5, 0] = some .notFound ∧ statusTo base .cancel [0, 0] = some .notFound ∧
      statusTo ((base.withRun Slot.free (.oneshot 0 .low)).setTimeline
        [{ handle := 5, owner := 1, due := 2000, admission := 1, kind := .oneshot 0 .low }]) .cancel [5, 0] = some .notFound ∧
      statusTo (base.withRun Slot.free (.step 15 .body 0)) .cancel [5, 0] = some .kind ∧
      statusTo (base.withRun Slot.free (.oneshot 0 .low)) .cancel [5, 0] = some .ok := by decide

theorem test_oneshot_clauses :
    (((base.lendIn 23 .push).withRun Slot.free (.oneshot 23 .low)).after .oneshotDue).lines[(23 : LineId)].commanded = .low ∧
      ((base.withRun Slot.free (.oneshot 23 .low)).after .oneshotDue).sessions[(0 : SessionId)].queue.length = 1 ∧
      (((base.lendFaulted 23).withRun Slot.free (.oneshot 23 .low)).after .oneshotDue).timeline = [] ∧
      (({ base with now := 999 }.withRun Slot.free (.oneshot 23 .low)).after .oneshotDue).timeline.length = 1 := by decide

theorem test_oneshot_meets :
    let s := (base.lendIn 23 .push).withRun Slot.free (.oneshot 23 .low)
    BoundOk s ∧ TimelineOk s ∧
      s.timeline = { handle := 5, owner := 0, due := 1000, admission := 1, kind := .oneshot 23 .low } :: [] := by
  refine ⟨?_, ?_, rfl⟩
  · unfold BoundOk; decide
  · unfold TimelineOk; decide

/-! ## Sequences -/

/-- Slot 15 with this record. -/
def slotted (r : Slot) : State :=
  base.modSlot 15 fun _ => r

theorem test_seq_new_clauses :
    statusTo base .seqNew [] = some .ok ∧
      statusTo { base with slots := Vector.replicate 16 (slotWith .loading [] []) } .seqNew [] = some .slotsFull := by decide

theorem test_step_record_clauses :
    stepOf .body [1, 23, 1, 9, 64, 66, 15, 0, 9, 9, 9, 9] 0 = some { offset := 1000000, kind := .set 23 .high } ∧
      stepOf .body [1, 23, 1, 9, 65, 66, 15, 0, 9, 9, 9, 9] 0 = none ∧ stepOf .body [1, 24, 1, 0, 0, 0, 0, 0, 0, 0, 0, 0] 0 = none ∧
      stepOf .body [2, 23, 0, 0, 0, 0, 0, 0, 64, 66, 15, 0] 0 = some { offset := 0, kind := .await 23 .low 1000000 } ∧
      stepOf .body [2, 23, 0, 0, 0, 0, 0, 0, 0, 0, 0, 0] 0 = none ∧ stepOf .unwind [2, 23, 0, 0, 0, 0, 0, 0, 1, 0, 0, 0] 0 = none ∧
      stepOf .unwind [3, 99, 99, 0, 0, 0, 0, 0, 255, 255, 0, 0] 0 = some { offset := 0, kind := .mark 65535 } ∧
      stepOf .unwind [3, 0, 0, 0, 0, 0, 0, 0, 0, 0, 1, 0] 0 = none ∧ stepOf .body (List.replicate 12 0) 0 = none := by decide

/-- SEQ.ADD of one MARK step, or of one step of an unknown kind. -/
def addPayload (slot list kind : Byte) : List Byte := [slot, list, kind, 0, 0, 0, 0, 0, 0, 0, 0, 0, 0, 0]

theorem test_seq_add_clauses :
    statusTo base .seqAdd (addPayload 16 0 3) = some .badField ∧ statusTo base .seqAdd (addPayload 15 2 3) = some .badField ∧
      statusTo base .seqAdd (addPayload 15 0 3) = some .notFound ∧
      statusTo (slotted (slotWith .ready [] [])) .seqAdd (addPayload 15 0 3) = some .state ∧
      statusTo (slotted (slotWith .loading [] [])) .seqAdd (addPayload 15 0 4) = some .badField ∧
      statusTo (slotted (slotWith .loading (List.replicate 32 markStep) [])) .seqAdd (addPayload 15 0 3) = some .listFull ∧
      statusTo (slotted (slotWith .loading [] (List.replicate 8 markStep))) .seqAdd (addPayload 15 1 3) = some .listFull ∧
      statusTo ((slotted (slotWith .loading [] [])).setPoolFree 0) .seqAdd (addPayload 15 0 3) = some .poolFull ∧
      statusTo (slotted (slotWith .loading (List.replicate 31 markStep) [])) .seqAdd (addPayload 15 0 3) = some .ok := by decide

theorem test_seq_seal_clauses :
    statusTo base .seqSeal [16] = some .badField ∧ statusTo base .seqSeal [15] = some .notFound ∧
      statusTo (slotted (slotWith .ready [] [])) .seqSeal [15] = some .state ∧
      statusTo (slotted (slotWith .loading [] [])) .seqSeal [15] = some .sealFail ∧
      statusTo (slotted (slotWith .loading [setStep] [markStep, { markStep with offset := 1000000 }])) .seqSeal [15]
        = some .sealFail ∧
      statusTo (slotted (slotWith .loading [setStep] [{ markStep with offset := 1000000 }])) .seqSeal [15] = some .ok := by
  decide

/-- SEQ.START or CAD.RUN of this slot or generator, with this form of `when` and value byte. -/
def startPayload (n form value : Byte) : List Byte := [n, form, value, 0, 0, 0, 0, 0, 0, 0]

theorem test_seq_start_clauses :
    statusTo base .seqStart (startPayload 16 0 0) = some .badField ∧ statusTo base .seqStart (startPayload 15 0 0) = some .notFound ∧
      statusTo (slotted (slotWith .loading [setStep] [])) .seqStart (startPayload 15 0 0) = some .state ∧
      statusTo (slotted (slotWith .ready [setStep] [])) .seqStart (startPayload 15 0 0) = some .notHolder ∧
      statusTo (slotted (slotWith .ready [markStep] [])) .seqStart (startPayload 15 2 0) = some .late ∧
      statusTo (fullTimeline (slotted (slotWith .ready [markStep] []))) .seqStart (startPayload 15 0 0) = some .timelineFull ∧
      statusTo (slotted (slotWith .ready [markStep] [])) .seqStart (startPayload 15 0 0) = some .ok := by decide

theorem test_seq_start_runs :
    ((asking (slotted (slotWith .ready [markStep] [])) (requestFor .seqStart (startPayload 15 0 0))).after
        (.seqStart .a)).slots[(15 : SlotId)].state = .armed ∧
      ((asking ((base.lendIn 23 .push).modSlot 15 fun _ => slotWith .done [{ setStep with offset := 0 }] [])
        (requestFor .seqStart (startPayload 15 0 0))).after (.seqStart .a)).slots[(15 : SlotId)].state = .done := by decide

/-- A one-shot of session 1 due at this tick, and slot 15 with two body steps that fall due at it. -/
def startDue : State :=
  (((base.lendIn 23 .push).withRun (slotWith .done [{ setStep with offset := 0 }, { markStep with offset := 0 }] []))
    (.oneshot 23 .low))

/-- Several entries due now: each is taken, in order, before the reply to SEQ.START. -/
theorem test_seq_start_takes_all :
    let t := (asking startDue (requestFor .seqStart (startPayload 15 0 0))).after (.seqStart .a)
    t.timeline = [] ∧ t.slots[(15 : SlotId)].state = .done ∧ t.lines[(23 : LineId)].commanded = .high ∧
      t.sessions[(0 : SessionId)].queue.map Notice.body =
        [.seqMark 15 65535 1000, .seqEnd 15 .done .none none 0 1000] := by decide

/-- An entry due now is taken before the one that AT admits. -/
theorem test_at_takes_all :
    let t := (asking (startDue.modSlot 15 fun _ => Slot.free) (requestFor .atEdge (atPayload 23 1 0 0))).after (.atEdge .a)
    t.timeline = [] ∧ t.lines[(23 : LineId)].commanded = .high := by decide

/-- An unwind step due at the stop tick is taken before the reply to SEQ.STOP. -/
theorem test_seq_stop_takes_unwind :
    ((asking (base.withRun (slotWith .armed [setStep] [{ markStep with offset := 0 }]) (.step 15 .body 0))
      (requestFor .seqStop [15])).after (.seqStop .a)).slots[(15 : SlotId)].state = .cancelled := by decide

theorem test_seq_stop_clauses :
    statusTo base .seqStop [16] = some .badField ∧ statusTo base .seqStop [15] = some .notFound ∧
      statusTo (slotted (slotWith .done [] [])) .seqStop [15] = some .state ∧
      statusTo (base.withRun (slotWith .armed [setStep] [markStep]) (.step 15 .body 0)) .seqStop [15] = some .ok ∧
      statusTo (base.withRun (slotWith .awaiting [awaitStep] []) (.deadline 15 .body 0)) .seqStop [15] = some .ok := by decide

theorem test_seq_free_clauses :
    statusTo base .seqFree [16] = some .badField ∧ statusTo base .seqFree [15] = some .notFound ∧
      statusTo (slotted (slotWith .unwinding [] [])) .seqFree [15] = some .state ∧
      statusTo (slotted (slotWith .cancelled [setStep] [])) .seqFree [15] = some .ok := by decide

/-- What slot 15 becomes when its body step 0 falls due. -/
def bodyAfter (s : State) (body unwind : List Step) : SeqState :=
  ((s.withRun (slotWith .armed body unwind) (.step 15 .body 0)).after .stepDue).slots[(15 : SlotId)].state

theorem test_body_step_clauses :
    bodyAfter (base.lendFaulted 23) [setStep] [markStep] = .unwinding ∧ bodyAfter (base.lend 23 0) [setStep] [] = .faulted ∧
      bodyAfter (base.lendIn 23 .push) [setStep] [] = .done ∧ bodyAfter base [markStep, setStep] [] = .running ∧
      bodyAfter base [awaitStep] [] = .awaiting ∧
      bodyAfter base [{ awaitStep with kind := .await 23 .high 1 }] [] = .done := by decide

theorem test_body_step_meets :
    let s := (base.lendIn 23 .push).withRun (slotWith .armed [setStep] []) (.step 15 .body 0)
    BoundOk s ∧ TimelineOk s ∧ AdmissionsOk s ∧ RunsOk s ∧
      s.timeline = { handle := 5, owner := 0, due := 1000, admission := 1, kind := .step 15 .body 0 } :: [] ∧
      1000 ≤ s.tick ∧ s.slots[(15 : SlotId)].body[0]? = some setStep := by
  refine ⟨?_, ?_, ?_, ?_, rfl, by decide⟩
  · unfold BoundOk; decide
  · unfold TimelineOk; decide
  · unfold AdmissionsOk; decide
  · refine test_meets_RunsOk (test_withRun_slots _ _ _ rfl) (State.modSlot_get_same _ _ _) rfl (by simp)
      (.inl ⟨rfl, rfl, by decide, rfl⟩) ?_ rfl rfl rfl (List.cons_ne_nil _ _) (.inl rfl)
    rintro i (⟨_, _, h⟩ | ⟨_, _, h⟩)
    · simp at h; exact h.1.symm
    · simp at h

/-- What slot 15 becomes when its unwind step 0 falls due. -/
def unwindAfter (s : State) (unwind : List Step) : Slot :=
  ((s.withRun { slotWith .unwinding [] unwind with reason := .stopped, cursor := some (.unwind, 0) }
    (.step 15 .unwind 0)).after .stepDue).slots[(15 : SlotId)]

/-- A CLOSING session whose only run is at the last step of its unwind list. -/
def lastUnwind : State :=
  (base.modSession 0 fun r => { r with state := .closing, cause := some .closed }).withRun
    { slotWith .unwinding [setStep] [markStep] with cursor := some (.unwind, 0) } (.step 15 .unwind 0)

theorem test_unwind_meets :
    BoundOk lastUnwind ∧ SessionsOk lastUnwind ∧ TimelineOk lastUnwind ∧ RunsOk lastUnwind ∧
      lastUnwind.timeline = { handle := 5, owner := 0, due := 1000, admission := 1, kind := .step 15 .unwind 0 } :: [] ∧
      1000 ≤ lastUnwind.tick ∧ lastUnwind.sessions[(0 : SessionId)].state = .closing ∧
      lastUnwind.sessions[(0 : SessionId)].port = some .a ∧ lastUnwind.sessions[(0 : SessionId)].cause = some .closed ∧
      lastUnwind.slots[(15 : SlotId)].unwind[0]? = some markStep := by
  refine ⟨?_, ?_, ?_, ?_, rfl, by decide⟩
  · unfold BoundOk; decide
  · unfold SessionsOk; decide
  · unfold TimelineOk; decide
  · refine test_meets_RunsOk (test_withRun_slots _ _ _ rfl) (State.modSlot_get_same _ _ _) rfl (by simp)
      (.inr (.inr ⟨0, by decide, rfl, rfl, rfl⟩)) ?_ rfl rfl rfl (List.cons_ne_nil _ _) (.inr ⟨rfl, rfl⟩)
    rintro i (⟨_, _, h⟩ | ⟨_, _, h⟩)
    · simp at h; exact h.1.symm
    · simp at h

/-- The DEADLINE clause: an AWAIT whose time is up. -/
theorem test_deadline_meets :
    let s := base.withRun (slotWith .awaiting [awaitStep] []) (.deadline 15 .body 0)
    BoundOk s ∧ SessionsOk s ∧ TimelineOk s ∧ RunsOk s := by
  refine ⟨?_, ?_, ?_, ?_⟩
  · unfold BoundOk; decide
  · unfold SessionsOk; decide
  · unfold TimelineOk; decide
  · refine test_meets_RunsOk (test_withRun_slots _ _ _ rfl) (State.modSlot_get_same _ _ _) rfl (by simp)
      (.inr (.inl ⟨0, by decide, rfl, .inr ⟨rfl, rfl⟩⟩)) ?_ rfl rfl rfl (List.cons_ne_nil _ _) (.inl rfl)
    rintro i (⟨_, _, h⟩ | ⟨_, _, h⟩)
    · simp at h
    · simp at h; exact h.1.symm

theorem test_unwind_clauses :
    (unwindAfter base [setStep, markStep]).skipped = 1 ∧ (unwindAfter (base.lendIn 23 .push) [setStep]).skipped = 0 ∧
      (unwindAfter base [markStep]).state = .cancelled ∧
      ((base.withRun (slotWith .awaiting [awaitStep] []) (.deadline 15 .body 0)).after .deadlineDue).slots[(15 : SlotId)].state
        = .faulted ∧
      (lastUnwind.after .stepDue).sessions[(0 : SessionId)].state = .free ∧
      ((lastUnwind.modSlot 0 fun _ => { slotWith .unwinding [] [] with handle := 6 }).after
        .stepDue).sessions[(0 : SessionId)].state = .closing := by decide

/-! ## Watches -/

/-- WatchSetMakesWatch: the limit, and a second watch on a line, in states whose watches are in order. -/
theorem test_watch_set_limits :
    statusTo sixteenWatches .watchSet [23, 1, 1, 0, 0, 0] = some .watchFull ∧
      statusTo sixteenWatches .watchSet [15, 1, 1, 0, 0, 0] = some .duplicate := by decide

theorem test_watch_set_clauses :
    statusTo base .watchSet [24, 1, 1, 0, 0, 0] = some .badField ∧ statusTo base .watchSet [23, 0, 1, 0, 0, 0] = some .badField ∧
      statusTo base .watchSet [23, 1, 4, 0, 0, 0] = some .badField ∧ statusTo base .watchSet [23, 2, 0, 2, 0, 0] = some .badField ∧
      statusTo base .watchSet [23, 3, 3, 0, 0, 0] = some .badField ∧
      statusTo (watched (.edge .fall) .armed) .watchSet [23, 1, 1, 0, 0, 0] = some .duplicate ∧
      statusTo { base with watches := Vector.replicate 32 (some { watchIn (.edge .rise) .armed with session := 1 }) } .watchSet
        [23, 1, 1, 0, 0, 0] = some .watchFull ∧
      statusTo base .watchSet [23, 1, 3, 9, 9, 9] = some .ok ∧ statusTo base .watchSet [23, 2, 9, 1, 9, 9] = some .ok ∧
      statusTo base .watchSet [23, 3, 1, 9, 1, 0] = some .ok := by decide

theorem test_watch_ack_clauses :
    statusTo base .watchAck [32] = some .badField ∧ statusTo base .watchAck [31] = some .notFound ∧
      statusTo (watched (.edge .fall) .armed) .watchAck [31] = some .state ∧
      statusTo (watched (.edge .fall) .pending) .watchAck [31] = some .ok ∧
      statusTo (watched (.level .high) .pending) .watchAck [31] = some .ok ∧
      statusTo (base.setWatch 31 (some { watchIn (.edge .fall) .armed with session := 1 })) .watchAck [31] = some .notFound ∧
      statusTo base .watchDrop [32] = some .badField ∧ statusTo base .watchDrop [31] = some .notFound ∧
      statusTo (watched (.edge .fall) .armed) .watchDrop [31] = some .ok := by decide

/-! ## Generators -/

/-- CAD.SET of generator and line with this period and HIGH time, this rest level. -/
def cadPayload (g l period high rest : Byte) : List Byte := [g, l, period, 0, 0, 0, high, 0, 0, 0, 1, 0, rest]

theorem test_cad_set_clauses :
    statusTo base .cadSet (cadPayload 4 0 2 1 0) = some .badField ∧ statusTo base .cadSet (cadPayload 3 24 2 1 0) = some .badField ∧
      statusTo base .cadSet (cadPayload 3 23 2 1 3) = some .badField ∧
      statusTo (cadence .pending) .cadSet (cadPayload 3 23 2 1 0) = some .state ∧
      statusTo base .cadSet (cadPayload 3 23 2 1 0) = some .notHolder ∧
      statusTo (base.lendFaulted 23) .cadSet (cadPayload 3 23 2 1 0) = some .lineFault ∧
      statusTo (base.lend 23 0) .cadSet (cadPayload 3 23 2 1 0) = some .mode ∧
      statusTo (cadence .stopped) .cadSet (cadPayload 0 23 2 1 0) = some .lineBound ∧
      statusTo (cadence .stopped) .cadSet (cadPayload 3 23 2 2 0) = some .badField ∧
      statusTo (cadence .stopped) .cadSet (cadPayload 3 23 2 1 2) = some .ok := by decide

theorem test_cad_run_clauses :
    statusTo base .cadRun (startPayload 4 0 0) = some .badField ∧ statusTo base .cadRun (startPayload 3 0 0) = some .notFound ∧
      statusTo (cadence .pending) .cadRun (startPayload 3 0 0) = some .state ∧
      statusTo ((cadence .stopped).lendFaulted 23) .cadRun (startPayload 3 0 0) = some .lineFault ∧
      statusTo (cadence .stopped) .cadRun (startPayload 3 2 255) = some .late ∧
      ((asking (cadence .stopped) (requestFor .cadRun (startPayload 3 1 1))).after (.cadRun .a)).generators[(3 : GenId)].state
        = .pending ∧
      ((asking (cadence .stopped) (requestFor .cadRun (startPayload 3 0 0))).after (.cadRun .a)).generators[(3 : GenId)].state
        = .running 1000 false := by decide

theorem test_cad_hold_clauses :
    statusTo base .cadHold [4] = some .badField ∧ statusTo base .cadHold [3] = some .notFound ∧
      statusTo (cadence .stopped) .cadHold [3] = some .state ∧ statusTo (cadence .pending) .cadHold [3] = some .ok ∧
      statusTo (cadence (.running 998 true)) .cadHold [3] = some .ok ∧
      statusTo base .cadFree [4] = some .badField ∧ statusTo base .cadFree [3] = some .notFound ∧
      statusTo (cadence .pending) .cadFree [3] = some .state ∧ statusTo (cadence .stopped) .cadFree [3] = some .ok := by decide

theorem test_generator_tick_clauses :
    ((cadence .pending).after (.cadStart 3)).generators[(3 : GenId)].state = .running 998 false ∧
      ((cadence (.running 999 false)).after (.cadLowWrite 3)).generators[(3 : GenId)].state = .running 999 true ∧
      ((cadence (.running 998 true)).after (.cadCycleEnd 3)).generators[(3 : GenId)].state = .stopped ∧
      (((cadence (.running 998 true)).modGenerator 3 fun r => { r with cycles := 0 }).after
        (.cadCycleEnd 3)).generators[(3 : GenId)].state = .running 1000 false := by decide

/-! ## Ports -/

theorem test_restart_clauses :
    statusTo base .restart [] = some .othersOpen ∧
      statusTo (base.modSession 1 fun _ => Session.free) .restart [] = some .ok := by decide

/-- A whole TIME request of session 1: sync, LEN, CHAN, TYPE, TAG, CRC. -/
def timeFrame : List Byte :=
  frameBytes [0x11, 0x09, 0x07]

theorem test_reception_clauses :
    (base.after (.frameReceived .a timeFrame)).portA.inbound = [.waiting (requestFor .time [])] ∧
      (base.after (.frameReceived .a (frameBytes [0x21, 0x09, 0x07]))).portA.inbound = [] ∧
      (base.after (.frameReceived .a [0xD5, 3, 0x11, 9, 7, 0, 0])).portA.crc = 1 ∧
      (base.after (.frameReceived .a [0xD5, 2])).portA.length = 1 ∧
      (base.after (.frameReceived .a [0xD5, 121])).portA.length = 1 ∧
      (base.after (.frameReceived .a [0])).portA = base.portA ∧
      ((base.modPort .a fun c => { c with inbound := List.replicate 4 .sending }).after
        (.frameReceived .a timeFrame)).portA.overrun = 1 := by decide

theorem test_gap_clauses :
    ({ base.setReceiver .a (.length 0) with now := 1001 }.after (.gapTimeout .a)).portA.gap = 1 ∧
      ((base.setReceiver .a (.length 0)).after (.gapTimeout .a)).portA.gap = 0 ∧
      ((base.modPort .a fun c => { c with awaitsIdle := true }).after (.rxIdle .a)).portA.awaitsIdle = false := by decide

/-- Port B sends a STARTUP frame, and this waits. -/
def sending (frames : List PortFrame) (inbound : List InboundSlot) : State :=
  base.modPort .b fun c =>
    { c with frames := frames, inbound := inbound, transmitter := some { frame := .port (.startup .power .b1000000), begun := 0 } }

/-- A reply, the reply to a CLOSE and a notice that wait. -/
def waitingReply : Reply := (Answer.plain .ok).reply (requestFor .time []) 0
def closeReply : Reply := (Answer.plain .ok).reply (requestFor .closeSession []) 0
def waitingNotice : Notice := { number := 0, lost := 0, body := .claimLapsed 0 0 }

theorem test_frame_sent_clauses :
    ((sending [.ended 0 .closed] [.answered waitingReply]).after (.frameSent .b .high)).portB.frames = [] ∧
      ((sending [] [.answered waitingReply]).after (.frameSent .b .high)).portB.inbound = [.sending] ∧
      ((sending [] []).after (.frameSent .b .high)).portB.transmitter = none ∧
      (((sending [] []).modSession 1 fun r => { r with queue := [waitingNotice] }).after (.frameSent .b .high)).portB.roundRobin
        = 2 ∧
      (((sending [] []).modSession 1 fun r => { r with queue := [waitingNotice], joinedNow := 1 }).after
        (.frameSent .b .high)).portB.transmitter = none ∧
      ((sending [.ended 0 .closed] [.answered closeReply]).after (.frameSent .b .high)).portB.frames = [] ∧
      ((sending [.ended 0 .closed] [.answered closeReply]).after (.frameSent .b .high)).portB.inbound = [.answered closeReply] ∧
      ({ sending [] [] with now := 129 }.after (.frameSent .b .high)).portB.transmitter.isSome = true ∧
      ({ sending [] [] with now := 130 }.after (.frameSent .b .high)).portB.transmitter = none := by decide

/-- The TX pin: HIGH when idle, the start bit LOW, then the sync byte 0xD5 with its least significant bit first, the stop bit. -/
theorem test_tx_clauses :
    base.txPin .a = .high ∧ (List.range 11).map (fun n => ({ sending [] [] with now := BitVec.ofNat 64 n } : State).txPin .b) =
      [.low, .high, .low, .high, .low, .high, .low, .high, .high, .high, .low] := by decide

theorem test_notice_clauses :
    ((base.notify 0 (.claimLapsed 0 0)).sessions[(0 : SessionId)].nextNumber = 1) ∧
      (((base.modSession 0 fun r => { r with queue := List.replicate 32 waitingNotice, lost := 65535 }).notify 0
        (.claimLapsed 0 0)).sessions[(0 : SessionId)].lost = 65535) ∧
      ((base.notify 2 (.claimLapsed 0 0)).sessions[(2 : SessionId)].nextNumber = 0) := by decide

/-! ## A program's first commands -/

/-- From reset, with nothing placed, the first tick passes by itself. -/
theorem test_reset_has_nothing_due : State.reset.dueEvent = none := by decide

end Sys2Proof.Machine
end

section
/-! PROOFS. The invariant of the line cells (`LinesOk`, 01): each request and each event that writes to a line keeps every cell in
order, and so does every step. -/

namespace Sys2Proof.Machine

set_option Elab.async false

/-! ## Requests that write to lines -/

theorem field1_le (pl : List Byte) (i : Nat) : field1 pl i ≤ 255 :=
  Nat.le_of_lt_succ (pl.getD i 0).isLt

/-- The fields that SETUP takes are in range (R17 check 3). -/
theorem setupFieldsOf_inRange {pl : List Byte} {f : SetupFields} (h : setupFieldsOf pl = some f) :
    f.filter ≤ 255 ∧ 1 ≤ f.assist ∧ f.assist ≤ 15 ∧ 1 ≤ f.settle ∧ f.settle ≤ 255 := by
  unfold setupFieldsOf at h
  split at h
  · split at h
    · rename_i range
      obtain ⟨lo, hi, settle⟩ := range
      cases h
      exact ⟨field1_le pl 3, lo, hi, settle, field1_le pl 5⟩
    · cases h
  · cases h

/-- What SETUP can do: nothing but answer, or take fields that passed the checks of R17 which concern the cell. -/
theorem serveSetup_cases (k : SessionId) (pl : List Byte) (s : State) : (serveSetup k pl s).1 = s ∨
    ∃ (l : LineId) (f : SetupFields), setupFieldsOf pl = some f ∧ (f.mode = .assist → l.val < Config.assistLines) ∧
      (s.lines[l].faulted = true → f.mode = .input) ∧ (serveSetup k pl s).1 = s.applySetup l f := by
  unfold serveSetup
  split
  · exact .inl rfl
  · rename_i l _
    split
    · exact .inl rfl
    · split
      · exact .inl rfl
      · rename_i f hf
        split
        · exact .inl rfl
        · rename_i noAssist
          split
          · exact .inl rfl
          · rename_i noFault
            split
            · exact .inl rfl
            · exact .inr ⟨l, f, hf, fun hm => by_contra fun hl => noAssist ⟨hm, Nat.le_of_not_lt hl⟩,
                fun hx => by_contra fun hm => noFault ⟨hx, hm⟩, rfl⟩

theorem LinesOk.serveSetup {s : State} (h : LinesOk s) (k : SessionId) (pl : List Byte) :
    LinesOk (serveSetup k pl s).1 := by
  obtain e | ⟨l, f, hf, assist, fault, e⟩ := serveSetup_cases k pl s
  · rw [e]; exact h
  · rw [e]
    exact (h.modLine l fun ok => LineCell.setup_ok _ ok fault assist (setupFieldsOf_inRange hf)).of_changes
      (stopBound_changes _ _ _)

theorem LinesOk.serveDrive {s : State} (h : LinesOk s) (k : SessionId) (pl : List Byte) :
    LinesOk (serveDrive k pl s).1 := by
  unfold Machine.serveDrive
  split
  · split_ifs
    · exact h
    · exact h
    · exact h
    · exact h.writeLine _ _
  · exact h

theorem LinesOk.serveClear {s : State} (h : LinesOk s) (k : SessionId) (pl : List Byte) :
    LinesOk (serveClear k pl s).1 := by
  unfold Machine.serveClear
  split
  · exact h
  · split_ifs
    · exact h
    · exact h.modLine _ LineCell.clearFault_ok

theorem clearUses_keeps_lines {s : State} (h : LinesOk s) (k : SessionId) (l : LineId) : LinesOk (s.clearUses k l) := by
  unfold State.clearUses
  have h1 := (h.of_changes (removeOneshotsOn_changes s k l)).of_changes (releaseGenerator_changes _ l)
  exact h1.of_changes (ChangesOnly.foldl (parts := runParts) (fun _ _ => stopSequence_changes _ _ _) _ _)

theorem LinesOk.serveRelease {s : State} (h : LinesOk s) (k : SessionId) (pl : List Byte) :
    LinesOk (serveRelease k pl s).1 := by
  unfold Machine.serveRelease
  split
  · split_ifs
    · exact h
    · exact h.endLease _
    · exact (clearUses_keeps_lines h _ _).endLease _
    · exact h
  · exact h

/-- A one-shot enters the Timeline, and what is due is taken. -/
theorem scheduleOneshot_keeps_lines {s : State} (h : LinesOk s) (k : SessionId) (l : LineId) (v : Level) (due : Tick) :
    LinesOk (s.scheduleOneshot k l v due) :=
  (h.of_changes (enterTimeline_changes _ _ _ _)).takeUntil

theorem startSequence_keeps_lines {s : State} (h : LinesOk s) (k : SessionId) (i : SlotId) (start : Tick) :
    LinesOk (s.startSequence k i start) :=
  (h.of_changes (armSequence_changes _ _ _ _)).takeUntil

theorem haltSequence_keeps_lines {s : State} (h : LinesOk s) (i : SlotId) : LinesOk (s.haltSequence i) :=
  (h.of_changes (stopSequence_changes _ _ _)).takeUntil

theorem LinesOk.serveAt {s : State} (h : LinesOk s) (k : SessionId) (pl : List Byte) : LinesOk (serveAt k pl s).1 := by
  unfold Machine.serveAt
  split
  · split
    · exact h
    · split
      · exact h
      · split
        · exact h
        · split
          · exact h
          · split
            · exact h
            · exact scheduleOneshot_keeps_lines h _ _ _ _
  · exact h

theorem LinesOk.serveSeqStart {s : State} (h : LinesOk s) (k : SessionId) (pl : List Byte) :
    LinesOk (serveSeqStart k pl s).1 := by
  unfold Machine.serveSeqStart
  split
  · split
    · exact h
    · split
      · exact h
      · split
        · exact h
        · split
          · exact h
          · split
            · exact h
            · exact startSequence_keeps_lines h _ _ _
  · exact h

theorem LinesOk.serveSeqStop {s : State} (h : LinesOk s) (k : SessionId) (pl : List Byte) :
    LinesOk (serveSeqStop k pl s).1 := by
  unfold Machine.serveSeqStop
  split
  · exact h
  · split
    · exact h
    · exact haltSequence_keeps_lines h _

theorem runGenerator_keeps_lines {s : State} (h : LinesOk s) (g : GenId) (start : Tick) :
    LinesOk (s.runGenerator g start) := by
  have h1 := h.of_changes (modGenerator_changes s g fun r => { r with state := .pending, start := some start, completed := 0 })
  unfold State.runGenerator
  dsimp only
  split
  · exact h1
  · exact h1.beginCycles _ _

theorem LinesOk.serveCadRun {s : State} (h : LinesOk s) (k : SessionId) (pl : List Byte) :
    LinesOk (serveCadRun k pl s).1 := by
  unfold Machine.serveCadRun
  split
  · split_ifs
    · exact h
    · exact h
    · exact h
    · split
      · exact h
      · exact runGenerator_keeps_lines h _ _
  · exact h

theorem LinesOk.serveCadHold {s : State} (h : LinesOk s) (k : SessionId) (pl : List Byte) :
    LinesOk (serveCadHold k pl s).1 := by
  unfold Machine.serveCadHold
  split
  · exact h
  · split
    · exact h.restGenerator _
    · exact h

/-- Serving a request keeps every line cell in order: nine types of request can write to lines, the others leave them. -/
theorem serve_keeps_lines (t : RequestType) (p : Port) (k : SessionId) (pl : List Byte) {s : State} (h : LinesOk s) :
    LinesOk (t.serve p k pl s).1 := by
  cases t
  case setup => exact h.serveSetup k pl
  case drive => exact h.serveDrive k pl
  case clear => exact h.serveClear k pl
  case release => exact h.serveRelease k pl
  case atEdge => exact h.serveAt k pl
  case seqStart => exact h.serveSeqStart k pl
  case seqStop => exact h.serveSeqStop k pl
  case cadRun => exact h.serveCadRun k pl
  case cadHold => exact h.serveCadHold k pl
  case openSession => exact h
  case info => exact h
  case closeSession => exact h.beginClosing k .closed
  case ping => exact h.of_changes (servePing_changes k pl s)
  case status => exact h.of_changes (serveStatus_changes k pl s)
  case time => exact h.of_changes (serveTime_changes k pl s)
  case snapshot => exact h.of_changes (serveSnapshot_changes k pl s)
  case portstat => exact h.of_changes (servePortstat_changes k pl s)
  case restart => exact h.of_changes (serveRestart_changes p k pl s)
  case claim => exact h.of_changes (serveClaim_changes k pl s)
  case withdraw => exact h.of_changes (serveWithdraw_changes k pl s)
  case read => exact h.of_changes (serveRead_changes k pl s)
  case cancel => exact h.of_changes (serveCancel_changes k pl s)
  case pendingList => exact h.of_changes (servePendingList_changes k pl s)
  case seqNew => exact h.of_changes (serveSeqNew_changes k pl s)
  case seqAdd => exact h.of_changes (serveSeqAdd_changes k pl s)
  case seqSeal => exact h.of_changes (serveSeqSeal_changes k pl s)
  case seqQuery => exact h.of_changes (serveSeqQuery_changes k pl s)
  case seqFree => exact h.of_changes (serveSeqFree_changes k pl s)
  case watchSet => exact h.of_changes (serveWatchSet_changes k pl s)
  case watchAck => exact h.of_changes (serveWatchAck_changes k pl s)
  case watchDrop => exact h.of_changes (serveWatchDrop_changes k pl s)
  case watchRead => exact h.of_changes (serveWatchRead_changes k pl s)
  case cadSet => exact h.of_changes (serveCadSet_changes k pl s)
  case cadFree => exact h.of_changes (serveCadFree_changes k pl s)
  case cadRead => exact h.of_changes (serveCadRead_changes k pl s)

/-! ## Events and resets -/

theorem takeBreak_keeps_lines {s : State} (h : LinesOk s) (p : Port) : LinesOk (s.takeBreak p) := by
  unfold State.takeBreak
  have h1 := h.of_changes (modPort_changes s p fun c => c.takeBreak s.tick)
  have h2 := LinesOk.foldl (fun t k (ht : LinesOk t) => ht.beginClosing k .brk) (s.sessionsOn p) h1
  exact LinesOk.foldl (fun t k ht => ht.checkClosing k) _ h2

/-- After a full reset every cell is in order, whatever it was before. -/
theorem clearBlocks_lines_ok (s : State) : LinesOk s.clearBlocks := by
  intro l
  have e : s.clearBlocks.lines[l] = LineCell.reset s.lines[l].raw := by simp [State.clearBlocks]
  rw [e]
  exact LineCell.reset_ok l _

theorem startUp_lines_ok (s : State) (cause : ResetCause) (pin : Level) : LinesOk (s.startUp cause pin) := by
  have h : LinesOk { s.clearBlocks with heldInReset := false, baud := baudOf pin } := clearBlocks_lines_ok s
  exact ((h.of_changes (modPort_changes _ .a _)).of_changes (modPort_changes _ .b _)).of_changes (settle_changes _)

theorem senseEdge_keeps_lines {s : State} (h : LinesOk s) (l : LineId) : LinesOk (s.senseEdge l) := by
  unfold State.senseEdge
  have h1 := h.modLine l (LineCell.takeEdge_ok s.tick)
  exact (h1.of_changes (ChangesOnly.foldl (fun t w => offerEdge_changes t _ _ w) _ _)).of_changes
    (ChangesOnly.foldl (fun t i => offerAwait_changes t _ _ i) _ _)

theorem faultLine_keeps_lines {s : State} (h : LinesOk s) (l : LineId) : LinesOk (s.faultLine l) :=
  ((h.modLine l (LineCell.takeFault_ok s.tick)).of_changes (notifyOwner_changes _ _ _)).of_changes
    (stopBound_changes _ _ _)

theorem endCycle_keeps_lines {s : State} (h : LinesOk s) (g : GenId) (t : Tick) : LinesOk (s.endCycle g t) := by
  have h1 := h.of_changes
    (modGenerator_changes s g fun r => { r with completed := saturate Config.max32 r.completed })
  unfold State.endCycle
  dsimp only
  split
  · exact (h1.restGenerator g).of_changes (sendCadEnd_changes _ _ _)
  · exact h1.beginCycles _ _

/-- While the part is held in reset a new raw level gives the cell its reset values, otherwise it is a sample (R9, R175). -/
theorem rawLevel_keeps_lines {s : State} (h : LinesOk s) (l : LineId) (v : Level) :
    LinesOk (s.modLine l fun _ => LineCell.reset v) ∧ LinesOk (s.modLine l (LineCell.sample s.tick v)) :=
  ⟨h.modLine l fun _ => LineCell.reset_ok l v, h.modLine l (LineCell.sample_ok s.tick v)⟩

theorem leaveQueue_notify_keeps_lines {s : State} (h : LinesOk s) (l : LineId) (k : SessionId) (b : NoticeBody) :
    LinesOk ((s.leaveQueue k l).notify k b) :=
  (h.of_changes (leaveQueue_changes s k l)).of_changes (notify_changes _ _ _)

theorem lowWrite_keeps_lines {s : State} (h : LinesOk s) (g : GenId) (t : Tick) :
    LinesOk ((s.modGenerator g fun r => { r with state := .running t true }).ownWrite s.generators[g].line .low) :=
  (h.of_changes (modGenerator_changes s g _)).ownWrite _ _

/-- The tick's end leaves the lines to the arbiters, and the arbiters leave them. -/
theorem advance_keeps_lines {s : State} (h : LinesOk s) : LinesOk s.advance :=
  h.of_changes (t := s.endTick) (endTick_changes s)

/-! ## Every command and every step -/

theorem exec_keeps_lines {c : Instr} {s t : State} (h : LinesOk s) (he : exec c s = .next t) : LinesOk t :=
  exec_keeps (Pre := LinesOk) (Post := LinesOk)
    (weak := fun _ h => h)
    (frame := fun _ _ hc h => h.of_changes hc)
    (ho := fun p r s h => h.of_changes (serveOpen_changes p r s))
    (hs := fun t p k pl _ h _ => serve_keeps_lines t p k pl h)
    (check := fun _ k h => h.checkClosing k)
    (receive := fun s p b h => h.of_changes (receiveByte_changes s p b))
    (gap := fun s p h => (h.of_changes (setReceiver_changes s p .hunt)).of_changes (modPort_changes _ _ _))
    (brk := fun _ p h => takeBreak_keeps_lines h p)
    (sent := fun s p f h => h.of_changes (endTransmission_changes s p f))
    (start := fun s cause pin _ => startUp_lines_ok s cause pin)
    (clear := fun s _ => ⟨clearBlocks_lines_ok s, clearBlocks_lines_ok s⟩)
    (edge := fun _ l h => senseEdge_keeps_lines h l)
    (fault := fun _ l h => faultLine_keeps_lines h l)
    (burst := fun _ l h => h.modLine l LineCell.endBurst_ok)
    (taken := fun _ e h _ => h.takeEntry e)
    (expiry := fun _ l k _ h => leaveQueue_notify_keeps_lines h l k _)
    (lapse := fun _ k cause h => h.enterClosing k cause)
    (begin := fun _ g t h _ => h.beginCycles g t)
    (low := fun _ g t h _ => lowWrite_keeps_lines h g t)
    (cycle := fun _ g t h _ => endCycle_keeps_lines h g t)
    (raw := fun _ l v h => rawLevel_keeps_lines h l v)
    (idle := fun s p h => h.of_changes (modPort_changes s p _))
    h he

/-- Settles O8: the invariant is kept by every command (`exec_keeps_lines`), by a request of unknown type and by the tick. -/
theorem stepKeepsLines : Obligations.StepKeepsLines := by
  unfold Obligations.StepKeepsLines
  intro s t hs h
  exact step_keeps (Pre := LinesOk) (Post := LinesOk)
    (weak := fun _ h => h)
    (hp := fun _ _ h => h)
    (hx := fun _ _ _ h he => exec_keeps_lines h he)
    (hu := fun s p h => h.of_changes (takeUnknown_changes s p))
    (ha := fun _ h => advance_keeps_lines h)
    hs h

end Sys2Proof.Machine
end

section
/-! PROOFS. The pin of a line (R7, R11), and the requests that act on one line or report the lines: SNAPSHOT, READ, CLEAR, DRIVE and
SETUP (01, section 1.5). -/

namespace Sys2Proof.Machine

set_option Elab.async false

/-! ## The pin and the driven level -/

/-- The rows of R7's table in which the driver is released. -/
theorem LineCell.released_iff (c : LineCell) : c.released = true ↔ c.mode = .input ∨
    (c.mode = .sink ∧ c.commanded = .high) ∨ (c.mode = .assist ∧ c.commanded = .high ∧ c.phase = .idle) := by
  unfold LineCell.released
  cases c.mode with
  | input => simp
  | push => simp
  | sink => simp
  | assist =>
    cases c.commanded with
    | low => simp
    | high => cases c.phase <;> simp

theorem LineCell.pullConnected_iff (c : LineCell) : c.pullConnected = true ↔ c.pull = true ∧ c.released = true := by
  simp [LineCell.pullConnected]

theorem LineCell.pin_of_released {c : LineCell} (h : c.released = true) :
    c.pin = if c.pull then .pulledHigh else .floating := by
  rw [LineCell.pin, if_pos h]

/-- A driver that is not released drives the commanded level, in every mode. -/
theorem LineCell.pin_of_driving {c : LineCell} (h : ¬c.released = true) :
    c.pin = match c.commanded with | .low => .drivenLow | .high => .drivenHigh := by
  have notInput : c.mode ≠ .input := fun e => h ((LineCell.released_iff c).mpr (.inl e))
  rw [LineCell.pin, if_neg h]
  cases hm : c.mode with
  | input => exact absurd hm notInput
  | push => cases c.commanded <;> rfl
  | sink => cases c.commanded <;> rfl
  | assist => cases c.commanded <;> rfl

theorem LineCell.driven_eq_some_iff (c : LineCell) (v : Level) : c.driven = some v ↔ (c.mode = .push ∧ c.commanded = v) ∨
    ((c.mode = .sink ∨ c.mode = .assist) ∧ c.commanded = .low ∧ v = .low) := by
  unfold LineCell.driven
  cases c.mode with
  | input => simp
  | push => simp
  | sink => cases c.commanded <;> simp [eq_comm]
  | assist => cases c.commanded <;> simp [eq_comm]

theorem LineCell.driven_eq_none_iff (c : LineCell) : c.driven = none ↔
    c.mode = .input ∨ (c.mode ≠ .push ∧ c.commanded = .high) := by
  unfold LineCell.driven
  cases c.mode with
  | input => simp
  | push => simp
  | sink => cases c.commanded <;> simp
  | assist => cases c.commanded <;> simp

/-- Settles O33, row by row of R7's table and R11. -/
theorem pinConditions : Obligations.PinConditions := by
  unfold Obligations.PinConditions
  intro c
  dsimp only
  rw [← LineCell.released_iff]
  refine ⟨c.pullConnected_iff, fun hr hp => ?_, fun hr hp => ?_, fun hr hv => ?_, fun hr hv => ?_,
    c.driven_eq_none_iff, c.driven_eq_some_iff⟩
  · rw [LineCell.pin_of_released hr, hp]; rfl
  · rw [LineCell.pin_of_released hr, hp]; rfl
  · rw [LineCell.pin_of_driving hr, hv]
  · rw [LineCell.pin_of_driving hr, hv]

/-! ## The line maps (R21, R178) -/

/-- The number that `lineMap` adds for a line has that line's bit alone. -/
theorem getLsbD_lineBit (x l : LineId) : (1#24 <<< x.val).getLsbD l.val = decide (l = x) := by
  rw [BitVec.getLsbD_shiftLeft, BitVec.getLsbD_one, Bool.eq_iff_iff]
  simp only [Bool.and_eq_true, Bool.not_eq_true', decide_eq_true_eq, decide_eq_false_iff_not, Fin.ext_iff]
  omega

/-- Adding the bits of these lines, one after the other, sets those that `p` holds of and leaves the others. -/
theorem getLsbD_foldl_lineBit (p : LineId → Bool) (ls : List LineId) (m : LineMap) (l : LineId) :
    (ls.foldl (fun m l => if p l then m ||| (1#24 <<< l.val) else m) m).getLsbD l.val =
      (m.getLsbD l.val || (decide (l ∈ ls) && p l)) := by
  induction ls generalizing m with
  | nil => simp
  | cons x ls ih =>
    have one : (if p x then m ||| (1#24 <<< x.val) else m).getLsbD l.val =
        (m.getLsbD l.val || (decide (l = x) && p x)) := by
      split
      · rename_i hp
        rw [BitVec.getLsbD_or, getLsbD_lineBit, hp, Bool.and_true]
      · rename_i hp
        simp [hp]
    have same : (decide (l = x) && p x) = (decide (l = x) && p l) := by
      by_cases e : l = x
      · rw [e]
      · simp [e]
    rw [List.foldl_cons, ih, one, same, Bool.or_assoc, ← Bool.and_or_distrib_right]
    simp only [List.mem_cons, Bool.decide_or]

/-- Bit n of a line map is line Ln's. -/
theorem getLsbD_lineMap (p : LineId → Bool) (l : LineId) : (lineMap p).getLsbD l.val = p l := by
  rw [lineMap, getLsbD_foldl_lineBit]
  simp [allLines]

/-- Settles O22: the reply is the four maps, and each bit is its line's (`getLsbD_lineMap`). -/
theorem snapshotMapsLines : Obligations.SnapshotMapsLines := by
  unfold Obligations.SnapshotMapsLines
  intro s p k r h
  refine ⟨_, s.sensedMap, s.commandedMap, s.faultMap, s.heldMap, rfl, takeSessioned_onlyReplies serveSnapshot h rfl rfl,
    fun l => ⟨?_, ?_, ?_, ?_⟩⟩
  · rw [State.sensedMap, getLsbD_lineMap, decide_eq_true_iff]
  · rw [State.commandedMap, getLsbD_lineMap, decide_eq_true_iff]
  · rw [State.faultMap, getLsbD_lineMap, faulted_iff]
  · rw [State.heldMap, getLsbD_lineMap, Option.isSome_iff_exists, State.holder]
    simp

/-! ## READ -/

theorem serveRead_line {pl : List Byte} {l : LineId} (hl : field1 pl 0 = l.val) (k : SessionId) (s : State) :
    serveRead k pl s = (s, { status := .ok, data := .line (s.lineReport l) }) := by
  simp only [serveRead, nameOf_of_eq hl]

theorem serveRead_noLine {pl : List Byte} (hl : 24 ≤ field1 pl 0) (k : SessionId) (s : State) :
    serveRead k pl s = (s, .plain .badField) := by
  simp only [serveRead, nameOf_none hl]

/-- A line has no bound generator exactly when none is found (R104). -/
theorem boundGenerator_eq_none_iff (s : State) (l : LineId) : s.boundGenerator l = none ↔ ¬s.bound l := by
  constructor
  · rintro h ⟨g, hg, hl⟩
    exact boundGenerator_none h g hg hl
  · intro h
    cases hg : s.boundGenerator l with
    | none => rfl
    | some g => exact absurd ⟨g, boundGenerator_some hg⟩ h

/-- Settles O23: the report is taken from the cell, its lease and the generator that is found bound to the line. -/
theorem readReportsLine : Obligations.ReadReportsLine := by
  unfold Obligations.ReadReportsLine
  intro s p k r b h
  have answers : ∀ {a : Answer}, serveRead k [b] s = (s, a) → s.OnlyReplies (s.takeSessioned .read p serveRead) p r a :=
    fun he => takeSessioned_onlyReplies serveRead h rfl he
  refine ⟨_, rfl, fun hb => answers (serveRead_noLine (pl := [b]) hb k s), fun l hl =>
    ⟨s.lineReport l, answers (serveRead_line (pl := [b]) hl k s), rfl, rfl, rfl, rfl, rfl, rfl, rfl, rfl,
      boundGenerator_eq_none_iff s l, fun g hg => boundGenerator_some hg, rfl, rfl, rfl, rfl⟩⟩

/-! ## CLEAR -/

theorem serveClear_noLine {pl : List Byte} (hl : 24 ≤ field1 pl 0) (k : SessionId) (s : State) :
    serveClear k pl s = (s, .plain .badField) := by
  simp only [serveClear, nameOf_none hl]

theorem serveClear_line {pl : List Byte} {l : LineId} (hl : field1 pl 0 = l.val) (k : SessionId) (s : State) :
    serveClear k pl s = if s.holder l = some k then (s.modLine l LineCell.clearFault, .plain .ok)
      else (s, .plain .notHolder) := by
  simp only [serveClear, nameOf_of_eq hl, holds_false, ite_not]

/-- Updating one line's cell is a change of that line alone. -/
theorem modLine_lineBecomes (s : State) (l : LineId) (f : LineCell → LineCell) :
    LineBecomes s (s.modLine l f) l (f s.lines[l]) :=
  ⟨s.modLine_get_same l f, fun _ hm => s.modLine_get_ne f hm⟩

theorem LineBecomes.of_changes {parts : List Part} {s u t : State} {l : LineId} {c : LineCell} (h : LineBecomes s u l c)
    (hc : ChangesOnly parts u t) (hp : Part.lines ∉ parts := by decide) : LineBecomes s t l c :=
  ⟨(hc.line l hp).trans h.1, fun m hm => (hc.line m hp).trans (h.2 m hm)⟩

/-- After what serves it, a request of an OPEN session changes only what its reply and the arbiters do. -/
theorem takeSessioned_changes_after {s u : State} {t : RequestType} {p : Port} {k : SessionId} {r : Request}
    {payload : List Byte} {serve : SessionId → List Byte → State → State × Answer} {a : Answer}
    (h : s.Takes p t k r payload) (hl : t.allows payload.length = true) (he : serve k payload s = (u, a)) :
    ChangesOnly [.queues, .frames, .sending] u (s.takeSessioned t p serve) := by
  rw [takeSessioned_eq serve h hl, he]
  exact answer_settle_changes _ _ _ _

/-- Settles O31: an accepted CLEAR updates the cell of the one line and makes no notice (`serveClear_line`). -/
theorem clearClearsFault : Obligations.ClearClearsFault := by
  unfold Obligations.ClearClearsFault
  intro s p k r b h
  have refuses : ∀ {a : Answer}, serveClear k [b] s = (s, a) → s.OnlyReplies (s.takeSessioned .clear p serveClear) p r a :=
    fun he => takeSessioned_onlyReplies serveClear h rfl he
  refine ⟨_, rfl, fun hb => refuses (serveClear_noLine (pl := [b]) hb k s), fun l hl => ?_⟩
  have served := serveClear_line (pl := [b]) hl k s
  refine ⟨fun hn => refuses (served.trans (if_neg hn)), fun hh => ?_⟩
  have changes := modLine_changes s l LineCell.clearFault
  exact ⟨takeSessioned_answers serveClear h rfl (served.trans (if_pos hh)) [.lines] (changes.mono (by decide))
      (Made.of_changes changes),
    (modLine_lineBecomes s l _).of_changes (takeSessioned_changes_after h rfl (served.trans (if_pos hh)))⟩

/-! ## Writes that are reported to the Cadence Unit (R23) -/

/-- A request that updates one line's cell and reports the line to the Cadence Unit: its notices, its generator and its line. -/
theorem takeSessioned_reportedWrite {s : State} {t : RequestType} {p : Port} {k : SessionId} {r : Request}
    {payload : List Byte} (serve : SessionId → List Byte → State → State × Answer) {l : LineId} {f : LineCell → LineCell}
    {a : Answer} (hb : BoundOk s) (h : s.Takes p t k r payload) (hl : t.allows payload.length = true)
    (he : serve k payload s = ((s.modLine l f).stopBound l .overridden, a)) :
    s.Answers (s.takeSessioned t p serve) p r a [.lines, .generators] (s.cadEnds l .overridden) ∧
      GeneratorStopped s (s.takeSessioned t p serve) l ∧
      LineBecomes s (s.takeSessioned t p serve) l (f s.lines[l]) := by
  have write := modLine_changes s l f
  have report := stopBound_changes (s.modLine l f) l .overridden
  have after := takeSessioned_changes_after h hl he
  have hb' : BoundOk (s.modLine l f) := hb.of_changes write
  refine ⟨takeSessioned_answers serve h hl he [.lines, .generators] (write.andThen report) ?_, fun g => ?_, ?_⟩
  · rw [← cadEnds_congr write]
    exact Made.after write (made_stopBound hb' l .overridden)
  · rw [after.generator g, stopBound_generators hb', write.generator g]
  · exact ((modLine_lineBecomes s l f).of_changes report).of_changes after

/-! ## DRIVE -/

theorem serveDrive_outOfRange {pl : List Byte} (h : 24 ≤ field1 pl 0 ∨ 2 ≤ field1 pl 1) (k : SessionId) (s : State) :
    serveDrive k pl s = (s, .plain .badField) := by
  unfold serveDrive
  rcases h with hl | hv
  · rw [nameOf_none hl]
  · rw [levelOf_none hv]
    cases nameOf 24 (field1 pl 0) <;> rfl

/-- DRIVE's checks in their order (R19). -/
theorem serveDrive_line {pl : List Byte} {l : LineId} {v : Level} (hl : field1 pl 0 = l.val)
    (hv : field1 pl 1 = Level.code v) (k : SessionId) (s : State) :
    serveDrive k pl s =
      if s.holder l ≠ some k then (s, .plain .notHolder)
      else if s.lines[l].fault ≠ .none then (s, .plain .lineFault)
      else if s.lines[l].mode = .input then (s, .plain .mode)
      else (s.writeLine l v, .plain .ok) := by
  simp only [serveDrive, nameOf_of_eq hl, levelOf_of_eq hv, holds_false, faulted_iff]

/-- Settles O30: the refusals are `serveDrive_line`'s branches, and the accepted write is a reported one. -/
theorem driveWrites : Obligations.DriveWrites := by
  unfold Obligations.DriveWrites
  intro s p k r b0 b1 hb h
  have refuses : ∀ {a : Answer}, serveDrive k [b0, b1] s = (s, a) →
      s.OnlyReplies (s.takeSessioned .drive p serveDrive) p r a := fun he =>
    takeSessioned_onlyReplies serveDrive h rfl he
  refine ⟨_, rfl, fun hr => refuses (serveDrive_outOfRange (pl := [b0, b1]) hr k s), fun l v hl hv => ?_⟩
  have served := serveDrive_line (pl := [b0, b1]) hl hv k s
  refine ⟨fun hn => ?_, fun hh hf => ?_, fun hh hf hm => ?_, fun hh hf hm => ?_⟩
  · exact refuses (served.trans (if_pos hn))
  · exact refuses (served.trans ((if_neg (not_not.mpr hh)).trans (if_pos hf)))
  · exact refuses (served.trans ((if_neg (not_not.mpr hh)).trans ((if_neg (not_not.mpr hf)).trans (if_pos hm))))
  · exact takeSessioned_reportedWrite serveDrive hb h rfl
      (served.trans ((if_neg (not_not.mpr hh)).trans ((if_neg (not_not.mpr hf)).trans (if_neg hm))))

/-! ## SETUP -/

/-- A field out of its range makes all the fields of SETUP unusable (R17 check 3). -/
theorem setupFieldsOf_none {pl : List Byte} (h : 4 ≤ field1 pl 1 ∨ 2 ≤ field1 pl 2 ∨ field1 pl 4 = 0 ∨ 15 < field1 pl 4 ∨
    field1 pl 5 = 0 ∨ 2 ≤ field1 pl 6 ∨ 2 ≤ field1 pl 7) : setupFieldsOf pl = none := by
  unfold setupFieldsOf
  split
  · rename_i mode pull check level hm hp hc hv
    refine if_neg fun range => ?_
    rcases h with h | h | h | h | h | h | h
    · rw [modeOf_none h] at hm; cases hm
    · rw [flagOf_none h] at hp; cases hp
    · omega
    · omega
    · omega
    · rw [flagOf_none h] at hc; cases hc
    · rw [levelOf_none h] at hv; cases hv
  · rfl

theorem setupFieldsOf_of_codes {pl : List Byte} {mode : Mode} {pull check : Bool} {v : Level}
    (hm : field1 pl 1 = mode.code) (hp : field1 pl 2 = Bool.code pull) (ha : 1 ≤ field1 pl 4 ∧ field1 pl 4 ≤ 15)
    (hs : 1 ≤ field1 pl 5) (hc : field1 pl 6 = Bool.code check) (hv : field1 pl 7 = Level.code v) :
    setupFieldsOf pl = some { mode := mode, pull := pull, filter := field1 pl 3, assist := field1 pl 4,
                              settle := field1 pl 5, check := check, level := v } := by
  simp only [setupFieldsOf, modeOf_of_eq hm, flagOf_of_eq hp, flagOf_of_eq hc, levelOf_of_eq hv]
  exact if_pos ⟨ha.1, ha.2, hs⟩

/-- A bound generator forbids INPUT, and ASSIST with a longer assist time than its HIGH time (R17 check 6). -/
theorem setupBound_iff {s : State} (hb : BoundOk s) (l : LineId) (f : SetupFields) : s.setupBound l f = true ↔
    ∃ g : GenId, s.generators[g].state ≠ .free ∧ s.generators[g].line = some l ∧
      (f.mode = .input ∨ (f.mode = .assist ∧ s.generators[g].high < f.assist)) := by
  unfold State.setupBound
  constructor
  · intro h
    split at h
    · cases h
    · rename_i g hg
      obtain ⟨live, line⟩ := boundGenerator_some hg
      exact ⟨g, live, line, by simpa using h⟩
  · rintro ⟨g, live, line, forbids⟩
    rw [boundGenerator_eq hb live line]
    simpa using forbids

theorem serveSetup_noLine {pl : List Byte} (hl : 24 ≤ field1 pl 0) (k : SessionId) (s : State) :
    serveSetup k pl s = (s, .plain .badField) := by
  simp only [serveSetup, nameOf_none hl]

theorem serveSetup_notHolder {pl : List Byte} {l : LineId} {k : SessionId} {s : State} (hl : field1 pl 0 = l.val)
    (hn : s.holder l ≠ some k) : serveSetup k pl s = (s, .plain .notHolder) := by
  simp only [serveSetup, nameOf_of_eq hl, (holds_false s k l).mpr hn, if_true]

theorem serveSetup_badFields {pl : List Byte} {l : LineId} {k : SessionId} {s : State} (hl : field1 pl 0 = l.val)
    (hh : s.holder l = some k) (hf : setupFieldsOf pl = none) : serveSetup k pl s = (s, .plain .badField) := by
  simp only [serveSetup, nameOf_of_eq hl, holds_false, hf, hh, ne_eq, not_true, if_false]

/-- The last three checks of R17 in their order. -/
theorem serveSetup_fields {pl : List Byte} {l : LineId} {k : SessionId} {s : State} {f : SetupFields}
    (hl : field1 pl 0 = l.val) (hh : s.holder l = some k) (hf : setupFieldsOf pl = some f) :
    serveSetup k pl s =
      if f.mode = .assist ∧ 16 ≤ l.val then (s, .plain .mode)
      else if s.lines[l].fault ≠ .none ∧ f.mode ≠ .input then (s, .plain .lineFault)
      else if s.setupBound l f = true then (s, .plain .lineBound)
      else (s.applySetup l f, .plain .ok) := by
  simp only [serveSetup, nameOf_of_eq hl, holds_false, hf, hh, ne_eq, not_true, if_false, faulted_iff, Config.assistLines]

/-- Settles O29: the refusals are R17's checks in their order, and the accepted SETUP is a reported write of the whole cell. -/
theorem setupWrites : Obligations.SetupWrites := by
  unfold Obligations.SetupWrites
  intro s p k r b0 b1 b2 b3 b4 b5 b6 b7 hb h
  have refuses : ∀ {a : Answer}, serveSetup k [b0, b1, b2, b3, b4, b5, b6, b7] s = (s, a) →
      s.OnlyReplies (s.takeSessioned .setup p serveSetup) p r a := fun he =>
    takeSessioned_onlyReplies serveSetup h rfl he
  refine ⟨_, rfl, fun hr => refuses (serveSetup_noLine (pl := [b0, b1, b2, b3, b4, b5, b6, b7]) hr k s), fun l hl =>
    ⟨fun hn => refuses (serveSetup_notHolder hl hn),
      fun hh hf => refuses (serveSetup_badFields hl hh (setupFieldsOf_none hf)), ?_⟩⟩
  intro mode pull check v hh hm hp ha ha' hs hc hv fields noAssist atFault isBound
  have hf : setupFieldsOf [b0, b1, b2, b3, b4, b5, b6, b7] = some fields :=
    setupFieldsOf_of_codes hm hp ⟨ha, ha'⟩ hs hc hv
  have served := serveSetup_fields (pl := [b0, b1, b2, b3, b4, b5, b6, b7]) hl hh hf
  have bound : s.setupBound l fields = true ↔ isBound := setupBound_iff hb l fields
  refine ⟨fun h1 => ?_, fun h1 h2 => ?_, fun h1 h2 h3 => ?_, fun h1 h2 h3 => ?_⟩
  · exact refuses (served.trans (if_pos h1))
  · exact refuses (served.trans ((if_neg h1).trans (if_pos h2)))
  · exact refuses (served.trans ((if_neg h1).trans ((if_neg h2).trans (if_pos (bound.mpr h3)))))
  · exact takeSessioned_reportedWrite serveSetup hb h rfl
      (served.trans ((if_neg h1).trans ((if_neg h2).trans (if_neg (mt bound.mp h3)))))

end Sys2Proof.Machine
end

section
/-! PROOFS. The invariant of the leases and claim queues (`LeasesOk`; R25, R26, R41, R151): each request and each event keeps
it, and so does every step. It reads the lease records and the states of the sessions, and nothing else. -/

namespace Sys2Proof.Machine

set_option Elab.async false

/-! ## What the invariant depends on -/

/-- The records stay in order while the lease records and every session's state stay as they are. -/
theorem LeasesOk.of_states {s t : State} (h : LeasesOk s) (hl : ∀ l : LineId, t.leases[l] = s.leases[l])
    (hs : ∀ k : SessionId, t.sessions[k].state = s.sessions[k].state) : LeasesOk t :=
  h.of_sessions hl (fun k hk => (hs k).trans hk) fun k hk => (hs k).symm ▸ hk

/-- A part with no lease and no claim place is in order, whatever its sessions are. -/
theorem LeasesOk.of_empty {s : State} (h : ∀ l : LineId, s.leases[l] = { lease := none, queue := [] }) : LeasesOk s := fun l => by
  have free : ({ lease := none, queue := [] } : LeaseCell).OkIn s :=
    ⟨fun _ => rfl, List.nodup_nil, Nat.zero_le _, fun _ hq => (nomatch hq), fun _ hk => (nomatch hk)⟩
  unfold State.holder
  rw [h l]
  exact free

/-! ## Bytes received -/

theorem modPort_state (s : State) (p : Port) (f : PortCell → PortCell) (k : SessionId) :
    (s.modPort p f).sessions[k].state = s.sessions[k].state := by
  simp only [State.modPort_sessions]

theorem refresh_state (s : State) (p : Port) (r : Request) (k : SessionId) :
    (s.refresh p r).sessions[k].state = s.sessions[k].state := by
  unfold State.refresh
  split
  · rfl
  · rename_i j _
    rw [State.modSession_get]
    split
    · rename_i e; rw [e]
    · rfl

theorem acceptRequest_state (s : State) (p : Port) (r : Request) (k : SessionId) :
    (s.acceptRequest p r).sessions[k].state = s.sessions[k].state := by
  unfold State.acceptRequest
  split
  · rw [modPort_state, refresh_state]
  · rw [modPort_state]

theorem judgeFrame_state (s : State) (p : Port) (body : List Byte) (crc : Nat) (k : SessionId) :
    (s.judgeFrame p body crc).sessions[k].state = s.sessions[k].state := by
  unfold State.judgeFrame
  split_ifs
  · rw [modPort_state]
  · exact acceptRequest_state s p _ k
  · rfl

/-- A received byte leaves every session in its state: a request that it completes refreshes its session and no more (R142). -/
theorem receiveByte_state (s : State) (p : Port) (b : Byte) (k : SessionId) :
    (s.receiveByte p b).sessions[k].state = s.sessions[k].state := by
  unfold State.receiveByte State.setReceiver
  split
  · split
    · rw [modPort_state]
    · rfl
  · split
    · rw [modPort_state]
    · rw [modPort_state, modPort_state]
  · split <;> rw [modPort_state]
  · rw [modPort_state]
  · rw [judgeFrame_state, modPort_state]

theorem LeasesOk.receiveByte {s : State} (h : LeasesOk s) (p : Port) (b : Byte) : LeasesOk (s.receiveByte p b) :=
  h.of_states (fun l => (receiveByte_changes s p b).lease l) (receiveByte_state s p b)

/-! ## Requests -/

/-- OPEN gives a session that was FREE its record, and a FREE session neither waits nor holds (R141). -/
theorem LeasesOk.serveOpen {s : State} (h : LeasesOk s) (p : Port) (r : Request) : LeasesOk (serveOpen p r s).1 := by
  have opened : ∀ (k : SessionId) (n : Nat) (j : SessionId), (s.openRecord k p n).sessions[j].state =
      if j = k then .opened else s.sessions[j].state := by
    intro k n j
    rw [State.openRecord, State.modSession_get]
    split <;> rfl
  unfold Machine.serveOpen
  split_ifs
  · exact h
  · exact h
  · split
    · exact h
    · rename_i k _
      refine h.of_sessions (fun l => (openRecord_changes s k p _).lease l) (fun j hj => ?_) fun j hj => ?_
      · rw [opened, hj, ite_self]
      · rw [opened]
        split
        · exact SessionState.noConfusion
        · exact hj

theorem LeasesOk.serveWithdraw {s : State} (h : LeasesOk s) (k : SessionId) (pl : List Byte) :
    LeasesOk (serveWithdraw k pl s).1 := by
  unfold Machine.serveWithdraw
  split
  · exact h
  · split_ifs
    · exact h.leaveQueue k _
    · exact h

/-- Clearing the uses of a line leaves the line, its lease and every session's state as they are (R39 steps 1 to 3). -/
theorem clearUses_leaves_lease (s : State) (k : SessionId) (l : LineId) :
    ChangesOnly [.timeline, .slots, .generators, .numbers, .queues] s (s.clearUses k l) := by
  unfold State.clearUses
  exact ((removeOneshotsOn_changes s k l).andThen (releaseGenerator_changes _ l)
    (parts := [.timeline, .slots, .generators, .numbers, .queues])).andThen
      (ChangesOnly.foldl (parts := runParts) (fun _ _ => stopSequence_changes _ _ _) _ _)

theorem LeasesOk.serveRelease {s : State} (h : LeasesOk s) (k : SessionId) (pl : List Byte) :
    LeasesOk (serveRelease k pl s).1 := by
  unfold Machine.serveRelease
  split
  · split_ifs
    · exact h
    · exact h.endLease _
    · exact (h.of_changes (clearUses_leaves_lease s k _)).endLease _
    · exact h
  · exact h

/-- What AT can do: nothing but answer, or schedule a one-shot on a line of the requester while the Timeline has room (R53,
R54). -/
theorem serveAt_cases (k : SessionId) (pl : List Byte) (s : State) : (serveAt k pl s).1 = s ∨
    ∃ (l : LineId) (v : Level) (due : Tick), s.holder l = some k ∧ s.timelineFull = false ∧
      (serveAt k pl s).1 = s.scheduleOneshot k l v due := by
  unfold serveAt
  split
  · rename_i l v w _ _ _
    split
    · exact .inl rfl
    · rename_i held
      split
      · exact .inl rfl
      · split
        · exact .inl rfl
        · split
          · exact .inl rfl
          · split
            · exact .inl rfl
            · rename_i room
              exact .inr ⟨l, v, w.start s.tick, (holds_iff s k l).mp (eq_true_of_ne_false held), eq_false_of_ne_true room, rfl⟩
  · exact .inl rfl

/-- What SEQ.START can do: nothing but answer, or start a resting sequence of the requester while the Timeline has room (R78,
R79). -/
theorem serveSeqStart_cases (k : SessionId) (pl : List Byte) (s : State) : (serveSeqStart k pl s).1 = s ∨
    ∃ (i : SlotId) (start : Tick), s.slots[i].owner = some k ∧ s.slots[i].resting = true ∧ s.timelineFull = false ∧
      (serveSeqStart k pl s).1 = s.startSequence k i start := by
  unfold serveSeqStart
  split
  · rename_i i w _ _
    split
    · exact .inl rfl
    · rename_i own
      split
      · exact .inl rfl
      · rename_i rests
        split
        · exact .inl rfl
        · split
          · exact .inl rfl
          · split
            · exact .inl rfl
            · rename_i room
              exact .inr ⟨i, w.start s.tick, not_not.mp own, eq_true_of_ne_false rests, eq_false_of_ne_true room, rfl⟩
  · exact .inl rfl

/-- What SEQ.STOP can do: nothing but answer, or stop a sequence that is in its body (R94). -/
theorem serveSeqStop_cases (k : SessionId) (pl : List Byte) (s : State) : (serveSeqStop k pl s).1 = s ∨
    ∃ i : SlotId, s.slots[i].inBody = true ∧ (serveSeqStop k pl s).1 = s.haltSequence i := by
  unfold serveSeqStop
  split
  · exact .inl rfl
  · rename_i i _
    split
    · exact .inl rfl
    · rename_i body
      exact .inr ⟨i, eq_true_of_ne_false body, rfl⟩

theorem LeasesOk.serveAt {s : State} (h : LeasesOk s) (k : SessionId) (pl : List Byte) : LeasesOk (serveAt k pl s).1 := by
  obtain e | ⟨l, v, due, -, -, e⟩ := serveAt_cases k pl s
  · rw [e]; exact h
  · rw [e]; exact (h.of_changes (enterTimeline_changes s k due _)).takeUntil

theorem LeasesOk.serveSeqStart {s : State} (h : LeasesOk s) (k : SessionId) (pl : List Byte) :
    LeasesOk (serveSeqStart k pl s).1 := by
  obtain e | ⟨i, start, -, -, -, e⟩ := serveSeqStart_cases k pl s
  · rw [e]; exact h
  · rw [e]; exact (h.of_changes (armSequence_changes s k i start)).takeUntil

theorem LeasesOk.serveSeqStop {s : State} (h : LeasesOk s) (k : SessionId) (pl : List Byte) :
    LeasesOk (serveSeqStop k pl s).1 := by
  obtain e | ⟨i, -, e⟩ := serveSeqStop_cases k pl s
  · rw [e]; exact h
  · rw [e]; exact (h.of_changes (stopSequence_changes s i .stopped)).takeUntil

/-- Serving a request of an OPEN session keeps the leases in order: CLAIM, WITHDRAW and RELEASE change lease records, CLOSE changes
its session, AT, SEQ.START and SEQ.STOP take due entries, which may complete a closing. No other type touches either. -/
theorem serve_keeps_leases (t : RequestType) (p : Port) {k : SessionId} (pl : List Byte) {s : State} (h : LeasesOk s)
    (hk : s.sessions[k].state = .opened) : LeasesOk (t.serve p k pl s).1 := by
  cases t
  case claim => exact h.serveClaim hk pl
  case withdraw => exact h.serveWithdraw k pl
  case release => exact h.serveRelease k pl
  case closeSession => exact h.beginClosing k .closed
  case atEdge => exact h.serveAt k pl
  case seqStart => exact h.serveSeqStart k pl
  case seqStop => exact h.serveSeqStop k pl
  case openSession => exact h
  case info => exact h
  case ping => exact h.of_changes (servePing_changes k pl s)
  case status => exact h.of_changes (serveStatus_changes k pl s)
  case time => exact h.of_changes (serveTime_changes k pl s)
  case snapshot => exact h.of_changes (serveSnapshot_changes k pl s)
  case portstat => exact h.of_changes (servePortstat_changes k pl s)
  case restart => exact h.of_changes (serveRestart_changes p k pl s)
  case setup => exact h.of_changes (serveSetup_changes k pl s)
  case drive => exact h.of_changes (serveDrive_changes k pl s)
  case read => exact h.of_changes (serveRead_changes k pl s)
  case clear => exact h.of_changes (serveClear_changes k pl s)
  case cancel => exact h.of_changes (serveCancel_changes k pl s)
  case pendingList => exact h.of_changes (servePendingList_changes k pl s)
  case seqNew => exact h.of_changes (serveSeqNew_changes k pl s)
  case seqAdd => exact h.of_changes (serveSeqAdd_changes k pl s)
  case seqSeal => exact h.of_changes (serveSeqSeal_changes k pl s)
  case seqQuery => exact h.of_changes (serveSeqQuery_changes k pl s)
  case seqFree => exact h.of_changes (serveSeqFree_changes k pl s)
  case watchSet => exact h.of_changes (serveWatchSet_changes k pl s)
  case watchAck => exact h.of_changes (serveWatchAck_changes k pl s)
  case watchDrop => exact h.of_changes (serveWatchDrop_changes k pl s)
  case watchRead => exact h.of_changes (serveWatchRead_changes k pl s)
  case cadSet => exact h.of_changes (serveCadSet_changes k pl s)
  case cadRun => exact h.of_changes (serveCadRun_changes k pl s)
  case cadHold => exact h.of_changes (serveCadHold_changes k pl s)
  case cadFree => exact h.of_changes (serveCadFree_changes k pl s)
  case cadRead => exact h.of_changes (serveCadRead_changes k pl s)

/-! ## Resets and the tick -/

/-- After a full reset no line has a lease or a queue (R25). -/
theorem clearBlocks_lease (s : State) (l : LineId) : s.clearBlocks.leases[l] = { lease := none, queue := [] } := by
  simp [State.clearBlocks, State.reset]

theorem startUp_leases_ok (s : State) (cause : ResetCause) (pin : Level) : LeasesOk (s.startUp cause pin) := by
  have h : LeasesOk { s.clearBlocks with heldInReset := false, baud := baudOf pin } := .of_empty (clearBlocks_lease s)
  exact ((h.of_changes (modPort_changes _ .a _)).of_changes (modPort_changes _ .b _)).of_changes (settle_changes _)

/-- The end of a tick touches the sessions' numbering of notices alone. -/
theorem LeasesOk.advance {s : State} (h : LeasesOk s) : LeasesOk s.advance :=
  (h.of_changes (endTick_changes s)).of_states (fun _ => rfl) fun k => by simp [State.advance]

/-! ## Every command and every step -/

theorem exec_keeps_leases {c : Instr} {s t : State} (h : LeasesOk s) (he : exec c s = .next t) : LeasesOk t :=
  exec_keeps (Pre := LeasesOk) (Post := LeasesOk)
    (weak := fun _ h => h)
    (frame := fun _ _ hc h => h.of_changes hc)
    (ho := fun p r _ h => h.serveOpen p r)
    (hs := fun t p _ pl _ h hk => serve_keeps_leases t p pl h hk)
    (check := fun _ k h => h.checkClosing k)
    (receive := fun _ p b h => h.receiveByte p b)
    (gap := fun s p h => (h.of_changes (setReceiver_changes s p .hunt)).of_changes (modPort_changes _ _ _))
    (brk := fun _ p h => h.takeBreak p)
    (sent := fun s p f h => h.of_changes (endTransmission_changes s p f))
    (start := fun s cause pin _ => startUp_leases_ok s cause pin)
    (clear := fun s _ => ⟨.of_empty (clearBlocks_lease s), .of_empty (clearBlocks_lease s)⟩)
    (edge := fun s l h => h.of_changes (senseEdge_changes s l))
    (fault := fun s l h => h.of_changes (faultLine_changes s l))
    (burst := fun s l h => h.of_changes (modLine_changes s l _))
    (taken := fun _ e h _ => h.takeEntry e)
    (expiry := fun _ l k _ h => (h.leaveQueue k l).of_changes (notify_changes _ _ _))
    (lapse := fun _ k cause h => h.enterClosing k cause)
    (begin := fun s g t h _ => h.of_changes (beginCycles_changes s g t))
    (low := fun s g _ h _ => (h.of_changes (modGenerator_changes s g _)).of_changes (ownWrite_changes _ _ _))
    (cycle := fun s g t h _ => h.of_changes (endCycle_changes s g t))
    (raw := fun s l _ h => ⟨h.of_changes (modLine_changes s l _), h.of_changes (modLine_changes s l _)⟩)
    (idle := fun s p h => h.of_changes (modPort_changes s p _))
    h he

/-- Settles O15: the invariant is kept by every command (`exec_keeps_leases`), by a request of unknown type and by the tick. -/
theorem stepKeepsLeases : Obligations.StepKeepsLeases := by
  unfold Obligations.StepKeepsLeases
  intro s t hs h
  exact step_keeps (Pre := LeasesOk) (Post := LeasesOk)
    (weak := fun _ h => h)
    (hp := fun _ _ h => h)
    (hx := fun _ _ _ h he => exec_keeps_leases h he)
    (hu := fun s p h => h.of_changes (takeUnknown_changes s p))
    (ha := fun _ h => h.advance)
    hs h

end Sys2Proof.Machine
end

section
/-! PROOFS. CLAIM, WITHDRAW and the expiry of a claim place (02, sections 2.2 and 2.3): each changes at most one line's lease
record. -/

namespace Sys2Proof.Machine

set_option Elab.async false

/-! ## One line's lease record -/

/-- Putting a record in one line's place is a change of that line's record alone. -/
theorem setLease_leaseBecomes (s : State) (l : LineId) (c : LeaseCell) : LeaseBecomes s (s.setLease l c) l c :=
  ⟨s.setLease_get_same l c, fun _ hm => s.setLease_get_ne c hm⟩

theorem LeaseBecomes.of_changes {parts : List Part} {s u t : State} {l : LineId} {c : LeaseCell} (h : LeaseBecomes s u l c)
    (hc : ChangesOnly parts u t) (hp : Part.leases ∉ parts := by decide) : LeaseBecomes s t l c :=
  ⟨(hc.lease l hp).trans h.1, fun m hm => (hc.lease m hp).trans (h.2 m hm)⟩

/-- A request that puts a record in one line's place and makes no notice. -/
theorem takeSessioned_setLease {s : State} {t : RequestType} {p : Port} {k : SessionId} {r : Request} {payload : List Byte}
    (serve : SessionId → List Byte → State → State × Answer) {l : LineId} {c : LeaseCell} {a : Answer}
    (h : s.Takes p t k r payload) (hl : t.allows payload.length = true) (he : serve k payload s = (s.setLease l c, a)) :
    s.Answers (s.takeSessioned t p serve) p r a [.leases] [] ∧ LeaseBecomes s (s.takeSessioned t p serve) l c :=
  ⟨takeSessioned_answers serve h hl he [.leases] ((setLease_changes s l c).mono (by decide))
      (Made.of_changes (setLease_changes s l c)),
    (setLease_leaseBecomes s l c).of_changes (takeSessioned_changes_after h hl he)⟩

/-- A session waits for a line when it has a place in its queue. -/
theorem waits_iff (s : State) (k : SessionId) (l : LineId) : s.waits k l = true ↔ ∃ q ∈ s.leases[l].queue, q.session = k := by
  simp only [State.waits, List.any_eq_true, decide_eq_true_eq]

theorem waits_false (s : State) (k : SessionId) (l : LineId) :
    s.waits k l = false ↔ ∀ q ∈ s.leases[l].queue, q.session ≠ k := by
  simp only [State.waits, List.any_eq_false, decide_eq_true_eq, ne_eq]

/-! ## CLAIM -/

theorem serveClaim_outOfRange {pl : List Byte} (h : 24 ≤ field1 pl 0 ∨ 4 ≤ field1 pl 1) (k : SessionId) (s : State) :
    serveClaim k pl s = (s, .plain .badField) := by
  unfold serveClaim
  rcases h with hl | hx
  · rw [nameOf_none hl]
  · rw [partingOf_none hx]
    cases nameOf 24 (field1 pl 0) <;> rfl

/-- A claim of a line with no holder (R28). -/
theorem serveClaim_free {pl : List Byte} {l : LineId} {x : Parting} {s : State} (hl : field1 pl 0 = l.val)
    (hx : field1 pl 1 = x.code) (hn : s.leases[l].lease = none) (k : SessionId) :
    serveClaim k pl s = (s.grantClaim k l x, { status := .ok, data := s.leaseData l s.tick }) := by
  simp only [serveClaim, nameOf_of_eq hl, partingOf_of_eq hx, hn]

/-- A claim of a line with a holder: R29 and R30 in their order. -/
theorem serveClaim_held {pl : List Byte} {l : LineId} {x : Parting} {s : State} {h : Lease} (hl : field1 pl 0 = l.val)
    (hx : field1 pl 1 = x.code) (hh : s.leases[l].lease = some h) (k : SessionId) :
    serveClaim k pl s =
      if h.holder = k then (s, { status := .already, data := s.leaseData l h.granted })
      else if field2 pl 2 = 0 then (s, { status := .held, data := .holder h.holder })
      else if s.waits k l = true then (s, .plain .duplicate)
      else (s.joinQueue l { session := k, parting := x, expiry := expiryOf s.tick (field2 pl 2) },
        { status := .queued, data := .queued (s.leases[l].queue.length + 1) h.holder }) := by
  simp only [serveClaim, nameOf_of_eq hl, partingOf_of_eq hx, hh]

/-- Settles O25: the outcomes are the branches of `serveClaim_free` and `serveClaim_held`, and the two that change a record do
nothing else. -/
theorem claimOutcomes : Obligations.ClaimOutcomes := by
  unfold Obligations.ClaimOutcomes
  intro s p k r b0 b1 b2 b3 ht
  have refuses : ∀ {a : Answer}, serveClaim k [b0, b1, b2, b3] s = (s, a) →
      s.OnlyReplies (s.takeSessioned .claim p serveClaim) p r a := fun he => takeSessioned_onlyReplies serveClaim ht rfl he
  refine ⟨_, rfl, fun hr => refuses (serveClaim_outOfRange (pl := [b0, b1, b2, b3]) hr k s), ?_⟩
  intro l x hl hx limit line place
  refine ⟨fun hn => ?_, fun h hh => ?_⟩
  · exact takeSessioned_setLease serveClaim ht rfl (serveClaim_free (pl := [b0, b1, b2, b3]) hl hx hn k)
  · have served := serveClaim_held (pl := [b0, b1, b2, b3]) hl hx hh k
    refine ⟨fun own => ?_, fun other h0 => ?_, fun other h0 hw => ?_, fun other h0 hw => ?_⟩
    · exact refuses (served.trans (if_pos own))
    · exact refuses (served.trans ((if_neg other).trans (if_pos h0)))
    · exact refuses (served.trans ((if_neg other).trans ((if_neg h0).trans (if_pos ((waits_iff s k l).mpr hw)))))
    · have joined := served.trans ((if_neg other).trans ((if_neg h0).trans
        (if_neg (ne_true_of_eq_false ((waits_false s k l).mpr hw)))))
      rw [← hh]
      exact takeSessioned_setLease serveClaim ht rfl joined

/-! ## WITHDRAW and the expiry of a place -/

theorem serveWithdraw_noLine {pl : List Byte} (hl : 24 ≤ field1 pl 0) (k : SessionId) (s : State) :
    serveWithdraw k pl s = (s, .plain .badField) := by
  simp only [serveWithdraw, nameOf_none hl]

theorem serveWithdraw_line {pl : List Byte} {l : LineId} (hl : field1 pl 0 = l.val) (k : SessionId) (s : State) :
    serveWithdraw k pl s = if s.waits k l = true then (s.leaveQueue k l, .plain .ok) else (s, .plain .notFound) := by
  simp only [serveWithdraw, nameOf_of_eq hl]

/-- The place that is looked at is the session's one place (R26). -/
theorem expiredPlace_eq {s : State} {l : LineId} {k : SessionId} {q : Place} {e : Tick} (hq : q ∈ s.leases[l].queue)
    (hk : q.session = k) (only : ∀ q' ∈ s.leases[l].queue, q'.session = k → q' = q) (he : q.expiry = some e)
    (hd : e ≤ s.tick) : s.expiredPlace l k = some e := by
  have found : s.leases[l].queue.find? (fun q => decide (q.session = k)) = some q := by
    cases hf : s.leases[l].queue.find? fun q => decide (q.session = k) with
    | none => exact absurd hk (by simpa using List.find?_eq_none.mp hf q hq)
    | some q' => rw [only q' (List.mem_of_find?_eq_some hf) (by simpa using List.find?_some hf)]
  simp only [State.expiredPlace, found, he, hd, if_true]

/-- A claim place whose expiry tick is reached is taken out, and its session is told (R32). -/
theorem exec_claimExpiry {s : State} {l : LineId} {k : SessionId} {e : Tick} (h : s.expiredPlace l k = some e) :
    exec (.claimExpiry l k) s = .next ((s.leaveQueue k l).notify k (.claimLapsed l e)).settle := by
  show execClaimExpiry l k s = _
  simp only [execClaimExpiry, h]

/-- Settles O26: both take the session's place out of the queue (`State.leaveQueue`), WITHDRAW silently, the expiry with its
notice. -/
theorem withdrawAndExpiry : Obligations.WithdrawAndExpiry := by
  unfold Obligations.WithdrawAndExpiry
  refine ⟨fun s p k r b ht => ?_, fun s l k q e hq hk only he hd => ?_⟩
  · have refuses : ∀ {a : Answer}, serveWithdraw k [b] s = (s, a) →
        s.OnlyReplies (s.takeSessioned .withdraw p serveWithdraw) p r a := fun he =>
      takeSessioned_onlyReplies serveWithdraw ht rfl he
    refine ⟨_, rfl, fun hb => refuses (serveWithdraw_noLine (pl := [b]) hb k s), fun l hl => ?_⟩
    have served := serveWithdraw_line (pl := [b]) hl k s
    refine ⟨fun none => ?_, fun waiting => ?_⟩
    · exact refuses (served.trans (if_neg (ne_true_of_eq_false ((waits_false s k l).mpr none))))
    · exact takeSessioned_setLease serveWithdraw ht rfl (served.trans (if_pos ((waits_iff s k l).mpr waiting)))
  · have leaves := leaveQueue_changes s k l
    have tells := notify_changes (s.leaveQueue k l) k (.claimLapsed l e)
    refine ⟨_, exec_claimExpiry (expiredPlace_eq hq hk only he hd),
      ⟨_, leaves.andThen tells, Made.after leaves (made_notify _ k _), settle_settled _⟩, ?_⟩
    exact ((setLease_leaseBecomes s l _).of_changes tells).of_changes (settle_changes _)

end Sys2Proof.Machine
end

section
/-! PROOFS. RELEASE (02, sections 2.4 and 2.5): when a line is in use, the end of its lease, and what a forced release clears
first. -/

namespace Sys2Proof.Machine

set_option Elab.async false

/-! ## Lines in use (R37) -/

theorem Entry.onLine_iff {e : Entry} {l : LineId} : e.onLine l = true ↔ ∃ v : Level, e.kind = .oneshot l v := by
  unfold Entry.onLine
  cases e.kind with
  | oneshot m v => simp
  | step i list n => simp
  | deadline i list n => simp

theorem Slot.inBody_iff {r : Slot} : r.inBody = true ↔ r.state = .armed ∨ r.state = .running ∨ r.state = .awaiting := by
  unfold Slot.inBody
  cases r.state <;> simp

theorem Step.setLine_eq_some {x : Step} {l : LineId} : x.setLine = some l ↔ ∃ v : Level, x.kind = .set l v := by
  unfold Step.setLine
  cases x.kind with
  | set m v => simp
  | await m v limit => simp
  | mark label => simp

theorem Slot.mem_setLines {r : Slot} {l : LineId} :
    l ∈ r.setLines ↔ ∃ x ∈ r.body ++ r.unwind, ∃ v : Level, x.kind = .set l v := by
  simp only [Slot.setLines, List.mem_filterMap, Step.setLine_eq_some]

/-- The sequences that a release looks at are the holder's that drive the line. -/
theorem mem_usersOf {s : State} {k : SessionId} {l : LineId} {i : SlotId} :
    i ∈ s.usersOf k l ↔ s.slots[i].owner = some k ∧ s.slots[i].drives l := by
  rw [State.usersOf, List.mem_filter, Bool.and_eq_true, Bool.and_eq_true, decide_eq_true_iff, decide_eq_true_iff,
    Slot.inBody_iff, Slot.mem_setLines, and_assoc]
  exact and_iff_right (List.mem_finRange i)

theorem usersOf_ascending (s : State) (k : SessionId) (l : LineId) : (s.usersOf k l).Pairwise (· < ·) :=
  (List.pairwise_lt_finRange 16).filter _

theorem usersOf_congr {parts : List Part} {s u : State} (h : ChangesOnly parts s u) (k : SessionId) (l : LineId)
    (hp : Part.slots ∉ parts := by decide) : u.usersOf k l = s.usersOf k l := by
  unfold State.usersOf
  congr 1
  funext i
  rw [h.slot i hp]

/-- The middle count of R38 is 1 or 0 as a generator is bound or not. -/
theorem useCounts_generator (s : State) (k : SessionId) (l : LineId) :
    (s.bound l → (s.useCounts k l).2.1 = 1) ∧ (¬s.bound l → (s.useCounts k l).2.1 = 0) := by
  rw [← boundGenerator_eq_none_iff]
  unfold State.useCounts
  cases hg : s.boundGenerator l with
  | none => exact ⟨fun h => absurd h ((boundGenerator_eq_none_iff s l).mp hg), fun _ => rfl⟩
  | some g => exact ⟨fun _ => rfl, fun h => nomatch h⟩

theorem oneshotsOn_pos_iff (s : State) (k : SessionId) (l : LineId) :
    s.oneshotsOn k l ≠ 0 ↔ ∃ e ∈ s.timeline, e.owner = k ∧ ∃ v : Level, e.kind = .oneshot l v := by
  simp only [State.oneshotsOn, ne_eq, List.length_eq_zero_iff, List.filter_eq_nil_iff, Bool.and_eq_true, decide_eq_true_eq,
    Entry.onLine_iff, not_forall, not_not, exists_prop, and_comm]

/-- A line is in use exactly when one of the three counts is not 0 (R37, R38). -/
theorem inUse_iff (s : State) (k : SessionId) (l : LineId) : s.inUse k l = true ↔ s.usedBy k l := by
  obtain ⟨bound, unbound⟩ := useCounts_generator s k l
  have gen : (s.useCounts k l).2.1 ≠ 0 ↔ s.bound l :=
    ⟨fun h => by_contra fun hb => h (unbound hb), fun hb => by rw [bound hb]; exact one_ne_zero⟩
  have users : (s.useCounts k l).2.2 ≠ 0 ↔ ∃ i : SlotId, s.slots[i].owner = some k ∧ s.slots[i].drives l := by
    simp only [State.useCounts, ne_eq, List.length_eq_zero_iff, List.eq_nil_iff_forall_not_mem, mem_usersOf, not_forall, not_not]
  have shots : (s.useCounts k l).1 ≠ 0 ↔ _ := oneshotsOn_pos_iff s k l
  unfold State.usedBy
  rw [State.inUse, decide_eq_true_eq, ← shots, ← gen, ← users, ne_eq, Prod.ext_iff, Prod.ext_iff]
  tauto

/-! ## What RELEASE does, by its checks -/

theorem serveRelease_outOfRange {pl : List Byte} (h : 24 ≤ field1 pl 0 ∨ 2 ≤ field1 pl 1) (k : SessionId) (s : State) :
    serveRelease k pl s = (s, .plain .badField) := by
  unfold serveRelease
  rcases h with hl | hf
  · rw [nameOf_none hl]
  · rw [flagOf_none hf]
    cases nameOf 24 (field1 pl 0) <;> rfl

/-- RELEASE's checks in their order, and the two ways in which it ends the lease (R37 to R39). -/
theorem serveRelease_line {pl : List Byte} {l : LineId} {force : Bool} (hl : field1 pl 0 = l.val)
    (hf : field1 pl 1 = Bool.code force) (k : SessionId) (s : State) :
    serveRelease k pl s =
      if s.holder l ≠ some k then (s, .plain .notHolder)
      else if s.inUse k l = false then (s.endLease l, { status := .ok, data := .counts 0 0 0 })
      else if force = true then ((s.clearUses k l).endLease l, { status := .ok, data := countsData (s.useCounts k l) })
      else (s, { status := .inUse, data := countsData (s.useCounts k l) }) := by
  simp only [serveRelease, nameOf_of_eq hl, flagOf_of_eq hf, holds_false, countsData]

theorem flag_of_lt_two {n : Nat} (h : n < 2) : ∃ force : Bool, n = Bool.code force := by
  obtain rfl | rfl : n = 0 ∨ n = 1 := by omega
  · exact ⟨false, rfl⟩
  · exact ⟨true, rfl⟩

/-! ## The end of the lease -/

theorem State.LeaseEnded.of_changes {parts : List Part} {s u t : State} {l : LineId} (h : s.LeaseEnded u l)
    (hc : ChangesOnly parts u t) (hl : Part.lines ∉ parts := by decide) (hq : Part.leases ∉ parts := by decide) :
    s.LeaseEnded t l :=
  ⟨h.1.of_changes hc hl, h.2.of_changes hc hq⟩

/-- What the end of a line's lease does depends on the line, its lease record and the tick alone. -/
theorem leaseEnd_congr {parts : List Part} {s u : State} (h : ChangesOnly parts s u) (l : LineId)
    (hl : Part.lines ∉ parts := by decide) (hq : Part.leases ∉ parts := by decide) (hc : Part.clock ∉ parts := by decide) :
    u.grants l = s.grants l ∧ ∀ t : State, u.LeaseEnded t l → s.LeaseEnded t l := by
  have part : u.parted l = s.parted l := by
    unfold State.parted; rw [h.lease l hq, h.line l hl, h.tick hc]
  have pass : u.passedOn l = s.passedOn l := by
    unfold State.passedOn; rw [h.lease l hq, h.tick hc]
  refine ⟨?_, fun t ended => ?_⟩
  · unfold State.grants
    rw [h.lease l hq, h.tick hc, part]
  · obtain ⟨⟨line, lines⟩, lease, leases⟩ := ended
    rw [part] at line
    rw [pass] at lease
    exact ⟨⟨line, fun m hm => (lines m hm).trans (h.line m hl)⟩, lease, fun m hm => (leases m hm).trans (h.lease m hq)⟩

/-- The end of a lease on a line that no generator is bound to reaches no generator. -/
theorem endLease_changes_unbound {s : State} {l : LineId} (h : Unbound s l) :
    ChangesOnly [.lines, .leases, .numbers, .queues] s (s.endLease l) :=
  (endLeases_eq [l] (List.nodup_singleton l) (s := s) (by simpa using h)).2.2.2

/-- Settles O27: the refusals are `serveRelease_line`'s branches; on a line that is not in use no generator is bound, so the end of
the lease is `endLease_eq`'s. -/
theorem releaseEndsLease : Obligations.ReleaseEndsLease := by
  unfold Obligations.ReleaseEndsLease
  intro s p k r b0 b1 hb ht
  have refuses : ∀ {a : Answer}, serveRelease k [b0, b1] s = (s, a) →
      s.OnlyReplies (s.takeSessioned .release p serveRelease) p r a := fun he =>
    takeSessioned_onlyReplies serveRelease ht rfl he
  refine ⟨_, rfl, fun hr => refuses (serveRelease_outOfRange (pl := [b0, b1]) hr k s), fun l hl hf => ?_⟩
  obtain ⟨force, hforce⟩ := flag_of_lt_two hf
  have served := serveRelease_line (pl := [b0, b1]) hl hforce k s
  refine ⟨fun hn => ?_, fun hh used hplain => ?_, fun hh unused => ?_⟩
  · exact refuses (served.trans (if_pos hn))
  · have plain : ¬force = true := by
      rintro rfl
      rw [hplain] at hforce
      cases hforce
    obtain ⟨bound, unbound⟩ := useCounts_generator s k l
    exact ⟨_, _, _, refuses (served.trans ((if_neg (not_not.mpr hh)).trans
      ((if_neg (ne_false_of_eq_true ((inUse_iff s k l).mpr used))).trans (if_neg plain)))), rfl, bound, unbound, rfl⟩
  · have ends := served.trans ((if_neg (not_not.mpr hh)).trans (if_pos (eq_false_of_ne_true (mt (inUse_iff s k l).mp unused))))
    have free : Unbound s l := fun g live line => unused (.inr (.inl ⟨g, live, line⟩))
    obtain ⟨ended, granted⟩ := endLease_eq free
    exact ⟨takeSessioned_answers serveRelease ht rfl ends [.lines, .leases] (endLease_changes_unbound free) granted,
      ended.of_changes (takeSessioned_changes_after ht rfl ends)⟩

/-! ## The forced clearing: the generator (R39 step 2, R114) -/

/-- A generator with a line is not FREE (R103). -/
theorem BoundOk.live_of_line {s : State} (hb : BoundOk s) {g : GenId} {l : LineId} (hl : s.generators[g].line = some l) :
    s.generators[g].state ≠ .free := by
  intro hf
  rw [hb.2.1 g hf] at hl
  cases hl

theorem releaseGenerator_generator {s : State} (hb : BoundOk s) (l : LineId) (g : GenId) :
    (s.releaseGenerator l).generators[g] =
      if s.generators[g].line = some l then Generator.free else s.generators[g] := by
  unfold State.releaseGenerator
  cases hj : s.boundGenerator l with
  | none => exact (if_neg fun hl => boundGenerator_none hj g (hb.live_of_line hl) hl).symm
  | some j =>
    have freed : ∀ u : State, u.generators[g] = s.generators[g] →
        (u.freeGenerator j).generators[g] = if s.generators[g].line = some l then Generator.free else s.generators[g] := by
      intro u hu
      rw [State.freeGenerator, State.modGenerator_get, hu]
      by_cases e : g = j
      · rw [if_pos e, e, if_pos (boundGenerator_some hj).2]
      · rw [if_neg e, if_neg]
        intro hl
        have found := boundGenerator_eq hb (hb.live_of_line hl) hl
        rw [hj] at found
        exact e (Option.some.inj found).symm
    dsimp only
    split
    · exact freed _ ((sendCadEnd_changes s j .released).generator g)
    · exact freed s rfl

theorem releaseGenerator_unbound {s : State} (hb : BoundOk s) (l : LineId) : Unbound (s.releaseGenerator l) l := by
  intro g live line
  rw [releaseGenerator_generator hb] at live line
  split at line
  · cases line
  · contradiction

theorem made_releaseGenerator {s : State} (hb : BoundOk s) (l : LineId) :
    Made s (s.releaseGenerator l) (s.cadEnds l .released) := by
  unfold State.releaseGenerator
  cases hg : s.boundGenerator l with
  | none =>
    rw [cadEnds_nil .released fun g active => boundGenerator_none hg g (Generator.not_free_of_active active)]
    exact .refl s
  | some g =>
    obtain ⟨live, line⟩ := boundGenerator_some hg
    dsimp only
    split
    · rename_i active
      obtain ⟨k, -, owner, -⟩ := hb.1 g live
      rw [cadEnds_eq hb .released active line owner]
      refine Made.before ?_ (freeGenerator_changes _ g)
      rw [State.sendCadEnd, owner, line]
      exact made_notify s k _
    · rename_i idle
      rw [cadEnds_nil .released fun h active hl => idle ?_]
      · exact Made.of_changes (freeGenerator_changes s g)
      · have found := boundGenerator_eq hb (Generator.not_free_of_active active) hl
        rw [hg] at found
        rw [Option.some.inj found]
        exact active

/-! ## The forced clearing: the sequences (R39 step 3, R96) -/

/-- Stopping runs leaves the slots of the others. -/
theorem stopAll_slot_other {reason : SeqReason} (hr : reason.isFault = false) {is : List SlotId} {j : SlotId} (hj : j ∉ is)
    (s : State) : (is.foldl (fun t i => t.stopSequence i reason) s).slots[j] = s.slots[j] := by
  induction is generalizing s with
  | nil => rfl
  | cons i is ih =>
    obtain ⟨hne, hj⟩ := not_or.mp (mt List.mem_cons.mpr hj)
    rw [List.foldl_cons, ih hj, stopSequence_slot s i j hr, if_neg hne]

/-- The notice of a run that leaves its body depends on its slot and the tick alone. -/
theorem leavingEnds_congr {s u : State} {i : SlotId} (slot : u.slots[i] = s.slots[i]) (tick : u.tick = s.tick)
    (reason : SeqReason) : u.leavingEnds i reason u.slots[i].at = s.leavingEnds i reason s.slots[i].at := by
  unfold State.leavingEnds State.toOwner
  rw [slot, tick]

/-- Each run that is stopped makes its own SEQ.END, with its slot as it was before the first was stopped. -/
theorem made_stopAll {reason : SeqReason} (hr : reason.isFault = false) {is : List SlotId} (hn : is.Nodup) (s : State) :
    Made s (is.foldl (fun t i => t.stopSequence i reason) s)
      (is.flatMap fun i => s.leavingEnds i reason s.slots[i].at) := by
  refine Made.foldl (fun t i => stopSequence_changes t i reason)
    (fun u i => u.slots[i] = s.slots[i] ∧ u.tick = s.tick) ?_ is (by decide) s
    fun before after i e => ⟨?_, (ChangesOnly.foldl (fun t i => stopSequence_changes t i reason) before s).tick⟩
  · rintro u i ⟨slot, tick⟩
    rw [← leavingEnds_congr slot tick]
    exact made_leaveBody u i reason u.slots[i].at
  · subst e
    refine stopAll_slot_other hr (fun hb => ?_) s
    exact (List.nodup_append.mp hn).2.2 i hb i List.mem_cons_self rfl

theorem State.StopsRuns.of_changes {parts : List Part} {s u t : State} {stopped : SlotId → Prop} {gone : Entry → Prop}
    {reason : SeqReason} (h : s.StopsRuns u stopped gone reason) (hc : ChangesOnly parts u t)
    (hp : Part.slots ∉ parts := by decide) (hq : Part.timeline ∉ parts := by decide) : s.StopsRuns t stopped gone reason := by
  obtain ⟨timeline, handles, -⟩ := hc .timeline hq
  unfold State.StopsRuns at h ⊢
  simp only [timeline, handles, hc.slot _ hp]
  exact h

/-! ## The forced clearing as a whole -/

/-- The state in which the sequences are stopped: the one-shots are removed and the generator is FREE. -/
def State.usesLeft (s : State) (k : SessionId) (l : LineId) : State :=
  (s.removeOneshotsOn k l).releaseGenerator l

theorem usesLeft_changes (s : State) (k : SessionId) (l : LineId) :
    ChangesOnly [.timeline, .generators, .numbers, .queues] s (s.usesLeft k l) :=
  (removeOneshotsOn_changes s k l).andThen (releaseGenerator_changes _ l)

theorem clearUses_eq (s : State) (k : SessionId) (l : LineId) :
    s.clearUses k l = (s.usersOf k l).foldl (fun t i => t.stopSequence i .released) (s.usesLeft k l) := by
  rw [← usersOf_congr (usesLeft_changes s k l)]
  rfl

theorem mem_usesLeft_timeline {s : State} {k : SessionId} {l : LineId} {e : Entry} :
    e ∈ (s.usesLeft k l).timeline ↔ e ∈ s.timeline ∧ ¬(e.onLine l = true ∧ e.owner = k) := by
  have kept : (s.usesLeft k l).timeline = (s.removeOneshotsOn k l).timeline :=
    (releaseGenerator_changes (s.removeOneshotsOn k l) l .timeline (by decide)).1
  rw [kept, State.removeOneshotsOn, State.setTimeline_timeline, List.mem_filter]
  simp only [Bool.not_eq_true', Bool.and_eq_false_iff, decide_eq_false_iff_not, not_and_or, Bool.not_eq_true]

theorem clearUses_generator {s : State} (hb : BoundOk s) (k : SessionId) (l : LineId) (g : GenId) :
    (s.clearUses k l).generators[g] =
      if s.generators[g].line = some l then Generator.free else s.generators[g] := by
  have removed := removeOneshotsOn_changes s k l
  have stops := ChangesOnly.foldl (fun t i => stopSequence_changes t i .released) (s.usersOf k l) (s.usesLeft k l)
  rw [clearUses_eq, stops.generator g, State.usesLeft, releaseGenerator_generator (hb.of_changes removed), removed.generator g]

theorem clearUses_unbound {s : State} (hb : BoundOk s) (k : SessionId) (l : LineId) : Unbound (s.clearUses k l) l := by
  have removed := removeOneshotsOn_changes s k l
  have stops := ChangesOnly.foldl (fun t i => stopSequence_changes t i .released) (s.usersOf k l) (s.usesLeft k l)
  rw [clearUses_eq]
  exact (releaseGenerator_unbound (hb.of_changes removed) l).of_generator fun g live => by
    rw [stops.generator g] at live ⊢
    exact ⟨live, rfl⟩

/-- The clearing's notices: CAD.END of the generator, then the SEQ.ENDs in slot order (log 9). -/
theorem made_clearUses {s : State} (hb : BoundOk s) (k : SessionId) (l : LineId) :
    Made s (s.clearUses k l)
      (s.cadEnds l .released ++ (s.usersOf k l).flatMap fun i => s.leavingEnds i .released s.slots[i].at) := by
  have removed := removeOneshotsOn_changes s k l
  have left := usesLeft_changes s k l
  have generator : Made s (s.usesLeft k l) (s.cadEnds l .released) := by
    rw [← cadEnds_congr removed]
    exact Made.after removed (made_releaseGenerator (hb.of_changes removed) l)
  have runs := made_stopAll (reason := .released) rfl (usersOf_ascending s k l).nodup (s.usesLeft k l)
  rw [List.flatMap_congr fun i _ => leavingEnds_congr (left.slot i) left.tick .released] at runs
  rw [clearUses_eq]
  exact generator.andThen left runs

/-- The clearing removes the one-shots and stops the sequences; every other slot and entry stays. -/
theorem clearUses_stopsRuns {s : State} (ht : TimelineOk s) (hr : RunsOk s) (k : SessionId) (l : LineId) :
    s.StopsRuns (s.clearUses k l) (fun i => i ∈ s.usersOf k l) (fun e => e.onLine l = true ∧ e.owner = k) .released := by
  have left := usesLeft_changes s k l
  have slots : ∀ i : SlotId, (s.usesLeft k l).slots[i] = s.slots[i] := fun i => left.slot i
  have ordered : TimelineOk (s.usesLeft k l) := (ht.filter _).of_changes (releaseGenerator_changes _ l)
  have stoppable : Stoppable (s.usesLeft k l) (s.usersOf k l) :=
    hr.stoppable ht (fun i hi => Slot.inBody_iff.mpr (mem_usersOf.mp hi).2.1) slots fun e he sequence =>
      mem_usesLeft_timeline.mpr ⟨he, fun gone => ne_true_of_eq_false (Entry.onLine_isOneshot sequence) gone.1⟩
  have handles : (s.usesLeft k l).handleCounter = s.handleCounter :=
    (releaseGenerator_changes (s.removeOneshotsOn k l) l .timeline (by decide)).2.1
  obtain ⟨-, stops⟩ := stopAll_stops (reason := .released) rfl _ (usersOf_ascending s k l).nodup ordered stoppable
  rw [clearUses_eq]
  refine stops.stopsRuns slots (fun e => mem_usesLeft_timeline) left.tick handles fun i hi => ?_
  obtain ⟨e, he, hh⟩ := stoppable.1 i hi
  exact ⟨e, he, hh.trans (congrArg Slot.handle (slots i))⟩

/-- Settles O28: the clearing (`made_clearUses`, `clearUses_generator`, `clearUses_stopsRuns`) leaves no generator bound to the line
and the line's lease as it was, so the end of the lease after it is the one that `endLease_eq` gives. -/
theorem forcedReleaseClears : Obligations.ForcedReleaseClears := by
  unfold Obligations.ForcedReleaseClears
  intro s p k r b0 b1 l hb htl hr ht hl hforce hh used
  have served : serveRelease k [b0, b1] s =
      ((s.clearUses k l).endLease l, { status := .ok, data := countsData (s.useCounts k l) }) :=
    (serveRelease_line (pl := [b0, b1]) (force := true) hl hforce k s).trans ((if_neg (not_not.mpr hh)).trans
      ((if_neg (ne_false_of_eq_true ((inUse_iff s k l).mpr used))).trans (if_pos rfl)))
  have clears := clearUses_leaves_lease s k l
  have free := clearUses_unbound hb k l
  have ends := endLease_changes_unbound free
  obtain ⟨ended, granted⟩ := endLease_eq free
  obtain ⟨grants, leaseEnded⟩ := leaseEnd_congr clears l
  obtain ⟨bound, unbound⟩ := useCounts_generator s k l
  refine ⟨_, (s.clearUses k l).endLease l, _, _, _, rfl, clears.andThen ends, ?_, ?_, fun i => mem_usersOf,
    usersOf_ascending s k l, rfl, bound, unbound, rfl, fun g => ?_, (clearUses_stopsRuns htl hr k l).of_changes ends,
    leaseEnded _ ended⟩
  · rw [← grants]
    exact (made_clearUses hb k l).andThen clears granted
  · rw [takeSessioned_eq serveRelease ht rfl, served]
    exact settle_settled _
  · rw [ends.generator g, clearUses_generator hb]

end Sys2Proof.Machine
end

section
/-! PROOFS. The invariants of the Timeline (`TimelineOk`, R48, R50; `AdmissionsOk`, R51): each request and each event keeps the entries
in order, and their admission numbers too while the 64-bit counter has room for what one command admits. -/

namespace Sys2Proof.Machine

set_option Elab.async false

/-! ## Both invariants as one -/

/-- The Timeline is in order; where the step began with `room` for its admissions, the admission numbers are too, and the counter has
at least `n` numbers left. -/
def TimelineKept (room : Prop) (n : Nat) (s : State) : Prop :=
  TimelineOk s ∧ (room → Admitting n s)

theorem TimelineKept.mono {room : Prop} {m n : Nat} {s : State} (h : TimelineKept room n s) (hm : m ≤ n) :
    TimelineKept room m s :=
  ⟨h.1, fun r => (h.2 r).mono hm⟩

theorem TimelineKept.of_changes {room : Prop} {n : Nat} {parts : List Part} {s t : State} (h : TimelineKept room n s)
    (hc : ChangesOnly parts s t) (hp : Part.timeline ∉ parts := by decide) : TimelineKept room n t :=
  ⟨h.1.of_changes hc hp, fun r => (h.2 r).of_changes hc hp⟩

/-- An empty Timeline with both counters at 0, as a full reset leaves it (R67), is in order. -/
theorem TimelineKept.of_empty {room : Prop} {n : Nat} {s : State} (hn : n < 2 ^ 64) (entries : s.timeline = [])
    (handles : s.handleCounter = 0) (admissions : s.admissionCounter = 0) : TimelineKept room n s := by
  have ordered : TimelineOk s := by
    unfold TimelineOk
    simp [entries, handles]
  have numbered : AdmissionsOk s := by
    unfold AdmissionsOk
    simp [entries]
  refine ⟨ordered, fun _ => ⟨ordered, numbered, ?_⟩⟩
  rw [admissions]
  simpa using hn

/-! ## Requests -/

theorem TimelineKept.removeEntry {room : Prop} {n : Nat} {s : State} (h : TimelineKept room n s) (handle : Nat) :
    TimelineKept room n (s.removeEntry handle) :=
  ⟨h.1.removeEntry handle, fun r => (h.2 r).removeEntry handle⟩

theorem TimelineKept.beginClosing {room : Prop} {n : Nat} {s : State} (h : TimelineKept room (n + 16) s) (k : SessionId)
    (cause : CloseCause) : TimelineKept room n (s.beginClosing k cause) :=
  ⟨h.1.beginClosing k cause, fun r => (h.2 r).beginClosing k cause⟩

theorem TimelineKept.takeUntil {room : Prop} {m n handle : Nat} {s : State} (h : TimelineKept room (n + m) s) :
    TimelineKept room n (State.takeUntil handle m s) :=
  ⟨h.1.takeUntil, fun r => (h.2 r).takeUntil⟩

theorem TimelineKept.stopSequence {room : Prop} {n : Nat} {s : State} (h : TimelineKept room (n + 1) s) (i : SlotId)
    (reason : SeqReason) : TimelineKept room n (s.stopSequence i reason) :=
  ⟨h.1.leaveBody i reason _, fun r => (h.2 r).stopSequence i reason⟩

theorem TimelineKept.enterTimeline {room : Prop} {n : Nat} {s : State} (h : TimelineKept room (n + 1) s)
    (hl : s.timelineFull = false) (k : SessionId) (due : Tick) (kind : EntryKind) :
    TimelineKept room n (s.enterTimeline k due kind) := by
  have place : s.timeline.length < Config.timelinePlaces := by
    simpa [State.timelineFull] using hl
  exact ⟨h.1.enterTimeline place k due kind, fun r => (h.2 r).enterTimeline place k due kind⟩

theorem length_usersOf (s : State) (k : SessionId) (l : LineId) : (s.usersOf k l).length ≤ 16 :=
  (List.length_filter_le _ _).trans (by decide)

/-- A forced clearing uses at most one number for each slot (R39). -/
theorem TimelineKept.clearUses {room : Prop} {n : Nat} {s : State} (h : TimelineKept room (n + 16) s) (k : SessionId)
    (l : LineId) : TimelineKept room n (s.clearUses k l) := by
  have left : TimelineKept room (n + 16) (s.usesLeft k l) := by
    have removed : TimelineKept room (n + 16) (s.removeOneshotsOn k l) := ⟨h.1.filter _, fun r => (h.2 r).filter _⟩
    exact removed.of_changes (releaseGenerator_changes _ l)
  have few := length_usersOf s k l
  rw [clearUses_eq]
  exact ⟨TimelineOk.foldl (fun _ i ht => ht.leaveBody i .released _) _ left.1, fun r =>
    Admitting.foldl (m := 1) (fun _ _ i ht => ht.stopSequence i .released) _ ((left.2 r).mono (by omega))⟩

theorem TimelineKept.serveRelease {room : Prop} {s : State} (h : TimelineKept room 1024 s) (k : SessionId) (pl : List Byte) :
    TimelineKept room 0 (serveRelease k pl s).1 := by
  unfold Machine.serveRelease
  split
  · split_ifs
    · exact h.mono (Nat.zero_le _)
    · exact (h.mono (Nat.zero_le _)).of_changes (endLease_changes s _)
    · exact ((h.mono (by decide)).clearUses k _).of_changes (endLease_changes _ _)
    · exact h.mono (Nat.zero_le _)
  · exact h.mono (Nat.zero_le _)

/-- AT uses one number for its own entry, and each of its takes at most one (R54). -/
theorem TimelineKept.serveAt {room : Prop} {s : State} (h : TimelineKept room 1024 s) (k : SessionId) (pl : List Byte) :
    TimelineKept room 0 (serveAt k pl s).1 := by
  obtain e | ⟨l, v, due, -, place, e⟩ := serveAt_cases k pl s
  · rw [e]; exact h.mono (Nat.zero_le _)
  · rw [e]
    refine TimelineKept.takeUntil (m := Config.takesBound) ?_
    exact (h.mono (by decide)).enterTimeline place k due _

theorem TimelineKept.serveSeqStart {room : Prop} {s : State} (h : TimelineKept room 1024 s) (k : SessionId) (pl : List Byte) :
    TimelineKept room 0 (serveSeqStart k pl s).1 := by
  obtain e | ⟨i, start, -, -, place, e⟩ := serveSeqStart_cases k pl s
  · rw [e]; exact h.mono (Nat.zero_le _)
  · rw [e]
    refine TimelineKept.takeUntil (m := Config.takesBound) ?_
    exact ((h.mono (by decide)).enterTimeline place k _ _).of_changes (modSlot_changes _ i _)

theorem TimelineKept.serveSeqStop {room : Prop} {s : State} (h : TimelineKept room 1024 s) (k : SessionId) (pl : List Byte) :
    TimelineKept room 0 (serveSeqStop k pl s).1 := by
  obtain e | ⟨i, -, e⟩ := serveSeqStop_cases k pl s
  · rw [e]; exact h.mono (Nat.zero_le _)
  · rw [e]
    refine TimelineKept.takeUntil (m := Config.takesBound) ?_
    exact (h.mono (by decide)).stopSequence i .stopped

/-- What CANCEL can do: nothing but answer, or remove one entry (R59). -/
theorem serveCancel_cases (k : SessionId) (pl : List Byte) (s : State) : (serveCancel k pl s).1 = s ∨
    (serveCancel k pl s).1 = s.removeEntry (field2 pl 0) := by
  unfold serveCancel
  split
  · exact .inl rfl
  · split
    · exact .inl rfl
    · split
      · exact .inr rfl
      · exact .inl rfl
      · exact .inl rfl

theorem TimelineKept.serveCancel {room : Prop} {n : Nat} {s : State} (h : TimelineKept room n s) (k : SessionId)
    (pl : List Byte) : TimelineKept room n (serveCancel k pl s).1 := by
  obtain e | e := serveCancel_cases k pl s
  · rw [e]; exact h
  · rw [e]; exact h.removeEntry _

/-- Serving a request keeps the Timeline in order: AT, SEQ.START and SEQ.STOP enter and take entries, RELEASE and CLOSE stop runs,
CANCEL removes an entry. No other type touches the Timeline. -/
theorem serve_keeps_timeline {room : Prop} {s : State} (h : TimelineKept room 1024 s) (t : RequestType) (p : Port)
    (k : SessionId) (pl : List Byte) : TimelineKept room 0 (t.serve p k pl s).1 := by
  have same : ∀ {parts : List Part} {u : State}, ChangesOnly parts s u → Part.timeline ∉ parts → TimelineKept room 0 u :=
    fun hc hp => (h.mono (Nat.zero_le _)).of_changes hc hp
  cases t
  case atEdge => exact h.serveAt k pl
  case seqStart => exact h.serveSeqStart k pl
  case seqStop => exact h.serveSeqStop k pl
  case release => exact h.serveRelease k pl
  case closeSession => exact (h.mono (by decide)).beginClosing k .closed
  case cancel => exact (h.mono (Nat.zero_le _)).serveCancel k pl
  case openSession => exact h.mono (Nat.zero_le _)
  case info => exact h.mono (Nat.zero_le _)
  case ping => exact same (servePing_changes k pl s) (by decide)
  case status => exact same (serveStatus_changes k pl s) (by decide)
  case time => exact same (serveTime_changes k pl s) (by decide)
  case snapshot => exact same (serveSnapshot_changes k pl s) (by decide)
  case portstat => exact same (servePortstat_changes k pl s) (by decide)
  case restart => exact same (serveRestart_changes p k pl s) (by decide)
  case claim => exact same (serveClaim_changes k pl s) (by decide)
  case withdraw => exact same (serveWithdraw_changes k pl s) (by decide)
  case setup => exact same (serveSetup_changes k pl s) (by decide)
  case drive => exact same (serveDrive_changes k pl s) (by decide)
  case read => exact same (serveRead_changes k pl s) (by decide)
  case clear => exact same (serveClear_changes k pl s) (by decide)
  case pendingList => exact same (servePendingList_changes k pl s) (by decide)
  case seqNew => exact same (serveSeqNew_changes k pl s) (by decide)
  case seqAdd => exact same (serveSeqAdd_changes k pl s) (by decide)
  case seqSeal => exact same (serveSeqSeal_changes k pl s) (by decide)
  case seqQuery => exact same (serveSeqQuery_changes k pl s) (by decide)
  case seqFree => exact same (serveSeqFree_changes k pl s) (by decide)
  case watchSet => exact same (serveWatchSet_changes k pl s) (by decide)
  case watchAck => exact same (serveWatchAck_changes k pl s) (by decide)
  case watchDrop => exact same (serveWatchDrop_changes k pl s) (by decide)
  case watchRead => exact same (serveWatchRead_changes k pl s) (by decide)
  case cadSet => exact same (serveCadSet_changes k pl s) (by decide)
  case cadRun => exact same (serveCadRun_changes k pl s) (by decide)
  case cadHold => exact same (serveCadHold_changes k pl s) (by decide)
  case cadFree => exact same (serveCadFree_changes k pl s) (by decide)
  case cadRead => exact same (serveCadRead_changes k pl s) (by decide)

/-! ## Events, resets and the tick -/

theorem TimelineKept.checkClosing {room : Prop} {n : Nat} {s : State} (h : TimelineKept room n s) (k : SessionId) :
    TimelineKept room n (s.checkClosing k) :=
  h.of_changes (checkClosing_changes s k)

theorem TimelineKept.enterClosing {room : Prop} {n : Nat} {s : State} (h : TimelineKept room (n + 16) s) (k : SessionId)
    (cause : CloseCause) : TimelineKept room n (s.enterClosing k cause) :=
  ⟨h.1.enterClosing k cause, fun r => (h.2 r).enterClosing k cause⟩

theorem TimelineKept.takeEntry {room : Prop} {n : Nat} {s : State} (h : TimelineKept room (n + 1) s) (e : Entry) :
    TimelineKept room n (s.takeEntry e) :=
  ⟨h.1.takeEntry e, fun r => (h.2 r).takeEntry e⟩

theorem TimelineOk.takeBreak {s : State} (h : TimelineOk s) (p : Port) : TimelineOk (s.takeBreak p) := by
  unfold State.takeBreak
  have broken := h.of_changes (modPort_changes s p fun c => c.takeBreak s.tick)
  exact TimelineOk.foldl (fun _ k ht => ht.checkClosing k) _ (TimelineOk.foldl (fun _ k ht => ht.beginClosing k .brk) _ broken)

theorem TimelineKept.takeBreak {room : Prop} {n : Nat} {s : State} (h : TimelineKept room (n + 64) s) (p : Port) :
    TimelineKept room n (s.takeBreak p) :=
  ⟨h.1.takeBreak p, fun r => (h.2 r).takeBreak p⟩

theorem TimelineOk.offerAwait {s : State} (h : TimelineOk s) (l : LineId) (v : Level) (i : SlotId) :
    TimelineOk (s.offerAwait l v i) := by
  unfold State.offerAwait
  split
  · split
    · exact h.completeStep i .body _
    · exact h
  · exact h

theorem TimelineOk.senseEdge {s : State} (h : TimelineOk s) (l : LineId) : TimelineOk (s.senseEdge l) := by
  unfold State.senseEdge
  have sensed := h.of_changes (modLine_changes s l (LineCell.takeEdge s.tick))
  exact TimelineOk.foldl (fun _ i ht => ht.offerAwait l _ i) allSlots
    (sensed.of_changes (ChangesOnly.foldl (fun t w => offerEdge_changes t l _ w) allWatches _))

theorem TimelineKept.senseEdge {room : Prop} {n : Nat} {s : State} (h : TimelineKept room (n + 16) s) (l : LineId) :
    TimelineKept room n (s.senseEdge l) :=
  ⟨h.1.senseEdge l, fun r => (h.2 r).senseEdge l⟩

theorem clearBlocks_timelineKept (room : Prop) (s : State) : TimelineKept room 0 s.clearBlocks :=
  .of_empty (by decide) rfl rfl rfl

theorem startUp_timelineKept (room : Prop) (s : State) (cause : ResetCause) (pin : Level) :
    TimelineKept room 0 (s.startUp cause pin) := by
  have h : TimelineKept room 0 { s.clearBlocks with heldInReset := false, baud := baudOf pin } := clearBlocks_timelineKept room s
  exact ((h.of_changes (modPort_changes _ .a _)).of_changes (modPort_changes _ .b _)).of_changes (settle_changes _)

/-- The tick's end leaves the Timeline to the arbiters, and the arbiters leave it. -/
theorem TimelineKept.advance {room : Prop} {n : Nat} {s : State} (h : TimelineKept room n s) : TimelineKept room n s.advance :=
  h.of_changes (t := s.endTick) (endTick_changes s)

/-! ## Every command and every step -/

theorem exec_keeps_timeline {room : Prop} {c : Instr} {s t : State} (h : TimelineKept room 1024 s) (he : exec c s = .next t) :
    TimelineKept room 0 t :=
  have weak : ∀ s, TimelineKept room 1024 s → TimelineKept room 0 s := fun _ h => h.mono (Nat.zero_le _)
  exec_keeps (Pre := TimelineKept room 1024) (Post := TimelineKept room 0)
    (weak := weak)
    (frame := fun _ _ hc h => h.of_changes hc)
    (ho := fun p r s h => (weak s h).of_changes (serveOpen_changes p r s))
    (hs := fun t p k pl _ h _ => serve_keeps_timeline h t p k pl)
    (check := fun _ k h => h.checkClosing k)
    (receive := fun s p b h => h.of_changes (receiveByte_changes s p b))
    (gap := fun s p h => ((weak s h).of_changes (setReceiver_changes s p .hunt)).of_changes (modPort_changes _ _ _))
    (brk := fun _ p h => (h.mono (by decide)).takeBreak p)
    (sent := fun s p f h => (weak s h).of_changes (endTransmission_changes s p f))
    (start := fun s cause pin _ => startUp_timelineKept room s cause pin)
    (clear := fun s _ => ⟨clearBlocks_timelineKept room s, clearBlocks_timelineKept room s⟩)
    (edge := fun _ l h => (h.mono (by decide)).senseEdge l)
    (fault := fun s l h => (weak s h).of_changes (faultLine_changes s l))
    (burst := fun s l h => (weak s h).of_changes (modLine_changes s l _))
    (taken := fun _ e h _ => (h.mono (by decide)).takeEntry e)
    (expiry := fun s l k _ h => ((weak s h).of_changes (leaveQueue_changes s k l)).of_changes (notify_changes _ _ _))
    (lapse := fun _ k cause h => (h.mono (by decide)).enterClosing k cause)
    (begin := fun s g t h _ => (weak s h).of_changes (beginCycles_changes s g t))
    (low := fun s g _ h _ => ((weak s h).of_changes (modGenerator_changes s g _)).of_changes (ownWrite_changes _ _ _))
    (cycle := fun s g t h _ => (weak s h).of_changes (endCycle_changes s g t))
    (raw := fun s l _ h =>
      ⟨(weak s h).of_changes (modLine_changes s l _), (weak s h).of_changes (modLine_changes s l _)⟩)
    (idle := fun s p h => (weak s h).of_changes (modPort_changes s p _))
    h he

theorem step_keeps_timeline {room : Prop} {s t : State} (h : TimelineKept room 1024 s) (hstep : step s = .next t) :
    TimelineKept room 0 t :=
  step_keeps (Pre := TimelineKept room 1024) (Post := TimelineKept room 0)
    (weak := fun _ h => h.mono (Nat.zero_le _))
    (hp := fun _ _ h => h)
    (hx := fun _ _ _ h he => exec_keeps_timeline h he)
    (hu := fun s p h => (h.mono (Nat.zero_le _)).of_changes (takeUnknown_changes s p))
    (ha := fun _ h => (h.mono (Nat.zero_le _)).advance)
    h hstep

/-- Settles O12: a step keeps both at once (`step_keeps_timeline`), where it began with room for its admissions. -/
theorem stepKeepsTimeline : Obligations.StepKeepsTimeline := by
  unfold Obligations.StepKeepsTimeline
  intro s t hstep
  have kept (h : TimelineOk s) : TimelineKept (Admitting 1024 s) 0 t := step_keeps_timeline ⟨h, id⟩ hstep
  refine ⟨fun h => (kept h).1, fun h numbers room => ?_⟩
  exact ((kept h).2 ⟨h, numbers, room⟩).2.1

end Sys2Proof.Machine
end

section
/-! PROOFS. The Time Base: what a step does when no command waits (03, section 3.1), TIME, and the fields that name ticks and steps (03,
section 3.2; 09, sections 9.2 to 9.4). -/

namespace Sys2Proof.Machine

set_option Elab.async false

/-! ## Request types (R166) -/

theorem mem_allRequestTypes (t : RequestType) : t ∈ allRequestTypes := by
  cases t <;> decide

/-- A TYPE byte is unknown exactly when it is the code of no request. -/
theorem requestTypeOf_eq_none_iff (b : Byte) : requestTypeOf b = none ↔ ∀ t : RequestType, b ≠ t.code := by
  simp only [requestTypeOf, List.find?_eq_none, decide_eq_true_eq, mem_allRequestTypes, true_implies, ne_comm (a := b)]

theorem unknownRequest_of_takeable {s : State} {p : Port} {r : Request} (hr : s.takeable p = some r) :
    s.unknownRequest p = true ↔ ∀ t : RequestType, r.type ≠ t.code := by
  simp only [State.unknownRequest, hr, decide_eq_true_eq, requestTypeOf_eq_none_iff]

/-- A port whose next request, if any, is of a known type. -/
theorem unknownRequest_eq_false {s : State} {p : Port}
    (h : ∀ r : Request, s.takeable p = some r → ∃ t : RequestType, r.type = t.code) : s.unknownRequest p = false := by
  cases hr : s.takeable p with
  | none => simp only [State.unknownRequest, hr]
  | some r =>
    obtain ⟨t, ht⟩ := h r hr
    exact eq_false_of_ne_true fun unknown => (unknownRequest_of_takeable hr).mp unknown t ht

/-- A request of unknown type is answered BAD_TYPE and does nothing else (R166 check 1). -/
theorem takeUnknown_onlyReplies {s : State} {p : Port} {r : Request} (hr : s.takeable p = some r)
    (unknown : ∀ t : RequestType, r.type ≠ t.code) : s.OnlyReplies (s.takeUnknown p) p r (.plain .badType) := by
  simp only [State.takeUnknown, hr, (requestTypeOf_eq_none_iff r.type).mpr unknown, if_true]
  exact settle_settled _

/-! ## A step with no command waiting (log 1) -/

theorem step_of_no_command {s : State} (h : s.pending = []) : step s = s.idle := by
  simp only [step, h]

theorem idle_held {s : State} (h : s.heldInReset = true) : s.idle = .next s := by
  rw [State.idle, if_pos h]

theorem idle_due {s : State} {c : Instr} (h : s.heldInReset = false) (hc : s.dueEvent = some c) : s.idle = exec c s := by
  simp only [State.idle, h, hc, Bool.false_eq_true, if_false]

/-- What the block does when nothing is due: port A's request of unknown type, else port B's, else the tick's end. -/
theorem idle_nothing_due {s : State} (h : s.heldInReset = false) (hc : s.dueEvent = none) :
    s.idle = .next (if s.unknownRequest .a = true then s.takeUnknown .a
      else if s.unknownRequest .b = true then s.takeUnknown .b else s.advance) := by
  simp only [State.idle, h, hc, Bool.false_eq_true, if_false]
  split
  · rfl
  · split <;> rfl

/-- The count after this tick. -/
def State.nextCount (s : State) : BitVec 64 :=
  if s.now = BitVec.allOnes 64 then Config.countAfterLast s.freeIndex else s.now + 1

theorem nextCount_eq {s : State} (h : s.now ≠ BitVec.allOnes 64) : s.nextCount = s.now + 1 :=
  if_neg h

/-- The arbiters leave the model's own tick counter. -/
theorem advance_eq (s : State) : s.advance = { s.endTick with
    now := s.nextCount, freeIndex := s.freeIndex + 1,
    sessions := s.endTick.sessions.map fun r => { r with joinedNow := 0 } } := rfl

/-- At the tick's end an idle port has nothing left to send, notices of this tick among it (R168, log 7). -/
theorem endTick_idle {s : State} {p : Port} (h : (s.endTick.port p).transmitter = none) :
    (s.endTick.port p).frames = [] ∧ answeredReply (s.endTick.port p).inbound = none ∧
      ∀ k : SessionId, s.endTick.sessions[k].port = some p → s.endTick.sessions[k].queue = [] := by
  obtain ⟨noFrame, noReply, noNotice⟩ := arbitrate_both_conserve s true h
  refine ⟨noFrame, noReply, fun k hk => ?_⟩
  rcases noNotice k hk with empty | noOffer
  · exact empty
  · rwa [Session.offers, if_pos rfl, Bool.not_eq_false', List.isEmpty_iff] at noOffer

/-- Settles O2: the cases are `State.idle`'s (`idle_held`, `idle_due`, `idle_nothing_due`), and the tick's end is `endTick_settled` and
`endTick_idle`. -/
theorem stepWithoutCommands : Obligations.StepWithoutCommands := by
  unfold Obligations.StepWithoutCommands
  intro s empty
  rw [step_of_no_command empty]
  refine ⟨idle_held, fun running => ⟨fun c => idle_due running, fun nothing => ⟨?_, fun known => ?_⟩⟩⟩
  · intro p r hr unknown first
    have isUnknown := (unknownRequest_of_takeable hr).mpr unknown
    refine ⟨s.takeUnknown p, ?_, takeUnknown_onlyReplies hr unknown⟩
    rw [idle_nothing_due running nothing]
    cases p with
    | a => rw [if_pos isUnknown]
    | b => rw [unknownRequest_eq_false (first rfl), if_neg Bool.false_ne_true, if_pos isUnknown]
  · refine ⟨s.endTick, s.nextCount, endTick_settled s, fun p => endTick_idle, nextCount_eq, ?_⟩
    rw [idle_nothing_due running nothing, unknownRequest_eq_false (known .a), unknownRequest_eq_false (known .b),
      if_neg Bool.false_ne_true, if_neg Bool.false_ne_true, advance_eq]

/-! ## TIME -/

/-- Settles O20: `serveTime` leaves the state. -/
theorem timeGivesNow : Obligations.TimeGivesNow := by
  unfold Obligations.TimeGivesNow
  intro s p k r h
  exact ⟨_, rfl, takeSessioned_onlyReplies serveTime h rfl rfl⟩

/-! ## The `when` field (R46, R47) -/

theorem whenOf_now {pl : List Byte} {i : Nat} (h : field1 pl i = 0) : whenOf pl i = some .now := by
  simp only [whenOf, h]

theorem whenOf_after {pl : List Byte} {i : Nat} (h : field1 pl i = 1) : whenOf pl i = some (.after (field4 pl (i + 1))) := by
  simp only [whenOf, h]

theorem whenOf_at {pl : List Byte} {i : Nat} (h : field1 pl i = 2) : whenOf pl i = some (.at_ (field8 pl (i + 1))) := by
  simp only [whenOf, h]

theorem whenOf_none {pl : List Byte} {i : Nat} (h : 3 ≤ field1 pl i) : whenOf pl i = none := by
  obtain ⟨n, hn⟩ := Nat.exists_eq_add_of_le' h
  simp only [whenOf, hn]

theorem whenStatus_late {now start : Tick} (h : start < now) : whenStatus now start = some .late :=
  if_pos h

theorem whenStatus_horizon {now start : Tick} (h : now + Config.horizon < start) : whenStatus now start = some .horizon := by
  rw [whenStatus, if_neg (Nat.not_lt.mpr ((Nat.le_add_right _ _).trans h.le)), if_pos h]

theorem whenStatus_none {now start : Tick} (h : now ≤ start) (h' : start ≤ now + Config.horizon) : whenStatus now start = none := by
  rw [whenStatus, if_neg (Nat.not_lt.mpr h), if_neg (Nat.not_lt.mpr h')]

/-! ## Step records (R70, R71, R75) -/

section
variable {list : StepList} {pl : List Byte} {i : Nat}

theorem stepOf_longOffset (h : Config.longSpan < field4 pl (i + 4)) : stepOf list pl i = none := by
  rw [stepOf, if_pos h]

theorem stepOf_unknownKind (h : field1 pl i = 0 ∨ 3 < field1 pl i) : stepOf list pl i = none := by
  unfold stepOf
  dsimp only
  split
  · rfl
  · rcases h with h | h
    · rw [h]; rfl
    · obtain ⟨n, hn⟩ := Nat.exists_eq_add_of_le' h
      rw [hn]; rfl

/-- SET and AWAIT name a line and a level. -/
theorem stepOf_badLineOrLevel (hk : field1 pl i = 1 ∨ field1 pl i = 2)
    (h : 24 ≤ field1 pl (i + 1) ∨ 2 ≤ field1 pl (i + 2)) : stepOf list pl i = none := by
  rcases h with hl | hv
  · rcases hk with hk | hk
    · simp [stepOf, hk, nameOf_none hl]
    · simp [stepOf, hk, nameOf_none hl]
  · rcases hk with hk | hk
    · simp [stepOf, hk, levelOf_none hv]
    · simp [stepOf, hk, levelOf_none hv]

theorem stepOf_set {l : LineId} {v : Level} (ho : field4 pl (i + 4) ≤ Config.longSpan) (hk : field1 pl i = 1)
    (hl : field1 pl (i + 1) = l.val) (hv : field1 pl (i + 2) = Level.code v) :
    stepOf list pl i = some { offset := field4 pl (i + 4), kind := .set l v } := by
  simp only [stepOf, if_neg (Nat.not_lt.mpr ho), hk, nameOf_of_eq hl, levelOf_of_eq hv]

theorem stepOf_await {l : LineId} {v : Level} (ho : field4 pl (i + 4) ≤ Config.longSpan) (hk : field1 pl i = 2)
    (hl : field1 pl (i + 1) = l.val) (hv : field1 pl (i + 2) = Level.code v) :
    stepOf list pl i = if list = .unwind ∨ field4 pl (i + 8) = 0 ∨ Config.longSpan < field4 pl (i + 8) then none
      else some { offset := field4 pl (i + 4), kind := .await l v (field4 pl (i + 8)) } := by
  simp only [stepOf, if_neg (Nat.not_lt.mpr ho), hk, nameOf_of_eq hl, levelOf_of_eq hv]

theorem stepOf_mark (ho : field4 pl (i + 4) ≤ Config.longSpan) (hk : field1 pl i = 3) :
    stepOf list pl i = if Config.max16 < field4 pl (i + 8) then none
      else some { offset := field4 pl (i + 4), kind := .mark (field4 pl (i + 8)) } := by
  simp only [stepOf, if_neg (Nat.not_lt.mpr ho), hk]

end

/-! ## Numbers of several bytes (R178) -/

/-- The number that four bytes spell, least significant first. -/
theorem field4_eq (pl : List Byte) (i : Nat) : field4 pl i =
    field1 pl i + 256 * field1 pl (i + 1) + 65536 * field1 pl (i + 2) + 16777216 * field1 pl (i + 3) := by
  simp only [field4, field2, show i + 2 + 1 = i + 3 from rfl]
  omega

/-- Settles O38: each clause is one branch of `whenOf`, `whenStatus` or `stepOf`, with its fields as `field4_eq` spells them. -/
theorem whenFieldsAndStepRecords : Obligations.WhenFieldsAndStepRecords := by
  unfold Obligations.WhenFieldsAndStepRecords
  refine ⟨fun f b0 b1 b2 b3 b4 b5 b6 b7 now => ?_, fun list kind line level pad o0 o1 o2 o3 v0 v1 v2 v3 => ?_⟩
  · intro p low high
    have hlow : field4 p 1 = low := field4_eq p 1
    have hhigh : field4 p 5 = high := field4_eq p 5
    refine ⟨fun hf => ?_, fun hf => ?_, fun hf => ?_, whenOf_none (pl := p) (i := 0), fun start =>
      ⟨whenStatus_late, whenStatus_horizon, whenStatus_none⟩⟩
    · rw [whenOf_now (pl := p) (i := 0) hf]; rfl
    · rw [whenOf_after (pl := p) (i := 0) hf, hlow]; rfl
    · rw [whenOf_at (pl := p) (i := 0) hf, field8, hlow, hhigh]; rfl
  · intro p offset value
    have hoffset : field4 p 4 = offset := field4_eq p 4
    have hvalue : field4 p 8 = value := field4_eq p 8
    refine ⟨fun h => ?_, stepOf_badLineOrLevel (pl := p) (i := 0), fun l v ho hl hv => ⟨fun hk => ?_, fun hk bad => ?_, fun hk hb h1 h2 => ?_⟩,
      fun ho hk => ⟨fun long => ?_, fun short => ?_⟩⟩
    · rcases h with long | unknown
      · exact stepOf_longOffset (pl := p) (i := 0) (hoffset ▸ long)
      · exact stepOf_unknownKind (pl := p) unknown
    · rw [stepOf_set (pl := p) (i := 0) (hoffset ▸ ho) hk hl hv, hoffset]
    · rw [stepOf_await (pl := p) (i := 0) (hoffset ▸ ho) hk hl hv, hvalue]; exact if_pos bad
    · have good : ¬(list = .unwind ∨ value = 0 ∨ Config.longSpan < value) := by
        rw [hb]
        rintro (h | h | h)
        · cases h
        · omega
        · exact absurd h2 (Nat.not_le.mpr h)
      rw [stepOf_await (pl := p) (i := 0) (hoffset ▸ ho) hk hl hv, hvalue, hoffset]; exact if_neg good
    · rw [stepOf_mark (pl := p) (i := 0) (hoffset ▸ ho) hk, hvalue]; exact if_pos long
    · rw [stepOf_mark (pl := p) (i := 0) (hoffset ▸ ho) hk, hvalue, hoffset]; exact if_neg (Nat.not_lt.mpr short)

end Sys2Proof.Machine
end

section
/-! PROOFS. Handles (R50), and the one-shots of the Timeline: how one falls due (03, section 3.6), CANCEL (section 3.7) and AT (section
3.5). -/

namespace Sys2Proof.Machine

set_option Elab.async false

/-! ## The next handle (R50) -/

theorem handleAfter_eq {h : Nat} (hh : h ≤ Config.max16) : handleAfter h = h % 65535 + 1 := by
  unfold handleAfter
  unfold Config.max16 at *
  split <;> omega

/-- The handle that is given is the first increase of the counter that no live entry holds, as far as `n` values are skipped. -/
theorem freshHandle_first (live : List Nat) (n : Nat) {h : Nat} (hh : h ≤ Config.max16) :
    ∃ m : Nat, m ≤ n ∧ freshHandle live n h = (h + m) % 65535 + 1 ∧ ∀ j : Nat, j < m → (h + j) % 65535 + 1 ∈ live := by
  induction n generalizing h with
  | zero => exact ⟨0, le_rfl, handleAfter_eq hh, fun j hj => absurd hj (Nat.not_lt_zero j)⟩
  | succ n ih =>
    by_cases held : handleAfter h ∈ live
    · obtain ⟨m, hm, value, skipped⟩ := ih (handleAfter_range h).2
      have shift : ∀ j : Nat, (handleAfter h + j) % 65535 = (h + (j + 1)) % 65535 := fun j => by
        rw [handleAfter_eq hh]; omega
      refine ⟨m + 1, Nat.succ_le_succ hm, ?_, fun j hj => ?_⟩
      · rw [freshHandle, if_pos held, value, shift]
      · cases j with
        | zero => exact handleAfter_eq hh ▸ held
        | succ j => rw [← shift]; exact skipped j (Nat.lt_of_succ_lt_succ hj)
    · refine ⟨0, Nat.zero_le _, ?_, fun j hj => absurd hj (Nat.not_lt_zero j)⟩
      rw [freshHandle, if_neg held]
      exact handleAfter_eq hh

/-- Settles O37: range and freshness are the Timeline's laws, and the values before it are `freshHandle_first`'s. -/
theorem nextHandleIsFresh : Obligations.NextHandleIsFresh := by
  unfold Obligations.NextHandleIsFresh
  intro s few counter
  obtain ⟨low, high⟩ := freshHandle_range (s.timeline.map Entry.handle) Config.timelinePlaces s.handleCounter
  obtain ⟨n, hn, value, skipped⟩ := freshHandle_first (s.timeline.map Entry.handle) Config.timelinePlaces counter
  refine ⟨low, high, nextHandle_fresh few counter, n, hn, value, fun m hm => ?_⟩
  exact List.mem_map.mp (skipped m hm)

/-! ## Entries by their place and handle -/

/-- Removing the first entry leaves the others, none of which has its handle. -/
theorem removeEntry_first {s : State} {e : Entry} {rest : List Entry} (first : s.timeline = e :: rest)
    (others : ∀ f ∈ rest, f.handle ≠ e.handle) : (s.removeEntry e.handle).timeline = rest := by
  rw [State.removeEntry, State.setTimeline_timeline, first, List.filter_cons_of_neg (by simp)]
  exact List.filter_eq_self.mpr fun f hf => decide_eq_true (others f hf)

theorem TimelineOk.first_handle {s : State} (h : TimelineOk s) {e : Entry} {rest : List Entry} (first : s.timeline = e :: rest) :
    ∀ f ∈ rest, f.handle ≠ e.handle := by
  obtain ⟨-, -, distinct, -⟩ := h
  rw [first, List.map_cons, List.nodup_cons] at distinct
  exact fun f hf same => distinct.1 (same ▸ List.mem_map_of_mem hf)

/-- No entry of a Timeline in order has handle 0 (R50). -/
theorem TimelineOk.findEntry_zero {s : State} (h : TimelineOk s) : s.findEntry 0 = none := by
  cases found : s.findEntry 0 with
  | none => rfl
  | some e =>
    obtain ⟨live, zero⟩ := findEntry_some found
    obtain ⟨-, -, -, range, -⟩ := h
    have positive := (range e live).1
    omega

theorem dueEntry_of_due {s : State} {e : Entry} {rest : List Entry} (first : s.timeline = e :: rest) (due : e.due ≤ s.tick) :
    s.dueEntry = some e := by
  simp only [State.dueEntry, first, if_pos due]

theorem dueEntry_of_ahead {s : State} {e : Entry} {rest : List Entry} (first : s.timeline = e :: rest) (ahead : s.tick < e.due) :
    s.dueEntry = none := by
  simp only [State.dueEntry, first, if_neg (Nat.not_le.mpr ahead)]

theorem isDue_of_found {s : State} {h : Nat} {e : Entry} (found : s.findEntry h = some e) :
    s.isDue h = decide (e.due ≤ s.tick) := by
  simp only [State.isDue, found]

theorem isDue_of_absent {s : State} {h : Nat} (absent : s.findEntry h = none) : s.isDue h = false := by
  simp only [State.isDue, absent]

/-! ## The takes before a reply (R54) -/

/-- Nothing is taken for an entry that is not due. -/
theorem takeUntil_of_not_due {s : State} {h : Nat} (n : Nat) (not_due : s.isDue h = false) : State.takeUntil h n s = s := by
  cases n with
  | zero => rfl
  | succ n => rw [State.takeUntil, not_due, if_neg Bool.false_ne_true]

theorem takeUntil_of_due {s : State} {h : Nat} {e : Entry} (n : Nat) (due : s.isDue h = true) (first : s.dueEntry = some e) :
    State.takeUntil h (n + 1) s = State.takeUntil h n (s.takeEntry e) := by
  rw [State.takeUntil, if_pos due, first]

/-! ## A one-shot that is taken (R56, R57) -/

section
variable {s : State} {e : Entry} {l : LineId} {v : Level}

theorem takeOneshot_faulted (fault : s.lines[l].fault ≠ .none) :
    s.takeOneshot e l v = (s.removeEntry e.handle).notify e.owner (.actFailed e.handle l .lineFault e.due) := by
  have faulted : (s.removeEntry e.handle).lines[l].faulted = true := (faulted_iff _).mpr fault
  rw [State.takeOneshot, if_pos faulted]

theorem takeOneshot_input (fault : s.lines[l].fault = .none) (input : s.lines[l].mode = .input) :
    s.takeOneshot e l v = (s.removeEntry e.handle).notify e.owner (.actFailed e.handle l .mode e.due) := by
  have unfaulted : ¬(s.removeEntry e.handle).lines[l].faulted = true := fun f => (faulted_iff _).mp f fault
  rw [State.takeOneshot, if_neg unfaulted]
  exact if_pos input

theorem takeOneshot_writes (fault : s.lines[l].fault = .none) (driver : s.lines[l].mode ≠ .input) :
    s.takeOneshot e l v = (s.removeEntry e.handle).writeLine l v := by
  have unfaulted : ¬(s.removeEntry e.handle).lines[l].faulted = true := fun f => (faulted_iff _).mp f fault
  rw [State.takeOneshot, if_neg unfaulted]
  exact if_neg driver

end

/-- Of the Timeline the taking of a one-shot changes no more than that its entry is removed. -/
theorem takeOneshot_after_removal (s : State) (e : Entry) (l : LineId) (v : Level) :
    ChangesOnly [.lines, .generators, .numbers, .queues] (s.removeEntry e.handle) (s.takeOneshot e l v) := by
  unfold State.takeOneshot
  dsimp only
  split
  · exact (notify_changes _ _ _).mono (by decide)
  · split
    · exact (notify_changes _ _ _).mono (by decide)
    · exact writeLine_changes _ _ _

/-- A one-shot that fails makes its ACT.FAILED and changes the Timeline besides. -/
theorem removeEntry_notify_makes (s : State) (handle : Nat) (k : SessionId) (body : NoticeBody) :
    Makes s ((s.removeEntry handle).notify k body).settle [.timeline] [(k, body)] := by
  have removed := removeEntry_changes s handle
  exact ⟨_, removed.andThen (notify_changes _ k body), Made.after removed (made_notify _ k body), settle_settled _⟩

/-- A level write after a change of the Timeline alone is the write that would have been before it. -/
theorem writeLine_after_timeline {s x : State} (hb : BoundOk s) (hc : ChangesOnly [.timeline] s x) (l : LineId) (v : Level) :
    ChangesOnly [.lines, .timeline, .generators, .numbers, .queues] s (x.writeLine l v) ∧
      Made s (x.writeLine l v) (s.cadEnds l .overridden) ∧ GeneratorStopped s (x.writeLine l v) l ∧
      LineBecomes s (x.writeLine l v) l (s.lines[l].writeLevel s.tick v) := by
  have hx : BoundOk x := hb.of_changes hc
  have report := stopBound_changes (x.modLine l (LineCell.writeLevel x.tick v)) l .overridden
  have line := (modLine_lineBecomes x l (LineCell.writeLevel x.tick v)).of_changes report
  refine ⟨hc.andThen (writeLine_changes x l v), ?_, fun g => ?_, ?_⟩
  · rw [← cadEnds_congr hc]
    exact Made.after hc (made_writeLine hx l v)
  · rw [writeLine_generatorStopped hx l v [] (.refl [] _) (by decide) g, hc.generator g]
  · rw [← hc.tick, ← hc.line l]
    exact ⟨line.1, fun m hm => (line.2 m hm).trans (hc.line m)⟩

theorem GeneratorStopped.of_changes {parts : List Part} {s u t : State} {l : LineId} (h : GeneratorStopped s u l)
    (hc : ChangesOnly parts u t) (hp : Part.generators ∉ parts := by decide) : GeneratorStopped s t l :=
  fun g => (hc.generator g hp).trans (h g)

/-! ## ONESHOT_DUE -/

theorem exec_oneshotDue_ahead {s : State} {e : Entry} {rest : List Entry} (first : s.timeline = e :: rest)
    (ahead : s.tick < e.due) : exec .oneshotDue s = .next s := by
  show execOneshotDue s = _
  rw [execOneshotDue, dueEntry_of_ahead first ahead]

theorem exec_oneshotDue_due {s : State} {e : Entry} {rest : List Entry} {l : LineId} {v : Level}
    (first : s.timeline = e :: rest) (kind : e.kind = .oneshot l v) (due : e.due ≤ s.tick) :
    exec .oneshotDue s = .next (s.takeOneshot e l v).settle := by
  show execOneshotDue s = _
  simp only [execOneshotDue, dueEntry_of_due first due, kind]

/-- Settles O41: a due one-shot is removed (`removeEntry_first`), and then it fails or writes (`takeOneshot_faulted`,
`takeOneshot_input`, `takeOneshot_writes`). -/
theorem oneshotFallsDue : Obligations.OneshotFallsDue := by
  unfold Obligations.OneshotFallsDue
  intro s e rest l v hb ht first kind
  rcases Nat.lt_or_ge s.tick e.due with ahead | due
  · exact ⟨s, exec_oneshotDue_ahead first ahead, fun _ => rfl, fun due => absurd ahead (Nat.not_lt.mpr due)⟩
  · have after := (takeOneshot_after_removal s e l v).andThen (settle_changes (s.takeOneshot e l v))
      (parts := [.lines, .generators, .numbers, .queues, .frames, .sending])
    obtain ⟨entries, handles, admissions⟩ := after .timeline (by decide)
    refine ⟨_, exec_oneshotDue_due first kind due, fun ahead => absurd ahead (Nat.not_lt.mpr due), fun _ =>
      ⟨entries.trans (removeEntry_first first (ht.first_handle first)), handles, admissions, fun fault => ?_,
        fun fault input => ?_, fun fault driver => ?_⟩⟩
    · rw [takeOneshot_faulted fault]
      exact removeEntry_notify_makes s e.handle e.owner _
    · rw [takeOneshot_input fault input]
      exact removeEntry_notify_makes s e.handle e.owner _
    · rw [takeOneshot_writes fault driver]
      obtain ⟨changes, notices, generator, line⟩ := writeLine_after_timeline hb (removeEntry_changes s e.handle) l v
      exact ⟨generator.of_changes (settle_changes _), line.of_changes (settle_changes _), _, changes, notices, settle_settled _⟩

/-! ## CANCEL (R59) -/

theorem serveCancel_notFound {pl : List Byte} {s : State} (h : s.findEntry (field2 pl 0) = none) (k : SessionId) :
    serveCancel k pl s = (s, .plain .notFound) := by
  simp only [serveCancel, h]

theorem serveCancel_notOwner {pl : List Byte} {s : State} {k : SessionId} {e : Entry} (h : s.findEntry (field2 pl 0) = some e)
    (other : e.owner ≠ k) : serveCancel k pl s = (s, .plain .notFound) := by
  simp only [serveCancel, h, if_pos other]

theorem serveCancel_sequence {pl : List Byte} {s : State} {k : SessionId} {e : Entry} (h : s.findEntry (field2 pl 0) = some e)
    (own : e.owner = k) (sequence : e.isOneshot = false) : serveCancel k pl s = (s, .plain .kind) := by
  simp only [serveCancel, h, if_neg (not_not.mpr own)]
  unfold Entry.isOneshot at sequence
  split
  · rename_i l v kind
    rw [kind] at sequence
    cases sequence
  · rfl
  · rfl

theorem serveCancel_oneshot {pl : List Byte} {s : State} {k : SessionId} {e : Entry} {l : LineId} {v : Level}
    (h : s.findEntry (field2 pl 0) = some e) (own : e.owner = k) (kind : e.kind = .oneshot l v) :
    serveCancel k pl s = (s.removeEntry (field2 pl 0), { status := .ok, data := .cancelled l v e.due }) := by
  simp only [serveCancel, h, if_neg (not_not.mpr own), kind]

/-- Settles O40: the outcomes are `serveCancel`'s branches, and the accepted one removes the entry and makes no notice. -/
theorem cancelRemovesOneshot : Obligations.CancelRemovesOneshot := by
  unfold Obligations.CancelRemovesOneshot
  intro s p k r b0 b1 h
  have refuses : ∀ {a : Answer}, serveCancel k [b0, b1] s = (s, a) →
      s.OnlyReplies (s.takeSessioned .cancel p serveCancel) p r a := fun he => takeSessioned_onlyReplies serveCancel h rfl he
  refine ⟨_, rfl, fun absent => refuses (serveCancel_notFound (pl := [b0, b1]) ?_ k), fun e found =>
    ⟨fun other => refuses (serveCancel_notOwner (pl := [b0, b1]) found other),
      fun own sequence => refuses (serveCancel_sequence (pl := [b0, b1]) found own sequence), fun l v own kind => ?_⟩⟩
  · rcases absent with none | ⟨ordered, zero⟩
    · exact none
    · have noHandle : field2 [b0, b1] 0 = 0 := zero
      rw [noHandle]
      exact ordered.findEntry_zero
  · have served := serveCancel_oneshot (pl := [b0, b1]) found own kind
    have removed := removeEntry_changes s (field2 [b0, b1] 0)
    obtain ⟨entries, handles, admissions⟩ := takeSessioned_changes_after h rfl served .timeline (by decide)
    exact ⟨takeSessioned_answers serveCancel h rfl served [.timeline] (removed.mono (by decide)) (Made.of_changes removed),
      entries, handles, admissions⟩

/-! ## The admission of a one-shot (R54) -/

section
variable {s : State} {k : SessionId} {l : LineId} {v : Level} {due : Tick}

/-- The entry that the admission of a one-shot makes. -/
def State.newOneshot (s : State) (k : SessionId) (l : LineId) (v : Level) (due : Tick) : Entry :=
  { handle := s.nextHandle, owner := k, due := due, admission := s.nextAdmission, kind := .oneshot l v }

theorem enterTimeline_oneshot_found (ht : TimelineOk s) :
    (s.enterTimeline k due (.oneshot l v)).findEntry s.nextHandle = some (s.newOneshot k l v due) := by
  obtain ⟨few, -, -, -, counter⟩ := ht
  exact find?_insertEntry (e := s.newOneshot k l v due) (nextHandle_fresh few counter)

/-- An entry that goes before every other is put first. -/
theorem insertEntry_first {e : Entry} {es : List Entry} (h : ∀ f ∈ es, e.before f = true) : insertEntry e es = e :: es := by
  cases es with
  | nil => rfl
  | cons f fs => rw [insertEntry, if_pos (h f List.mem_cons_self)]

theorem enterTimeline_oneshot_first (alone : ∀ e ∈ s.timeline, due < e.due) :
    (s.enterTimeline k due (.oneshot l v)).timeline = s.newOneshot k l v due :: s.timeline :=
  insertEntry_first fun f hf => by
    rw [Entry.before, Bool.or_eq_true, decide_eq_true_eq]
    exact .inl (alone f hf)

/-- A one-shot that is due later waits in its place. -/
theorem scheduleOneshot_ahead (ht : TimelineOk s) (ahead : s.tick < due) :
    s.scheduleOneshot k l v due = s.enterTimeline k due (.oneshot l v) := by
  refine takeUntil_of_not_due Config.takesBound ?_
  rw [isDue_of_found (enterTimeline_oneshot_found ht)]
  exact decide_eq_false (Nat.not_le.mpr ahead)

/-- A one-shot that is due now, with no other entry due, is the first and the only one taken. -/
theorem scheduleOneshot_now (ht : TimelineOk s) (alone : ∀ e ∈ s.timeline, s.tick < e.due) :
    s.scheduleOneshot k l v s.tick =
      (s.enterTimeline k s.tick (.oneshot l v)).takeOneshot (s.newOneshot k l v s.tick) l v := by
  have first := enterTimeline_oneshot_first (k := k) (l := l) (v := v) alone
  have isDue : (s.enterTimeline k s.tick (.oneshot l v)).isDue s.nextHandle = true := by
    rw [isDue_of_found (enterTimeline_oneshot_found ht)]
    exact decide_eq_true le_rfl
  have removed := removeEntry_findEntry (s.enterTimeline k s.tick (.oneshot l v)) s.nextHandle
  have absent : ((s.enterTimeline k s.tick (.oneshot l v)).takeOneshot (s.newOneshot k l v s.tick) l v).findEntry
      s.nextHandle = none := by
    obtain ⟨entries, -, -⟩ := takeOneshot_after_removal (s.enterTimeline k s.tick (.oneshot l v))
      (s.newOneshot k l v s.tick) l v .timeline (by decide)
    rw [State.findEntry, entries]
    exact removed
  have takes : Config.takesBound = 703 + 1 := rfl
  rw [State.scheduleOneshot, takes, takeUntil_of_due 703 isDue (dueEntry_of_due first le_rfl)]
  exact takeUntil_of_not_due 703 (isDue_of_absent absent)

/-- What that one-shot does on a line that takes its write: the write, with the Timeline as before and both counters advanced. -/
theorem scheduleOneshot_now_writes (hb : BoundOk s) (ht : TimelineOk s) (alone : ∀ e ∈ s.timeline, s.tick < e.due)
    (fault : s.lines[l].fault = .none) (driver : s.lines[l].mode ≠ .input) :
    let u := s.scheduleOneshot k l v s.tick
    (u.timeline = s.timeline ∧ u.handleCounter = s.nextHandle ∧ u.admissionCounter = s.nextAdmission) ∧
      ChangesOnly [.lines, .timeline, .generators, .numbers, .queues] s u ∧ Made s u (s.cadEnds l .overridden) ∧
      GeneratorStopped s u l ∧ LineBecomes s u l (s.lines[l].writeLevel s.tick v) := by
  intro u
  have entered := enterTimeline_changes s k s.tick (.oneshot l v)
  have removed := removeEntry_changes (s.enterTimeline k s.tick (.oneshot l v)) s.nextHandle
  have hu : u = ((s.enterTimeline k s.tick (.oneshot l v)).removeEntry s.nextHandle).writeLine l v :=
    (scheduleOneshot_now ht alone).trans (takeOneshot_writes fault driver)
  obtain ⟨entries, handles, admissions⟩ := writeLine_changes
    ((s.enterTimeline k s.tick (.oneshot l v)).removeEntry s.nextHandle) l v .timeline (by decide)
  have first := enterTimeline_oneshot_first (k := k) (l := l) (v := v) alone
  obtain ⟨few, -, -, -, counter⟩ := ht
  rw [hu]
  exact ⟨⟨entries.trans (removeEntry_first first (nextHandle_fresh few counter)), handles, admissions⟩,
    writeLine_after_timeline hb (entered.trans removed) l v⟩

end

/-! ## AT's checks in their order (R53) -/

theorem serveAt_badField {pl : List Byte} (h : 24 ≤ field1 pl 0 ∨ 2 ≤ field1 pl 1 ∨ whenOf pl 2 = none) (k : SessionId)
    (s : State) : serveAt k pl s = (s, .plain .badField) := by
  unfold serveAt
  split
  · rename_i hl hv hw
    rcases h with h | h | h
    · rw [nameOf_none h] at hl; cases hl
    · rw [levelOf_none h] at hv; cases hv
    · rw [h] at hw; cases hw
  · rfl

section
variable {pl : List Byte} {l : LineId} {v : Level} {w : When} {k : SessionId} {s : State}
  (hl : field1 pl 0 = l.val) (hv : field1 pl 1 = Level.code v) (hw : whenOf pl 2 = some w)
include hl hv hw

theorem serveAt_notHolder (hh : s.holder l ≠ some k) : serveAt k pl s = (s, .plain .notHolder) := by
  simp only [serveAt, nameOf_of_eq hl, levelOf_of_eq hv, hw, holds_false, if_pos hh]

theorem serveAt_lineFault (hh : s.holder l = some k) (fault : s.lines[l].fault ≠ .none) :
    serveAt k pl s = (s, .plain .lineFault) := by
  simp only [serveAt, nameOf_of_eq hl, levelOf_of_eq hv, hw, holds_false, if_neg (not_not.mpr hh), faulted_iff, if_pos fault]

theorem serveAt_input (hh : s.holder l = some k) (fault : s.lines[l].fault = .none) (input : s.lines[l].mode = .input) :
    serveAt k pl s = (s, .plain .mode) := by
  simp only [serveAt, nameOf_of_eq hl, levelOf_of_eq hv, hw, holds_false, if_neg (not_not.mpr hh), faulted_iff,
    if_neg (not_not.mpr fault), if_pos input]

variable (hh : s.holder l = some k) (fault : s.lines[l].fault = .none) (driver : s.lines[l].mode ≠ .input)
include hh fault driver

theorem serveAt_whenStatus {x : Status} (hx : whenStatus s.tick (w.start s.tick) = some x) :
    serveAt k pl s = (s, { status := x, data := .tick s.tick }) := by
  simp only [serveAt, nameOf_of_eq hl, levelOf_of_eq hv, hw, holds_false, if_neg (not_not.mpr hh), faulted_iff,
    if_neg (not_not.mpr fault), if_neg driver, hx, lateAnswer]

theorem serveAt_full (hx : whenStatus s.tick (w.start s.tick) = none) (full : 64 ≤ s.timeline.length) :
    serveAt k pl s = (s, .plain .timelineFull) := by
  have isFull : s.timelineFull = true := decide_eq_true full
  simp only [serveAt, nameOf_of_eq hl, levelOf_of_eq hv, hw, holds_false, if_neg (not_not.mpr hh), faulted_iff,
    if_neg (not_not.mpr fault), if_neg driver, hx, if_pos isFull]

theorem serveAt_accepted (hx : whenStatus s.tick (w.start s.tick) = none) (room : s.timeline.length < 64) :
    serveAt k pl s = (s.scheduleOneshot k l v (w.start s.tick),
      { status := .ok, data := .admitted s.nextHandle (w.start s.tick) }) := by
  have notFull : ¬s.timelineFull = true := fun full => Nat.not_le.mpr room (of_decide_eq_true full)
  simp only [serveAt, nameOf_of_eq hl, levelOf_of_eq hv, hw, holds_false, if_neg (not_not.mpr hh), faulted_iff,
    if_neg (not_not.mpr fault), if_neg driver, hx, if_neg notFull]

end

/-- Settles O39: the refusals are `serveAt`'s checks, and an accepted AT schedules its one-shot, which waits (`scheduleOneshot_ahead`)
or, due now and alone, writes its line (`scheduleOneshot_now_writes`). -/
theorem atSchedulesEdge : Obligations.AtSchedulesEdge := by
  unfold Obligations.AtSchedulesEdge
  intro s p k r pl hb ht hlen h
  have allowed : RequestType.atEdge.allows pl.length = true := decide_eq_true hlen
  have refuses : ∀ {a : Answer}, serveAt k pl s = (s, a) → s.OnlyReplies (s.takeSessioned .atEdge p serveAt) p r a :=
    fun he => takeSessioned_onlyReplies serveAt h allowed he
  refine ⟨_, rfl, fun bad => refuses (serveAt_badField bad k s), fun l v w hl hv hw => ?_⟩
  intro start
  refine ⟨fun hh => refuses (serveAt_notHolder hl hv hw hh), fun hh fault => refuses (serveAt_lineFault hl hv hw hh fault),
    fun hh fault input => refuses (serveAt_input hl hv hw hh fault input), fun hh fault driver =>
      ⟨fun x hx => refuses (serveAt_whenStatus hl hv hw hh fault driver hx),
        fun hx full => refuses (serveAt_full hl hv hw hh fault driver hx full), fun hx room => ?_⟩⟩
  intro answer entry
  have served : serveAt k pl s = (s.scheduleOneshot k l v start, answer) := serveAt_accepted hl hv hw hh fault driver hx room
  have entered := enterTimeline_changes s k start (.oneshot l v)
  have settled : Settled ((s.scheduleOneshot k l v start).answer p r answer) (s.takeSessioned .atEdge p serveAt) := by
    rw [takeSessioned_eq serveAt h allowed, served]
    exact settle_settled _
  have after := takeSessioned_changes_after h allowed served
  obtain ⟨entries, handles, admissions⟩ := after .timeline (by decide)
  obtain ⟨takeable, -⟩ := id h
  refine ⟨answer_replied takeable takingParts (scheduleOneshot_changes s k l v start) settled,
    ⟨s.enterTimeline k start (.oneshot l v), entered, rfl, rfl, rfl, settled⟩, fun ahead => ?_, fun now alone => ?_⟩
  · have waits := scheduleOneshot_ahead (k := k) (l := l) (v := v) ht ahead
    rw [waits] at entries handles admissions served
    exact ⟨entries, handles, admissions, takeSessioned_answers serveAt h allowed served [.timeline] (entered.mono (by decide))
      (Made.of_changes entered)⟩
  · rw [now] at served after entries handles admissions
    obtain ⟨⟨entries', handles', admissions'⟩, changes, notices, generator, line⟩ :=
      scheduleOneshot_now_writes (k := k) (v := v) hb ht alone fault driver
    exact ⟨entries.trans entries', handles.trans handles', admissions.trans admissions', generator.of_changes after,
      line.of_changes after, takeSessioned_answers serveAt h allowed served [.lines, .timeline, .generators] changes notices⟩

end Sys2Proof.Machine
end

section
/-! PROOFS. SEQ.NEW, SEQ.ADD, SEQ.SEAL and SEQ.FREE as changes of one slot, and the invariant of the pool (`PoolOk`; 04, sections 4.1 and
4.2, R69, R71): each request and each event keeps it, and so does every step. -/

namespace Sys2Proof.Machine

set_option Elab.async false

/-! ## What the requests on a slot at rest can do -/

/-- What SEQ.NEW can do: nothing but answer, or make an EMPTY slot LOADING with the requester as its owner (R74). -/
theorem serveSeqNew_cases (k : SessionId) (pl : List Byte) (s : State) : (serveSeqNew k pl s).1 = s ∨
    ∃ i : SlotId, s.slots[i].state = .empty ∧
      (serveSeqNew k pl s).1 = s.modSlot i fun r => { r with state := .loading, owner := some k } := by
  unfold serveSeqNew
  split
  · exact .inl rfl
  · rename_i i found
    have empty := List.find?_some found
    exact .inr ⟨i, of_decide_eq_true empty, rfl⟩

/-- What SEQ.ADD can do: nothing but answer, or append steps to a list of a LOADING slot where the list and the pool have room
(R75, R76). -/
theorem serveSeqAdd_cases (k : SessionId) (pl : List Byte) (s : State) : (serveSeqAdd k pl s).1 = s ∨
    ∃ (i : SlotId) (list : StepList) (steps : List Step), s.slots[i].state = .loading ∧
      (s.slots[i].list list).length + steps.length ≤ list.capacity ∧ steps.length ≤ s.poolFree ∧
      (serveSeqAdd k pl s).1 = s.appendSteps i list steps := by
  unfold serveSeqAdd
  split
  · rename_i i list _ _
    split
    · exact .inl rfl
    · split
      · exact .inl rfl
      · rename_i loading
        split
        · exact .inl rfl
        · rename_i steps _
          split
          · exact .inl rfl
          · rename_i fits
            split
            · exact .inl rfl
            · rename_i room
              exact .inr ⟨i, list, steps, not_not.mp loading, Nat.le_of_not_lt fits, Nat.le_of_not_lt room, rfl⟩
  · exact .inl rfl

/-- What SEQ.SEAL can do: nothing but answer, or make a LOADING slot with a body READY (R77). -/
theorem serveSeqSeal_cases (k : SessionId) (pl : List Byte) (s : State) : (serveSeqSeal k pl s).1 = s ∨
    ∃ i : SlotId, s.slots[i].state = .loading ∧ s.slots[i].body ≠ [] ∧
      (serveSeqSeal k pl s).1 = s.modSlot i fun r => { r with state := .ready } := by
  unfold serveSeqSeal
  split
  · exact .inl rfl
  · rename_i i _
    split
    · exact .inl rfl
    · rename_i loading
      split
      · exact .inl rfl
      · rename_i body
        split
        · exact .inl rfl
        · exact .inr ⟨i, not_not.mp loading, body, rfl⟩

/-- What SEQ.FREE can do: nothing but answer, or empty a slot that is in no run (R101). -/
theorem serveSeqFree_cases (k : SessionId) (pl : List Byte) (s : State) : (serveSeqFree k pl s).1 = s ∨
    ∃ i : SlotId, s.slots[i].inRun = false ∧ (serveSeqFree k pl s).1 = s.freeSlot i := by
  unfold serveSeqFree
  split
  · exact .inl rfl
  · rename_i i _
    split
    · exact .inl rfl
    · rename_i rests
      exact .inr ⟨i, eq_false_of_ne_true rests, rfl⟩

/-! ## The requests that leave the sequences -/

/-- The parts that the requests of the other chapters change. -/
abbrev besideSequences : List Part :=
  [.lines, .leases, .watches, .generators, .numbers, .queues, .reception]

/-- The request types that change a slot, the pool, the Timeline or the state of a session. -/
def RequestType.touchesRuns : RequestType → Bool
  | .atEdge | .cancel | .seqNew | .seqAdd | .seqSeal | .seqStart | .seqStop | .seqFree | .release | .closeSession => true
  | .openSession | .info | .ping | .status | .time | .snapshot | .portstat | .restart | .claim | .withdraw | .setup | .drive
  | .read | .clear | .pendingList | .seqQuery | .watchSet | .watchAck | .watchDrop | .watchRead | .cadSet | .cadRun | .cadHold
  | .cadFree | .cadRead => false

/-- No other type changes a slot, the pool, the Timeline or the state of a session. -/
theorem serve_beside_sequences {t : RequestType} (beside : t.touchesRuns = false) (p : Port) (k : SessionId) (pl : List Byte)
    (s : State) : ChangesOnly besideSequences s (t.serve p k pl s).1 := by
  cases t
  case openSession => exact .refl _ s
  case info => exact .refl _ s
  case ping => exact .refl _ s
  case status => exact .refl _ s
  case time => exact .refl _ s
  case pendingList => exact .refl _ s
  case snapshot => exact (serveSnapshot_changes k pl s).mono (by decide)
  case portstat => exact (servePortstat_changes k pl s).mono (by decide)
  case restart => exact (serveRestart_changes p k pl s).mono (by decide)
  case claim => exact (serveClaim_changes k pl s).mono (by decide)
  case withdraw => exact (serveWithdraw_changes k pl s).mono (by decide)
  case setup => exact (serveSetup_changes k pl s).mono (by decide)
  case drive => exact (serveDrive_changes k pl s).mono (by decide)
  case read => exact (serveRead_changes k pl s).mono (by decide)
  case clear => exact (serveClear_changes k pl s).mono (by decide)
  case seqQuery => exact (serveSeqQuery_changes k pl s).mono (by decide)
  case watchSet => exact (serveWatchSet_changes k pl s).mono (by decide)
  case watchAck => exact (serveWatchAck_changes k pl s).mono (by decide)
  case watchDrop => exact (serveWatchDrop_changes k pl s).mono (by decide)
  case watchRead => exact (serveWatchRead_changes k pl s).mono (by decide)
  case cadSet => exact (serveCadSet_changes k pl s).mono (by decide)
  case cadRun => exact (serveCadRun_changes k pl s).mono (by decide)
  case cadHold => exact (serveCadHold_changes k pl s).mono (by decide)
  case cadFree => exact (serveCadFree_changes k pl s).mono (by decide)
  case cadRead => exact (serveCadRead_changes k pl s).mono (by decide)
  all_goals cases beside

/-! ## The pool: requests -/

theorem PoolOk.serveSeqAdd {s : State} (h : PoolOk s) (k : SessionId) (pl : List Byte) : PoolOk (serveSeqAdd k pl s).1 := by
  obtain e | ⟨i, list, steps, -, fits, room, e⟩ := serveSeqAdd_cases k pl s
  · rw [e]; exact h
  · rw [e]; exact h.appendSteps i list steps room fits

theorem PoolOk.serveSeqFree {s : State} (h : PoolOk s) (k : SessionId) (pl : List Byte) : PoolOk (serveSeqFree k pl s).1 := by
  obtain e | ⟨i, -, e⟩ := serveSeqFree_cases k pl s
  · rw [e]; exact h
  · rw [e]; exact h.freeSlot i

theorem serveSeqNew_lists (k : SessionId) (pl : List Byte) (s : State) : SameLists s (serveSeqNew k pl s).1 := by
  obtain e | ⟨i, -, e⟩ := serveSeqNew_cases k pl s
  · rw [e]; exact .refl s
  · rw [e]; exact .modSlot s i ⟨rfl, rfl⟩

theorem serveSeqSeal_lists (k : SessionId) (pl : List Byte) (s : State) : SameLists s (serveSeqSeal k pl s).1 := by
  obtain e | ⟨i, -, -, e⟩ := serveSeqSeal_cases k pl s
  · rw [e]; exact .refl s
  · rw [e]; exact .modSlot s i ⟨rfl, rfl⟩

theorem PoolOk.serveAt {s : State} (h : PoolOk s) (k : SessionId) (pl : List Byte) : PoolOk (serveAt k pl s).1 := by
  obtain e | ⟨l, v, due, -, -, e⟩ := serveAt_cases k pl s
  · rw [e]; exact h
  · rw [e]; exact (h.of_changes (enterTimeline_changes s k due _)).takeUntil

theorem PoolOk.serveSeqStart {s : State} (h : PoolOk s) (k : SessionId) (pl : List Byte) : PoolOk (serveSeqStart k pl s).1 := by
  obtain e | ⟨i, start, -, -, -, e⟩ := serveSeqStart_cases k pl s
  · rw [e]; exact h
  · rw [e]
    have entered := h.of_changes (enterTimeline_changes s k (s.slots[i].firstDue start) (.step i .body 0))
    exact (entered.of_lists (.modSlot _ i ⟨rfl, rfl⟩)).takeUntil

theorem PoolOk.serveSeqStop {s : State} (h : PoolOk s) (k : SessionId) (pl : List Byte) : PoolOk (serveSeqStop k pl s).1 := by
  obtain e | ⟨i, -, e⟩ := serveSeqStop_cases k pl s
  · rw [e]; exact h
  · rw [e]; exact (h.of_lists (stopSequence_lists s i .stopped)).takeUntil

/-- A forced clearing stops sequences, which keep their lists (R39, R96). -/
theorem PoolOk.clearUses {s : State} (h : PoolOk s) (k : SessionId) (l : LineId) : PoolOk (s.clearUses k l) := by
  rw [clearUses_eq]
  exact (h.of_changes (usesLeft_changes s k l)).of_lists (SameLists.foldl (fun _ _ => stopSequence_lists _ _ _) _ _)

theorem PoolOk.serveRelease {s : State} (h : PoolOk s) (k : SessionId) (pl : List Byte) : PoolOk (serveRelease k pl s).1 := by
  unfold Machine.serveRelease
  split
  · split_ifs
    · exact h
    · exact h.of_changes (endLease_changes s _)
    · exact (h.clearUses k _).of_changes (endLease_changes _ _)
    · exact h
  · exact h

/-- Serving a request keeps the pool: SEQ.ADD and SEQ.FREE move step records between the pool and a list, the others leave the
lists as they are, but for a closing that a taken entry completes. -/
theorem serve_keeps_pool (t : RequestType) (p : Port) (k : SessionId) (pl : List Byte) {s : State} (h : PoolOk s) :
    PoolOk (t.serve p k pl s).1 := by
  cases beside : t.touchesRuns with
  | false => exact h.of_changes (serve_beside_sequences beside p k pl s)
  | true =>
    cases t
    case closeSession => exact h.beginClosing k .closed
    case release => exact h.serveRelease k pl
    case atEdge => exact h.serveAt k pl
    case cancel => exact h.of_changes (serveCancel_changes k pl s)
    case seqNew => exact h.of_lists (serveSeqNew_lists k pl s)
    case seqAdd => exact h.serveSeqAdd k pl
    case seqSeal => exact h.of_lists (serveSeqSeal_lists k pl s)
    case seqStart => exact h.serveSeqStart k pl
    case seqStop => exact h.serveSeqStop k pl
    case seqFree => exact h.serveSeqFree k pl
    all_goals cases beside

/-! ## The pool: events, resets and every step -/

theorem PoolOk.takeBreak {s : State} (h : PoolOk s) (p : Port) : PoolOk (s.takeBreak p) := by
  unfold State.takeBreak
  have broken := h.of_changes (modPort_changes s p fun c => c.takeBreak s.tick)
  exact PoolOk.foldl (fun _ k hs => hs.checkClosing k) _ (PoolOk.foldl (fun _ k hs => hs.beginClosing k .brk) _ broken)

theorem PoolOk.senseEdge {s : State} (h : PoolOk s) (l : LineId) : PoolOk (s.senseEdge l) := by
  unfold State.senseEdge
  have sensed := h.of_changes (modLine_changes s l (LineCell.takeEdge s.tick))
  exact PoolOk.foldl (fun t i ht => ht.of_lists (offerAwait_lists t l _ i)) allSlots
    (sensed.of_changes (ChangesOnly.foldl (fun t w => offerEdge_changes t l _ w) allWatches _))

/-- A full reset leaves every slot EMPTY (R68). -/
theorem clearBlocks_slot (s : State) (i : SlotId) : s.clearBlocks.slots[i] = Slot.free := by
  simp [State.clearBlocks, State.reset]

/-- With every slot EMPTY and 256 records free the pool is in order. -/
theorem PoolOk.of_empty {s : State} (slots : ∀ i : SlotId, s.slots[i] = Slot.free) (free : s.poolFree = Config.poolSteps) :
    PoolOk s := by
  refine ⟨?_, fun i => ?_⟩
  · simp only [State.stepsHeld, slots, free]
    decide
  · rw [slots]
    decide

theorem clearBlocks_pool_ok (s : State) : PoolOk s.clearBlocks :=
  .of_empty (clearBlocks_slot s) rfl

theorem startUp_pool_ok (s : State) (cause : ResetCause) (pin : Level) : PoolOk (s.startUp cause pin) := by
  have h : PoolOk { s.clearBlocks with heldInReset := false, baud := baudOf pin } := clearBlocks_pool_ok s
  exact ((h.of_changes (modPort_changes _ .a _)).of_changes (modPort_changes _ .b _)).of_changes (settle_changes _)

theorem PoolOk.advance {s : State} (h : PoolOk s) : PoolOk s.advance :=
  h.of_changes (t := s.endTick) (endTick_changes s)

theorem exec_keeps_pool {c : Instr} {s t : State} (h : PoolOk s) (he : exec c s = .next t) : PoolOk t :=
  exec_keeps (Pre := PoolOk) (Post := PoolOk)
    (weak := fun _ h => h)
    (frame := fun _ _ hc h => h.of_changes hc)
    (ho := fun p r s h => h.of_changes (serveOpen_changes p r s))
    (hs := fun t p k pl _ h _ => serve_keeps_pool t p k pl h)
    (check := fun _ k h => h.checkClosing k)
    (receive := fun s p b h => h.of_changes (receiveByte_changes s p b))
    (gap := fun s p h => (h.of_changes (setReceiver_changes s p .hunt)).of_changes (modPort_changes _ _ _))
    (brk := fun _ p h => h.takeBreak p)
    (sent := fun s p f h => h.of_changes (endTransmission_changes s p f))
    (start := fun s cause pin _ => startUp_pool_ok s cause pin)
    (clear := fun s _ => ⟨clearBlocks_pool_ok s, clearBlocks_pool_ok s⟩)
    (edge := fun _ l h => h.senseEdge l)
    (fault := fun s l h => h.of_changes (faultLine_changes s l))
    (burst := fun s l h => h.of_changes (modLine_changes s l _))
    (taken := fun _ e h _ => h.takeEntry e)
    (expiry := fun s l k _ h => (h.of_changes (leaveQueue_changes s k l)).of_changes (notify_changes _ _ _))
    (lapse := fun _ k cause h => h.enterClosing k cause)
    (begin := fun s g t h _ => h.of_changes (beginCycles_changes s g t))
    (low := fun s g _ h _ => (h.of_changes (modGenerator_changes s g _)).of_changes (ownWrite_changes _ _ _))
    (cycle := fun s g t h _ => h.of_changes (endCycle_changes s g t))
    (raw := fun s l _ h => ⟨h.of_changes (modLine_changes s l _), h.of_changes (modLine_changes s l _)⟩)
    (idle := fun s p h => h.of_changes (modPort_changes s p _))
    h he

/-- Settles O9: the invariant is kept by every command (`exec_keeps_pool`), by a request of unknown type and by the tick. -/
theorem stepKeepsPool : Obligations.StepKeepsPool := by
  unfold Obligations.StepKeepsPool
  intro s t hs h
  exact step_keeps (Pre := PoolOk) (Post := PoolOk)
    (weak := fun _ h => h)
    (hp := fun _ _ h => h)
    (hx := fun _ _ _ h he => exec_keeps_pool h he)
    (hu := fun s p h => h.of_changes (takeUnknown_changes s p))
    (ha := fun _ h => h.advance)
    hs h

end Sys2Proof.Machine
end

section
/-! PROOFS. The invariant of the runs (`RunsOk`; 04, sections 4.1, 4.3, 4.4 and 4.9, R68, R72, R74, R77, R97): each request and each event
keeps it while the Timeline is in order, and so does every step. -/

namespace Sys2Proof.Machine

set_option Elab.async false

/-! ## One slot -/

/-- Updating one slot's record is a change of that slot alone. -/
theorem modSlot_slotBecomes (s : State) (i : SlotId) (f : Slot → Slot) : SlotBecomes s (s.modSlot i f) i (f s.slots[i]) :=
  ⟨s.modSlot_get_same i f, fun _ hj => s.modSlot_get_ne f hj⟩

/-- A slot in no run has neither cursor nor handle (R72). -/
theorem RunsOk.at_rest {s : State} (h : RunsOk s) {i : SlotId} (rest : s.slots[i].inRun = false) :
    s.slots[i].cursor = none ∧ s.slots[i].handle = 0 := by
  obtain ⟨-, -, resting, -⟩ := h
  exact resting i rest

/-- The owner of a slot is a session that is not FREE (R151). -/
theorem RunsOk.owner_live {s : State} (h : RunsOk s) {i : SlotId} {k : SessionId} (own : s.slots[i].owner = some k) :
    s.sessions[k].state ≠ .free := by
  obtain ⟨-, -, -, -, -, -, sessions⟩ := h
  exact (sessions i k own).1

/-- The session of a run that is in its body is OPEN (R97). -/
theorem RunsOk.opened {s : State} (h : RunsOk s) {i : SlotId} {k : SessionId} (own : s.slots[i].owner = some k)
    (body : s.slots[i].inBody = true) : s.sessions[k].state = .opened := by
  obtain ⟨-, -, -, -, -, -, sessions⟩ := h
  exact (sessions i k own).2 body

/-- A slot that is not EMPTY has an owner (R74). -/
theorem RunsOk.owned {s : State} (h : RunsOk s) {i : SlotId} (used : s.slots[i].state ≠ .empty) : s.slots[i].owner ≠ none := by
  obtain ⟨-, -, -, -, owners, -⟩ := h
  exact owners i used

theorem Slot.inRun_of_empty {r : Slot} (h : r.state = .empty) : r.inRun = false := by
  simp [Slot.inRun, Slot.inBody, h]

theorem Slot.inRun_of_loading {r : Slot} (h : r.state = .loading) : r.inRun = false := by
  simp [Slot.inRun, Slot.inBody, h]

/-- Appending steps touches one list alone. -/
theorem Slot.append_of_list (list : StepList) (steps : List Step) (r : Slot) :
    (r.append list steps).state = r.state ∧ (r.append list steps).owner = r.owner ∧
      (r.append list steps).cursor = r.cursor ∧ (r.append list steps).handle = r.handle := by
  cases list <;> exact ⟨rfl, rfl, rfl, rfl⟩

/-! ## Requests on a slot at rest -/

/-- SEQ.NEW gives an EMPTY slot to the requester, whose session is OPEN (R74). -/
theorem RunsOk.serveSeqNew {s : State} (h : RunsOk s) {k : SessionId} (hk : s.sessions[k].state = .opened) (pl : List Byte) :
    RunsOk (serveSeqNew k pl s).1 := by
  obtain e | ⟨i, empty, e⟩ := serveSeqNew_cases k pl s
  · rw [e]; exact h
  · rw [e]
    have rest := Slot.inRun_of_empty empty
    refine h.of_slot (modSlot_slotBecomes s i _) rest rfl (h.at_rest rest) (fun x => nomatch x) (fun _ => Option.some_ne_none k)
      (fun _ x => absurd rfl x) (fun j own => ?_) rfl fun _ => rfl
    cases own
    rw [hk]
    exact SessionState.noConfusion

/-- SEQ.ADD leaves the slot LOADING (R76). -/
theorem RunsOk.serveSeqAdd {s : State} (h : RunsOk s) (k : SessionId) (pl : List Byte) : RunsOk (serveSeqAdd k pl s).1 := by
  obtain e | ⟨i, list, steps, loading, -, -, e⟩ := serveSeqAdd_cases k pl s
  · rw [e]; exact h
  · rw [e]
    have rest := Slot.inRun_of_loading loading
    obtain ⟨state, owner, cursor, handle⟩ := Slot.append_of_list list steps s.slots[i]
    have still := state.trans loading
    have used : s.slots[i].state ≠ .empty := by rw [loading]; exact SeqState.noConfusion
    exact h.of_slot (modSlot_slotBecomes (s.setPoolFree _) i _) rest (Slot.inRun_of_loading still)
      ⟨cursor.trans (h.at_rest rest).1, handle.trans (h.at_rest rest).2⟩ (fun x => nomatch still.symm.trans x)
      (fun _ => owner ▸ h.owned used) (fun _ x => absurd still x) (fun j own => h.owner_live (owner ▸ own)) rfl fun _ => rfl

/-- SEQ.SEAL makes READY a slot that has a body (R77). -/
theorem RunsOk.serveSeqSeal {s : State} (h : RunsOk s) (k : SessionId) (pl : List Byte) : RunsOk (serveSeqSeal k pl s).1 := by
  obtain e | ⟨i, loading, body, e⟩ := serveSeqSeal_cases k pl s
  · rw [e]; exact h
  · rw [e]
    have rest := Slot.inRun_of_loading loading
    have used : s.slots[i].state ≠ .empty := by rw [loading]; exact SeqState.noConfusion
    exact h.of_slot (modSlot_slotBecomes s i _) rest rfl (h.at_rest rest) (fun x => nomatch x) (fun _ => h.owned used)
      (fun _ _ => body) (fun j own => h.owner_live own) rfl fun _ => rfl

/-- SEQ.FREE empties a slot that is in no run (R101). -/
theorem RunsOk.serveSeqFree {s : State} (h : RunsOk s) (k : SessionId) (pl : List Byte) : RunsOk (serveSeqFree k pl s).1 := by
  obtain e | ⟨i, rest, e⟩ := serveSeqFree_cases k pl s
  · rw [e]; exact h
  · rw [e]
    exact h.of_slot (modSlot_slotBecomes (s.setPoolFree _) i _) rest rfl ⟨rfl, rfl⟩ (fun _ => rfl) (fun x => absurd rfl x)
      (fun x => absurd rfl x) (fun j own => nomatch own) rfl fun _ => rfl

/-! ## Requests that enter, take or stop runs -/

theorem RunsOk.serveAt {s : State} (h : RunsOk s) (ht : TimelineOk s) (k : SessionId) (pl : List Byte) :
    RunsOk (serveAt k pl s).1 := by
  obtain e | ⟨l, v, due, -, room, e⟩ := serveAt_cases k pl s
  · rw [e]; exact h
  · rw [e]
    have place : s.timeline.length < Config.timelinePlaces := Nat.lt_of_not_le (of_decide_eq_false room)
    exact (h.enterOneshot k due l v).takeUntil (ht.enterTimeline place k due _)

/-- SEQ.START arms a sequence of an OPEN session, and what is then due is taken (R79). -/
theorem RunsOk.serveSeqStart {s : State} (h : RunsOk s) (ht : TimelineOk s) {k : SessionId}
    (hk : s.sessions[k].state = .opened) (pl : List Byte) : RunsOk (serveSeqStart k pl s).1 := by
  obtain e | ⟨i, start, own, rests, room, e⟩ := serveSeqStart_cases k pl s
  · rw [e]; exact h
  · rw [e]
    have place : s.timeline.length < Config.timelinePlaces := Nat.lt_of_not_le (of_decide_eq_false room)
    have armed : TimelineOk (s.armSequence k i start) :=
      (ht.enterTimeline place k _ _).of_changes (modSlot_changes _ i _)
    exact (h.armSequence ht place.le hk own rests start).takeUntil armed

theorem RunsOk.serveSeqStop {s : State} (h : RunsOk s) (ht : TimelineOk s) (k : SessionId) (pl : List Byte) :
    RunsOk (serveSeqStop k pl s).1 := by
  obtain e | ⟨i, body, e⟩ := serveSeqStop_cases k pl s
  · rw [e]; exact h
  · rw [e]
    exact (h.leaveBody ht body .stopped _).takeUntil (ht.leaveBody i .stopped _)

/-- CANCEL removes one-shots only: a sequence's entry is answered KIND (R59). -/
theorem RunsOk.serveCancel {s : State} (h : RunsOk s) (ht : TimelineOk s) (k : SessionId) (pl : List Byte) :
    RunsOk (serveCancel k pl s).1 := by
  cases found : s.findEntry (field2 pl 0) with
  | none => rw [serveCancel_notFound found]; exact h
  | some e =>
    obtain ⟨live, handle⟩ := findEntry_some found
    by_cases own : e.owner = k
    · cases kind : e.isOneshot with
      | false => rw [serveCancel_sequence found own kind]; exact h
      | true =>
        obtain unchanged | removed := serveCancel_cases k pl s
        · rw [unchanged]; exact h
        · rw [removed, ← handle]; exact h.removeOneshot ht live kind
    · rw [serveCancel_notOwner found own]; exact h

/-- A forced clearing removes one-shots and stops sequences in their body (R39). -/
theorem RunsOk.clearUses {s : State} (h : RunsOk s) (ht : TimelineOk s) (k : SessionId) (l : LineId) :
    RunsOk (s.clearUses k l) := by
  have left := usesLeft_changes s k l
  have slots : ∀ i : SlotId, (s.usesLeft k l).slots[i] = s.slots[i] := fun i => left.slot i
  have body : ∀ i ∈ s.usersOf k l, s.slots[i].inBody = true := fun i hi => Slot.inBody_iff.mpr (mem_usersOf.mp hi).2.1
  have more : ∀ e ∈ s.timeline, e.isOneshot = false → e ∈ (s.usesLeft k l).timeline := fun e he sequence =>
    mem_usesLeft_timeline.mpr ⟨he, fun gone => ne_true_of_eq_false (Entry.onLine_isOneshot sequence) gone.1⟩
  have ordered : TimelineOk (s.usesLeft k l) := (ht.filter _).of_changes (releaseGenerator_changes _ l)
  obtain ⟨-, stops⟩ := stopAll_stops (reason := .released) rfl _ (usersOf_ascending s k l).nodup ordered
    (h.stoppable ht body slots more)
  rw [← clearUses_eq] at stops
  have state : ∀ j : SessionId, (s.clearUses k l).sessions[j].state = s.sessions[j].state := fun j =>
    (clearUses_leaves_lease s k l .sessions (by decide) j).1
  refine h.of_stops ht stops body slots (fun e he => (mem_usesLeft_timeline.mp he).1) more (fun j live => ?_)
    fun i j _ inBody own => ?_
  · rw [state]; exact live
  · rw [state]; exact h.opened own inBody

theorem RunsOk.serveRelease {s : State} (h : RunsOk s) (ht : TimelineOk s) (k : SessionId) (pl : List Byte) :
    RunsOk (serveRelease k pl s).1 := by
  unfold Machine.serveRelease
  split
  · split_ifs
    · exact h
    · exact h.of_changes (endLease_changes s _)
    · exact (h.clearUses ht k _).of_changes (endLease_changes _ _)
    · exact h
  · exact h

/-- Serving a request of an OPEN session keeps the runs. -/
theorem serve_keeps_runs (t : RequestType) (p : Port) {k : SessionId} (pl : List Byte) {s : State} (h : RunsOk s)
    (ht : TimelineOk s) (hk : s.sessions[k].state = .opened) : RunsOk (t.serve p k pl s).1 := by
  cases beside : t.touchesRuns with
  | false => exact h.of_changes (serve_beside_sequences beside p k pl s)
  | true =>
    cases t
    case closeSession => exact h.beginClosing ht k .closed
    case release => exact h.serveRelease ht k pl
    case atEdge => exact h.serveAt ht k pl
    case cancel => exact h.serveCancel ht k pl
    case seqNew => exact h.serveSeqNew hk pl
    case seqAdd => exact h.serveSeqAdd k pl
    case seqSeal => exact h.serveSeqSeal k pl
    case seqStart => exact h.serveSeqStart ht hk pl
    case seqStop => exact h.serveSeqStop ht k pl
    case seqFree => exact h.serveSeqFree k pl
    all_goals cases beside

/-- OPEN makes a session OPEN and leaves every other as it is (R141). -/
theorem serveOpen_state (p : Port) (r : Request) (s : State) (j : SessionId) :
    (serveOpen p r s).1.sessions[j].state = s.sessions[j].state ∨ (serveOpen p r s).1.sessions[j].state = .opened := by
  unfold serveOpen
  split_ifs
  · exact .inl rfl
  · exact .inl rfl
  · split
    · exact .inl rfl
    · rw [State.openRecord, State.modSession_get]
      split
      · exact .inr rfl
      · exact .inl rfl

theorem RunsOk.serveOpen {s : State} (h : RunsOk s) (p : Port) (r : Request) : RunsOk (serveOpen p r s).1 := by
  have changes := serveOpen_changes p r s
  have timeline := (changes .timeline (by decide)).1
  refine h.of_same (fun i => changes.slot i) (fun e he => timeline ▸ he) (fun e he _ => timeline.symm ▸ he)
    (fun k opened => ?_) fun k live => ?_
  · obtain same | opens := serveOpen_state p r s k
    · exact same.trans opened
    · exact opens
  · obtain same | opens := serveOpen_state p r s k
    · rw [same]; exact live
    · rw [opens]; exact SessionState.noConfusion

/-! ## Events, resets and the tick -/

/-- A state with the slots, the Timeline and the states of the sessions as they were. -/
theorem RunsOk.of_states {s t : State} (h : RunsOk s) (slots : ∀ i : SlotId, t.slots[i] = s.slots[i])
    (timeline : t.timeline = s.timeline) (state : ∀ k : SessionId, t.sessions[k].state = s.sessions[k].state) : RunsOk t :=
  h.of_same slots (fun _ he => timeline ▸ he) (fun _ he _ => timeline.symm ▸ he) (fun k opened => (state k).trans opened)
    fun k live => (state k).symm ▸ live

theorem RunsOk.receiveByte {s : State} (h : RunsOk s) (p : Port) (b : Byte) : RunsOk (s.receiveByte p b) := by
  have changes := receiveByte_changes s p b
  exact h.of_states (fun i => changes.slot i) (changes .timeline (by decide)).1 (receiveByte_state s p b)

/-- Both invariants along a list of operations that keep both. -/
theorem runs_foldl {α : Type} {f : State → α → State}
    (hf : ∀ s a, RunsOk s → TimelineOk s → RunsOk (f s a) ∧ TimelineOk (f s a)) (as : List α) {s : State} (h : RunsOk s)
    (ht : TimelineOk s) : RunsOk (as.foldl f s) := by
  induction as generalizing s with
  | nil => exact h
  | cons a as ih =>
    obtain ⟨h', ht'⟩ := hf s a h ht
    exact ih h' ht'

theorem RunsOk.takeBreak {s : State} (h : RunsOk s) (ht : TimelineOk s) (p : Port) : RunsOk (s.takeBreak p) := by
  unfold State.takeBreak
  have broken := modPort_changes s p fun c => c.takeBreak s.tick
  have entered := runs_foldl (fun _ k h ht => ⟨h.beginClosing ht k .brk, ht.beginClosing k .brk⟩) (s.sessionsOn p)
    (h.of_changes broken) (ht.of_changes broken)
  have ordered := TimelineOk.foldl (fun _ k ht => ht.beginClosing k .brk) (s.sessionsOn p) (ht.of_changes broken)
  exact runs_foldl (fun _ k h ht => ⟨h.checkClosing k, ht.checkClosing k⟩) _ entered ordered

theorem RunsOk.senseEdge {s : State} (h : RunsOk s) (ht : TimelineOk s) (l : LineId) : RunsOk (s.senseEdge l) := by
  unfold State.senseEdge
  have offered := (modLine_changes s l (LineCell.takeEdge s.tick)).andThen (parts := [.lines, .watches, .numbers, .queues])
    (ChangesOnly.foldl (fun t w => offerEdge_changes t l ((s.modLine l (LineCell.takeEdge s.tick)).lines[l].sensed) w) allWatches _)
  exact runs_foldl (fun _ i h ht => h.offerAwait ht l _ i) allSlots (h.of_changes offered) (ht.of_changes offered)

/-- With every slot EMPTY and no Timeline entry there is no run. -/
theorem RunsOk.of_empty {s : State} (slots : ∀ i : SlotId, s.slots[i] = Slot.free) (timeline : s.timeline = []) :
    RunsOk s := by
  have rest : Slot.free.inRun = false := rfl
  have ownerless : Slot.free.owner = none := rfl
  unfold RunsOk
  simp only [slots, timeline, rest, ownerless]
  exact ⟨fun _ x => (nomatch x), fun _ _ x => (nomatch x), fun _ _ => ⟨rfl, rfl⟩, fun _ _ => trivial, fun _ x => absurd rfl x,
    fun _ x => absurd rfl x, fun _ _ x => (nomatch x)⟩

theorem clearBlocks_runs_ok (s : State) : RunsOk s.clearBlocks :=
  .of_empty (clearBlocks_slot s) rfl

theorem startUp_runs_ok (s : State) (cause : ResetCause) (pin : Level) : RunsOk (s.startUp cause pin) := by
  have h : RunsOk { s.clearBlocks with heldInReset := false, baud := baudOf pin } := clearBlocks_runs_ok s
  exact ((h.of_changes (modPort_changes _ .a _)).of_changes (modPort_changes _ .b _)).of_changes (settle_changes _)

theorem RunsOk.advance {s : State} (h : RunsOk s) : RunsOk s.advance :=
  (h.of_changes (endTick_changes s)).of_states (fun _ => rfl) rfl fun k => by simp [State.advance]

/-! ## Every command and every step -/

theorem exec_keeps_runs {c : Instr} {s t : State} (h : RunsOk s ∧ TimelineOk s) (he : exec c s = .next t) : RunsOk t :=
  exec_keeps (Pre := fun s => RunsOk s ∧ TimelineOk s) (Post := RunsOk)
    (weak := fun _ h => h.1)
    (frame := fun _ _ hc h => h.of_changes hc)
    (ho := fun p r _ h => h.1.serveOpen p r)
    (hs := fun t p _ pl _ h hk => serve_keeps_runs t p pl h.1 h.2 hk)
    (check := fun _ k h => h.checkClosing k)
    (receive := fun s p b h => ⟨h.1.receiveByte p b, h.2.of_changes (receiveByte_changes s p b)⟩)
    (gap := fun s p h => (h.1.of_changes (setReceiver_changes s p .hunt)).of_changes (modPort_changes _ _ _))
    (brk := fun _ p h => h.1.takeBreak h.2 p)
    (sent := fun s p f h => h.1.of_changes (endTransmission_changes s p f))
    (start := fun s cause pin _ => startUp_runs_ok s cause pin)
    (clear := fun s _ => ⟨clearBlocks_runs_ok s, clearBlocks_runs_ok s⟩)
    (edge := fun _ l h => h.1.senseEdge h.2 l)
    (fault := fun s l h => h.1.of_changes (faultLine_changes s l))
    (burst := fun s l h => h.1.of_changes (modLine_changes s l _))
    (taken := fun _ e h due => by
      obtain ⟨rest, first, -⟩ := dueEntry_some due
      exact h.1.takeEntry h.2 (first ▸ List.mem_cons_self))
    (expiry := fun s l k _ h => (h.1.of_changes (leaveQueue_changes s k l)).of_changes (notify_changes _ _ _))
    (lapse := fun _ k cause h => h.1.enterClosing h.2 k cause)
    (begin := fun s g t h _ => h.1.of_changes (beginCycles_changes s g t))
    (low := fun s g _ h _ => (h.1.of_changes (modGenerator_changes s g _)).of_changes (ownWrite_changes _ _ _))
    (cycle := fun s g t h _ => h.1.of_changes (endCycle_changes s g t))
    (raw := fun s l _ h => ⟨h.1.of_changes (modLine_changes s l _), h.1.of_changes (modLine_changes s l _)⟩)
    (idle := fun s p h => h.1.of_changes (modPort_changes s p _))
    h he

/-- Settles O14: the invariant is kept by every command (`exec_keeps_runs`), by a request of unknown type and by the tick. -/
theorem stepKeepsRuns : Obligations.StepKeepsRuns := by
  unfold Obligations.StepKeepsRuns
  intro s t ht hr h
  exact step_keeps (Pre := fun s => RunsOk s ∧ TimelineOk s) (Post := RunsOk)
    (weak := fun _ h => h.1)
    (hp := fun _ _ h => h)
    (hx := fun _ _ _ h he => exec_keeps_runs h he)
    (hu := fun s p h => h.1.of_changes (takeUnknown_changes s p))
    (ha := fun _ h => h.1.advance)
    ⟨hr, ht⟩ h

end Sys2Proof.Machine
end

section
/-! PROOFS. The requests that read records (R62, R100, R117, R136) and the requests on a slot at rest: SEQ.NEW, SEQ.ADD, SEQ.SEAL and
SEQ.FREE (04, sections 4.4 and 4.11). -/

namespace Sys2Proof.Machine

set_option Elab.async false

/-! ## PENDING, SEQ.QUERY, WATCH.READ and CAD.READ -/

theorem serveSeqQuery_noSlot {pl : List Byte} (h : 16 ≤ field1 pl 0) (k : SessionId) (s : State) :
    serveSeqQuery k pl s = (s, .plain .badField) := by
  simp only [serveSeqQuery, nameOf_none h]

theorem serveSeqQuery_slot {pl : List Byte} {i : SlotId} (h : field1 pl 0 = i.val) (k : SessionId) (s : State) :
    serveSeqQuery k pl s = (s,
      { status := .ok,
        data := .slotRecord { record := s.slots[i], entry := s.findEntry s.slots[i].handle, poolFree := s.poolFree } }) := by
  simp only [serveSeqQuery, nameOf_of_eq h]

theorem serveWatchRead_noName {pl : List Byte} (h : 32 ≤ field1 pl 0) (k : SessionId) (s : State) :
    serveWatchRead k pl s = (s, .plain .badField) := by
  simp only [serveWatchRead, nameOf_none h]

theorem serveWatchRead_noWatch {pl : List Byte} {w : WatchId} {s : State} (h : field1 pl 0 = w.val) (hw : s.watches[w] = none)
    (k : SessionId) : serveWatchRead k pl s = (s, .plain .notFound) := by
  simp only [serveWatchRead, nameOf_of_eq h, hw]

theorem serveWatchRead_watch {pl : List Byte} {w : WatchId} {x : Watch} {s : State} (h : field1 pl 0 = w.val)
    (hw : s.watches[w] = some x) (k : SessionId) :
    serveWatchRead k pl s = (s, { status := .ok, data := .watchRecord w x s.lines[x.line].sensed }) := by
  simp only [serveWatchRead, nameOf_of_eq h, hw]

theorem serveCadRead_noGenerator {pl : List Byte} (h : 4 ≤ field1 pl 0) (k : SessionId) (s : State) :
    serveCadRead k pl s = (s, .plain .badField) := by
  simp only [serveCadRead, nameOf_none h]

theorem serveCadRead_generator {pl : List Byte} {g : GenId} (h : field1 pl 0 = g.val) (k : SessionId) (s : State) :
    serveCadRead k pl s = (s, { status := .ok, data := .generator s.generators[g] s.generators[g].nextEvent }) := by
  simp only [serveCadRead, nameOf_of_eq h]

section
variable {r : Generator} {u : Tick}

theorem Generator.nextEvent_idle (h : r.state = .free ∨ r.state = .stopped) : r.nextEvent = none := by
  rcases h with h | h
  · simp only [Generator.nextEvent, h]
  · simp only [Generator.nextEvent, h]

theorem Generator.nextEvent_pending (h : r.state = .pending) (start : r.start = some u) : r.nextEvent = some (.rise u) := by
  simp only [Generator.nextEvent, h, start, Option.map_some]

theorem Generator.nextEvent_high (h : r.state = .running u false) : r.nextEvent = some (.fall (u + r.high)) := by
  simp only [Generator.nextEvent, h]

theorem Generator.nextEvent_low (h : r.state = .running u true) :
    r.nextEvent = if r.cycles ≠ 0 ∧ r.completed + 1 = r.cycles then some (.finish (u + r.period))
      else some (.rise (u + r.period)) := by
  simp only [Generator.nextEvent, h]

end

/-- Settles O24: each of the four leaves the state and answers with the record it names. -/
theorem recordReads : Obligations.RecordReads := by
  unfold Obligations.RecordReads
  intro s p k r b
  refine ⟨fun h => ⟨_, rfl, takeSessioned_onlyReplies servePendingList h rfl rfl⟩, fun h => ⟨_, rfl, ?_⟩,
    fun h => ⟨_, rfl, ?_⟩, fun h => ⟨_, rfl, ?_⟩⟩
  · have answers : ∀ {a : Answer}, serveSeqQuery k [b] s = (s, a) →
        s.OnlyReplies (s.takeSessioned .seqQuery p serveSeqQuery) p r a := fun he => takeSessioned_onlyReplies _ h rfl he
    exact ⟨fun bad => answers (serveSeqQuery_noSlot (pl := [b]) bad k s), fun i hi =>
      ⟨_, answers (serveSeqQuery_slot (pl := [b]) hi k s), rfl, rfl, rfl⟩⟩
  · have answers : ∀ {a : Answer}, serveWatchRead k [b] s = (s, a) →
        s.OnlyReplies (s.takeSessioned .watchRead p serveWatchRead) p r a := fun he => takeSessioned_onlyReplies _ h rfl he
    exact ⟨fun bad => answers (serveWatchRead_noName (pl := [b]) bad k s), fun w hw =>
      ⟨fun none => answers (serveWatchRead_noWatch (pl := [b]) hw none k),
        fun x some => answers (serveWatchRead_watch (pl := [b]) hw some k)⟩⟩
  · have answers : ∀ {a : Answer}, serveCadRead k [b] s = (s, a) →
        s.OnlyReplies (s.takeSessioned .cadRead p serveCadRead) p r a := fun he => takeSessioned_onlyReplies _ h rfl he
    exact ⟨fun bad => answers (serveCadRead_noGenerator (pl := [b]) bad k s), fun g hg =>
      ⟨_, answers (serveCadRead_generator (pl := [b]) hg k s), Generator.nextEvent_idle,
        fun _ => Generator.nextEvent_pending, fun _ => Generator.nextEvent_high, fun _ => Generator.nextEvent_low⟩⟩

/-! ## A request that changes one slot -/

/-- A request that changes one slot, perhaps the pool, and makes no notice. -/
theorem takeSessioned_slotBecomes {s u : State} {t : RequestType} {p : Port} {k : SessionId} {r : Request} {payload : List Byte}
    (serve : SessionId → List Byte → State → State × Answer) {i : SlotId} {x : Slot} {a : Answer} (parts : List Part)
    (h : s.Takes p t k r payload) (hl : t.allows payload.length = true) (he : serve k payload s = (u, a))
    (changes : ChangesOnly parts s u) (becomes : SlotBecomes s u i x) (hq : Part.queues ∉ parts := by decide)
    (hn : Part.numbers ∉ parts := by decide) :
    s.Answers (s.takeSessioned t p serve) p r a parts [] ∧ SlotBecomes s (s.takeSessioned t p serve) i x :=
  ⟨takeSessioned_answers serve h hl he parts (changes.mono (List.subset_append_left _ _)) (Made.of_changes changes hq hn),
    becomes.of_changes (takeSessioned_changes_after h hl he)⟩

section
variable {s : State} {k : SessionId} {pl : List Byte} {i : SlotId}

theorem ownSlot_badField (h : 16 ≤ field1 pl 0) : s.ownSlot k pl = .error (.plain .badField) := by
  simp only [State.ownSlot, nameOf_none h]

theorem ownSlot_notFound (h : field1 pl 0 = i.val) (other : s.slots[i].owner ≠ some k) :
    s.ownSlot k pl = .error (.plain .notFound) := by
  simp only [State.ownSlot, nameOf_of_eq h, if_neg other]

theorem ownSlot_own (h : field1 pl 0 = i.val) (own : s.slots[i].owner = some k) : s.ownSlot k pl = .ok i := by
  simp only [State.ownSlot, nameOf_of_eq h, if_pos own]

/-! ## SEQ.NEW (R74) -/

/-- The first of `0, …, n - 1` that meets a condition is the lowest that does. -/
theorem find?_finRange_lowest {n : Nat} {q : Fin n → Bool} {i : Fin n} (hi : q i = true) (lowest : ∀ j < i, q j = false) :
    (List.finRange n).find? q = some i := by
  cases found : (List.finRange n).find? q with
  | none => exact absurd hi (List.find?_eq_none.mp found i (List.mem_finRange i))
  | some j =>
    obtain ⟨hj, before, after, split, earlier⟩ := List.find?_eq_some_iff_append.mp found
    have ascending : (before ++ j :: after).Pairwise (· < ·) := split ▸ List.pairwise_lt_finRange n
    have place : i ∈ before ++ j :: after := split ▸ List.mem_finRange i
    rcases List.mem_append.mp place with inBefore | here
    · exact absurd hi (by simpa using earlier i inBefore)
    · rcases List.mem_cons.mp here with same | inAfter
      · rw [same]
      · have less : j < i := List.rel_of_pairwise_cons (List.pairwise_append.mp ascending).2.1 inAfter
        exact absurd hj (by rw [lowest j less]; exact Bool.false_ne_true)

theorem serveSeqNew_full (full : ∀ i : SlotId, s.slots[i].state ≠ .empty) : serveSeqNew k pl s = (s, .plain .slotsFull) := by
  have none : (allSlots.find? fun i => decide (s.slots[i].state = .empty)) = none :=
    List.find?_eq_none.mpr fun i _ => by simpa using full i
  simp only [serveSeqNew, none]

theorem serveSeqNew_lowest (empty : s.slots[i].state = .empty) (lowest : ∀ j : SlotId, j < i → s.slots[j].state ≠ .empty) :
    serveSeqNew k pl s =
      (s.modSlot i fun r => { r with state := .loading, owner := some k }, { status := .ok, data := .slot i }) := by
  have found : (allSlots.find? fun i => decide (s.slots[i].state = .empty)) = some i :=
    find?_finRange_lowest (decide_eq_true empty) fun j less => decide_eq_false (lowest j less)
  simp only [serveSeqNew, found]

/-! ## SEQ.SEAL (R77) -/

theorem serveSeqSeal_refused {a : Answer} (h : s.ownSlot k pl = .error a) : serveSeqSeal k pl s = (s, a) := by
  simp only [serveSeqSeal, h]

/-- SEQ.SEAL's checks in their order. -/
theorem serveSeqSeal_own (h : s.ownSlot k pl = .ok i) : serveSeqSeal k pl s =
    if s.slots[i].state ≠ .loading then (s, .plain .state)
    else if s.slots[i].body = [] then (s, { status := .sealFail, data := .sealReason .emptyBody })
    else if 1000000 < (s.slots[i].unwind.map Step.offset).sum then (s, { status := .sealFail, data := .sealReason .unwindSpan })
    else (s.modSlot i fun r => { r with state := .ready }, .plain .ok) := by
  simp only [serveSeqSeal, h]
  rfl

/-! ## SEQ.FREE (R101) -/

theorem serveSeqFree_refused {a : Answer} (h : s.ownSlot k pl = .error a) : serveSeqFree k pl s = (s, a) := by
  simp only [serveSeqFree, h]

theorem serveSeqFree_own (h : s.ownSlot k pl = .ok i) : serveSeqFree k pl s =
    if s.slots[i].inRun then (s, .plain .state)
    else (s.freeSlot i, { status := .ok, data := .poolFree (s.freeSlot i).poolFree }) := by
  simp only [serveSeqFree, h]

theorem Slot.inRun_iff {r : Slot} :
    r.inRun = true ↔ r.state = .armed ∨ r.state = .running ∨ r.state = .awaiting ∨ r.state = .unwinding := by
  rw [Slot.inRun, Bool.or_eq_true, Slot.inBody_iff, decide_eq_true_eq]
  simp only [or_assoc]

theorem freeSlot_slotBecomes (s : State) (i : SlotId) : SlotBecomes s (s.freeSlot i) i Slot.free :=
  modSlot_slotBecomes (s.setPoolFree _) i fun _ => Slot.free

end

/-- Settles O43: the refusals are the checks of `serveSeqSeal_own` and `serveSeqFree_own`, and each accepted request changes the one
slot it names (`takeSessioned_slotBecomes`). -/
theorem seqNewSealFree : Obligations.SeqNewSealFree := by
  unfold Obligations.SeqNewSealFree
  intro s p k r
  refine ⟨fun h => ⟨_, rfl, fun full => takeSessioned_onlyReplies serveSeqNew h rfl (serveSeqNew_full full), fun i empty lowest =>
    takeSessioned_slotBecomes serveSeqNew [.slots] h rfl (serveSeqNew_lowest empty lowest) (modSlot_changes s i _)
      (modSlot_slotBecomes s i _)⟩, fun b => ⟨fun h => ⟨_, rfl, ?_⟩, fun h => ⟨_, rfl, ?_⟩⟩⟩
  · have refuses : ∀ {a : Answer}, serveSeqSeal k [b] s = (s, a) →
        s.OnlyReplies (s.takeSessioned .seqSeal p serveSeqSeal) p r a := fun he => takeSessioned_onlyReplies _ h rfl he
    refine ⟨fun bad => refuses (serveSeqSeal_refused (ownSlot_badField (pl := [b]) bad)), fun i hi => ?_⟩
    intro slot span
    refine ⟨fun other => refuses (serveSeqSeal_refused (ownSlot_notFound (pl := [b]) hi other)), fun own used => ?_,
      fun own loading => ?_⟩
    · exact refuses ((serveSeqSeal_own (ownSlot_own (pl := [b]) hi own)).trans (if_pos used))
    · have checked := (serveSeqSeal_own (ownSlot_own (pl := [b]) hi own)).trans (if_neg (not_not.mpr loading))
      refine ⟨fun none => refuses (checked.trans (if_pos none)), fun body long =>
        refuses (checked.trans ((if_neg body).trans (if_pos long))), fun body short => ?_⟩
      exact takeSessioned_slotBecomes serveSeqSeal [.slots] h rfl
        (checked.trans ((if_neg body).trans (if_neg (Nat.not_lt.mpr short)))) (modSlot_changes s i _) (modSlot_slotBecomes s i _)
  · have refuses : ∀ {a : Answer}, serveSeqFree k [b] s = (s, a) →
        s.OnlyReplies (s.takeSessioned .seqFree p serveSeqFree) p r a := fun he => takeSessioned_onlyReplies _ h rfl he
    refine ⟨fun bad => refuses (serveSeqFree_refused (ownSlot_badField (pl := [b]) bad)), fun i hi => ?_⟩
    intro slot inRun free
    refine ⟨fun other => refuses (serveSeqFree_refused (ownSlot_notFound (pl := [b]) hi other)), fun own runs => ?_,
      fun own rests => ?_⟩
    · exact refuses ((serveSeqFree_own (ownSlot_own (pl := [b]) hi own)).trans (if_pos (Slot.inRun_iff.mpr runs)))
    · have served := (serveSeqFree_own (ownSlot_own (pl := [b]) hi own)).trans (if_neg fun x => rests (Slot.inRun_iff.mp x))
      obtain ⟨answers, becomes⟩ := takeSessioned_slotBecomes serveSeqFree [.pool, .slots] h rfl served (freeSlot_changes s i)
        (freeSlot_slotBecomes s i)
      exact ⟨answers, takeSessioned_changes_after h rfl served .pool (by decide), becomes⟩

/-! ## SEQ.ADD (R75, R76) -/

/-- The records that SEQ.ADD carries, when each is a step. -/
theorem stepsOf_ok {list : StepList} {pl : List Byte} (steps : List Step) (position : Nat) {at_ : Nat}
    (h : ∀ m : Nat, m < steps.length → stepOf list pl (at_ + 12 * m) = steps[m]?) :
    stepsOf list pl steps.length position at_ = .ok steps := by
  induction steps generalizing position at_ with
  | nil => rfl
  | cons x steps ih =>
    have head : stepOf list pl at_ = some x := h 0 (Nat.succ_pos _)
    have tail := ih (position + 1) (at_ := at_ + 12) fun m hm => by
      rw [show at_ + 12 + 12 * m = at_ + 12 * (m + 1) by omega, h (m + 1) (Nat.succ_lt_succ hm), List.getElem?_cons_succ]
    simp only [List.length_cons, stepsOf, head, tail]

/-- The position of the first record that is no step. -/
theorem stepsOf_error {list : StepList} {pl : List Byte} {m n : Nat} (position : Nat) {at_ : Nat} (hm : m < n)
    (fails : stepOf list pl (at_ + 12 * m) = none) (earlier : ∀ j : Nat, j < m → stepOf list pl (at_ + 12 * j) ≠ none) :
    stepsOf list pl n position at_ = .error (position + m) := by
  induction n generalizing m position at_ with
  | zero => exact absurd hm (Nat.not_lt_zero m)
  | succ n ih =>
    cases m with
    | zero =>
      have head : stepOf list pl at_ = none := fails
      simp only [stepsOf, head, Nat.add_zero]
    | succ m =>
      obtain ⟨x, head⟩ := Option.ne_none_iff_exists'.mp (earlier 0 (Nat.succ_pos m))
      have later : ∀ j : Nat, at_ + 12 + 12 * j = at_ + 12 * (j + 1) := fun j => by omega
      have tail := ih (position + 1) (Nat.lt_of_succ_lt_succ hm) (later m ▸ fails) fun j hj =>
        later j ▸ earlier (j + 1) (Nat.succ_lt_succ hj)
      rw [Nat.mul_zero, Nat.add_zero] at head
      simp only [stepsOf, head, tail, Except.error.injEq]
      omega

section
variable {s : State} {k : SessionId} {pl : List Byte} {i : SlotId} {list : StepList}

theorem serveSeqAdd_badField (h : 16 ≤ field1 pl 0 ∨ 2 ≤ field1 pl 1) : serveSeqAdd k pl s = (s, badStep 0) := by
  unfold serveSeqAdd
  rcases h with hi | hl
  · rw [nameOf_none hi]
  · rw [listOf_none hl]
    cases nameOf 16 (field1 pl 0) <;> rfl

variable (hi : field1 pl 0 = i.val) (hl : field1 pl 1 = list.code)
include hi hl

theorem serveSeqAdd_notFound (other : s.slots[i].owner ≠ some k) : serveSeqAdd k pl s = (s, .plain .notFound) := by
  simp only [serveSeqAdd, nameOf_of_eq hi, listOf_of_eq hl, if_pos other]

theorem serveSeqAdd_state (own : s.slots[i].owner = some k) (used : s.slots[i].state ≠ .loading) :
    serveSeqAdd k pl s = (s, .plain .state) := by
  simp only [serveSeqAdd, nameOf_of_eq hi, listOf_of_eq hl, if_neg (not_not.mpr own), if_pos used]

variable {n : Nat} (own : s.slots[i].owner = some k) (loading : s.slots[i].state = .loading) (length : pl.length = 2 + 12 * n)
include own loading length

theorem serveSeqAdd_badStep {position : Nat} (bad : stepsOf list pl n 1 2 = .error position) :
    serveSeqAdd k pl s = (s, badStep position) := by
  have count : (pl.length - 2) / 12 = n := by omega
  simp only [serveSeqAdd, nameOf_of_eq hi, listOf_of_eq hl, if_neg (not_not.mpr own), if_neg (not_not.mpr loading), count, bad]

/-- The checks on the list's limit and the pool, and the appended steps. -/
theorem serveSeqAdd_steps {steps : List Step} (good : stepsOf list pl n 1 2 = .ok steps) : serveSeqAdd k pl s =
    if list.capacity < (s.slots[i].list list).length + steps.length then (s, .plain .listFull)
    else if s.poolFree < steps.length then (s, .plain .poolFull)
    else (s.appendSteps i list steps,
      { status := .ok,
        data := .lengths (s.appendSteps i list steps).slots[i].body.length
          (s.appendSteps i list steps).slots[i].unwind.length (s.appendSteps i list steps).poolFree }) := by
  have count : (pl.length - 2) / 12 = n := by omega
  simp only [serveSeqAdd, nameOf_of_eq hi, listOf_of_eq hl, if_neg (not_not.mpr own), if_neg (not_not.mpr loading), count, good]

end

theorem capacity_eq (list : StepList) : list.capacity = if list = .body then 32 else 8 := by
  cases list <;> rfl

theorem allows_seqAdd {n m : Nat} (h1 : 1 ≤ n) (h8 : n ≤ 8) (length : m = 2 + 12 * n) : RequestType.seqAdd.allows m = true := by
  have range : 14 ≤ m ∧ m ≤ 98 ∧ (m - 2) % 12 = 0 := by omega
  simp only [RequestType.allows, range, decide_true, Bool.and_self]

theorem appendSteps_slotBecomes (s : State) (i : SlotId) (list : StepList) (steps : List Step) :
    SlotBecomes s (s.appendSteps i list steps) i (Slot.append list steps s.slots[i]) :=
  modSlot_slotBecomes (s.setPoolFree _) i (Slot.append list steps)

/-- Settles O42: the refusals are the checks of `serveSeqAdd`, whose records `stepsOf_ok` and `stepsOf_error` read, and the accepted
request appends the steps to the one slot it names. -/
theorem seqAddAppends : Obligations.SeqAddAppends := by
  unfold Obligations.SeqAddAppends
  intro s p k r pl n h1 h8 length h
  have allowed := allows_seqAdd h1 h8 length
  have refuses : ∀ {a : Answer}, serveSeqAdd k pl s = (s, a) →
      s.OnlyReplies (s.takeSessioned .seqAdd p serveSeqAdd) p r a := fun he => takeSessioned_onlyReplies _ h allowed he
  refine ⟨_, rfl, fun bad => refuses (serveSeqAdd_badField bad), fun i list hi hl => ?_⟩
  intro slot limit
  refine ⟨fun other => refuses (serveSeqAdd_notFound hi hl other), fun own used => refuses (serveSeqAdd_state hi hl own used),
    fun own loading => ⟨fun m hm fails earlier => ?_, fun steps count good => ?_⟩⟩
  · rw [Nat.add_comm m 1]
    exact refuses (serveSeqAdd_badStep hi hl own loading length (stepsOf_error 1 hm fails earlier))
  · subst count
    have checked := serveSeqAdd_steps hi hl own loading length (stepsOf_ok steps 1 good)
    rw [capacity_eq] at checked
    refine ⟨fun long => refuses (checked.trans (if_pos long)), fun fits short =>
      refuses (checked.trans ((if_neg (Nat.not_lt.mpr fits)).trans (if_pos short))), fun fits room => ?_⟩
    have served := checked.trans ((if_neg (Nat.not_lt.mpr fits)).trans (if_neg (Nat.not_lt.mpr room)))
    have after := takeSessioned_changes_after h allowed served
    obtain ⟨answers, becomes⟩ := takeSessioned_slotBecomes serveSeqAdd [.pool, .slots] h allowed served
      (appendSteps_changes s i list steps) (appendSteps_slotBecomes s i list steps)
    have pool : (s.takeSessioned .seqAdd p serveSeqAdd).poolFree = (s.appendSteps i list steps).poolFree :=
      after .pool (by decide)
    refine ⟨?_, pool, fun body => ?_, fun unwind => ?_⟩
    · rw [after.slot i, pool]
      exact answers
    · subst body; exact becomes
    · subst unwind; exact becomes

end Sys2Proof.Machine
end

section
/-! PROOFS. How a step of a run falls due (04, sections 4.6 to 4.8): a body step, an unwind step, and the deadline of an AWAIT. -/

namespace Sys2Proof.Machine

set_option Elab.async false

/-! ## Writes and notices after a change of other parts -/

/-- A level write after a change that leaves the lines, the generators and the sessions is the write that would have been before it. -/
theorem writeLine_after {parts : List Part} {s u : State} (hb : BoundOk s) (hc : ChangesOnly parts s u) (l : LineId) (v : Level)
    (rest : ∀ part ∈ [Part.clock, .lines, .leases, .generators, .sessions, .numbers, .queues], part ∉ parts := by decide) :
    Made s (u.writeLine l v) (s.cadEnds l .overridden) ∧ GeneratorStopped s (u.writeLine l v) l ∧
      LineBecomes s (u.writeLine l v) l (s.lines[l].writeLevel s.tick v) := by
  have clock := rest .clock (by decide)
  have lines := rest .lines (by decide)
  have generators := rest .generators (by decide)
  have sessions := rest .sessions (by decide)
  have hu : BoundOk u := hb.of_changes hc generators (rest .leases (by decide)) sessions
  have report := stopBound_changes (u.modLine l (LineCell.writeLevel u.tick v)) l .overridden
  have line := (modLine_lineBecomes u l (LineCell.writeLevel u.tick v)).of_changes report
  refine ⟨?_, fun g => ?_, ?_⟩
  · rw [← cadEnds_congr hc l .overridden generators clock]
    exact Made.after hc (made_writeLine hu l v) sessions (rest .queues (by decide)) (rest .numbers (by decide))
  · rw [writeLine_generatorStopped hu l v [] (.refl [] _) (by decide) g, hc.generator g generators]
  · rw [← hc.tick clock, ← hc.line l lines]
    exact ⟨line.1, fun m hm => (line.2 m hm).trans (hc.line m lines)⟩

/-- What an event changes and makes, with the arbiters' choice after it. -/
theorem makes_settle {parts : List Part} {s u : State} {notes : List (SessionId × NoticeBody)}
    (changes : ChangesOnly (parts ++ [.numbers, .queues]) s u) (made : Made s u notes) : Makes s u.settle parts notes :=
  ⟨u, changes, made, settle_settled u⟩

/-! ## The body step that is taken (R82, R83) -/

/-- The state in which a body step is executed: its slot is RUNNING. -/
def State.stepBegun (s : State) (i : SlotId) : State :=
  s.modSlot i fun r => { r with state := .running }

theorem stepBegun_changes (s : State) (i : SlotId) : ChangesOnly [.slots] s (s.stepBegun i) :=
  modSlot_changes s i _

theorem stepBegun_slot (s : State) (i : SlotId) : (s.stepBegun i).slots[i] = { s.slots[i] with state := .running } :=
  State.modSlot_get_same s i _

theorem stepBegun_run (s : State) (i : SlotId) : SameRun s (s.stepBegun i) i { s.slots[i] with state := .running } :=
  (SameRun.refl s i).modSlot _

theorem stepBegun_same (s : State) (i : SlotId) : Slot.SameBut { s.slots[i] with state := .running } s.slots[i] := rfl

section
variable {s : State} {i : SlotId} {n : Nat} {x : Step} (hx : s.slots[i].body[n]? = some x)
include hx

/-- The step that is executed is the one that the list holds. -/
theorem stepBegun_step : (s.modSlot i fun r => { r with state := .running }).slots[i].body[n]? = some x := by
  rw [State.modSlot_get_same]
  exact hx

variable {l : LineId} {v : Level}

theorem takeBodyStep_faulted (kind : x.kind = .set l v) (fault : s.lines[l].fault ≠ .none) :
    s.takeBodyStep i n = (s.stepBegun i).leaveBody i .lineFault n := by
  simp only [State.takeBodyStep, stepBegun_step hx, kind, State.modSlot_lines, (faulted_iff s.lines[l]).mpr fault, if_true]
  rfl

theorem takeBodyStep_input (kind : x.kind = .set l v) (fault : s.lines[l].fault = .none) (input : s.lines[l].mode = .input) :
    s.takeBodyStep i n = (s.stepBegun i).leaveBody i .mode n := by
  simp only [State.takeBodyStep, stepBegun_step hx, kind, State.modSlot_lines, faulted_false fault, Bool.false_eq_true, if_false,
    input, if_true]
  rfl

theorem takeBodyStep_writes (kind : x.kind = .set l v) (fault : s.lines[l].fault = .none) (driver : s.lines[l].mode ≠ .input) :
    s.takeBodyStep i n = ((s.stepBegun i).writeLine l v).completeStep i .body n := by
  simp only [State.takeBodyStep, stepBegun_step hx, kind, State.modSlot_lines, faulted_false fault, Bool.false_eq_true, if_false,
    driver]
  rfl

theorem takeBodyStep_marks {k : SessionId} {label : Nat} (kind : x.kind = .mark label) (own : s.slots[i].owner = some k) :
    s.takeBodyStep i n = ((s.stepBegun i).notify k (.seqMark i label s.tick)).completeStep i .body n := by
  have owner : (s.modSlot i fun r => { r with state := .running }).slots[i].owner = some k := by
    rw [State.modSlot_get_same]; exact own
  simp only [State.takeBodyStep, stepBegun_step hx, kind, owner]
  rfl

theorem takeBodyStep_awaited {limit : Nat} (kind : x.kind = .await l v limit) (present : s.lines[l].sensed = v) :
    s.takeBodyStep i n = (s.stepBegun i).completeStep i .body n := by
  simp only [State.takeBodyStep, stepBegun_step hx, kind, State.modSlot_lines, present, if_true]
  rfl

theorem takeBodyStep_awaits {limit : Nat} (kind : x.kind = .await l v limit) (absent : s.lines[l].sensed ≠ v) :
    s.takeBodyStep i n =
      (s.stepBegun i).moveEntry i .awaiting .body n (s.tick + limit) (.deadline i .body n) := by
  simp only [State.takeBodyStep, stepBegun_step hx, kind, State.modSlot_lines, absent, if_false]
  rfl

end

/-! ## What a body step makes of its run -/

section
variable {s u : State} {i : SlotId} {r : Slot} (same : SameRun s u i r) (but : r.SameBut s.slots[i])
include same but

/-- The SEQ.END of a run that leaves its body says nothing of the slot's state. -/
theorem leavingEnds_same (reason : SeqReason) (n : Nat) : u.leavingEnds i reason n = s.leavingEnds i reason n := by
  have unwind : r.unwind = s.slots[i].unwind := by rw [but]
  have owner : r.owner = s.slots[i].owner := by rw [but]
  have skipped : r.skipped = s.slots[i].skipped := by rw [but]
  simp only [State.leavingEnds, State.toOwner, same.slot, same.tick, unwind, owner, skipped]

theorem leaveBody_made (reason : SeqReason) (n : Nat) : Made u (u.leaveBody i reason n) (s.leavingEnds i reason n) :=
  leavingEnds_same same but reason n ▸ made_leaveBody u i reason n

end

/-- A body step whose run leaves the body. -/
theorem stepBegun_leaves (s : State) (i : SlotId) (reason : SeqReason) (n : Nat) :
    let u := (s.stepBegun i).leaveBody i reason n
    s.BodyIsLeft u i reason n ∧ ChangesOnly runParts s u ∧ Made s u (s.leavingEnds i reason n) := by
  have begun := stepBegun_changes s i
  have same := stepBegun_run s i
  have but := stepBegun_same s i
  exact ⟨leaveBody_leaves same but reason n, begun.andThen (leaveBody_changes _ i reason n),
    Made.after begun (leaveBody_made same but reason n)⟩

/-- A body step that completes after an effect `u` that changes these parts and makes these notices. -/
theorem bodyStep_completes {parts : List Part} {s u : State} {i : SlotId} {notes : List (SessionId × NoticeBody)}
    (effect : ChangesOnly parts (s.stepBegun i) u) (made : Made s u notes) (n : Nat)
    (h1 : Part.slots ∉ parts := by decide) (h2 : Part.timeline ∉ parts := by decide) (h3 : Part.clock ∉ parts := by decide)
    (h4 : Part.sessions ∉ parts := by decide) :
    let t := u.completeStep i .body n
    s.BodyGoesOn t i n ∧ ChangesOnly (parts ++ runParts) s t ∧ Made s t (notes ++ s.bodyEnds i n) := by
  have same := (stepBegun_run s i).of_changes effect h1 h2 h3
  have but := stepBegun_same s i
  have before : ChangesOnly (.slots :: parts) s u :=
    ((stepBegun_changes s i).mono (by simp)).trans (effect.mono (List.subset_cons_self _ _))
  refine ⟨completeStep_body same but n, ?_, made.andThen before (made_completeBody same but n) (by simpa using h4)⟩
  exact (before.mono (by simp)).trans ((completeStep_changes u i .body n).mono (List.subset_append_right _ _))

/-- A SET on a line that takes its write: the line, its generator, the notices and the run. -/
theorem takeBodyStep_sets {s : State} {i : SlotId} {n : Nat} {x : Step} {l : LineId} {v : Level} (hb : BoundOk s)
    (hx : s.slots[i].body[n]? = some x) (kind : x.kind = .set l v) (fault : s.lines[l].fault = .none)
    (driver : s.lines[l].mode ≠ .input) :
    let u := s.takeBodyStep i n
    s.BodyGoesOn u i n ∧ GeneratorStopped s u l ∧ LineBecomes s u l (s.lines[l].writeLevel s.tick v) ∧
      ChangesOnly stepParts s u ∧ Made s u (s.cadEnds l .overridden ++ s.bodyEnds i n) := by
  intro u
  have eq : u = ((s.stepBegun i).writeLine l v).completeStep i .body n := takeBodyStep_writes hx kind fault driver
  obtain ⟨made, stopped, line⟩ := writeLine_after hb (stepBegun_changes s i) l v
  obtain ⟨goesOn, changes, notices⟩ := bodyStep_completes (writeLine_changes (s.stepBegun i) l v) made n
  have completes := completeStep_changes ((s.stepBegun i).writeLine l v) i .body n
  rw [eq]
  exact ⟨goesOn, stopped.of_changes completes, line.of_changes completes, changes.mono (by decide), notices⟩

/-! ## STEP_DUE of a body step -/

theorem exec_stepDue {s : State} {e : Entry} {rest : List Entry} {i : SlotId} {list : StepList} {n : Nat}
    (first : s.timeline = e :: rest) (kind : e.kind = .step i list n) (due : e.due ≤ s.tick) :
    exec .stepDue s = .next (s.takeStep e i list n).settle := by
  show execStepDue s = _
  simp only [execStepDue, dueEntry_of_due first due, kind]

theorem exec_deadlineDue {s : State} {e : Entry} {rest : List Entry} {i : SlotId} {list : StepList} {n : Nat}
    (first : s.timeline = e :: rest) (kind : e.kind = .deadline i list n) (due : e.due ≤ s.tick) :
    exec .deadlineDue s = .next (s.takeDeadline e i n).settle := by
  show execDeadlineDue s = _
  simp only [execDeadlineDue, dueEntry_of_due first due, kind]

/-- A session that is OPEN before an event that leaves the sessions has no closing to complete after it. -/
theorem checkClosing_of_opened {parts : List Part} {s u : State} {k : SessionId} (opened : s.sessions[k].state = .opened)
    (hc : ChangesOnly parts s u) (hp : Part.sessions ∉ parts := by decide) : u.checkClosing k = u := by
  refine checkClosing_open ?_
  rw [(hc .sessions hp k).1, opened]
  exact SessionState.noConfusion

/-- Settles O46: the step is taken on its RUNNING slot (`takeBodyStep_faulted` to `takeBodyStep_awaits`), its run leaves the body
(`stepBegun_leaves`), goes on (`bodyStep_completes`) or waits, and its session is OPEN. -/
theorem bodyStepFallsDue : Obligations.BodyStepFallsDue := by
  unfold Obligations.BodyStepFallsDue
  intro s e rest i n k x hb ht hr first kind due owner hx
  have live : e ∈ s.timeline := first ▸ List.mem_cons_self
  obtain ⟨-, -, own, -⟩ := hr.named ht live (i := i) (.inl ⟨_, _, kind⟩)
  rw [owner] at own
  have opened := hr.opened own (hr.bodyStep ht live kind).1
  have taken : exec .stepDue s = .next (s.takeBodyStep i n).settle := by
    rw [exec_stepDue first kind due, State.takeStep, owner, checkClosing_of_opened opened (takeBodyStep_changes s i n)]
  have settled := settle_settled (s.takeBodyStep i n)
  refine ⟨_, taken, fun l v set => ⟨fun fault => ?_, fun fault input => ?_, fun fault driver => ?_⟩, fun label mark => ?_,
    fun l v limit await => ⟨fun present => ?_, fun absent => ?_⟩⟩
  · obtain ⟨left, changes, made⟩ := stepBegun_leaves s i .lineFault n
    rw [takeBodyStep_faulted hx set fault] at settled ⊢
    exact ⟨left.settled settled, makes_settle changes made⟩
  · obtain ⟨left, changes, made⟩ := stepBegun_leaves s i .mode n
    rw [takeBodyStep_input hx set fault input] at settled ⊢
    exact ⟨left.settled settled, makes_settle changes made⟩
  · obtain ⟨goesOn, stopped, line, changes, made⟩ := takeBodyStep_sets hb hx set fault driver
    exact ⟨goesOn.settled settled, stopped.of_changes settled.changes, line.of_changes settled.changes,
      makes_settle (changes.mono (by decide)) made⟩
  · have begun := stepBegun_changes s i
    obtain ⟨goesOn, changes, made⟩ := bodyStep_completes (notify_changes (s.stepBegun i) k (.seqMark i label s.tick))
      (Made.after begun (made_notify _ _ _)) n
    rw [takeBodyStep_marks hx mark own] at settled ⊢
    exact ⟨goesOn.settled settled, makes_settle (changes.mono (by decide)) made⟩
  · obtain ⟨goesOn, changes, made⟩ := bodyStep_completes (.refl [] _) (Made.of_changes (stepBegun_changes s i)) n
    rw [takeBodyStep_awaited hx await present] at settled ⊢
    exact ⟨goesOn.settled settled, makes_settle changes made⟩
  · have moves := moveEntry_moves (stepBegun_run s i) rfl .awaiting .body n (s.tick + limit) (.deadline i .body n)
    have changes := (stepBegun_changes s i).andThen (parts := [.timeline, .slots])
      (moveEntry_changes (s.stepBegun i) i .awaiting .body n (s.tick + limit) (.deadline i .body n))
    rw [takeBodyStep_awaits hx await absent] at settled ⊢
    exact ⟨moves.of_changes settled.changes, makes_settle (changes.mono (by decide)) (Made.of_changes changes)⟩

end Sys2Proof.Machine
end

section
/-! PROOFS. The unwind steps of a run and the deadline of an AWAIT (04, sections 4.6 to 4.9), and the closing that the last run of a CLOSING
session completes (07, section 7.5). -/

namespace Sys2Proof.Machine

set_option Elab.async false

/-! ## The unwind step that is taken (R91) -/

theorem skips_iff {s : State} {i : SlotId} {k : SessionId} (own : s.slots[i].owner = some k) (l : LineId) :
    s.skips i l = true ↔ s.holder l ≠ some k ∨ s.lines[l].fault ≠ .none ∨ s.lines[l].mode = .input := by
  simp only [State.skips, own, Bool.or_eq_true, decide_eq_true_eq, faulted_iff, reduceCtorEq, false_or, or_assoc]

section
variable {s : State} {i : SlotId} {n : Nat} {x : Step} (hx : s.slots[i].unwind[n]? = some x)
include hx

theorem takeUnwindStep_marks {k : SessionId} {label : Nat} (kind : x.kind = .mark label) (own : s.slots[i].owner = some k) :
    s.takeUnwindStep i n = (s.notify k (.seqMark i label s.tick)).completeStep i .unwind n := by
  simp only [State.takeUnwindStep, hx, kind, own]
  rfl

variable {l : LineId} {v : Level} (kind : x.kind = .set l v)
include kind

theorem takeUnwindStep_skips (skip : s.skips i l = true) : s.takeUnwindStep i n =
    (s.modSlot i fun r => { r with skipped := r.skipped + 1 }).completeStep i .unwind n := by
  simp only [State.takeUnwindStep, hx, kind, skip, if_true]

theorem takeUnwindStep_writes (held : s.skips i l = false) :
    s.takeUnwindStep i n = (s.writeLine l v).completeStep i .unwind n := by
  simp only [State.takeUnwindStep, hx, kind, held, Bool.false_eq_true, if_false]

end

/-- An unwind step that completes after an effect `u` that leaves the slot, but for its count of skipped steps, and the Timeline. -/
theorem unwindStep_completes {parts : List Part} {s u : State} {i : SlotId} {k : Nat} {notes : List (SessionId × NoticeBody)}
    (same : SameRun s u i { s.slots[i] with skipped := k }) (effect : ChangesOnly parts s u) (made : Made s u notes) (n : Nat)
    (hs : Part.sessions ∉ parts := by decide) :
    let t := u.completeStep i .unwind n
    s.UnwindGoesOn t i n k ∧ Made s t (notes ++ s.unwindEnds i n k) ∧ ChangesOnly (parts ++ runParts) s t :=
  ⟨completeStep_unwind same k rfl n, made.andThen effect (made_completeUnwind same k rfl n) hs,
    (effect.mono (List.subset_append_left _ _)).trans
      ((completeStep_changes u i .unwind n).mono (List.subset_append_right _ _))⟩

theorem BoundOk.takeUnwindStep {s : State} (h : BoundOk s) (i : SlotId) (n : Nat) : BoundOk (s.takeUnwindStep i n) := by
  unfold State.takeUnwindStep
  split
  · exact h.of_changes (removeEntry_changes s _)
  · split
    · split
      · exact (h.of_changes (modSlot_changes s i _)).of_changes (completeStep_changes _ i .unwind n)
      · exact (h.writeLine _ _).of_changes (completeStep_changes _ i .unwind n)
    · exact (h.of_changes (notifyOwner_changes s _ _)).of_changes (completeStep_changes _ i .unwind n)
    · exact h.of_changes (completeStep_changes s i .unwind n)

/-- Settles O47: an unwind step marks, is skipped or writes (`takeUnwindStep_marks`, `takeUnwindStep_skips`, `takeUnwindStep_writes`)
and completes (`unwindStep_completes`); then the closing of a CLOSING session is checked (`checkClosing_checks`). The session of a
deadline's run is OPEN. -/
theorem unwindStepAndDeadlineFallDue : Obligations.UnwindStepAndDeadlineFallDue := by
  unfold Obligations.UnwindStepAndDeadlineFallDue
  intro s e rest i n k hb _ ht hr first due owner
  have live : e ∈ s.timeline := first ▸ List.mem_cons_self
  refine ⟨fun kind x hx => ?_, fun kind => ?_⟩
  · obtain ⟨-, -, own, -⟩ := hr.named ht live (i := i) (.inl ⟨_, _, kind⟩)
    rw [owner] at own
    have taken : exec .stepDue s = .next ((s.takeUnwindStep i n).checkClosing k).settle := by
      rw [exec_stepDue first kind due, State.takeStep, owner]
    have changes := takeUnwindStep_changes s i n
    refine ⟨_, s.takeUnwindStep i n, (s.takeUnwindStep i n).checkClosing k, taken, settle_settled _,
      fun opened => checkClosing_of_opened opened changes, fun p cause closing port why => ?_, fun label mark => ?_,
      fun l v set => ?_⟩
    · obtain ⟨state, port', -, -, cause'⟩ := changes .sessions (by decide) k
      exact checkClosing_checks (hb.takeUnwindStep i n) (state.trans closing) (port'.trans port) (cause'.trans why)
    · have effect := notify_changes s k (.seqMark i label s.tick)
      obtain ⟨goesOn, made, changed⟩ := unwindStep_completes ((SameRun.refl s i).of_changes effect) effect (made_notify _ _ _) n
      rw [takeUnwindStep_marks hx mark own]
      exact ⟨goesOn, made, changed.mono (by decide)⟩
    · intro skip
      refine ⟨fun skipped => ?_, fun held => ?_⟩
      · have effect := modSlot_changes s i fun r => { r with skipped := r.skipped + 1 }
        obtain ⟨goesOn, made, changed⟩ := unwindStep_completes ((SameRun.refl s i).modSlot _) effect (Made.of_changes effect) n
        rw [takeUnwindStep_skips hx set ((skips_iff own l).mpr skipped)]
        exact ⟨goesOn, made, changed.mono (by decide)⟩
      · have unskipped : s.skips i l = false := eq_false_of_ne_true fun skips => held ((skips_iff own l).mp skips)
        have effect := writeLine_changes s l v
        obtain ⟨notices, stopped, line⟩ := writeLine_after hb (.refl [] s) l v
        obtain ⟨goesOn, made, changed⟩ := unwindStep_completes ((SameRun.refl s i).of_changes effect) effect notices n
        have completes := completeStep_changes (s.writeLine l v) i .unwind n
        rw [takeUnwindStep_writes hx set unskipped]
        exact ⟨goesOn, stopped.of_changes completes, line.of_changes completes, made, changed.mono (by decide)⟩
  · obtain ⟨-, -, own, -⟩ := hr.named ht live (i := i) (.inr ⟨_, _, kind⟩)
    rw [owner] at own
    have body : s.slots[i].inBody = true := Slot.inBody_iff.mpr (.inr (.inr (hr.deadline ht live kind)))
    have changes := leaveBody_changes s i .awaitTimeout n
    have taken : exec .deadlineDue s = .next (s.leaveBody i .awaitTimeout n).settle := by
      rw [exec_deadlineDue first kind due, State.takeDeadline, owner, checkClosing_of_opened (hr.opened own body) changes]
    have left := leaveBody_leaves (SameRun.refl s i) rfl .awaitTimeout n
    exact ⟨_, taken, left.settled (settle_settled _), makes_settle changes (made_leaveBody s i .awaitTimeout n)⟩

end Sys2Proof.Machine
end

section
/-! PROOFS. The sensed edge that an AWAIT waits for (04, section 4.6, R84, R86): it is offered to each slot in turn, and completes the AWAIT
of those that wait for it. -/

namespace Sys2Proof.Machine

set_option Elab.async false

/-! ## The AWAIT of a slot -/

/-- The slot is AWAITING an edge of this line to this level, at body step `n`. -/
def Slot.AwaitsAt (r : Slot) (l : LineId) (v : Level) (n : Nat) : Prop :=
  r.awaited = some (n, l, v)

theorem Slot.awaitsAt_iff {r : Slot} {l : LineId} {v : Level} {n : Nat} : r.AwaitsAt l v n ↔
    r.state = .awaiting ∧ r.cursor = some (.body, n) ∧
      ∃ (limit : Nat) (x : Step), r.body[n]? = some x ∧ x.kind = .await l v limit := by
  unfold Slot.AwaitsAt Slot.awaited
  constructor
  · intro h
    split at h
    · rename_i index state cursor
      split at h
      · rename_i offset l' v' limit step
        cases h
        exact ⟨state, cursor, limit, _, step, rfl⟩
      · cases h
    · cases h
  · rintro ⟨state, cursor, limit, ⟨offset, kind⟩, step, rfl⟩
    simp only [state, cursor, step]

theorem Slot.AwaitsAt.inRun {r : Slot} {l : LineId} {v : Level} {n : Nat} (h : r.AwaitsAt l v n) : r.inRun = true :=
  Slot.inRun_of_inBody (Slot.inBody_iff.mpr (.inr (.inr (Slot.awaitsAt_iff.mp h).1)))

theorem offerAwait_completes {s : State} {l : LineId} {v : Level} {i : SlotId} {n : Nat} (h : s.slots[i].AwaitsAt l v n) :
    s.offerAwait l v i = s.completeStep i .body n := by
  unfold Slot.AwaitsAt at h
  simp only [State.offerAwait, h, and_self, if_true]

theorem offerAwait_passes {s : State} {l : LineId} {v : Level} {i : SlotId} (h : ∀ n : Nat, ¬s.slots[i].AwaitsAt l v n) :
    s.offerAwait l v i = s := by
  unfold Slot.AwaitsAt at h
  unfold State.offerAwait
  split
  · rename_i n l' v' awaited
    exact if_neg fun same => h n (by rw [awaited, same.1, same.2])
  · rfl

/-! ## The entries of other handles -/

/-- Putting in an entry leaves the finding of other handles. -/
theorem find?_insertEntry_ne {e : Entry} {h : Nat} (ne : e.handle ≠ h) (es : List Entry) :
    (insertEntry e es).find? (fun f => decide (f.handle = h)) = es.find? fun f => decide (f.handle = h) := by
  have skips : decide (e.handle = h) = false := decide_eq_false ne
  induction es with
  | nil => simp only [insertEntry, List.find?_cons, skips]
  | cons f fs ih =>
    unfold insertEntry
    split
    · rw [List.find?_cons, skips]
    · rw [List.find?_cons, List.find?_cons, ih]

/-- Taking out the entries of one handle leaves the finding of others. -/
theorem find?_filter_ne {h n : Nat} (ne : n ≠ h) (es : List Entry) :
    (es.filter fun f => decide (f.handle ≠ n)).find? (fun f => decide (f.handle = h)) =
      es.find? fun f => decide (f.handle = h) := by
  rw [List.find?_filter]
  refine congrArg (es.find? ·) (funext fun f => ?_)
  by_cases same : f.handle = h
  · simp [same, ne.symm]
  · simp [same]

theorem removeEntry_findEntry_ne {n h : Nat} (s : State) (ne : n ≠ h) : (s.removeEntry n).findEntry h = s.findEntry h :=
  find?_filter_ne ne s.timeline

theorem readmit_findEntry_ne {n h : Nat} (s : State) (due : Tick) (kind : EntryKind) (ne : n ≠ h) :
    (s.readmit n due kind).findEntry h = s.findEntry h := by
  cases found : s.findEntry n with
  | none => rw [readmit_none found]
  | some e =>
    obtain ⟨-, handle⟩ := findEntry_some found
    rw [readmit_some found, State.findEntry, find?_insertEntry_ne (by simpa only [handle] using ne), find?_filter_ne ne]
    rfl

theorem endRun_findEntry_ne (s : State) (i : SlotId) (state : SeqState) (outcome : SeqOutcome) {h : Nat}
    (ne : s.slots[i].handle ≠ h) : (s.endRun i state outcome).findEntry h = s.findEntry h := by
  unfold State.endRun
  rw [findEntry_of_changes (notifyOwner_changes _ _ _), findEntry_of_changes (modSlot_changes _ i _)]
  exact removeEntry_findEntry_ne s ne

theorem moveEntry_findEntry_ne (s : State) (i : SlotId) (state : SeqState) (list : StepList) (n : Nat) (due : Tick)
    (kind : EntryKind) {h : Nat} (ne : s.slots[i].handle ≠ h) :
    (s.moveEntry i state list n due kind).findEntry h = s.findEntry h := by
  unfold State.moveEntry
  rw [findEntry_of_changes (modSlot_changes _ i _)]
  exact readmit_findEntry_ne s due kind ne

/-- A step that completes leaves the entries of other runs. -/
theorem completeStep_findEntry_ne (s : State) (i : SlotId) (n : Nat) {h : Nat} (ne : s.slots[i].handle ≠ h) :
    (s.completeStep i .body n).findEntry h = s.findEntry h := by
  unfold State.completeStep
  split
  · exact moveEntry_findEntry_ne s i _ _ _ _ _ ne
  · unfold State.finishBody
    rw [endRun_findEntry_ne _ i .done .done (by rw [State.modSlot_get_same]; exact ne)]
    exact findEntry_of_changes (modSlot_changes s i _) h

/-! ## The edge offered to every slot -/

/-- Body step `n` of the run in slot `i`, an AWAIT, has completed at this tick, whatever the admission numbers (R84, R86). -/
def State.AwaitCompleted (s t : State) (i : SlotId) (n : Nat) : Prop :=
  (∀ x : Step, s.slots[i].body[n + 1]? = some x →
    t.slots[i] = { s.slots[i] with state := .running, cursor := some (.body, n + 1) } ∧
    ∀ e : Entry, s.findEntry s.slots[i].handle = some e → ∃ f : Entry,
      t.findEntry s.slots[i].handle = some f ∧ f.owner = e.owner ∧ f.due = s.tick + x.offset ∧
        f.kind = .step i .body (n + 1)) ∧
  (s.slots[i].body[n + 1]? = none →
    t.slots[i] = { s.slots[i] with state := .done, outcome := .done, reason := .none, failed := none, skipped := 0,
                                   cursor := none, handle := 0 } ∧
    t.findEntry s.slots[i].handle = none)

theorem State.BodyGoesOn.awaitCompleted {s t : State} {i : SlotId} {n : Nat} (h : s.BodyGoesOn t i n) :
    s.AwaitCompleted t i n := by
  refine ⟨fun x hx => ?_, fun hx => ?_⟩
  · obtain ⟨slot, -, entry⟩ := h.1 x hx
    exact ⟨slot.1, fun e found => ⟨_, (entry e found).1, rfl, rfl, rfl⟩⟩
  · obtain ⟨slot, -, removed, -⟩ := h.2 hx
    exact ⟨slot.1, removed⟩

/-- What `AwaitCompleted` says depends on the slot, its entry and the tick. -/
theorem State.AwaitCompleted.congr {s s' t t' : State} {i : SlotId} {n : Nat} (h : s'.AwaitCompleted t i n)
    (slot : s'.slots[i] = s.slots[i]) (entry : s'.findEntry s.slots[i].handle = s.findEntry s.slots[i].handle)
    (tick : s'.tick = s.tick) (slot' : t'.slots[i] = t.slots[i])
    (entry' : t'.findEntry s.slots[i].handle = t.findEntry s.slots[i].handle) : s.AwaitCompleted t' i n := by
  unfold State.AwaitCompleted at h ⊢
  rw [slot, entry, tick] at h
  rw [slot', entry']
  exact h

/-- No other slot of the list that awaits the edge has the handle of one that does. -/
def DistinctAwaits (s : State) (l : LineId) (v : Level) (is : List SlotId) : Prop :=
  ∀ i ∈ is, ∀ j ∈ is, ∀ m n : Nat, s.slots[i].AwaitsAt l v m → s.slots[j].AwaitsAt l v n →
    s.slots[i].handle = s.slots[j].handle → i = j

/-- The edge offered to these slots, one after the other: each that awaits it completes its AWAIT, no other slot changes, and no
entry of another handle is touched. -/
structure EdgeOffered (s t : State) (l : LineId) (v : Level) (is : List SlotId) : Prop where
  awaiting : ∀ i ∈ is, ∀ n : Nat, s.slots[i].AwaitsAt l v n → s.AwaitCompleted t i n
  others : ∀ i : SlotId, (i ∈ is → ∀ n : Nat, ¬s.slots[i].AwaitsAt l v n) → t.slots[i] = s.slots[i]
  entries : ∀ h : Nat, (∀ i ∈ is, ∀ n : Nat, s.slots[i].AwaitsAt l v n → s.slots[i].handle ≠ h) →
    t.findEntry h = s.findEntry h

/-- The edge offered to one slot. -/
theorem offerAwait_offered (s : State) (l : LineId) (v : Level) (i : SlotId) : EdgeOffered s (s.offerAwait l v i) l v [i] := by
  by_cases awaits : ∃ n : Nat, s.slots[i].AwaitsAt l v n
  · obtain ⟨n, here⟩ := awaits
    have goesOn := completeStep_body (SameRun.refl s i) rfl n
    rw [offerAwait_completes here]
    refine ⟨fun j hj m other => ?_, fun j passed => ?_, fun h ne => ?_⟩
    · cases List.mem_singleton.mp hj
      cases here.symm.trans other
      exact goesOn.awaitCompleted
    · have ne : j ≠ i := fun same => passed (List.mem_singleton.mpr same) n (same ▸ here)
      cases next : s.slots[i].body[n + 1]? with
      | some x => exact (goesOn.1 x next).1.2 j ne
      | none => exact (goesOn.2 next).1.2 j ne
    · exact completeStep_findEntry_ne s i n (ne i List.mem_cons_self n here)
  · have passes : ∀ n : Nat, ¬s.slots[i].AwaitsAt l v n := fun n here => awaits ⟨n, here⟩
    rw [offerAwait_passes passes]
    refine ⟨fun j hj n here => ?_, fun _ _ => rfl, fun _ _ => rfl⟩
    cases List.mem_singleton.mp hj
    exact absurd here (passes n)

/-- The edge offered to one slot and then to others: the run that the first offer moved is left alone by the later ones, and the
other way round. -/
theorem EdgeOffered.cons {s u t : State} {l : LineId} {v : Level} {i : SlotId} {is : List SlotId}
    (first : EdgeOffered s u l v [i]) (rest : EdgeOffered u t l v is) (tick : u.tick = s.tick) (new : i ∉ is)
    (distinct : DistinctAwaits s l v (i :: is)) : EdgeOffered s t l v (i :: is) := by
  have later : ∀ j ∈ is, u.slots[j] = s.slots[j] := fun j hj =>
    first.others j fun here => absurd (List.mem_singleton.mp here ▸ hj) new
  have alone : ∀ h : Nat, (∀ j ∈ is, ∀ n : Nat, s.slots[j].AwaitsAt l v n → s.slots[j].handle ≠ h) →
      t.findEntry h = u.findEntry h := fun h ne =>
    rest.entries h fun j hj n here => later j hj ▸ ne j hj n (later j hj ▸ here)
  refine ⟨fun j hj n here => ?_, fun j passed => ?_, fun h ne => ?_⟩
  · rcases List.mem_cons.mp hj with rfl | hj'
    · have kept : t.slots[j] = u.slots[j] := rest.others j fun inRest => absurd inRest new
      refine (first.awaiting j List.mem_cons_self n here).congr rfl rfl rfl kept (alone _ fun m hm p there same => new ?_)
      exact distinct m (List.mem_cons_of_mem _ hm) j hj p n there here same ▸ hm
    · have entry : u.findEntry s.slots[j].handle = s.findEntry s.slots[j].handle := first.entries _ fun m hm p there same => by
        cases List.mem_singleton.mp hm
        exact new (distinct i List.mem_cons_self j hj p n there here same ▸ hj')
      exact (rest.awaiting j hj' n (by rw [later j hj']; exact here)).congr (later j hj') entry tick rfl rfl
  · by_cases hj : j ∈ is
    · rw [← later j hj]
      exact rest.others j fun _ n here => passed (List.mem_cons_of_mem _ hj) n (later j hj ▸ here)
    · exact (rest.others j fun inRest => absurd inRest hj).trans
        (first.others j fun here => passed (List.mem_singleton.mp here ▸ List.mem_cons_self))
  · exact (alone h fun j hj => ne j (List.mem_cons_of_mem _ hj)).trans
      (first.entries h fun j hj => ne j (List.mem_singleton.mp hj ▸ List.mem_cons_self))

theorem offerAwaits_offered {l : LineId} {v : Level} {is : List SlotId} (nodup : is.Nodup) {s : State}
    (distinct : DistinctAwaits s l v is) : EdgeOffered s (is.foldl (fun t i => t.offerAwait l v i) s) l v is := by
  induction is generalizing s with
  | nil => exact ⟨fun _ hi => (nomatch hi), fun _ _ => rfl, fun _ _ => rfl⟩
  | cons i is ih =>
    obtain ⟨new, nodup⟩ := List.nodup_cons.mp nodup
    have first := offerAwait_offered s l v i
    have later : ∀ j ∈ is, (s.offerAwait l v i).slots[j] = s.slots[j] := fun j hj =>
      first.others j fun here => absurd (List.mem_singleton.mp here ▸ hj) new
    refine first.cons (ih nodup fun j hj j' hj' m n here there same => ?_) (offerAwait_changes s l v i).tick new distinct
    rw [later j hj] at here same
    rw [later j' hj'] at there same
    exact distinct j (List.mem_cons_of_mem _ hj) j' (List.mem_cons_of_mem _ hj') m n here there same

/-! ## SENSED_EDGE -/

/-- The state in which the slots are offered an edge: the cell has taken it, and the watches have been offered it. -/
def State.edgeTaken (s : State) (l : LineId) : State :=
  allWatches.foldl (fun t w => t.offerEdge l s.lines[l].raw w) (s.modLine l (LineCell.takeEdge s.tick))

theorem edgeTaken_changes (s : State) (l : LineId) : ChangesOnly [.lines, .watches, .numbers, .queues] s (s.edgeTaken l) :=
  (modLine_changes s l _).andThen
    (ChangesOnly.foldl (fun t w => offerEdge_changes t l s.lines[l].raw w) allWatches _)

/-- The level of the edge is the raw level, which the sensed level takes (R9). -/
theorem senseEdge_eq (s : State) (l : LineId) :
    s.senseEdge l = allSlots.foldl (fun t i => t.offerAwait l s.lines[l].raw i) (s.edgeTaken l) := by
  have level : (s.modLine l (LineCell.takeEdge s.tick)).lines[l].sensed = s.lines[l].raw := by
    rw [State.modLine_get_same]
    rfl
  simp only [State.senseEdge, level]
  rfl

theorem exec_sensedEdge {s : State} {l : LineId} {u : Tick} (free : s.heldInReset = false) (change : s.lines[l].change = some u)
    (due : u + s.lines[l].filter ≤ s.tick) : exec (.sensedEdge l) s = .next (s.senseEdge l).settle := by
  have edge : s.lines[l].edgeDue s.tick = true := by
    simp only [LineCell.edgeDue, change]
    exact decide_eq_true due
  show execSensedEdge l s = _
  rw [execSensedEdge, if_pos ⟨free, edge⟩]

/-- Settles O36: the edge is offered to every slot in turn (`offerAwaits_offered`), after the cell and the watches, which leave the slots
and the Timeline. -/
theorem edgeEndsAwait : Obligations.EdgeEndsAwait := by
  unfold Obligations.EdgeEndsAwait
  intro s l u free change due handles
  have before := edgeTaken_changes s l
  have distinct : DistinctAwaits (s.edgeTaken l) l s.lines[l].raw allSlots := fun i _ j _ m n here there same => by
    rw [before.slot i] at here same
    rw [before.slot j] at there same
    exact handles i j here.inRun there.inRun same
  have offered := offerAwaits_offered (is := allSlots) (List.nodup_finRange 16) distinct
  rw [← senseEdge_eq] at offered
  have after := settle_changes (s.senseEdge l)
  refine ⟨_, exec_sensedEdge free change due, fun i => ⟨?_, fun idle => ?_⟩⟩
  · rintro ⟨n, limit, x, state, cursor, hx, kind⟩ m cursor'
    cases cursor.symm.trans cursor'
    have here : s.slots[i].AwaitsAt l s.lines[l].raw n := Slot.awaitsAt_iff.mpr ⟨state, cursor, limit, x, hx, kind⟩
    have completed := offered.awaiting i (List.mem_finRange i) n (by rw [before.slot i]; exact here)
    exact completed.congr (before.slot i) (findEntry_of_changes before _) before.tick (after.slot i)
      (findEntry_of_changes after _)
  · have passed : ∀ n : Nat, ¬(s.edgeTaken l).slots[i].AwaitsAt l s.lines[l].raw n := fun n here => by
      rw [before.slot i] at here
      obtain ⟨state, cursor, limit, x, hx, kind⟩ := Slot.awaitsAt_iff.mp here
      exact idle ⟨n, limit, x, state, cursor, hx, kind⟩
    exact (after.slot i).trans ((offered.others i fun _ => passed).trans (before.slot i))

end Sys2Proof.Machine
end

section
/-! PROOFS. SEQ.STOP (04, section 4.9, R94): a sequence leaves its body, and what of its unwind list is due now is taken before the reply. -/

namespace Sys2Proof.Machine

set_option Elab.async false

/-- After what serves a request and its reply there is only what the arbiters begin. -/
theorem takeSessioned_settled {s u : State} {t : RequestType} {p : Port} {k : SessionId} {r : Request} {payload : List Byte}
    {serve : SessionId → List Byte → State → State × Answer} {a : Answer} (h : s.Takes p t k r payload)
    (hl : t.allows payload.length = true) (he : serve k payload s = (u, a)) :
    Settled (u.answer p r a) (s.takeSessioned t p serve) := by
  rw [takeSessioned_eq serve h hl, he]
  exact settle_settled _

/-! ## A run that has left its body -/

/-- However the run has left its body, the slot names the step at which it did (R90, R94). -/
theorem State.BodyIsLeft.failed {s t : State} {i : SlotId} {reason : SeqReason} {n : Nat} (h : s.BodyIsLeft t i reason n) :
    t.slots[i].failed = some n := by
  cases unwind : s.slots[i].unwind with
  | nil =>
    obtain ⟨⟨slot, -⟩, -⟩ := h.2 unwind
    rw [slot]
  | cons x rest =>
    obtain ⟨⟨slot, -⟩, -⟩ := h.1 x rest unwind
    rw [slot]

/-- A run without an entry gets none by moving. -/
theorem moveEntry_absent {s : State} {i : SlotId} (absent : s.findEntry s.slots[i].handle = none) (state : SeqState)
    (list : StepList) (n : Nat) (due : Tick) (kind : EntryKind) :
    (s.moveEntry i state list n due kind).findEntry s.slots[i].handle = none := by
  rw [State.moveEntry, findEntry_of_changes (modSlot_changes _ i _), readmit_none absent]
  exact absent

/-- The slot with the reason and the step of a run that leaves its body (R88, R90, R94). -/
def State.bodyLeft (s : State) (i : SlotId) (reason : SeqReason) (n : Nat) : State :=
  s.modSlot i fun r => { r with reason := reason, failed := some n }

theorem bodyLeft_slot (s : State) (i : SlotId) (reason : SeqReason) (n : Nat) :
    (s.bodyLeft i reason n).slots[i] = { s.slots[i] with reason := reason, failed := some n } :=
  State.modSlot_get_same s i _

theorem leaveBody_moves {s : State} {i : SlotId} {x : Step} {rest : List Step} (unwind : s.slots[i].unwind = x :: rest)
    (reason : SeqReason) (n : Nat) : s.leaveBody i reason n =
      (s.bodyLeft i reason n).moveEntry i .unwinding .unwind 0 (s.tick + x.offset) (.step i .unwind 0) := by
  simp only [State.leaveBody, State.modSlot_get_same, unwind]
  rfl

theorem leaveBody_absent {s : State} {i : SlotId} (absent : s.findEntry s.slots[i].handle = none) (reason : SeqReason) (n : Nat) :
    (s.leaveBody i reason n).findEntry s.slots[i].handle = none := by
  have left := leaveBody_leaves (SameRun.refl s i) rfl reason n
  cases unwind : s.slots[i].unwind with
  | nil =>
    obtain ⟨-, -, removed, -⟩ := left.2 unwind
    exact removed
  | cons x rest =>
    have handle : (s.bodyLeft i reason n).slots[i].handle = s.slots[i].handle := by rw [bodyLeft_slot]
    have absent' : (s.bodyLeft i reason n).findEntry (s.bodyLeft i reason n).slots[i].handle = none := handle.symm ▸ absent
    rw [leaveBody_moves unwind, ← handle]
    exact moveEntry_absent absent' .unwinding .unwind 0 _ _

/-- With unwind step 0, if any, due later, the run's entry is not due. -/
theorem leaveBody_not_due {s : State} {i : SlotId} (ahead : ∀ x ∈ s.slots[i].unwind.head?, 0 < x.offset) (reason : SeqReason)
    (n : Nat) : (s.leaveBody i reason n).isDue s.slots[i].handle = false := by
  have left := leaveBody_leaves (SameRun.refl s i) rfl reason n
  have tick : (s.leaveBody i reason n).tick = s.tick := (leaveBody_changes s i reason n).tick
  cases found : s.findEntry s.slots[i].handle with
  | none => exact isDue_of_absent (leaveBody_absent found reason n)
  | some e =>
    cases unwind : s.slots[i].unwind with
    | nil =>
      obtain ⟨-, -, removed, -⟩ := left.2 unwind
      exact isDue_of_absent removed
    | cons x rest =>
      obtain ⟨-, -, entry⟩ := left.1 x rest unwind
      have later : 0 < x.offset := ahead x (by rw [unwind]; rfl)
      rw [isDue_of_found (entry e found).1, tick]
      exact decide_eq_false (Nat.not_le.mpr (Nat.lt_add_of_pos_right later))

/-! ## SEQ.STOP's checks -/

theorem serveSeqStop_refused {s : State} {k : SessionId} {pl : List Byte} {a : Answer} (h : s.ownSlot k pl = .error a) :
    serveSeqStop k pl s = (s, a) := by
  simp only [serveSeqStop, h]

theorem serveSeqStop_own {s : State} {k : SessionId} {pl : List Byte} {i : SlotId} (h : s.ownSlot k pl = .ok i) :
    serveSeqStop k pl s = if s.slots[i].inBody = false then (s, .plain .state)
      else (s.haltSequence i,
        { status := .ok, data := .stopped (s.haltSequence i).slots[i].failed (s.haltSequence i).slots[i].state }) := by
  simp only [serveSeqStop, h]

/-- Settles O45: a sequence in its body is stopped (`stopSequence_left`), and of its unwind list nothing is taken while step 0 is not
due (`leaveBody_not_due`). -/
theorem seqStopLeavesBody : Obligations.SeqStopLeavesBody := by
  unfold Obligations.SeqStopLeavesBody
  intro s p k r b h
  have refuses : ∀ {a : Answer}, serveSeqStop k [b] s = (s, a) →
      s.OnlyReplies (s.takeSessioned .seqStop p serveSeqStop) p r a := fun he => takeSessioned_onlyReplies _ h rfl he
  refine ⟨_, rfl, fun bad => refuses (serveSeqStop_refused (ownSlot_badField (pl := [b]) bad)), fun i hi => ?_⟩
  intro slot inBody
  refine ⟨fun other => refuses (serveSeqStop_refused (ownSlot_notFound (pl := [b]) hi other)), fun own rests => ?_,
    fun n own runs cursor => ?_⟩
  · exact refuses ((serveSeqStop_own (ownSlot_own (pl := [b]) hi own)).trans
      (if_pos (eq_false_of_ne_true fun body => rests (Slot.inBody_iff.mp body))))
  · have served := (serveSeqStop_own (ownSlot_own (pl := [b]) hi own)).trans
      (if_neg (ne_false_of_eq_true (Slot.inBody_iff.mpr runs)))
    have after := takeSessioned_changes_after h rfl served
    have settled := takeSessioned_settled h rfl served
    have step : s.slots[i].at = n := by rw [Slot.at, cursor]; rfl
    have left := stopSequence_left s i .stopped
    have changes := stopSequence_changes s i .stopped
    have made : Made s (s.stopSequence i .stopped) (s.leavingEnds i .stopped s.slots[i].at) := made_leaveBody s i .stopped _
    rw [step] at left made
    rw [← after.slot i] at settled
    refine ⟨⟨s.stopSequence i .stopped, changes, left, made, settled⟩, fun ahead => ?_⟩
    have halted : s.haltSequence i = s.stopSequence i .stopped :=
      takeUntil_of_not_due Config.takesBound (leaveBody_not_due ahead .stopped _)
    rw [halted] at served after
    have failed : some n = (s.stopSequence i .stopped).slots[i].failed := left.failed.symm
    refine ⟨?_, fun x rest unwind => (left.1 x rest unwind).of_changes after, fun none => (left.2 none).of_changes after⟩
    rw [failed, after.slot i]
    exact takeSessioned_answers serveSeqStop h rfl served [.timeline, .slots] changes made

end Sys2Proof.Machine
end

section
/-! PROOFS. SEQ.START (04, section 4.5, R78, R79): its checks in their order, the run that it arms, and what is due now. -/

namespace Sys2Proof.Machine

set_option Elab.async false

/-! ## SEQ.START's checks in their order (R78) -/

theorem Slot.resting_iff {r : Slot} :
    r.resting = true ↔ r.state = .ready ∨ r.state = .done ∨ r.state = .faulted ∨ r.state = .cancelled := by
  unfold Slot.resting
  cases r.state <;> simp

section
variable {s : State} {k : SessionId} {i : SlotId}

/-- The first SET line that the requester does not hold. -/
theorem firstNotHeld_some {before after : List LineId} {l : LineId} (lines : s.slots[i].setLines = before ++ l :: after)
    (other : s.holder l ≠ some k) (held : ∀ m ∈ before, s.holder m = some k) : s.firstNotHeld k i = some l := by
  rw [State.firstNotHeld, List.find?_eq_some_iff_append]
  refine ⟨?_, before, after, lines, fun m hm => ?_⟩
  · rw [(holds_false s k l).mpr other]; rfl
  · rw [(holds_iff s k m).mpr (held m hm)]; rfl

theorem firstNotHeld_none (held : ∀ l ∈ s.slots[i].setLines, s.holder l = some k) : s.firstNotHeld k i = none :=
  List.find?_eq_none.mpr fun l hl => by
    rw [(holds_iff s k l).mpr (held l hl)]
    exact Bool.false_ne_true

theorem serveSeqStart_badField {pl : List Byte} (h : 16 ≤ field1 pl 0 ∨ whenOf pl 1 = none) :
    serveSeqStart k pl s = (s, .plain .badField) := by
  unfold serveSeqStart
  split
  · rename_i i w hi hw
    rcases h with bad | bad
    · rw [nameOf_none bad] at hi; cases hi
    · rw [bad] at hw; cases hw
  · rfl

variable {pl : List Byte} {w : When} (hi : field1 pl 0 = i.val) (hw : whenOf pl 1 = some w)
include hi hw

theorem serveSeqStart_notFound (other : s.slots[i].owner ≠ some k) : serveSeqStart k pl s = (s, .plain .notFound) := by
  simp only [serveSeqStart, nameOf_of_eq hi, hw, if_pos other]

variable (own : s.slots[i].owner = some k)
include own

theorem serveSeqStart_state (busy : s.slots[i].resting = false) : serveSeqStart k pl s = (s, .plain .state) := by
  simp only [serveSeqStart, nameOf_of_eq hi, hw, if_neg (not_not.mpr own), busy, if_true]

variable (rests : s.slots[i].resting = true)
include rests

theorem serveSeqStart_notHeld {l : LineId} (first : s.firstNotHeld k i = some l) :
    serveSeqStart k pl s = (s, { status := .notHolder, data := .notHeld l }) := by
  simp only [serveSeqStart, nameOf_of_eq hi, hw, if_neg (not_not.mpr own), rests, Bool.true_eq_false, if_false, first]

variable (held : s.firstNotHeld k i = none)
include held

theorem serveSeqStart_whenStatus {x : Status} (late : whenStatus s.tick (w.start s.tick) = some x) :
    serveSeqStart k pl s = (s, { status := x, data := .tick s.tick }) := by
  simp only [serveSeqStart, nameOf_of_eq hi, hw, if_neg (not_not.mpr own), rests, Bool.true_eq_false, if_false, held, late,
    lateAnswer]

variable (timely : whenStatus s.tick (w.start s.tick) = none)
include timely

theorem serveSeqStart_full (full : 64 ≤ s.timeline.length) : serveSeqStart k pl s = (s, .plain .timelineFull) := by
  have isFull : s.timelineFull = true := decide_eq_true full
  simp only [serveSeqStart, nameOf_of_eq hi, hw, if_neg (not_not.mpr own), rests, Bool.true_eq_false, if_false, held, timely,
    if_pos isFull]

theorem serveSeqStart_accepted (room : s.timeline.length < 64) : serveSeqStart k pl s =
    (s.startSequence k i (w.start s.tick),
      { status := .ok,
        data := .started s.nextHandle (w.start s.tick) (s.slots[i].firstDue (w.start s.tick))
          (s.startSequence k i (w.start s.tick)).slots[i].state }) := by
  have notFull : ¬s.timelineFull = true := fun full => Nat.not_le.mpr room (of_decide_eq_true full)
  simp only [serveSeqStart, nameOf_of_eq hi, hw, if_neg (not_not.mpr own), rests, Bool.true_eq_false, if_false, held, timely,
    if_neg notFull]

end

/-! ## The armed run (R66, R79) -/

/-- The entry that the start of a run admits. -/
def State.firstStep (s : State) (k : SessionId) (i : SlotId) (due : Tick) : Entry :=
  { handle := s.nextHandle, owner := k, due := due, admission := s.nextAdmission, kind := .step i .body 0 }

/-- The record of a slot whose run has been armed. -/
def Slot.armedAt (r : Slot) (start : Tick) (handle : Nat) : Slot :=
  { r with state := .armed, outcome := .none, reason := .none, failed := none, skipped := 0, start := some start,
           cursor := some (.body, 0), handle := handle }

section
variable {s : State} {k : SessionId} {i : SlotId} {start : Tick} {x : Step} {rest : List Step}

theorem armSequence_slotBecomes (s : State) (k : SessionId) (i : SlotId) (start : Tick) :
    SlotBecomes s (s.armSequence k i start) i (s.slots[i].armedAt start s.nextHandle) :=
  modSlot_slotBecomes (s.enterTimeline k (s.slots[i].firstDue start) (.step i .body 0)) i _

theorem firstDue_eq (body : s.slots[i].body = x :: rest) : s.slots[i].firstDue start = start + x.offset := by
  rw [Slot.firstDue, body]
  rfl

theorem armSequence_timeline (body : s.slots[i].body = x :: rest) :
    (s.armSequence k i start).timeline = insertEntry (s.firstStep k i (start + x.offset)) s.timeline := by
  rw [← firstDue_eq body]
  rfl

theorem armSequence_found (ht : TimelineOk s) (body : s.slots[i].body = x :: rest) :
    (s.armSequence k i start).findEntry s.nextHandle = some (s.firstStep k i (start + x.offset)) := by
  obtain ⟨few, -, -, -, counter⟩ := ht
  rw [State.findEntry, armSequence_timeline body]
  exact find?_insertEntry (e := s.firstStep k i (start + x.offset)) (nextHandle_fresh few counter)

/-- With step 0 due later nothing is taken. -/
theorem startSequence_ahead (ht : TimelineOk s) (body : s.slots[i].body = x :: rest) (ahead : s.tick < start + x.offset) :
    s.startSequence k i start = s.armSequence k i start := by
  refine takeUntil_of_not_due Config.takesBound ?_
  rw [isDue_of_found (armSequence_found ht body)]
  exact decide_eq_false (Nat.not_le.mpr ahead)

/-! ## The run whose one step is due now -/

theorem armSequence_first (body : s.slots[i].body = x :: rest) (now : start + x.offset = s.tick)
    (alone : ∀ e ∈ s.timeline, s.tick < e.due) :
    (s.armSequence k i start).timeline = s.firstStep k i s.tick :: s.timeline := by
  rw [armSequence_timeline body, now]
  refine insertEntry_first fun f hf => ?_
  rw [Entry.before, Bool.or_eq_true, decide_eq_true_eq]
  exact .inl (alone f hf)

/-- After its last step the entry of a run is gone, and the others stay in their places (R86). -/
theorem completeBody_last {s u : State} {i : SlotId} {r : Slot} (same : SameRun s u i r) (but : r.SameBut s.slots[i]) {n : Nat}
    (last : s.slots[i].body[n + 1]? = none) :
    (u.completeStep i .body n).timeline = (s.removeEntry s.slots[i].handle).timeline := by
  have body : r.body = s.slots[i].body := by rw [but]
  have handle : r.handle = s.slots[i].handle := by rw [but]
  have ended : u.completeStep i .body n = u.finishBody i := by
    simp only [State.completeStep, same.slot, Slot.list, body, last]
  rw [ended, State.finishBody, State.endRun, (notifyOwner_changes _ _ _ .timeline (by decide)).1, State.modSlot_timeline,
    State.modSlot_get_same, same.slot, handle]
  simp only [State.removeEntry, State.setTimeline_timeline, State.modSlot_timeline, same.timeline]

theorem takeBodyStep_sets_last {s : State} {i : SlotId} {n : Nat} {x : Step} {l : LineId} {v : Level}
    (hx : s.slots[i].body[n]? = some x) (kind : x.kind = .set l v) (fault : s.lines[l].fault = .none)
    (driver : s.lines[l].mode ≠ .input) (last : s.slots[i].body[n + 1]? = none) :
    (s.takeBodyStep i n).timeline = (s.removeEntry s.slots[i].handle).timeline := by
  rw [takeBodyStep_writes hx kind fault driver]
  exact completeBody_last ((stepBegun_run s i).of_changes (writeLine_changes _ l v)) (stepBegun_same s i) last

theorem bodyEnds_last {s : State} {i : SlotId} {k : SessionId} {n : Nat} (last : s.slots[i].body[n + 1]? = none)
    (own : s.slots[i].owner = some k) : s.bodyEnds i n = [(k, .seqEnd i .done .none none 0 s.tick)] := by
  simp only [State.bodyEnds, last, State.toOwner, own]

/-- The one step of the body, due now with no other entry due, is the first and the only one taken. -/
theorem startSequence_now (ht : TimelineOk s) (opened : s.sessions[k].state = .opened) (body : s.slots[i].body = [x])
    (now : start + x.offset = s.tick) (alone : ∀ e ∈ s.timeline, s.tick < e.due)
    (goesOn : (s.armSequence k i start).BodyGoesOn ((s.armSequence k i start).takeBodyStep i 0) i 0) :
    s.startSequence k i start = (s.armSequence k i start).takeBodyStep i 0 := by
  have slot := (armSequence_slotBecomes s k i start).1
  have tick := (armSequence_changes s k i start).tick
  have isDue : (s.armSequence k i start).isDue s.nextHandle = true := by
    rw [isDue_of_found (armSequence_found ht body), tick]
    exact decide_eq_true now.le
  have first := dueEntry_of_due (armSequence_first (k := k) body now alone) tick.ge
  have taken : (s.armSequence k i start).takeEntry (s.firstStep k i s.tick) = (s.armSequence k i start).takeBodyStep i 0 :=
    checkClosing_of_opened opened ((armSequence_changes s k i start).andThen (takeBodyStep_changes _ i 0)
      (parts := [.lines, .generators, .timeline, .slots, .numbers, .queues]))
  have last : (s.armSequence k i start).slots[i].body[0 + 1]? = none := by
    rw [slot, Slot.armedAt, body]
    rfl
  obtain ⟨-, -, absent, -⟩ := goesOn.2 last
  rw [slot] at absent
  have takes : Config.takesBound = 703 + 1 := rfl
  rw [State.startSequence, takes, takeUntil_of_due 703 isDue first, taken]
  exact takeUntil_of_not_due 703 (isDue_of_absent absent)

/-- What the start of such a run does on a line that takes its write: the write, and the run is DONE, with the Timeline as before and
both counters advanced. -/
theorem startSequence_now_writes {l : LineId} {v : Level} (hb : BoundOk s) (ht : TimelineOk s)
    (opened : s.sessions[k].state = .opened) (own : s.slots[i].owner = some k) (body : s.slots[i].body = [x])
    (now : start + x.offset = s.tick) (alone : ∀ e ∈ s.timeline, s.tick < e.due) (kind : x.kind = .set l v)
    (fault : s.lines[l].fault = .none) (driver : s.lines[l].mode ≠ .input) :
    let u := s.startSequence k i start
    (LineBecomes s u l (s.lines[l].writeLevel s.tick v) ∧ GeneratorStopped s u l ∧
      SlotBecomes s u i { s.slots[i].armedAt start s.nextHandle with state := .done, outcome := .done, cursor := none, handle := 0 }) ∧
    (u.timeline = s.timeline ∧ u.handleCounter = s.nextHandle ∧ u.admissionCounter = s.nextAdmission) ∧
    ChangesOnly stepParts s u ∧ Made s u (s.cadEnds l .overridden ++ [(k, .seqEnd i .done .none none 0 s.tick)]) := by
  intro u
  have armed := armSequence_changes s k i start
  obtain ⟨slot, slots⟩ := armSequence_slotBecomes s k i start
  have cell := armed.line l
  have hx : (s.armSequence k i start).slots[i].body[0]? = some x := by rw [slot, Slot.armedAt, body]; rfl
  have last : (s.armSequence k i start).slots[i].body[0 + 1]? = none := by rw [slot, Slot.armedAt, body]; rfl
  have fault' : (s.armSequence k i start).lines[l].fault = .none := cell.symm ▸ fault
  have driver' : (s.armSequence k i start).lines[l].mode ≠ .input := cell.symm ▸ driver
  obtain ⟨goesOn, stopped, line, changes, made⟩ := takeBodyStep_sets (hb.of_changes armed) hx kind fault' driver'
  have taken : u = (s.armSequence k i start).takeBodyStep i 0 := startSequence_now ht opened body now alone goesOn
  obtain ⟨ended, ⟨-, handles⟩, -, admissions⟩ := goesOn.2 last
  have owner : (s.armSequence k i start).slots[i].owner = some k := by rw [slot]; exact own
  rw [cadEnds_congr armed, bodyEnds_last last owner, armed.tick] at made
  rw [cell, armed.tick] at line
  rw [slot] at ended
  rw [taken]
  refine ⟨⟨⟨line.1, fun m hm => (line.2 m hm).trans (armed.line m)⟩, fun g => ?_,
    ended.1, fun j hj => (ended.2 j hj).trans (slots j hj)⟩,
    ⟨?_, handles, admissions⟩, armed.andThen changes, Made.after armed made⟩
  · rw [stopped g, armed.generator g]
  · rw [takeBodyStep_sets_last hx kind fault' driver' last, slot]
    obtain ⟨few, -, -, -, counter⟩ := ht
    exact removeEntry_first (e := s.firstStep k i s.tick) (armSequence_first body now alone) (nextHandle_fresh few counter)

end

/-- Settles O44: the refusals are `serveSeqStart`'s checks, and an accepted start arms the run, which waits (`startSequence_ahead`) or,
with its one step due now and no other entry due, writes its line and is DONE (`startSequence_now_writes`). -/
theorem seqStartArms : Obligations.SeqStartArms := by
  unfold Obligations.SeqStartArms
  intro s p k r pl hb ht length h
  have allowed : RequestType.seqStart.allows pl.length = true := by rw [length]; rfl
  have refuses : ∀ {a : Answer}, serveSeqStart k pl s = (s, a) →
      s.OnlyReplies (s.takeSessioned .seqStart p serveSeqStart) p r a := fun he => takeSessioned_onlyReplies _ h allowed he
  obtain ⟨takeable, -, -, speaks⟩ := id h
  have opened := (speaker_opened speaks).1
  refine ⟨_, rfl, fun bad => refuses (serveSeqStart_badField bad), fun i w hi hw => ?_⟩
  intro slot start resting
  refine ⟨fun other => refuses (serveSeqStart_notFound hi hw other), fun own busy => ?_, fun own rest => ?_⟩
  · exact refuses (serveSeqStart_state hi hw own (eq_false_of_ne_true fun rests => busy (Slot.resting_iff.mp rests)))
  · have rests := Slot.resting_iff.mpr rest
    refine ⟨fun before after l lines other held => ?_, fun held => ?_⟩
    · exact refuses (serveSeqStart_notHeld hi hw own rests (firstNotHeld_some lines other held))
    · have none := firstNotHeld_none held
      refine ⟨fun x late => refuses (serveSeqStart_whenStatus hi hw own rests none late),
        fun timely full => refuses (serveSeqStart_full hi hw own rests none timely full), fun x rest timely room body => ?_⟩
      intro entry armed answer
      have served := serveSeqStart_accepted hi hw own rests none timely room
      rw [firstDue_eq body] at served
      have after := takeSessioned_changes_after h allowed served
      have settled := takeSessioned_settled h allowed served
      rw [← after.slot i] at settled
      have becomes := armSequence_slotBecomes s k i start
      have arms := armSequence_changes s k i start
      have answers : ∀ (parts : List Part) {notes : List (SessionId × NoticeBody)},
          ChangesOnly (parts ++ [.numbers, .queues]) s (s.startSequence k i start) → Made s (s.startSequence k i start) notes →
          s.Answers (s.takeSessioned .seqStart p serveSeqStart) p r answer parts notes := fun parts _ changes made =>
        ⟨_, changes, made, settled⟩
      obtain ⟨entries, handles, admissions⟩ := after .timeline (by decide)
      refine ⟨answer_replied takeable takingParts (startSequence_changes s k i start) settled,
        ⟨s.armSequence k i start, arms, becomes, armSequence_timeline body, rfl, rfl, settled⟩, fun ahead => ?_,
        fun l v now alone kind fault driver single => ?_⟩
      · have waits := startSequence_ahead (k := k) ht body ahead
        have answered := answers [.timeline, .slots] (waits.symm ▸ arms.mono (by decide)) (waits.symm ▸ Made.of_changes arms)
        rw [waits] at after entries handles admissions
        exact ⟨entries.trans (armSequence_timeline body), becomes.of_changes after, handles, admissions, answered⟩
      · subst single
        obtain ⟨⟨line, stopped, done⟩, ⟨entries', handles', admissions'⟩, changes, made⟩ :=
          startSequence_now_writes hb ht opened own body now alone kind fault driver
        exact ⟨line.of_changes after, stopped.of_changes after, done.of_changes after, entries.trans entries',
          handles.trans handles', admissions.trans admissions', answers _ (changes.mono (by decide)) made⟩

end Sys2Proof.Machine
end

section
/-! PROOFS. One generator and its line (05, sections 5.2 and 5.3): which of its own ticks is due, what a change of its record with a write
of its own does, and what its requests can do. -/

namespace Sys2Proof.Machine

set_option Elab.async false

/-! ## A generator's own ticks (R108 to R110) -/

section
variable {r : Generator} {now u : Tick}

theorem Generator.startDue_eq_some : r.startDue now = some u ↔ r.state = .pending ∧ r.start = some u ∧ u ≤ now := by
  unfold Generator.startDue
  split
  · rename_i v pending start
    rw [pending, start, Option.ite_none_right_eq_some, Option.some.injEq]
    exact ⟨fun ⟨reached, same⟩ => ⟨rfl, same, same ▸ reached⟩, fun ⟨_, same, reached⟩ => ⟨same.symm ▸ reached, same⟩⟩
  · rename_i other
    exact ⟨fun x => (nomatch x), fun ⟨pending, start, _⟩ => (other u pending start).elim⟩

theorem Generator.lowDue_eq_some : r.lowDue now = some u ↔ r.state = .running u false ∧ u + r.high ≤ now := by
  unfold Generator.lowDue
  cases r.state with
  | running v made =>
    cases made
    · simp only [Option.ite_none_right_eq_some, Option.some.injEq, GenState.running.injEq, and_true]
      exact ⟨fun ⟨reached, same⟩ => ⟨same, same ▸ reached⟩, fun ⟨same, reached⟩ => ⟨same.symm ▸ reached, same⟩⟩
    · simp
  | free | stopped | pending => simp

theorem Generator.endDue_eq_some : r.endDue now = some u ↔ r.state = .running u true ∧ u + r.period ≤ now := by
  unfold Generator.endDue
  cases r.state with
  | running v made =>
    cases made
    · simp
    · simp only [Option.ite_none_right_eq_some, Option.some.injEq, GenState.running.injEq, and_true]
      exact ⟨fun ⟨reached, same⟩ => ⟨same, same ▸ reached⟩, fun ⟨same, reached⟩ => ⟨same.symm ▸ reached, same⟩⟩
  | free | stopped | pending => simp

end

/-! ## One generator's record -/

theorem modGenerator_becomes (s : State) (g : GenId) (f : Generator → Generator) :
    GeneratorBecomes s (s.modGenerator g f) g (f s.generators[g]) :=
  ⟨s.modGenerator_get_same g f, fun _ hh => s.modGenerator_get_ne f hh⟩

theorem GeneratorBecomes.of_changes {parts : List Part} {s u t : State} {g : GenId} {r : Generator}
    (h : GeneratorBecomes s u g r) (hc : ChangesOnly parts u t) (hp : Part.generators ∉ parts := by decide) :
    GeneratorBecomes s t g r :=
  ⟨(hc.generator g hp).trans h.1, fun j hj => (hc.generator j hp).trans (h.2 j hj)⟩

theorem GeneratorBecomes.trans {s u t : State} {g : GenId} {r q : Generator} (h : GeneratorBecomes s u g r)
    (h' : GeneratorBecomes u t g q) : GeneratorBecomes s t g q :=
  ⟨h'.1, fun j hj => (h'.2 j hj).trans (h.2 j hj)⟩

/-! ## A change of the record with a write of the generator's own (R109) -/

section
variable {s : State} {g : GenId} {l : LineId} (line : s.generators[g].line = some l)
include line

theorem ownWrite_becomes (f : Generator → Generator) (v : Level) :
    GeneratorBecomes s ((s.modGenerator g f).ownWrite s.generators[g].line v) g (f s.generators[g]) ∧
      LineBecomes s ((s.modGenerator g f).ownWrite s.generators[g].line v) l (s.lines[l].writeLevel s.tick v) :=
  ⟨(modGenerator_becomes s g f).of_changes (ownWrite_changes _ _ v),
    line ▸ modLine_lineBecomes (s.modGenerator g f) l (LineCell.writeLevel s.tick v)⟩

theorem beginCycles_becomes (start : Tick) :
    GeneratorBecomes s (s.beginCycles g start) g { s.generators[g] with state := .running start false } ∧
      LineBecomes s (s.beginCycles g start) l (s.lines[l].writeLevel s.tick .high) :=
  ownWrite_becomes line (fun r => { r with state := .running start false }) .high

end

/-- The rest level is written to the line, or with KEEP nothing is; no other line changes (R110, R111). -/
def RestApplied (s t : State) (l : LineId) (rest : RestLevel) : Prop :=
  (rest = .keep → t.lines = s.lines) ∧
  (rest = .low → LineBecomes s t l (s.lines[l].writeLevel s.tick .low)) ∧
  (rest = .high → LineBecomes s t l (s.lines[l].writeLevel s.tick .high))

theorem RestApplied.of_changes {parts : List Part} {s u t : State} {l : LineId} {rest : RestLevel} (h : RestApplied s u l rest)
    (hc : ChangesOnly parts u t) (hp : Part.lines ∉ parts := by decide) : RestApplied s t l rest := by
  obtain ⟨keep, low, high⟩ := h
  exact ⟨fun e => (hc .lines hp).trans (keep e), fun e => (low e).of_changes hc hp, fun e => (high e).of_changes hc hp⟩

theorem writeRest_applied (s : State) (l : LineId) (rest : RestLevel) : RestApplied s (s.writeRest (some l) rest) l rest := by
  cases rest with
  | keep => exact ⟨fun _ => rfl, RestLevel.noConfusion, RestLevel.noConfusion⟩
  | low => exact ⟨RestLevel.noConfusion, fun _ => modLine_lineBecomes s l _, RestLevel.noConfusion⟩
  | high => exact ⟨RestLevel.noConfusion, RestLevel.noConfusion, fun _ => modLine_lineBecomes s l _⟩

theorem restGenerator_becomes {s : State} {g : GenId} {l : LineId} (line : s.generators[g].line = some l) :
    GeneratorBecomes s (s.restGenerator g) g { s.generators[g] with state := .stopped } ∧
      RestApplied s (s.restGenerator g) l s.generators[g].rest := by
  refine ⟨(modGenerator_becomes s g Generator.stop).of_changes (writeRest_changes _ _ _), ?_⟩
  unfold State.restGenerator
  rw [line]
  exact writeRest_applied (s.modGenerator g Generator.stop) l _

/-! ## The end of a cycle (R110) -/

/-- The record of a generator that completes a cycle (R110). -/
def Generator.count (r : Generator) : Generator :=
  { r with completed := saturate Config.max32 r.completed }

/-- The end of a cycle is the count, then the end of the run or the next cycle (R110). -/
theorem endCycle_eq (s : State) (g : GenId) (u : Tick) : s.endCycle g u =
    if s.generators[g].cycles ≠ 0 ∧ s.generators[g].count.completed = s.generators[g].cycles then
      ((s.modGenerator g Generator.count).restGenerator g).sendCadEnd g .done
    else (s.modGenerator g Generator.count).beginCycles g (u + s.generators[g].period) := by
  simp only [State.endCycle, State.modGenerator_get_same]
  rfl

/-! ## What the requests can do -/

theorem Generator.settable_iff {k : SessionId} {r : Generator} :
    r.settable k = true ↔ r.state = .free ∨ (r.state = .stopped ∧ r.owner = some k) := by
  simp only [Generator.settable, Bool.or_eq_true, Bool.and_eq_true, decide_eq_true_eq]

/-- The line is bound to another generator (R105 check 6). -/
theorem boundElsewhere_iff (s : State) (g : GenId) (l : LineId) :
    (allGenerators.any fun h => decide (h ≠ g) && decide (s.generators[h].state ≠ .free) &&
      decide (s.generators[h].line = some l)) = true ↔
      ∃ h : GenId, h ≠ g ∧ s.generators[h].state ≠ .free ∧ s.generators[h].line = some l := by
  simp only [List.any_eq_true, Bool.and_eq_true, decide_eq_true_eq, and_assoc]
  exact ⟨fun ⟨h, _, other⟩ => ⟨h, other⟩, fun ⟨h, other⟩ => ⟨h, List.mem_finRange h, other⟩⟩

/-- What CAD.SET can do: nothing but answer, or make the generator STOPPED on a line that the requester holds and that no other generator
is bound to (R105, R106). -/
theorem serveCadSet_cases (k : SessionId) (pl : List Byte) (s : State) : (serveCadSet k pl s).1 = s ∨
    ∃ (g : GenId) (l : LineId) (r : Generator), s.holder l = some k ∧
      (¬∃ h : GenId, h ≠ g ∧ s.generators[h].state ≠ .free ∧ s.generators[h].line = some l) ∧
      r.state = .stopped ∧ r.owner = some k ∧ r.line = some l ∧ (serveCadSet k pl s).1 = s.modGenerator g fun _ => r := by
  unfold serveCadSet
  split
  · rename_i g l rest _ _ _
    split
    · exact .inl rfl
    · split
      · exact .inl rfl
      · rename_i held
        split
        · exact .inl rfl
        · split
          · exact .inl rfl
          · split
            · exact .inl rfl
            · rename_i alone
              split
              · exact .inl rfl
              · exact .inr ⟨g, l, _, (holds_iff s k l).mp (eq_true_of_ne_false held), mt (boundElsewhere_iff s g l).mpr alone,
                  rfl, rfl, rfl, rfl⟩
  · exact .inl rfl

/-- What CAD.RUN can do: nothing but answer, or start a STOPPED generator (R107). -/
theorem serveCadRun_cases (k : SessionId) (pl : List Byte) (s : State) : (serveCadRun k pl s).1 = s ∨
    ∃ (g : GenId) (start : Tick), s.generators[g].state = .stopped ∧ (serveCadRun k pl s).1 = s.runGenerator g start := by
  unfold serveCadRun
  split
  · rename_i g w _ _
    split
    · exact .inl rfl
    · split
      · exact .inl rfl
      · rename_i stopped
        split
        · exact .inl rfl
        · split
          · exact .inl rfl
          · exact .inr ⟨g, w.start s.tick, not_not.mp stopped, rfl⟩
  · exact .inl rfl

/-- What CAD.HOLD can do: nothing but answer, or stop a PENDING or RUNNING generator (R111). -/
theorem serveCadHold_cases (k : SessionId) (pl : List Byte) (s : State) : (serveCadHold k pl s).1 = s ∨
    ∃ g : GenId, s.generators[g].active = true ∧ (serveCadHold k pl s).1 = s.restGenerator g := by
  unfold serveCadHold
  split
  · exact .inl rfl
  · rename_i g _
    split
    · rename_i active
      exact .inr ⟨g, active, rfl⟩
    · exact .inl rfl

/-- What CAD.FREE can do: nothing but answer, or free a generator (R116). -/
theorem serveCadFree_cases (k : SessionId) (pl : List Byte) (s : State) : (serveCadFree k pl s).1 = s ∨
    ∃ g : GenId, (serveCadFree k pl s).1 = s.freeGenerator g := by
  unfold serveCadFree
  split
  · exact .inl rfl
  · rename_i g _
    split
    · exact .inl rfl
    · exact .inr ⟨g, rfl⟩

end Sys2Proof.Machine
end

section
/-! PROOFS. The invariant of the binding (`BoundOk`; R103, R104, R148): each request and each event keeps every generator in use bound to
a line of its own that its OPEN owner holds, and so does every step. -/

namespace Sys2Proof.Machine

set_option Elab.async false

/-! ## What the invariant depends on -/

/-- The binding stays while the generators and the holders do and no OPEN session leaves its state. -/
theorem BoundOk.of_same {s t : State} (h : BoundOk s) (generators : ∀ g : GenId, t.generators[g] = s.generators[g])
    (leases : ∀ l : LineId, t.leases[l] = s.leases[l])
    (opened : ∀ k : SessionId, s.sessions[k].state = .opened → t.sessions[k].state = .opened) : BoundOk t := by
  refine h.of_generators (fun g => ?_) fun _ k l _ _ _ held owner => ⟨?_, opened k owner⟩
  · rw [generators g]
    exact ⟨fun live => ⟨live, rfl, rfl⟩, h.2.1 g⟩
  · rw [State.holder, leases l]
    exact held

/-- With every generator FREE there is no binding. -/
theorem BoundOk.of_free {s : State} (h : ∀ g : GenId, s.generators[g] = Generator.free) : BoundOk s := by
  have dead : ∀ g : GenId, ¬s.generators[g].state ≠ .free := fun g live => live (congrArg Generator.state (h g))
  exact ⟨fun g live => absurd live (dead g), fun g _ => h g, fun g _ live => absurd live (dead g)⟩

/-- A generator is bound to a line that its OPEN owner holds and that no other generator is bound to (R105). -/
theorem BoundOk.bind {s : State} (h : BoundOk s) {g : GenId} {k : SessionId} {l : LineId} {r : Generator}
    (opened : s.sessions[k].state = .opened) (held : s.holder l = some k)
    (alone : ¬∃ j : GenId, j ≠ g ∧ s.generators[j].state ≠ .free ∧ s.generators[j].line = some l)
    (state : r.state = .stopped) (owner : r.owner = some k) (line : r.line = some l) : BoundOk (s.modGenerator g fun _ => r) := by
  have same : (s.modGenerator g fun _ => r).generators[g] = r := s.modGenerator_get_same g _
  have other : ∀ j : GenId, j ≠ g → (s.modGenerator g fun _ => r).generators[j] = s.generators[j] :=
    fun j hj => s.modGenerator_get_ne _ hj
  refine ⟨fun j live => ?_, fun j free => ?_, fun i j hi hj shared => ?_⟩
  · by_cases e : j = g
    · subst e
      rw [same]
      exact ⟨k, l, owner, line, held, opened⟩
    · rw [other j e] at live ⊢
      exact h.1 j live
  · by_cases e : j = g
    · subst e
      rw [same, state] at free
      cases free
    · rw [other j e] at free ⊢
      exact h.2.1 j free
  · by_cases ei : i = g
    · by_cases ej : j = g
      · rw [ei, ej]
      · rw [other j ej] at hj shared
        rw [ei, same, line] at shared
        exact absurd ⟨j, ej, hj, shared.symm⟩ alone
    · rw [other i ei] at hi shared
      by_cases ej : j = g
      · rw [ej, same, line] at shared
        exact absurd ⟨i, ei, hi, shared⟩ alone
      · rw [other j ej] at hj shared
        exact h.2.2 i j hi hj shared

/-- No generator is bound to a line without a holder (R104). -/
theorem BoundOk.unbound_of_no_lease {s : State} (h : BoundOk s) {l : LineId} (none : s.leases[l].lease = none) : Unbound s l := by
  intro g live line
  obtain ⟨k, m, -, line', held, -⟩ := h.1 g live
  rw [line, Option.some.injEq] at line'
  rw [← line', State.holder, none] at held
  cases held

/-! ## A generator's own ticks -/

section
variable {s : State} (h : BoundOk s) {g : GenId} (live : s.generators[g].state ≠ .free)
include h live

theorem BoundOk.beginCycles (start : Tick) : BoundOk (s.beginCycles g start) :=
  (h.modGenerator g (f := fun r => { r with state := .running start false }) live
    ⟨rfl, rfl, GenState.noConfusion⟩).of_changes (ownWrite_changes _ _ _)

theorem BoundOk.lowWrite (t : Tick) :
    BoundOk ((s.modGenerator g fun r => { r with state := .running t true }).ownWrite s.generators[g].line .low) :=
  (h.modGenerator g (f := fun r => { r with state := .running t true }) live
    ⟨rfl, rfl, GenState.noConfusion⟩).of_changes (ownWrite_changes _ _ _)

theorem BoundOk.restGenerator : BoundOk (s.restGenerator g) :=
  (h.modGenerator g (f := Generator.stop) live ⟨rfl, rfl, GenState.noConfusion⟩).of_changes (writeRest_changes _ _ _)

theorem BoundOk.runGenerator (start : Tick) : BoundOk (s.runGenerator g start) := by
  have pending := h.modGenerator g (f := fun r => { r with state := .pending, start := some start, completed := 0 }) live
    ⟨rfl, rfl, GenState.noConfusion⟩
  unfold State.runGenerator
  dsimp only
  split
  · exact pending
  · refine pending.beginCycles ?_ start
    rw [State.modGenerator_get_same]
    exact GenState.noConfusion

theorem BoundOk.endCycle (t : Tick) : BoundOk (s.endCycle g t) := by
  have counted := h.modGenerator g (f := Generator.count) live ⟨rfl, rfl, live⟩
  have live' : (s.modGenerator g Generator.count).generators[g].state ≠ .free := by
    rw [State.modGenerator_get_same]
    exact live
  rw [endCycle_eq]
  split
  · exact (counted.restGenerator live').of_changes (sendCadEnd_changes _ _ _)
  · exact counted.beginCycles live' _

end

/-! ## Entries that fall due -/

theorem BoundOk.takeOneshot {s : State} (h : BoundOk s) (e : Entry) (l : LineId) (v : Level) : BoundOk (s.takeOneshot e l v) := by
  have removed := h.of_changes (removeEntry_changes s e.handle)
  unfold State.takeOneshot
  dsimp only
  split_ifs
  · exact removed.of_changes (notify_changes _ _ _)
  · exact removed.of_changes (notify_changes _ _ _)
  · exact removed.writeLine l v

theorem BoundOk.takeBodyStep {s : State} (h : BoundOk s) (i : SlotId) (n : Nat) : BoundOk (s.takeBodyStep i n) := by
  have runs := h.of_changes (modSlot_changes s i fun r => { r with state := .running })
  unfold State.takeBodyStep
  dsimp only
  split
  · exact runs.of_changes (removeEntry_changes _ _)
  · split
    · split_ifs
      · exact runs.of_changes (leaveBody_changes _ _ _ _)
      · exact runs.of_changes (leaveBody_changes _ _ _ _)
      · exact (runs.writeLine _ _).of_changes (completeStep_changes _ _ _ _)
    · exact (runs.of_changes (notifyOwner_changes _ _ _)).of_changes (completeStep_changes _ _ _ _)
    · split_ifs
      · exact runs.of_changes (completeStep_changes _ _ _ _)
      · exact runs.of_changes (moveEntry_changes _ _ _ _ _ _ _)

theorem BoundOk.takeEntry {s : State} (h : BoundOk s) (e : Entry) : BoundOk (s.takeEntry e) := by
  unfold State.takeEntry
  split
  · exact h.takeOneshot e _ _
  · unfold State.takeStep
    split
    · exact (h.takeBodyStep _ _).checkClosing _
    · exact (h.takeUnwindStep _ _).checkClosing _
  · exact (h.of_changes (leaveBody_changes _ _ _ _)).checkClosing _

theorem BoundOk.takeUntil {handle n : Nat} {s : State} (h : BoundOk s) : BoundOk (State.takeUntil handle n s) := by
  induction n generalizing s with
  | zero => exact h
  | succ n ih =>
    unfold State.takeUntil
    split
    · split
      · exact ih (h.takeEntry _)
      · exact h
    · exact h

/-! ## Requests -/

theorem BoundOk.serveOpen {s : State} (h : BoundOk s) (p : Port) (r : Request) : BoundOk (serveOpen p r s).1 := by
  unfold Machine.serveOpen
  split_ifs
  · exact h
  · exact h
  · split
    · exact h
    · rename_i k _
      have changes := openRecord_changes s k p (field2 r.payload 0)
      refine h.of_same (fun g => changes.generator g) (fun l => changes.lease l) fun j opened => ?_
      rw [State.openRecord, State.modSession_get]
      split
      · rfl
      · exact opened

/-- CLAIM gives a lease to the requester only where the line has none; otherwise it changes no more than the line's queue (R28, R30). -/
theorem BoundOk.serveClaim {s : State} (h : BoundOk s) (k : SessionId) (pl : List Byte) : BoundOk (serveClaim k pl s).1 := by
  unfold Machine.serveClaim
  split
  · rename_i l x _ _
    split
    · rename_i none
      exact h.setLease l _ (h.unbound_of_no_lease none)
    · split_ifs
      · exact h
      · exact h
      · exact h
      · exact h.setQueue l _
  · exact h

theorem BoundOk.leaveQueue {s : State} (h : BoundOk s) (k : SessionId) (l : LineId) : BoundOk (s.leaveQueue k l) :=
  h.setQueue l _

theorem BoundOk.serveWithdraw {s : State} (h : BoundOk s) (k : SessionId) (pl : List Byte) : BoundOk (serveWithdraw k pl s).1 := by
  unfold Machine.serveWithdraw
  split
  · exact h
  · split_ifs
    · exact h.leaveQueue k _
    · exact h

theorem BoundOk.releaseGenerator {s : State} (h : BoundOk s) (l : LineId) : BoundOk (s.releaseGenerator l) := by
  unfold State.releaseGenerator
  split
  · exact h
  · rename_i g _
    split_ifs
    · exact (h.of_changes (sendCadEnd_changes s g .released)).freeGenerator g
    · exact h.freeGenerator g

theorem BoundOk.clearUses {s : State} (h : BoundOk s) (k : SessionId) (l : LineId) : BoundOk (s.clearUses k l) := by
  rw [clearUses_eq]
  have left : BoundOk (s.usesLeft k l) := (h.of_changes (removeOneshotsOn_changes s k l)).releaseGenerator l
  exact left.of_changes (ChangesOnly.foldl (fun t i => stopSequence_changes t i .released) _ _)

/-- A lease ends by RELEASE on a line that is not in use, or after the forced clearing has freed its generator (R37, R39). -/
theorem BoundOk.serveRelease {s : State} (h : BoundOk s) (k : SessionId) (pl : List Byte) : BoundOk (serveRelease k pl s).1 := by
  unfold Machine.serveRelease
  split
  · rename_i l force _ _
    split_ifs with _ unused
    · exact h
    · exact h.endLease l fun g live line =>
        ne_true_of_eq_false unused ((inUse_iff s k l).mpr (.inr (.inl ⟨g, live, line⟩)))
    · exact (h.clearUses k l).endLease l (clearUses_unbound h k l)
    · exact h
  · exact h

theorem BoundOk.serveSetup {s : State} (h : BoundOk s) (k : SessionId) (pl : List Byte) : BoundOk (serveSetup k pl s).1 := by
  obtain e | ⟨l, f, -, -, -, e⟩ := serveSetup_cases k pl s
  · rw [e]; exact h
  · rw [e]; exact (h.of_changes (modLine_changes s l _)).stopBound l .overridden

theorem BoundOk.serveDrive {s : State} (h : BoundOk s) (k : SessionId) (pl : List Byte) : BoundOk (serveDrive k pl s).1 := by
  unfold Machine.serveDrive
  split
  · split_ifs
    · exact h
    · exact h
    · exact h
    · exact h.writeLine _ _
  · exact h

theorem BoundOk.serveAt {s : State} (h : BoundOk s) (k : SessionId) (pl : List Byte) : BoundOk (serveAt k pl s).1 := by
  obtain e | ⟨l, v, due, -, -, e⟩ := serveAt_cases k pl s
  · rw [e]; exact h
  · rw [e]; exact (h.of_changes (enterTimeline_changes s k due _)).takeUntil

theorem BoundOk.serveSeqStart {s : State} (h : BoundOk s) (k : SessionId) (pl : List Byte) :
    BoundOk (serveSeqStart k pl s).1 := by
  obtain e | ⟨i, start, -, -, -, e⟩ := serveSeqStart_cases k pl s
  · rw [e]; exact h
  · rw [e]; exact (h.of_changes (armSequence_changes s k i start)).takeUntil

theorem BoundOk.serveSeqStop {s : State} (h : BoundOk s) (k : SessionId) (pl : List Byte) :
    BoundOk (serveSeqStop k pl s).1 := by
  obtain e | ⟨i, -, e⟩ := serveSeqStop_cases k pl s
  · rw [e]; exact h
  · rw [e]; exact (h.of_changes (stopSequence_changes s i .stopped)).takeUntil

theorem BoundOk.serveCadSet {s : State} (h : BoundOk s) {k : SessionId} (opened : s.sessions[k].state = .opened)
    (pl : List Byte) : BoundOk (serveCadSet k pl s).1 := by
  obtain e | ⟨g, l, r, held, alone, state, owner, line, e⟩ := serveCadSet_cases k pl s
  · rw [e]; exact h
  · rw [e]; exact h.bind opened held alone state owner line

theorem BoundOk.serveCadRun {s : State} (h : BoundOk s) (k : SessionId) (pl : List Byte) : BoundOk (serveCadRun k pl s).1 := by
  obtain e | ⟨g, start, stopped, e⟩ := serveCadRun_cases k pl s
  · rw [e]; exact h
  · rw [e]; exact h.runGenerator (fun free => nomatch stopped.symm.trans free) start

theorem BoundOk.serveCadHold {s : State} (h : BoundOk s) (k : SessionId) (pl : List Byte) : BoundOk (serveCadHold k pl s).1 := by
  obtain e | ⟨g, active, e⟩ := serveCadHold_cases k pl s
  · rw [e]; exact h
  · rw [e]; exact h.restGenerator (Generator.not_free_of_active active)

theorem BoundOk.serveCadFree {s : State} (h : BoundOk s) (k : SessionId) (pl : List Byte) : BoundOk (serveCadFree k pl s).1 := by
  obtain e | ⟨g, e⟩ := serveCadFree_cases k pl s
  · rw [e]; exact h
  · rw [e]; exact h.freeGenerator g

/-- Serving a request of an OPEN session keeps the binding: the requests on generators change it, CLAIM, WITHDRAW and RELEASE change
lease records, CLOSE changes its session, SETUP, DRIVE and the requests that take due entries may stop a generator. No other type touches
any of them. -/
theorem serve_keeps_binding (t : RequestType) (p : Port) {k : SessionId} (pl : List Byte) {s : State} (h : BoundOk s)
    (hk : s.sessions[k].state = .opened) : BoundOk (t.serve p k pl s).1 := by
  cases t
  case cadSet => exact h.serveCadSet hk pl
  case cadRun => exact h.serveCadRun k pl
  case cadHold => exact h.serveCadHold k pl
  case cadFree => exact h.serveCadFree k pl
  case claim => exact h.serveClaim k pl
  case withdraw => exact h.serveWithdraw k pl
  case release => exact h.serveRelease k pl
  case closeSession => exact h.beginClosing k .closed
  case setup => exact h.serveSetup k pl
  case drive => exact h.serveDrive k pl
  case atEdge => exact h.serveAt k pl
  case seqStart => exact h.serveSeqStart k pl
  case seqStop => exact h.serveSeqStop k pl
  case openSession => exact h
  case info => exact h
  case ping => exact h
  case status => exact h
  case time => exact h
  case snapshot => exact h
  case portstat => exact h
  case pendingList => exact h
  case restart => exact h.of_changes (serveRestart_changes p k pl s)
  case read => exact h.of_changes (serveRead_changes k pl s)
  case clear => exact h.of_changes (serveClear_changes k pl s)
  case cancel => exact h.of_changes (serveCancel_changes k pl s)
  case seqNew => exact h.of_changes (serveSeqNew_changes k pl s)
  case seqAdd => exact h.of_changes (serveSeqAdd_changes k pl s)
  case seqSeal => exact h.of_changes (serveSeqSeal_changes k pl s)
  case seqQuery => exact h.of_changes (serveSeqQuery_changes k pl s)
  case seqFree => exact h.of_changes (serveSeqFree_changes k pl s)
  case watchSet => exact h.of_changes (serveWatchSet_changes k pl s)
  case watchAck => exact h.of_changes (serveWatchAck_changes k pl s)
  case watchDrop => exact h.of_changes (serveWatchDrop_changes k pl s)
  case watchRead => exact h.of_changes (serveWatchRead_changes k pl s)
  case cadRead => exact h.of_changes (serveCadRead_changes k pl s)

/-! ## Events, resets and the tick -/

theorem BoundOk.receiveByte {s : State} (h : BoundOk s) (p : Port) (b : Byte) : BoundOk (s.receiveByte p b) := by
  have changes := receiveByte_changes s p b
  exact h.of_same (fun g => changes.generator g) (fun l => changes.lease l) fun k opened =>
    (receiveByte_state s p b k).trans opened

theorem BoundOk.takeBreak {s : State} (h : BoundOk s) (p : Port) : BoundOk (s.takeBreak p) := by
  unfold State.takeBreak
  have broken := h.of_same (t := s.modPort p fun c => c.takeBreak s.tick)
    (fun g => (modPort_changes s p _).generator g) (fun l => (modPort_changes s p _).lease l) fun k opened => by
      rw [modPort_state]; exact opened
  exact BoundOk.foldl (fun _ k ht => ht.checkClosing k) _ (BoundOk.foldl (fun _ k ht => ht.beginClosing k .brk) _ broken)

theorem BoundOk.faultLine {s : State} (h : BoundOk s) (l : LineId) : BoundOk (s.faultLine l) :=
  ((h.of_changes (modLine_changes s l _)).of_changes (notifyOwner_changes _ _ _)).stopBound l .fault

/-- After a full reset every generator is FREE (R103). -/
theorem clearBlocks_generator (s : State) (g : GenId) : s.clearBlocks.generators[g] = Generator.free := by
  simp [State.clearBlocks, State.reset]

theorem startUp_bound_ok (s : State) (cause : ResetCause) (pin : Level) : BoundOk (s.startUp cause pin) := by
  have h : BoundOk { s.clearBlocks with heldInReset := false, baud := baudOf pin } := .of_free (clearBlocks_generator s)
  exact ((h.of_changes (modPort_changes _ .a _)).of_changes (modPort_changes _ .b _)).of_changes (settle_changes _)

/-- The end of a tick touches the sessions' numbering of notices alone. -/
theorem BoundOk.advance {s : State} (h : BoundOk s) : BoundOk s.advance :=
  (h.of_changes (endTick_changes s)).of_same (fun _ => rfl) (fun _ => rfl) fun k opened => by
    simpa [State.advance] using opened

/-! ## Every command and every step -/

theorem exec_keeps_binding {c : Instr} {s t : State} (h : BoundOk s) (he : exec c s = .next t) : BoundOk t :=
  exec_keeps (Pre := BoundOk) (Post := BoundOk)
    (weak := fun _ h => h)
    (frame := fun _ _ hc h => h.of_changes hc)
    (ho := fun p r _ h => h.serveOpen p r)
    (hs := fun t p _ pl _ h hk => serve_keeps_binding t p pl h hk)
    (check := fun _ k h => h.checkClosing k)
    (receive := fun _ p b h => h.receiveByte p b)
    (gap := fun s p h => (h.of_changes (setReceiver_changes s p .hunt)).of_changes (modPort_changes _ _ _))
    (brk := fun _ p h => h.takeBreak p)
    (sent := fun s p f h => h.of_changes (endTransmission_changes s p f))
    (start := fun s cause pin _ => startUp_bound_ok s cause pin)
    (clear := fun s _ => ⟨.of_free (clearBlocks_generator s), .of_free (clearBlocks_generator s)⟩)
    (edge := fun s l h => h.of_changes (senseEdge_changes s l))
    (fault := fun _ l h => h.faultLine l)
    (burst := fun s l h => h.of_changes (modLine_changes s l _))
    (taken := fun _ e h _ => h.takeEntry e)
    (expiry := fun _ l k _ h => (h.leaveQueue k l).of_changes (notify_changes _ _ _))
    (lapse := fun _ k cause h => h.enterClosing k cause)
    (begin := fun _ _ t h due => h.beginCycles (fun free => nomatch (Generator.startDue_eq_some.mp due).1.symm.trans free) t)
    (low := fun _ _ t h due => h.lowWrite (fun free => nomatch (Generator.lowDue_eq_some.mp due).1.symm.trans free) t)
    (cycle := fun _ _ t h due => h.endCycle (fun free => nomatch (Generator.endDue_eq_some.mp due).1.symm.trans free) t)
    (raw := fun s l _ h => ⟨h.of_changes (modLine_changes s l _), h.of_changes (modLine_changes s l _)⟩)
    (idle := fun s p h => h.of_changes (modPort_changes s p _))
    h he

/-- Settles O13: the invariant is kept by every command (`exec_keeps_binding`), by a request of unknown type and by the tick. -/
theorem stepKeepsBinding : Obligations.StepKeepsBinding := by
  unfold Obligations.StepKeepsBinding
  intro s t hs h
  exact step_keeps (Pre := BoundOk) (Post := BoundOk)
    (weak := fun _ h => h)
    (hp := fun _ _ h => h)
    (hx := fun _ _ _ h he => exec_keeps_binding h he)
    (hu := fun s p h => h.of_changes (takeUnknown_changes s p))
    (ha := fun _ h => h.advance)
    hs h

end Sys2Proof.Machine
end

section
/-! PROOFS. CAD.SET, CAD.RUN, CAD.HOLD and CAD.FREE (05, sections 5.2 to 5.6), and a generator's own ticks (05, section 5.3). -/

namespace Sys2Proof.Machine

set_option Elab.async false

/-! ## CAD.SET (R105, R106) -/

section
variable {pl : List Byte} {k : SessionId} {s : State}

theorem serveCadSet_badField (h : 4 ≤ field1 pl 0 ∨ 24 ≤ field1 pl 1 ∨ 3 ≤ field1 pl 12) :
    serveCadSet k pl s = (s, .plain .badField) := by
  unfold serveCadSet
  split
  · rename_i hg hl hr
    rcases h with h | h | h
    · rw [nameOf_none h] at hg; cases hg
    · rw [nameOf_none h] at hl; cases hl
    · rw [restOf_none h] at hr; cases hr
  · rfl

theorem LineCell.waveformOk_iff {c : LineCell} {period high : Nat} : c.waveformOk period high = true ↔
    2 ≤ period ∧ period ≤ 1000000 ∧ 1 ≤ high ∧ high ≤ period - 1 ∧ (c.mode = .assist → c.assist ≤ high) := by
  simp only [LineCell.waveformOk, Bool.and_eq_true, Bool.or_eq_true, decide_eq_true_eq, and_assoc, ← imp_iff_not_or]
  rfl

/-- CAD.SET's checks in their order (R105), and the record of the generator that it takes (R106). -/
theorem serveCadSet_names {g : GenId} {l : LineId} {rest : RestLevel} (hg : field1 pl 0 = g.val) (hl : field1 pl 1 = l.val)
    (hr : field1 pl 12 = rest.code) : serveCadSet k pl s =
      if ¬s.generators[g].settable k = true then (s, .plain .state)
      else if s.holder l ≠ some k then (s, .plain .notHolder)
      else if s.lines[l].fault ≠ .none then (s, .plain .lineFault)
      else if s.lines[l].mode = .input then (s, .plain .mode)
      else if ∃ h : GenId, h ≠ g ∧ s.generators[h].state ≠ .free ∧ s.generators[h].line = some l then (s, .plain .lineBound)
      else if ¬s.lines[l].waveformOk (field4 pl 2) (field4 pl 6) = true then (s, .plain .badField)
      else
        (s.modGenerator g fun _ =>
          { state := .stopped, owner := some k, line := some l, period := field4 pl 2, high := field4 pl 6,
            cycles := field2 pl 10, rest := rest, start := none, completed := 0 }, .plain .ok) := by
  simp only [serveCadSet, nameOf_of_eq hg, nameOf_of_eq hl, restOf_of_eq hr, holds_false, faulted_iff, boundElsewhere_iff,
    Bool.not_eq_true]

end

/-- A request that changes one generator's record and makes no notice. -/
theorem takeSessioned_modGenerator {s : State} {t : RequestType} {p : Port} {k : SessionId} {r : Request} {payload : List Byte}
    (serve : SessionId → List Byte → State → State × Answer) {g : GenId} {f : Generator → Generator} {a : Answer}
    (h : s.Takes p t k r payload) (hl : t.allows payload.length = true) (he : serve k payload s = (s.modGenerator g f, a)) :
    s.Answers (s.takeSessioned t p serve) p r a [.generators] [] ∧
      GeneratorBecomes s (s.takeSessioned t p serve) g (f s.generators[g]) :=
  ⟨takeSessioned_answers serve h hl he [.generators] ((modGenerator_changes s g f).mono (by decide))
      (Made.of_changes (modGenerator_changes s g f)),
    (modGenerator_becomes s g f).of_changes (takeSessioned_changes_after h hl he)⟩

/-- Settles O50: the refusals are R105's checks in their order (`serveCadSet_names`), and the accepted CAD.SET changes the one record. -/
theorem cadSetBinds : Obligations.CadSetBinds := by
  unfold Obligations.CadSetBinds
  intro s p k r pl length h
  have allowed : RequestType.cadSet.allows pl.length = true := decide_eq_true length
  have refuses : ∀ {a : Answer}, serveCadSet k pl s = (s, a) → s.OnlyReplies (s.takeSessioned .cadSet p serveCadSet) p r a :=
    fun he => takeSessioned_onlyReplies serveCadSet h allowed he
  refine ⟨_, rfl, fun bad => refuses (serveCadSet_badField bad), fun g l rest hg hl hr => ?_⟩
  intro gen line period high free other wave
  have served := serveCadSet_names (k := k) (s := s) hg hl hr
  have settable : gen.settable k = true ↔ free := Generator.settable_iff
  have waveform : line.waveformOk period high = true ↔ wave := LineCell.waveformOk_iff
  refine ⟨fun busy => refuses (served.trans (if_pos (mt settable.mp busy))), fun hf => ?_, fun hf held => ?_⟩
  · have taken := served.trans (if_neg (not_not.mpr (settable.mpr hf)))
    exact fun notHeld => refuses (taken.trans (if_pos notHeld))
  · have holds := served.trans ((if_neg (not_not.mpr (settable.mpr hf))).trans (if_neg (not_not.mpr held)))
    refine ⟨fun fault => refuses (holds.trans (if_pos fault)), fun sound input => ?_, fun sound driver => ?_⟩
    · exact refuses (holds.trans ((if_neg (not_not.mpr sound)).trans (if_pos input)))
    · have drives := holds.trans ((if_neg (not_not.mpr sound)).trans (if_neg driver))
      refine ⟨fun bound => refuses (drives.trans (if_pos bound)), fun alone bad => ?_, fun alone good => ?_⟩
      · exact refuses (drives.trans ((if_neg alone).trans (if_pos (mt waveform.mp bad))))
      · exact takeSessioned_modGenerator serveCadSet h allowed
          (drives.trans ((if_neg alone).trans (if_neg (not_not.mpr (waveform.mpr good)))))

/-! ## CAD.RUN (R107, R108) -/

theorem serveCadRun_badField {pl : List Byte} (h : 4 ≤ field1 pl 0 ∨ whenOf pl 1 = none) (k : SessionId) (s : State) :
    serveCadRun k pl s = (s, .plain .badField) := by
  unfold serveCadRun
  split
  · rename_i hg hw
    rcases h with h | h
    · rw [nameOf_none h] at hg; cases hg
    · rw [h] at hw; cases hw
  · rfl

theorem generatorFaulted_iff {s : State} {g : GenId} {l : LineId} (line : s.generators[g].line = some l) :
    s.generatorFaulted g = true ↔ s.lines[l].fault ≠ .none := by
  simp only [State.generatorFaulted, line, faulted_iff]

section
variable {pl : List Byte} {g : GenId} {w : When} {k : SessionId} {s : State}
  (hg : field1 pl 0 = g.val) (hw : whenOf pl 1 = some w)
include hg hw

theorem serveCadRun_notFound (other : s.generators[g].owner ≠ some k) : serveCadRun k pl s = (s, .plain .notFound) := by
  simp only [serveCadRun, nameOf_of_eq hg, hw, if_pos other]

theorem serveCadRun_state (own : s.generators[g].owner = some k) (busy : s.generators[g].state ≠ .stopped) :
    serveCadRun k pl s = (s, .plain .state) := by
  simp only [serveCadRun, nameOf_of_eq hg, hw, if_neg (not_not.mpr own), if_pos busy]

variable {l : LineId} (own : s.generators[g].owner = some k) (stopped : s.generators[g].state = .stopped)
  (line : s.generators[g].line = some l)
include own stopped line

theorem serveCadRun_lineFault (fault : s.lines[l].fault ≠ .none) : serveCadRun k pl s = (s, .plain .lineFault) := by
  have faulted := (generatorFaulted_iff line).mpr fault
  simp only [serveCadRun, nameOf_of_eq hg, hw, if_neg (not_not.mpr own), if_neg (not_not.mpr stopped), if_pos faulted]

variable (sound : s.lines[l].fault = .none)
include sound

theorem serveCadRun_whenStatus {x : Status} (late : whenStatus s.tick (w.start s.tick) = some x) :
    serveCadRun k pl s = (s, { status := x, data := .tick s.tick }) := by
  have unfaulted := mt (generatorFaulted_iff line).mp (not_not.mpr sound)
  simp only [serveCadRun, nameOf_of_eq hg, hw, if_neg (not_not.mpr own), if_neg (not_not.mpr stopped), if_neg unfaulted, late,
    lateAnswer]

theorem serveCadRun_accepted (timely : whenStatus s.tick (w.start s.tick) = none) :
    serveCadRun k pl s = (s.runGenerator g (w.start s.tick),
      { status := .ok, data := .cadRun (w.start s.tick) (s.runGenerator g (w.start s.tick)).generators[g].state }) := by
  have unfaulted := mt (generatorFaulted_iff line).mp (not_not.mpr sound)
  simp only [serveCadRun, nameOf_of_eq hg, hw, if_neg (not_not.mpr own), if_neg (not_not.mpr stopped), if_neg unfaulted, timely]

end

/-- A generator whose start lies ahead is PENDING, and no line is written (R108). -/
theorem runGenerator_ahead {s : State} {start : Tick} (ahead : s.tick < start) (g : GenId) : s.runGenerator g start =
    s.modGenerator g fun r => { r with state := .pending, start := some start, completed := 0 } :=
  if_pos ahead

/-- A generator that starts now is RUNNING at once, with its HIGH write (R108, R109). -/
theorem runGenerator_now {s : State} {g : GenId} {l : LineId} (line : s.generators[g].line = some l) :
    GeneratorBecomes s (s.runGenerator g s.tick) g
        { s.generators[g] with state := .running s.tick false, start := some s.tick, completed := 0 } ∧
      LineBecomes s (s.runGenerator g s.tick) l (s.lines[l].writeLevel s.tick .high) := by
  have pending := modGenerator_becomes s g fun r => { r with state := .pending, start := some s.tick, completed := 0 }
  have starts : s.runGenerator g s.tick =
      (s.modGenerator g fun r => { r with state := .pending, start := some s.tick, completed := 0 }).beginCycles g s.tick :=
    if_neg (Nat.lt_irrefl _)
  have line' := (congrArg Generator.line pending.1).trans line
  obtain ⟨runs, written⟩ := beginCycles_becomes line' s.tick
  rw [pending.1] at runs
  rw [starts]
  exact ⟨pending.trans runs, written⟩

/-- Settles O51: the refusals are `serveCadRun`'s checks, and an accepted start makes the generator PENDING (`runGenerator_ahead`) or
RUNNING with its HIGH write (`runGenerator_now`). -/
theorem cadRunStarts : Obligations.CadRunStarts := by
  unfold Obligations.CadRunStarts
  intro s p k r pl _ length h
  have allowed : RequestType.cadRun.allows pl.length = true := decide_eq_true length
  have refuses : ∀ {a : Answer}, serveCadRun k pl s = (s, a) → s.OnlyReplies (s.takeSessioned .cadRun p serveCadRun) p r a :=
    fun he => takeSessioned_onlyReplies serveCadRun h allowed he
  refine ⟨_, rfl, fun bad => refuses (serveCadRun_badField bad k s), fun g w hg hw => ?_⟩
  intro gen start
  refine ⟨fun other => refuses (serveCadRun_notFound hg hw other), fun own busy => refuses (serveCadRun_state hg hw own busy),
    fun l own stopped line => ⟨fun fault => refuses (serveCadRun_lineFault hg hw own stopped line fault), fun sound =>
      ⟨fun x late => refuses (serveCadRun_whenStatus hg hw own stopped line sound late), fun timely ahead => ?_, fun now => ?_⟩⟩⟩
  · have served := serveCadRun_accepted hg hw own stopped line sound timely
    rw [runGenerator_ahead ahead, State.modGenerator_get_same] at served
    exact takeSessioned_modGenerator serveCadRun h allowed served
  · have timely : whenStatus s.tick (w.start s.tick) = none := whenStatus_none now.ge (now.le.trans (Nat.le_add_right _ _))
    have served := serveCadRun_accepted hg hw own stopped line sound timely
    obtain ⟨runs, written⟩ := runGenerator_now line
    have changes := runGenerator_changes s g s.tick
    rw [show w.start s.tick = s.tick from now, runs.1] at served
    have after := takeSessioned_changes_after h allowed served
    rw [now]
    exact ⟨takeSessioned_answers serveCadRun h allowed served [.lines, .generators] (changes.mono (by decide))
      (Made.of_changes changes), runs.of_changes after, written.of_changes after⟩

/-! ## CAD.HOLD (R111) and CAD.FREE (R116) -/

section
variable {s : State} {k : SessionId} {pl : List Byte} {g : GenId}

theorem ownGenerator_badField (h : 4 ≤ field1 pl 0) : s.ownGenerator k pl = .error (.plain .badField) := by
  simp only [State.ownGenerator, nameOf_none h]

theorem ownGenerator_notFound (h : field1 pl 0 = g.val) (other : s.generators[g].owner ≠ some k) :
    s.ownGenerator k pl = .error (.plain .notFound) := by
  simp only [State.ownGenerator, nameOf_of_eq h, if_neg other]

theorem ownGenerator_own (h : field1 pl 0 = g.val) (own : s.generators[g].owner = some k) : s.ownGenerator k pl = .ok g := by
  simp only [State.ownGenerator, nameOf_of_eq h, if_pos own]

theorem serveCadHold_refused {a : Answer} (h : s.ownGenerator k pl = .error a) : serveCadHold k pl s = (s, a) := by
  simp only [serveCadHold, h]

theorem serveCadHold_own (h : s.ownGenerator k pl = .ok g) : serveCadHold k pl s =
    if s.generators[g].active then
      (s.restGenerator g, { status := .ok, data := .cadHold s.generators[g].completed s.tick })
    else (s, .plain .state) := by
  simp only [serveCadHold, h]

theorem serveCadFree_refused {a : Answer} (h : s.ownGenerator k pl = .error a) : serveCadFree k pl s = (s, a) := by
  simp only [serveCadFree, h]

theorem serveCadFree_own (h : s.ownGenerator k pl = .ok g) : serveCadFree k pl s =
    if s.generators[g].active then (s, .plain .state) else (s.freeGenerator g, .plain .ok) := by
  simp only [serveCadFree, h]

end

theorem Generator.not_active_of_stopped {r : Generator} (h : r.state = .stopped) : ¬r.active = true := by
  simp only [Generator.active, h, Bool.false_eq_true, not_false_eq_true]

/-- Settles O52: the refusals are those of `State.ownGenerator` and of the generator's state; HOLD applies the rest level
(`restGenerator_becomes`) and FREE changes the one record. -/
theorem cadHoldAndFree : Obligations.CadHoldAndFree := by
  unfold Obligations.CadHoldAndFree
  intro s p k r b
  refine ⟨fun _ h => ⟨_, rfl, ?_⟩, fun h => ⟨_, rfl, ?_⟩⟩
  · have refuses : ∀ {a : Answer}, serveCadHold k [b] s = (s, a) →
        s.OnlyReplies (s.takeSessioned .cadHold p serveCadHold) p r a := fun he => takeSessioned_onlyReplies _ h rfl he
    refine ⟨fun bad => refuses (serveCadHold_refused (ownGenerator_badField (pl := [b]) bad)), fun g hg => ?_⟩
    intro gen
    refine ⟨fun other => refuses (serveCadHold_refused (ownGenerator_notFound (pl := [b]) hg other)), fun own stopped => ?_,
      fun l own active line => ?_⟩
    · exact refuses ((serveCadHold_own (ownGenerator_own (pl := [b]) hg own)).trans
        (if_neg (Generator.not_active_of_stopped stopped)))
    · have served := (serveCadHold_own (ownGenerator_own (pl := [b]) hg own)).trans (if_pos active)
      have changes := restGenerator_changes s g
      have after := takeSessioned_changes_after h rfl served
      obtain ⟨stops, rests⟩ := restGenerator_becomes line
      exact ⟨takeSessioned_answers serveCadHold h rfl served [.lines, .generators] (changes.mono (by decide))
        (Made.of_changes changes), stops.of_changes after, rests.of_changes after⟩
  · have refuses : ∀ {a : Answer}, serveCadFree k [b] s = (s, a) →
        s.OnlyReplies (s.takeSessioned .cadFree p serveCadFree) p r a := fun he => takeSessioned_onlyReplies _ h rfl he
    refine ⟨fun bad => refuses (serveCadFree_refused (ownGenerator_badField (pl := [b]) bad)), fun g hg => ?_⟩
    intro gen
    refine ⟨fun other => refuses (serveCadFree_refused (ownGenerator_notFound (pl := [b]) hg other)), fun own active => ?_,
      fun own stopped => ?_⟩
    · exact refuses ((serveCadFree_own (ownGenerator_own (pl := [b]) hg own)).trans (if_pos active))
    · exact takeSessioned_modGenerator serveCadFree h rfl ((serveCadFree_own (ownGenerator_own (pl := [b]) hg own)).trans
        (if_neg (Generator.not_active_of_stopped stopped)))

/-! ## The generator's own ticks -/

theorem exec_cadStart {s : State} {g : GenId} {u : Tick} (h : s.generators[g].startDue s.tick = some u) :
    exec (.cadStart g) s = .next (s.beginCycles g u) := by
  show execCadStart g s = _
  simp only [execCadStart, h]

theorem exec_cadLowWrite {s : State} {g : GenId} {u : Tick} (h : s.generators[g].lowDue s.tick = some u) :
    exec (.cadLowWrite g) s =
      .next ((s.modGenerator g fun r => { r with state := .running u true }).ownWrite s.generators[g].line .low) := by
  show execCadLowWrite g s = _
  simp only [execCadLowWrite, h]

theorem exec_cadCycleEnd {s : State} {g : GenId} {u : Tick} (h : s.generators[g].endDue s.tick = some u) :
    exec (.cadCycleEnd g) s = .next (s.endCycle g u).settle := by
  show execCadCycleEnd g s = _
  simp only [execCadCycleEnd, h]

section
variable {s : State} {g : GenId} {l : LineId} (line : s.generators[g].line = some l)
include line

/-- The next cycle begins, with its HIGH write (R109, R110). -/
theorem nextCycle_becomes (u : Tick) :
    let t := (s.modGenerator g Generator.count).beginCycles g u
    GeneratorBecomes s t g { s.generators[g].count with state := .running u false } ∧
      LineBecomes s t l (s.lines[l].writeLevel s.tick .high) := by
  have counts := modGenerator_becomes s g Generator.count
  obtain ⟨runs, written⟩ := beginCycles_becomes ((congrArg Generator.line counts.1).trans line) u
  rw [counts.1] at runs
  exact ⟨counts.trans runs, written⟩

/-- After its last cycle the generator is STOPPED with its rest level applied, and its owner is told (R110, R118). -/
theorem lastCycle_becomes :
    let t := ((s.modGenerator g Generator.count).restGenerator g).sendCadEnd g .done
    GeneratorBecomes s t g { s.generators[g].count with state := .stopped } ∧ RestApplied s t l s.generators[g].rest ∧
      ∀ k : SessionId, s.generators[g].owner = some k →
        Made s t [(k, .cadEnd g (some l) .done s.generators[g].count.completed s.tick)] := by
  have counts := modGenerator_becomes s g Generator.count
  obtain ⟨stops, rests⟩ := restGenerator_becomes ((congrArg Generator.line counts.1).trans line)
  rw [counts.1] at stops rests
  have silent := (modGenerator_changes s g Generator.count).andThen (restGenerator_changes _ g) (parts := [.lines, .generators])
  have tells := sendCadEnd_changes ((s.modGenerator g Generator.count).restGenerator g) g .done
  refine ⟨(counts.trans stops).of_changes tells, RestApplied.of_changes (s := s) rests tells, fun k owner => ?_⟩
  refine Made.after silent ?_
  rw [State.sendCadEnd, stops.1, silent.tick]
  have owner' : s.generators[g].count.owner = some k := owner
  have line' : s.generators[g].count.line = some l := line
  rw [owner', line']
  exact made_notify _ k _

end

/-- Settles O53: the own tick that is due (`Generator.startDue_eq_some` and its like) changes the generator and its line together
(`ownWrite_becomes`); a cycle's end goes on (`nextCycle_becomes`) or was the last (`lastCycle_becomes`). -/
theorem generatorTicks : Obligations.GeneratorTicks := by
  unfold Obligations.GeneratorTicks
  intro s g l u line gen
  refine ⟨fun pending start reached => ?_, fun high reached => ?_, fun low reached => ?_⟩
  · obtain ⟨runs, written⟩ := beginCycles_becomes line u
    exact ⟨_, exec_cadStart (Generator.startDue_eq_some.mpr ⟨pending, start, reached⟩), runs, written, beginCycles_changes s g u⟩
  · obtain ⟨goesOn, written⟩ := ownWrite_becomes line (fun r => { r with state := .running u true }) .low
    exact ⟨_, exec_cadLowWrite (Generator.lowDue_eq_some.mpr ⟨high, reached⟩), goesOn, written,
      (modGenerator_changes s g _).andThen (ownWrite_changes _ _ .low)⟩
  · have changes := endCycle_changes s g u
    have settles := settle_changes (s.endCycle g u)
    refine ⟨_, exec_cadCycleEnd (Generator.endDue_eq_some.mpr ⟨low, reached⟩), ?_⟩
    intro completed last
    refine ⟨fun more => ?_, fun done => ?_⟩
    · have next := (endCycle_eq s g u).trans (if_neg more)
      obtain ⟨runs, written⟩ := nextCycle_becomes line (u + gen.period)
      have silent := (modGenerator_changes s g Generator.count).andThen (beginCycles_changes _ g (u + gen.period))
        (parts := [.lines, .generators])
      rw [← next] at runs written silent
      exact ⟨runs.of_changes settles, written.of_changes settles, makes_settle changes (Made.of_changes silent)⟩
    · have stop := (endCycle_eq s g u).trans (if_pos done)
      obtain ⟨stops, rests, told⟩ := lastCycle_becomes line
      rw [← stop] at stops rests told
      obtain ⟨keep, low, high⟩ := rests.of_changes settles
      exact ⟨stops.of_changes settles, keep, low, high, fun k owner => makes_settle changes (told k owner)⟩

end Sys2Proof.Machine
end

section
/-! PROOFS. The invariant of the watches (`WatchesOk`; R119, R121, R122, R125 to R130, R133, R138): each request and each event keeps
it, and so does every step. It reads the watch records and which sessions are OPEN, and nothing else. -/

namespace Sys2Proof.Machine

set_option Elab.async false

/-! ## What the invariant depends on -/

/-- With no watch at all there is nothing to keep in order. -/
theorem WatchesOk.of_none {s : State} (h : ∀ w : WatchId, s.watches[w] = none) : WatchesOk s := by
  have absent : ∀ {w : WatchId} {x : Watch}, s.watches[w] ≠ some x := fun {w} _ hx => nomatch (h w).symm.trans hx
  refine ⟨fun k => ?_, fun _ _ _ _ hx => absurd hx absent, fun _ _ hx => absurd hx absent⟩
  have none : (allWatches.filter fun w => decide (s.watches[w].map Watch.session = some k)) = [] :=
    List.filter_eq_nil_iff.mpr fun w _ => by rw [h w]; exact Bool.false_ne_true
  rw [none]
  exact Nat.zero_le _

/-! ## Requests -/

/-- OPEN makes a session OPEN, and takes none from that state (R141). -/
theorem WatchesOk.serveOpen {s : State} (h : WatchesOk s) (p : Port) (r : Request) : WatchesOk (serveOpen p r s).1 := by
  unfold Machine.serveOpen
  split_ifs
  · exact h
  · exact h
  · split
    · exact h
    · rename_i k _
      refine h.of_sessions (fun w => (openRecord_changes s k p _).watch w) fun j opened => ?_
      rw [State.openRecord, State.modSession_get]
      split
      · rfl
      · exact opened

theorem WatchesOk.serveAt {s : State} (h : WatchesOk s) (k : SessionId) (pl : List Byte) : WatchesOk (serveAt k pl s).1 := by
  obtain e | ⟨l, v, due, -, -, e⟩ := serveAt_cases k pl s
  · rw [e]; exact h
  · rw [e]; exact (h.of_changes (enterTimeline_changes s k due _)).takeUntil

theorem WatchesOk.serveSeqStart {s : State} (h : WatchesOk s) (k : SessionId) (pl : List Byte) :
    WatchesOk (serveSeqStart k pl s).1 := by
  obtain e | ⟨i, start, -, -, -, e⟩ := serveSeqStart_cases k pl s
  · rw [e]; exact h
  · rw [e]; exact (h.of_changes (armSequence_changes s k i start)).takeUntil

theorem WatchesOk.serveSeqStop {s : State} (h : WatchesOk s) (k : SessionId) (pl : List Byte) :
    WatchesOk (serveSeqStop k pl s).1 := by
  obtain e | ⟨i, -, e⟩ := serveSeqStop_cases k pl s
  · rw [e]; exact h
  · rw [e]; exact (h.of_changes (stopSequence_changes s i .stopped)).takeUntil

/-- Serving a request of an OPEN session keeps the watches in order: WATCH.SET, WATCH.ACK and WATCH.DROP change watch records, CLOSE
takes its session's watches away with its state, AT, SEQ.START and SEQ.STOP take due entries, which may complete a closing. No other
type touches either. -/
theorem serve_keeps_watches (t : RequestType) (p : Port) {k : SessionId} (pl : List Byte) {s : State} (h : WatchesOk s)
    (hk : s.sessions[k].state = .opened) : WatchesOk (t.serve p k pl s).1 := by
  cases t
  case watchSet => exact h.serveWatchSet hk pl
  case watchAck => exact h.serveWatchAck k pl
  case watchDrop => exact h.serveWatchDrop k pl
  case closeSession => exact h.beginClosing k .closed
  case atEdge => exact h.serveAt k pl
  case seqStart => exact h.serveSeqStart k pl
  case seqStop => exact h.serveSeqStop k pl
  case openSession => exact h
  case info => exact h
  case ping => exact h
  case status => exact h
  case time => exact h
  case snapshot => exact h
  case portstat => exact h
  case pendingList => exact h
  case restart => exact h.of_changes (serveRestart_changes p k pl s)
  case claim => exact h.of_changes (serveClaim_changes k pl s)
  case release => exact h.of_changes (serveRelease_changes k pl s)
  case withdraw => exact h.of_changes (serveWithdraw_changes k pl s)
  case setup => exact h.of_changes (serveSetup_changes k pl s)
  case drive => exact h.of_changes (serveDrive_changes k pl s)
  case read => exact h.of_changes (serveRead_changes k pl s)
  case clear => exact h.of_changes (serveClear_changes k pl s)
  case cancel => exact h.of_changes (serveCancel_changes k pl s)
  case seqNew => exact h.of_changes (serveSeqNew_changes k pl s)
  case seqAdd => exact h.of_changes (serveSeqAdd_changes k pl s)
  case seqSeal => exact h.of_changes (serveSeqSeal_changes k pl s)
  case seqQuery => exact h.of_changes (serveSeqQuery_changes k pl s)
  case seqFree => exact h.of_changes (serveSeqFree_changes k pl s)
  case watchRead => exact h.of_changes (serveWatchRead_changes k pl s)
  case cadSet => exact h.of_changes (serveCadSet_changes k pl s)
  case cadRun => exact h.of_changes (serveCadRun_changes k pl s)
  case cadHold => exact h.of_changes (serveCadHold_changes k pl s)
  case cadFree => exact h.of_changes (serveCadFree_changes k pl s)
  case cadRead => exact h.of_changes (serveCadRead_changes k pl s)

/-! ## Events, resets and the tick -/

theorem WatchesOk.receiveByte {s : State} (h : WatchesOk s) (p : Port) (b : Byte) : WatchesOk (s.receiveByte p b) :=
  h.of_sessions (fun w => (receiveByte_changes s p b).watch w) fun k opened => (receiveByte_state s p b k).trans opened

/-- After a full reset there is no watch (R119). -/
theorem clearBlocks_watch (s : State) (w : WatchId) : s.clearBlocks.watches[w] = none := by
  simp [State.clearBlocks, State.reset]

theorem startUp_watches_ok (s : State) (cause : ResetCause) (pin : Level) : WatchesOk (s.startUp cause pin) := by
  have h : WatchesOk { s.clearBlocks with heldInReset := false, baud := baudOf pin } := .of_none (clearBlocks_watch s)
  exact ((h.of_changes (modPort_changes _ .a _)).of_changes (modPort_changes _ .b _)).of_changes (settle_changes _)

/-- The end of a tick touches the sessions' numbering of notices alone. -/
theorem WatchesOk.advance {s : State} (h : WatchesOk s) : WatchesOk s.advance :=
  (h.of_changes (endTick_changes s)).of_sessions (fun _ => rfl) fun k opened => by
    simpa [State.advance] using opened

/-! ## Every command and every step -/

theorem exec_keeps_watches {c : Instr} {s t : State} (h : WatchesOk s) (he : exec c s = .next t) : WatchesOk t :=
  exec_keeps (Pre := WatchesOk) (Post := WatchesOk)
    (weak := fun _ h => h)
    (frame := fun _ _ hc h => h.of_changes hc)
    (ho := fun p r _ h => h.serveOpen p r)
    (hs := fun t p _ pl _ h hk => serve_keeps_watches t p pl h hk)
    (check := fun _ k h => h.checkClosing k)
    (receive := fun _ p b h => h.receiveByte p b)
    (gap := fun s p h => (h.of_changes (setReceiver_changes s p .hunt)).of_changes (modPort_changes _ _ _))
    (brk := fun _ p h => h.takeBreak p)
    (sent := fun s p f h => h.of_changes (endTransmission_changes s p f))
    (start := fun s cause pin _ => startUp_watches_ok s cause pin)
    (clear := fun s _ => ⟨.of_none (clearBlocks_watch s), .of_none (clearBlocks_watch s)⟩)
    (edge := fun _ l h => h.senseEdge l)
    (fault := fun s l h => h.of_changes (faultLine_changes s l))
    (burst := fun s l h => h.of_changes (modLine_changes s l _))
    (taken := fun _ e h _ => h.takeEntry e)
    (expiry := fun s l k _ h => (h.of_changes (leaveQueue_changes s k l)).of_changes (notify_changes _ _ _))
    (lapse := fun _ k cause h => h.enterClosing k cause)
    (begin := fun s g t h _ => h.of_changes (beginCycles_changes s g t))
    (low := fun s g _ h _ => (h.of_changes (modGenerator_changes s g _)).of_changes (ownWrite_changes _ _ _))
    (cycle := fun s g t h _ => h.of_changes (endCycle_changes s g t))
    (raw := fun s l _ h => ⟨h.of_changes (modLine_changes s l _), h.of_changes (modLine_changes s l _)⟩)
    (idle := fun s p h => h.of_changes (modPort_changes s p _))
    h he

/-- Settles O16: the invariant is kept by every command (`exec_keeps_watches`), by a request of unknown type and by the tick. -/
theorem stepKeepsWatches : Obligations.StepKeepsWatches := by
  unfold Obligations.StepKeepsWatches
  intro s t hs h
  exact step_keeps (Pre := WatchesOk) (Post := WatchesOk)
    (weak := fun _ h => h)
    (hp := fun _ _ h => h)
    (hx := fun _ _ _ h he => exec_keeps_watches h he)
    (hu := fun s p h => h.of_changes (takeUnknown_changes s p))
    (ha := fun _ h => h.advance)
    hs h

end Sys2Proof.Machine
end

section
/-! PROOFS. WATCH.SET, WATCH.ACK and WATCH.DROP (06, sections 6.2, 6.7 and 6.8). -/

namespace Sys2Proof.Machine

set_option Elab.async false

/-! ## A watch is put in its place (R122, R123, R134) -/

/-- Putting a record in one watch's place is a change of that watch alone. -/
theorem setWatch_watchBecomes (s : State) (w : WatchId) (x : Option Watch) : WatchBecomes s (s.setWatch w x) w x :=
  ⟨s.setWatch_get_same w x, fun _ hv => s.setWatch_get_ne x hv⟩

theorem WatchBecomes.of_changes {parts : List Part} {s u t : State} {w : WatchId} {x : Option Watch} (h : WatchBecomes s u w x)
    (hc : ChangesOnly parts u t) (hp : Part.watches ∉ parts := by decide) : WatchBecomes s t w x :=
  ⟨(hc.watch w hp).trans h.1, fun v hv => (hc.watch v hp).trans (h.2 v hv)⟩

/-- Only a LEVEL watch for the level finds it present (R123). -/
theorem WatchKind.holdsAt_iff {kind : WatchKind} {v : Level} : kind.holdsAt v = true ↔ kind = .level v := by
  cases kind <;> simp [WatchKind.holdsAt]

theorem armWatch_waits {s : State} {x : Watch} (h : x.kind ≠ .level s.lines[x.line].sensed) (w : WatchId) :
    s.armWatch w x = s.setWatch w (some x) :=
  if_neg (mt WatchKind.holdsAt_iff.mp h)

theorem armWatch_fires {s : State} {x : Watch} (h : x.kind = .level s.lines[x.line].sensed) (w : WatchId) :
    s.armWatch w x = (s.setWatch w (some (x.fired s.tick))).sendHit w x s.lines[x.line].sensed :=
  if_pos (WatchKind.holdsAt_iff.mpr h)

section
variable {s : State} {t : RequestType} {p : Port} {k : SessionId} {r : Request} {payload : List Byte}
  {serve : SessionId → List Byte → State → State × Answer} {w : WatchId} {a : Answer}
  (h : s.Takes p t k r payload) (hl : t.allows payload.length = true)
include h hl

/-- A request that puts a record in one watch's place, or takes it away, and makes no notice. -/
theorem takeSessioned_setWatch {x : Option Watch} (he : serve k payload s = (s.setWatch w x, a)) :
    s.Answers (s.takeSessioned t p serve) p r a [.watches] [] ∧ WatchBecomes s (s.takeSessioned t p serve) w x :=
  ⟨takeSessioned_answers serve h hl he [.watches] ((setWatch_changes s w x).mono (by decide))
      (Made.of_changes (setWatch_changes s w x)),
    (setWatch_watchBecomes s w x).of_changes (takeSessioned_changes_after h hl he)⟩

/-- A request that arms a watch whose level is present: the watch fires at once (R123, R134). -/
theorem takeSessioned_firesWatch {x : Watch} (he : serve k payload s = (s.armWatch w x, a))
    (present : x.kind = .level s.lines[x.line].sensed) :
    s.Answers (s.takeSessioned t p serve) p r a [.watches]
        [(x.session, .watchHit w x.line x.kind s.lines[x.line].sensed s.tick)] ∧
      WatchBecomes s (s.takeSessioned t p serve) w (some (x.fired s.tick)) := by
  have fired := setWatch_changes s w (some (x.fired s.tick))
  have told := sendHit_changes (s.setWatch w (some (x.fired s.tick))) w x s.lines[x.line].sensed
  rw [armWatch_fires present] at he
  refine ⟨takeSessioned_answers serve h hl he [.watches] (fired.andThen told) (Made.after fired (made_notify _ _ _)), ?_⟩
  exact ((setWatch_watchBecomes s w _).of_changes told).of_changes (takeSessioned_changes_after h hl he)

end

/-! ## The kind of a new watch (R121) -/

/-- A kind code that names no kind, or a parameter that the kind uses out of its range. -/
theorem watchKindOf_none {pl : List Byte} (h : field1 pl 1 = 0 ∨ 3 < field1 pl 1 ∨
    ((field1 pl 1 = 1 ∨ field1 pl 1 = 3) ∧ (field1 pl 2 = 0 ∨ 3 < field1 pl 2)) ∨ (field1 pl 1 = 2 ∧ 2 ≤ field1 pl 3) ∨
    (field1 pl 1 = 3 ∧ field2 pl 4 = 0)) : watchKindOf pl = none := by
  unfold watchKindOf
  split
  case h_1 code =>
    rw [selectOf_none (by omega)]
    rfl
  case h_2 code =>
    rw [levelOf_none (by omega)]
    rfl
  case h_3 code =>
    split
    · rename_i select
      refine if_neg fun threshold => ?_
      rw [selectOf_none (by omega)] at select
      cases select
    · rfl
  case h_4 => rfl

/-- The kind that the code names, with its parameters. -/
theorem watchKindOf_some {pl : List Byte} {e : EdgeSelect} {v : Level} {kind : WatchKind}
    (h : (field1 pl 1 = 1 ∧ field1 pl 2 = e.code ∧ kind = .edge e) ∨
      (field1 pl 1 = 2 ∧ field1 pl 3 = Level.code v ∧ kind = .level v) ∨
      (field1 pl 1 = 3 ∧ field1 pl 2 = e.code ∧ 1 ≤ field2 pl 4 ∧ kind = .count e (field2 pl 4))) :
    watchKindOf pl = some kind := by
  unfold watchKindOf
  obtain ⟨code, select, rfl⟩ | ⟨code, level, rfl⟩ | ⟨code, select, threshold, rfl⟩ := h
  · simp only [code, selectOf_of_eq select, Option.map_some]
  · simp only [code, levelOf_of_eq level, Option.map_some]
  · simp only [code, selectOf_of_eq select, if_pos threshold]

/-! ## WATCH.SET's searches (R119, R121, R122) -/

/-- Watch `w` is a watch of session `k` on line `l`. -/
def State.WatchOf (s : State) (k : SessionId) (l : LineId) (w : WatchId) : Prop :=
  ∃ x : Watch, s.watches[w] = some x ∧ x.session = k ∧ x.line = l

section
variable {s : State} {k : SessionId} {l : LineId} {w : WatchId}

theorem watchOf_of_watchOn (found : s.watchOn k l = some w) : s.WatchOf k l w := by
  have here := List.find?_some found
  split at here
  · rename_i x hx
    obtain ⟨session, line⟩ := (Bool.and_eq_true _ _).mp here
    exact ⟨x, hx, of_decide_eq_true session, of_decide_eq_true line⟩
  · cases here

theorem watchOn_ne_none (h : s.WatchOf k l w) : s.watchOn k l ≠ none := by
  obtain ⟨x, hx, session, line⟩ := h
  intro missed
  have passed := List.find?_eq_none.mp missed w (List.mem_finRange w)
  simp [-Fin.getElem_fin, hx, session, line] at passed

/-- The search for a session's watch on a line finds its one watch there. -/
theorem watchOn_some (ok : WatchesOk s) (h : s.WatchOf k l w) : s.watchOn k l = some w := by
  obtain ⟨v, found⟩ := Option.ne_none_iff_exists'.mp (watchOn_ne_none h)
  obtain ⟨x, hx, session, line⟩ := h
  obtain ⟨y, hy, session', line'⟩ := watchOf_of_watchOn found
  rw [found, ok.2.1 v w y x hy hx (session'.trans session.symm) (line'.trans line.symm)]

theorem watchOn_none (h : ∀ w : WatchId, ¬s.WatchOf k l w) : s.watchOn k l = none :=
  Option.eq_none_iff_forall_ne_some.mpr fun w found => h w (watchOf_of_watchOn found)

theorem freeWatch_none (h : 16 ≤ s.watchCount k ∨ ∀ w : WatchId, s.watches[w] ≠ none) : s.freeWatch k = none := by
  unfold State.freeWatch
  split_ifs with room
  · have full := h.resolve_left (Nat.not_le.mpr room)
    exact List.find?_eq_none.mpr fun w _ isNone => full w (Option.isNone_iff_eq_none.mp isNone)
  · rfl

theorem freeWatch_lowest (room : s.watchCount k < 16) (free : s.watches[w] = none)
    (lowest : ∀ v : WatchId, v < w → s.watches[v] ≠ none) : s.freeWatch k = some w := by
  have found : (allWatches.find? fun v => s.watches[v].isNone) = some w :=
    find?_finRange_lowest (Option.isNone_iff_eq_none.mpr free) fun v less => by
      rw [Option.isNone_eq_false_iff, Option.isSome_iff_ne_none]
      exact lowest v less
  exact (if_pos room).trans found

end

section
variable {pl : List Byte} {k : SessionId} {s : State}

theorem serveWatchSet_badField (h : 24 ≤ field1 pl 0 ∨ watchKindOf pl = none) : serveWatchSet k pl s = (s, .plain .badField) := by
  unfold serveWatchSet
  split
  · rename_i hl hk
    rcases h with h | h
    · rw [nameOf_none h] at hl; cases hl
    · rw [h] at hk; cases hk
  · rfl

variable {l : LineId} {kind : WatchKind} (hl : field1 pl 0 = l.val) (hk : watchKindOf pl = some kind)
include hl hk

theorem serveWatchSet_duplicate {w : WatchId} (mine : s.watchOn k l = some w) :
    serveWatchSet k pl s = (s, { status := .duplicate, data := .watchExists w }) := by
  simp only [serveWatchSet, nameOf_of_eq hl, hk, mine]

variable (alone : s.watchOn k l = none)
include alone

theorem serveWatchSet_full (full : s.freeWatch k = none) : serveWatchSet k pl s = (s, .plain .watchFull) := by
  simp only [serveWatchSet, nameOf_of_eq hl, hk, alone, full]

theorem serveWatchSet_makes {w : WatchId} (free : s.freeWatch k = some w) : serveWatchSet k pl s =
    (s.armWatch w (Watch.fresh k l kind), { status := .ok, data := .watchMade w s.lines[l].sensed }) := by
  simp only [serveWatchSet, nameOf_of_eq hl, hk, alone, free]

end

/-- Settles O48: the refusals are R121's checks in their order, and the new watch takes the lowest free number (`freeWatch_lowest`) and
waits, or fires at once (`takeSessioned_firesWatch`). -/
theorem watchSetMakesWatch : Obligations.WatchSetMakesWatch := by
  unfold Obligations.WatchSetMakesWatch
  intro s p k r b0 b1 b2 b3 b4 b5 ok h
  have refuses : ∀ {a : Answer}, serveWatchSet k [b0, b1, b2, b3, b4, b5] s = (s, a) →
      s.OnlyReplies (s.takeSessioned .watchSet p serveWatchSet) p r a := fun he => takeSessioned_onlyReplies _ h rfl he
  refine ⟨_, rfl, ?_⟩
  intro threshold
  refine ⟨fun bad => refuses (serveWatchSet_badField (bad.imp_right watchKindOf_none)), fun l e v kind hl known => ?_⟩
  intro mine count sensed fresh
  have hl' : field1 [b0, b1, b2, b3, b4, b5] 0 = l.val := hl
  have hk : watchKindOf [b0, b1, b2, b3, b4, b5] = some kind := watchKindOf_some known
  refine ⟨fun w here => refuses (serveWatchSet_duplicate hl' hk (watchOn_some ok here)),
    fun alone full => refuses (serveWatchSet_full hl' hk (watchOn_none alone) (freeWatch_none full)),
    fun w alone room free lowest => ?_⟩
  have served := serveWatchSet_makes hl' hk (watchOn_none alone) (freeWatch_lowest room free lowest)
  intro answer
  refine ⟨fun absent => ?_, fun present => ?_⟩
  · rw [armWatch_waits (x := Watch.fresh k l kind) absent] at served
    exact (takeSessioned_setWatch h rfl served).symm
  · exact (takeSessioned_firesWatch h rfl served present).symm

/-! ## WATCH.ACK (R133, R134) and WATCH.DROP (R137) -/

section
variable {s : State} {k : SessionId} {pl : List Byte} {w : WatchId} {x : Watch}

theorem ownWatch_badField (h : 32 ≤ field1 pl 0) : s.ownWatch k pl = .error (.plain .badField) := by
  simp only [State.ownWatch, nameOf_none h]

theorem ownWatch_absent (h : field1 pl 0 = w.val) (none : s.watches[w] = none) :
    s.ownWatch k pl = .error (.plain .notFound) := by
  simp only [State.ownWatch, nameOf_of_eq h, none]

theorem ownWatch_other (h : field1 pl 0 = w.val) (hx : s.watches[w] = some x) (other : x.session ≠ k) :
    s.ownWatch k pl = .error (.plain .notFound) := by
  simp only [State.ownWatch, nameOf_of_eq h, hx, if_neg other]

theorem ownWatch_own (h : field1 pl 0 = w.val) (hx : s.watches[w] = some x) (own : x.session = k) :
    s.ownWatch k pl = .ok (w, x) := by
  simp only [State.ownWatch, nameOf_of_eq h, hx, if_pos own]

theorem serveWatchAck_refused {a : Answer} (h : s.ownWatch k pl = .error a) : serveWatchAck k pl s = (s, a) := by
  simp only [serveWatchAck, h]

theorem serveWatchAck_armed (h : s.ownWatch k pl = .ok (w, x)) (armed : x.state = .armed) :
    serveWatchAck k pl s = (s, .plain .state) := by
  simp only [serveWatchAck, h, armed]

theorem serveWatchAck_pending (h : s.ownWatch k pl = .ok (w, x)) (pending : x.state = .pending) : serveWatchAck k pl s =
    (s.armWatch w x.acknowledged,
      { status := .ok, data := .acknowledged x s.lines[x.line].sensed (x.stateAfterAck s.lines[x.line].sensed) }) := by
  simp only [serveWatchAck, h, pending]

theorem stateAfterAck_armed {v : Level} (h : x.kind ≠ .level v) : x.stateAfterAck v = .armed :=
  if_neg (mt WatchKind.holdsAt_iff.mp h)

theorem stateAfterAck_pending {v : Level} (h : x.kind = .level v) : x.stateAfterAck v = .pending :=
  if_pos (WatchKind.holdsAt_iff.mpr h)

theorem serveWatchDrop_refused {a : Answer} (h : s.ownWatch k pl = .error a) : serveWatchDrop k pl s = (s, a) := by
  simp only [serveWatchDrop, h]

theorem serveWatchDrop_own (h : s.ownWatch k pl = .ok (w, x)) :
    serveWatchDrop k pl s = (s.setWatch w none, { status := .ok, data := .dropped x }) := by
  simp only [serveWatchDrop, h]

end

/-- Settles O49: the refusals are those of `State.ownWatch` and of an ARMED watch; an acknowledged watch waits again or fires at once
(`takeSessioned_firesWatch`), and a dropped one is removed. -/
theorem watchAckAndDrop : Obligations.WatchAckAndDrop := by
  unfold Obligations.WatchAckAndDrop
  intro s p k r b
  refine ⟨fun h => ⟨_, rfl, ?_⟩, fun h => ⟨_, rfl, ?_⟩⟩
  · have refuses : ∀ {a : Answer}, serveWatchAck k [b] s = (s, a) →
        s.OnlyReplies (s.takeSessioned .watchAck p serveWatchAck) p r a := fun he => takeSessioned_onlyReplies _ h rfl he
    refine ⟨fun bad => refuses (serveWatchAck_refused (ownWatch_badField (pl := [b]) bad)), fun w hw =>
      ⟨fun none => refuses (serveWatchAck_refused (ownWatch_absent (pl := [b]) hw none)), fun x hx =>
        ⟨fun other => refuses (serveWatchAck_refused (ownWatch_other (pl := [b]) hw hx other)), fun own armed => ?_,
          fun own pending => ?_⟩⟩⟩
    · exact refuses (serveWatchAck_armed (ownWatch_own (pl := [b]) hw hx own) armed)
    · have served := serveWatchAck_pending (ownWatch_own (pl := [b]) hw hx own) pending
      subst own
      refine ⟨fun absent => ?_, fun present => ?_⟩
      · rw [stateAfterAck_armed absent, armWatch_waits (x := x.acknowledged) absent] at served
        exact takeSessioned_setWatch h rfl served
      · rw [stateAfterAck_pending present] at served
        exact takeSessioned_firesWatch h rfl served present
  · have refuses : ∀ {a : Answer}, serveWatchDrop k [b] s = (s, a) →
        s.OnlyReplies (s.takeSessioned .watchDrop p serveWatchDrop) p r a := fun he => takeSessioned_onlyReplies _ h rfl he
    exact ⟨fun bad => refuses (serveWatchDrop_refused (ownWatch_badField (pl := [b]) bad)), fun w hw =>
      ⟨fun none => refuses (serveWatchDrop_refused (ownWatch_absent (pl := [b]) hw none)), fun x hx =>
        ⟨fun other => refuses (serveWatchDrop_refused (ownWatch_other (pl := [b]) hw hx other)), fun own =>
          takeSessioned_setWatch h rfl (serveWatchDrop_own (ownWatch_own (pl := [b]) hw hx own))⟩⟩⟩

end Sys2Proof.Machine
end

section
/-! PROOFS. The invariant of the session records and their notice queues (`SessionsOk`; R139, R141, R147, R149, R153, R155): each request
and each event keeps it, and so does every step. What the arbiters begin takes from a queue a notice of an earlier tick (log 7), so the
notices of this tick stay among the waiting ones. -/

namespace Sys2Proof.Machine

set_option Elab.async false

/-! ## One record -/

/-- One session record is in order. -/
structure Session.Ok (r : Session) : Prop where
  room : r.queue.length ≤ Config.noticePlaces
  lost : r.lost ≤ Config.max16
  joined : r.joinedNow ≤ r.queue.length
  waiting : r.state ≠ .opened → r.queue = []
  free : r.state = .free → r = Session.free
  port : r.state ≠ .free → r.port ≠ none
  cause : r.state = .closing ↔ r.cause ≠ none

theorem sessionsOk_iff {s : State} : SessionsOk s ↔ ∀ k : SessionId, (s.sessions[k]).Ok :=
  ⟨fun h k => by
    obtain ⟨room, lost, joined, waiting, free, port, cause⟩ := h k
    exact ⟨room, lost, joined, waiting, free, port, cause⟩,
  fun h k => ⟨(h k).room, (h k).lost, (h k).joined, (h k).waiting, (h k).free, (h k).port, (h k).cause⟩⟩

theorem Session.free_ok : Session.free.Ok :=
  ⟨Nat.zero_le _, Nat.zero_le _, Nat.zero_le _, fun _ => rfl, fun _ => rfl, fun h => absurd rfl h, by decide⟩

/-- A notice that joins finds room, and one that does not is counted up to 65,535 (R153 to R155). -/
theorem Session.Ok.receive {r : Session} (h : r.Ok) (b : NoticeBody) : (r.receive b).Ok := by
  by_cases opened : r.state = .opened
  · have notFree : r.state ≠ .free := by rw [opened]; decide
    unfold Session.receive
    rw [if_pos opened]
    split
    · rename_i room
      exact { h with
        room := by simpa using room
        joined := by simpa using h.joined
        waiting := fun closed => absurd opened closed
        free := fun free => absurd free notFree }
    · exact { h with
        lost := saturate_le h.lost
        waiting := fun closed => absurd opened closed
        free := fun free => absurd free notFree }
  · rw [receive_closed b opened]
    exact h

/-- The notice at the head of a queue is begun, when those of this tick are not all that wait (R168, log 7). -/
theorem Session.Ok.tail {r : Session} (h : r.Ok) (earlier : r.joinedNow < r.queue.length) :
    ({ r with queue := r.queue.tail } : Session).Ok := by
  have opened : r.state = .opened := by
    by_contra closed
    rw [h.waiting closed] at earlier
    exact absurd earlier (Nat.not_lt_zero _)
  exact { h with
    room := by have := h.room; simp only [List.length_tail]; omega
    joined := by simp only [List.length_tail]; omega
    waiting := fun closed => absurd opened closed
    free := fun free => by rw [opened] at free; cases free }

/-- The tick has ended: no waiting notice is of this tick any more. -/
def Session.aged (r : Session) : Session := { r with joinedNow := 0 }

theorem Session.Ok.aged {r : Session} (h : r.Ok) : r.aged.Ok :=
  { h with
    joined := Nat.zero_le _
    free := fun free => by rw [Session.aged, h.free free]; rfl }

/-- At the end of a tick any notice may be begun. -/
theorem Session.aged_tail_ok {r : Session} (h : r.aged.Ok) : ({ r with queue := r.queue.tail } : Session).aged.Ok := by
  cases waiting : r.queue with
  | nil =>
    have same : ({ r with queue := ([] : List Notice).tail } : Session) = r := by rw [List.tail_nil, ← waiting]
    rw [same]
    exact h
  | cons n rest =>
    have tail := h.tail (show 0 < r.queue.length by rw [waiting]; exact Nat.succ_pos _)
    rw [← waiting]
    exact tail

/-! ## The records of the state -/

theorem SessionsOk.record {s : State} (h : SessionsOk s) (k : SessionId) : (s.sessions[k]).Ok := sessionsOk_iff.mp h k

theorem SessionsOk.of_changes {parts : List Part} {s t : State} (h : SessionsOk s) (hc : ChangesOnly parts s t)
    (hs : Part.sessions ∉ parts := by decide) (hn : Part.numbers ∉ parts := by decide)
    (hq : Part.queues ∉ parts := by decide) : SessionsOk t :=
  sessionsOk_iff.mpr fun k => by rw [hc.session k hs hn hq]; exact h.record k

theorem SessionsOk.modSession {s : State} (h : SessionsOk s) (k : SessionId) {f : Session → Session}
    (hf : (s.sessions[k]).Ok → (f s.sessions[k]).Ok) : SessionsOk (s.modSession k f) :=
  sessionsOk_iff.mpr fun j => by
    rw [State.modSession_get]
    split
    · exact hf (h.record k)
    · exact h.record j

theorem SessionsOk.foldl {α : Type} {f : State → α → State} (hf : ∀ s a, SessionsOk s → SessionsOk (f s a)) (as : List α)
    {s : State} (h : SessionsOk s) : SessionsOk (as.foldl f s) := by
  induction as generalizing s with
  | nil => exact h
  | cons a as ih => exact ih (hf s a h)

/-- A part whose sessions are all FREE is in order. -/
theorem SessionsOk.of_free {s : State} (h : ∀ k : SessionId, s.sessions[k] = Session.free) : SessionsOk s :=
  sessionsOk_iff.mpr fun k => by rw [h k]; exact Session.free_ok

/-! ## The arbiters (R168, R169) -/

theorem nextFrame_notice {s : State} {late : Bool} {p : Port} {k : SessionId} {n : Notice}
    (h : s.nextFrame late p = some (.notice k n)) : s.sessions[k].offers late = true := by
  unfold State.nextFrame at h
  split at h
  · cases h
  · cases h
  · split at h
    · cases h
    · rename_i j found
      obtain ⟨m, -, e⟩ := Option.map_eq_some_iff.mp h
      cases e
      exact (nextSender_some found).2

/-- The arbiter of a port leaves a session's record, or takes the head of its queue, which it may (R168, log 7). -/
theorem arbitrate_session (s : State) (late : Bool) (p : Port) (k : SessionId) :
    (s.arbitrate late p).sessions[k] = s.sessions[k] ∨ (s.sessions[k].offers late = true ∧
      (s.arbitrate late p).sessions[k] = { s.sessions[k] with queue := s.sessions[k].queue.tail }) := by
  unfold State.arbitrate
  split
  · exact .inl rfl
  · split
    · exact .inl rfl
    · rename_i f chosen
      cases f with
      | port f => exact .inl (by simp only [State.beginFrame, State.modPort_sessions])
      | reply r => exact .inl (by simp only [State.beginFrame, State.modPort_sessions])
      | notice j n =>
        simp only [State.beginFrame, State.modPort_sessions]
        by_cases e : k = j
        · subst e
          exact .inr ⟨nextFrame_notice chosen, State.modSession_get_same _ _ _⟩
        · exact .inl (State.modSession_get_ne _ _ e)

theorem SessionsOk.arbitrate {s : State} (h : SessionsOk s) (p : Port) : SessionsOk (s.arbitrate false p) :=
  sessionsOk_iff.mpr fun k => by
    obtain same | ⟨offers, taken⟩ := arbitrate_session s false p k
    · rw [same]; exact h.record k
    · rw [taken]
      simp only [Session.offers, Bool.false_eq_true, if_false, decide_eq_true_eq] at offers
      exact (h.record k).tail offers

theorem SessionsOk.settle {s : State} (h : SessionsOk s) : SessionsOk s.settle :=
  (h.arbitrate .a).arbitrate .b

theorem arbitrate_aged_ok {s : State} (h : ∀ k : SessionId, (s.sessions[k]).aged.Ok) (late : Bool) (p : Port) (k : SessionId) :
    ((s.arbitrate late p).sessions[k]).aged.Ok := by
  obtain same | ⟨-, taken⟩ := arbitrate_session s late p k
  · rw [same]; exact h k
  · rw [taken]; exact Session.aged_tail_ok (h k)

theorem advance_session (s : State) (k : SessionId) : s.advance.sessions[k] = (s.endTick.sessions[k]).aged := by
  simp [State.advance, Session.aged]

/-- The tick's end: the arbiters may begin the notices of this tick too, and then none is of this tick (log 7). -/
theorem SessionsOk.advance {s : State} (h : SessionsOk s) : SessionsOk s.advance :=
  sessionsOk_iff.mpr fun k => by
    rw [advance_session]
    exact arbitrate_aged_ok (arbitrate_aged_ok (fun j => (h.record j).aged) true .a) true .b k

theorem SessionsOk.answer {s : State} (h : SessionsOk s) (p : Port) (r : Request) (a : Answer) : SessionsOk (s.answer p r a) :=
  h.of_changes (answer_changes s p r a)

/-! ## Notices and writes -/

theorem SessionsOk.notify {s : State} (h : SessionsOk s) (k : SessionId) (b : NoticeBody) : SessionsOk (s.notify k b) :=
  h.modSession k fun ok => ok.receive b

theorem SessionsOk.notifyOwner {s : State} (h : SessionsOk s) (o : Option SessionId) (b : NoticeBody) :
    SessionsOk (s.notifyOwner o b) := by
  cases o
  · exact h
  · exact h.notify _ b

theorem SessionsOk.stopBound {s : State} (h : SessionsOk s) (l : LineId) (cause : CadEndCause) :
    SessionsOk (s.stopBound l cause) := by
  unfold State.stopBound
  split
  · exact h
  · split
    · exact (h.of_changes (modGenerator_changes s _ _)).notifyOwner _ _
    · exact h

theorem SessionsOk.writeLine {s : State} (h : SessionsOk s) (l : LineId) (v : Level) : SessionsOk (s.writeLine l v) :=
  (h.of_changes (modLine_changes s l _)).stopBound l .overridden

/-! ## The end of leases -/

theorem SessionsOk.dropLease {s : State} (h : SessionsOk s) (l : LineId) : SessionsOk (s.dropLease l) := by
  unfold State.dropLease
  split
  · exact h
  · have unleased := h.of_changes (setLease_changes s l { s.leases[l] with lease := none })
    unfold State.partLine
    split
    · exact unleased
    · exact (unleased.of_changes (modLine_changes _ l _)).stopBound l .overridden

theorem SessionsOk.grantHead {s : State} (h : SessionsOk s) (l : LineId) : SessionsOk (s.grantHead l) := by
  unfold State.grantHead
  split
  · exact h
  · exact (h.of_changes (setLease_changes s l _)).notify _ _

theorem SessionsOk.endLease {s : State} (h : SessionsOk s) (l : LineId) : SessionsOk (s.endLease l) :=
  (h.dropLease l).grantHead l

/-! ## Runs of sequences -/

theorem SessionsOk.endRun {s : State} (h : SessionsOk s) (i : SlotId) (state : SeqState) (outcome : SeqOutcome) :
    SessionsOk (s.endRun i state outcome) :=
  ((h.of_changes (removeEntry_changes s _)).of_changes (modSlot_changes _ i _)).notifyOwner _ _

theorem SessionsOk.leaveBody {s : State} (h : SessionsOk s) (i : SlotId) (reason : SeqReason) (n : Nat) :
    SessionsOk (s.leaveBody i reason n) := by
  have left := h.of_changes (modSlot_changes s i fun r => { r with reason := reason, failed := some n })
  unfold State.leaveBody
  dsimp only
  split
  · exact left.endRun i _ _
  · exact left.of_changes (moveEntry_changes _ i _ _ _ _ _)

theorem SessionsOk.completeStep {s : State} (h : SessionsOk s) (i : SlotId) (list : StepList) (n : Nat) :
    SessionsOk (s.completeStep i list n) := by
  unfold State.completeStep
  split
  · exact h.of_changes (moveEntry_changes s i _ _ _ _ _)
  · cases list
    · exact (h.of_changes (modSlot_changes s i _)).endRun i _ _
    · exact h.endRun i _ _

theorem SessionsOk.takeBodyStep {s : State} (h : SessionsOk s) (i : SlotId) (n : Nat) : SessionsOk (s.takeBodyStep i n) := by
  have begun := h.of_changes (modSlot_changes s i fun r => { r with state := .running })
  unfold State.takeBodyStep
  dsimp only
  split
  · exact begun.of_changes (removeEntry_changes _ _)
  · split
    · split_ifs
      · exact begun.leaveBody i _ n
      · exact begun.leaveBody i _ n
      · exact (begun.writeLine _ _).completeStep i _ n
    · exact (begun.notifyOwner _ _).completeStep i _ n
    · split_ifs
      · exact begun.completeStep i _ n
      · exact begun.of_changes (moveEntry_changes _ i _ _ _ _ _)

theorem SessionsOk.takeUnwindStep {s : State} (h : SessionsOk s) (i : SlotId) (n : Nat) : SessionsOk (s.takeUnwindStep i n) := by
  unfold State.takeUnwindStep
  split
  · exact h.of_changes (removeEntry_changes s _)
  · split
    · split
      · exact (h.of_changes (modSlot_changes s i _)).completeStep i _ n
      · exact (h.writeLine _ _).completeStep i _ n
    · exact (h.notifyOwner _ _).completeStep i _ n
    · exact h.completeStep i _ n

theorem SessionsOk.stopSequence {s : State} (h : SessionsOk s) (i : SlotId) (reason : SeqReason) :
    SessionsOk (s.stopSequence i reason) :=
  h.leaveBody i reason _

/-! ## Closing a session (R147, R149, R151) -/

/-- A session that was OPEN has a port, and enters CLOSING with a cause and an empty queue. -/
theorem Session.Ok.closing {r : Session} (h : r.Ok) (opened : r.state = .opened) (cause : CloseCause) :
    ({ r with state := .closing, cause := some cause, queue := [], joinedNow := 0 } : Session).Ok where
  room := Nat.zero_le _
  lost := h.lost
  joined := Nat.le_refl _
  waiting := fun _ => rfl
  free := fun free => nomatch free
  port := fun _ => h.port (by rw [opened]; decide)
  cause := ⟨fun _ => Option.some_ne_none _, fun _ => rfl⟩

theorem SessionsOk.putAway {s : State} (h : SessionsOk s) {k : SessionId} (opened : s.sessions[k].state = .opened)
    (cause : CloseCause) : SessionsOk (s.putAway k cause) :=
  sessionsOk_iff.mpr fun j => by
    rw [putAway_session]
    split
    · exact (h.record k).closing opened cause
    · exact h.record j

theorem SessionsOk.beginClosing {s : State} (h : SessionsOk s) (k : SessionId) (cause : CloseCause) :
    SessionsOk (s.beginClosing k cause) := by
  unfold State.beginClosing
  split
  · rename_i opened
    exact SessionsOk.foldl (fun _ i ht => ht.stopSequence i .sessionEnd) _ (h.putAway opened cause)
  · exact h

theorem SessionsOk.completeClosing {s : State} (h : SessionsOk s) (k : SessionId) : SessionsOk (s.completeClosing k) := by
  unfold State.completeClosing
  refine SessionsOk.of_changes ?_ (sendEnded_changes _ k _)
  refine SessionsOk.modSession ?_ k fun _ => Session.free_ok
  refine SessionsOk.foldl (fun _ l ht => ht.grantHead l) _ ?_
  refine SessionsOk.foldl (fun _ l ht => ht.dropLease l) _ ?_
  exact h.of_changes (ChangesOnly.foldl freeSlot_changes _ s)

theorem SessionsOk.checkClosing {s : State} (h : SessionsOk s) (k : SessionId) : SessionsOk (s.checkClosing k) := by
  unfold State.checkClosing
  split
  · exact h.completeClosing k
  · exact h

theorem SessionsOk.enterClosing {s : State} (h : SessionsOk s) (k : SessionId) (cause : CloseCause) :
    SessionsOk (s.enterClosing k cause) := by
  unfold State.enterClosing
  split
  · exact (h.beginClosing k cause).checkClosing k
  · exact h

theorem SessionsOk.takeBreak {s : State} (h : SessionsOk s) (p : Port) : SessionsOk (s.takeBreak p) := by
  unfold State.takeBreak
  refine SessionsOk.foldl (fun _ k ht => ht.checkClosing k) _ ?_
  refine SessionsOk.foldl (fun _ k ht => ht.beginClosing k .brk) _ ?_
  exact h.of_changes (modPort_changes s p _)

/-! ## Entries that fall due -/

theorem SessionsOk.takeOneshot {s : State} (h : SessionsOk s) (e : Entry) (l : LineId) (v : Level) :
    SessionsOk (s.takeOneshot e l v) := by
  have removed := h.of_changes (removeEntry_changes s e.handle)
  unfold State.takeOneshot
  dsimp only
  split_ifs
  · exact removed.notify _ _
  · exact removed.notify _ _
  · exact removed.writeLine l v

theorem SessionsOk.takeStep {s : State} (h : SessionsOk s) (e : Entry) (i : SlotId) (list : StepList) (n : Nat) :
    SessionsOk (s.takeStep e i list n) := by
  cases list
  · exact (h.takeBodyStep i n).checkClosing _
  · exact (h.takeUnwindStep i n).checkClosing _

theorem SessionsOk.takeDeadline {s : State} (h : SessionsOk s) (e : Entry) (i : SlotId) (n : Nat) :
    SessionsOk (s.takeDeadline e i n) :=
  (h.leaveBody i .awaitTimeout n).checkClosing _

theorem SessionsOk.takeEntry {s : State} (h : SessionsOk s) (e : Entry) : SessionsOk (s.takeEntry e) := by
  unfold State.takeEntry
  split
  · exact h.takeOneshot e _ _
  · exact h.takeStep e _ _ _
  · exact h.takeDeadline e _ _

theorem SessionsOk.takeUntil {handle n : Nat} {s : State} (h : SessionsOk s) : SessionsOk (State.takeUntil handle n s) := by
  induction n generalizing s with
  | zero => exact h
  | succ n ih =>
    unfold State.takeUntil
    split
    · split
      · exact ih (h.takeEntry _)
      · exact h
    · exact h

/-! ## Requests -/

theorem freeSession_free {s : State} {k : SessionId} (h : s.freeSession = some k) : s.sessions[k].state = .free := by
  unfold State.freeSession at h
  simpa [-Fin.getElem_fin] using List.find?_some h

/-- What OPEN makes of a FREE record (R141). -/
def Session.opening (p : Port) (keepalive : Nat) (now : Tick) : Session :=
  { Session.free with state := .opened, port := some p, keepalive := keepalive, lastHeard := some now }

theorem openRecord_get {s : State} {k : SessionId} (h : s.sessions[k] = Session.free) (p : Port) (keepalive : Nat) :
    (s.openRecord k p keepalive).sessions[k] = Session.opening p keepalive s.tick := by
  rw [State.openRecord, State.modSession_get_same, h, Session.opening]

theorem Session.opening_ok (p : Port) (keepalive : Nat) (now : Tick) : (Session.opening p keepalive now).Ok where
  room := Nat.zero_le _
  lost := Nat.zero_le _
  joined := Nat.le_refl _
  waiting := fun _ => rfl
  free := fun c => nomatch c
  port := fun _ => Option.some_ne_none _
  cause := ⟨(nomatch ·), fun c => absurd rfl c⟩

theorem SessionsOk.serveOpen {s : State} (h : SessionsOk s) (p : Port) (r : Request) : SessionsOk (serveOpen p r s).1 := by
  unfold Machine.serveOpen
  split_ifs
  · exact h
  · exact h
  · split
    · exact h
    · rename_i k found
      have free := (h.record k).free (freeSession_free found)
      refine sessionsOk_iff.mpr fun j => ?_
      by_cases e : j = k
      · rw [e, openRecord_get free]
        exact Session.opening_ok p _ _
      · rw [State.openRecord, State.modSession_get_ne _ _ e]
        exact h.record j

theorem SessionsOk.serveSetup {s : State} (h : SessionsOk s) (k : SessionId) (pl : List Byte) :
    SessionsOk (serveSetup k pl s).1 := by
  obtain e | ⟨l, f, -, -, -, e⟩ := serveSetup_cases k pl s
  · rw [e]; exact h
  · rw [e]; exact (h.of_changes (modLine_changes s l _)).stopBound l .overridden

theorem SessionsOk.serveDrive {s : State} (h : SessionsOk s) (k : SessionId) (pl : List Byte) :
    SessionsOk (serveDrive k pl s).1 := by
  unfold Machine.serveDrive
  split
  · split_ifs
    · exact h
    · exact h
    · exact h
    · exact h.writeLine _ _
  · exact h

theorem SessionsOk.releaseGenerator {s : State} (h : SessionsOk s) (l : LineId) : SessionsOk (s.releaseGenerator l) := by
  unfold State.releaseGenerator
  split
  · exact h
  · split
    · exact SessionsOk.of_changes (h.notifyOwner _ _) (freeGenerator_changes _ _)
    · exact h.of_changes (freeGenerator_changes s _)

theorem SessionsOk.clearUses {s : State} (h : SessionsOk s) (k : SessionId) (l : LineId) : SessionsOk (s.clearUses k l) :=
  SessionsOk.foldl (fun _ i ht => ht.stopSequence i .released) _
    ((h.of_changes (removeOneshotsOn_changes s k l)).releaseGenerator l)

theorem SessionsOk.serveRelease {s : State} (h : SessionsOk s) (k : SessionId) (pl : List Byte) :
    SessionsOk (serveRelease k pl s).1 := by
  unfold Machine.serveRelease
  split
  · split_ifs
    · exact h
    · exact h.endLease _
    · exact (h.clearUses k _).endLease _
    · exact h
  · exact h

theorem SessionsOk.serveAt {s : State} (h : SessionsOk s) (k : SessionId) (pl : List Byte) : SessionsOk (serveAt k pl s).1 := by
  obtain e | ⟨l, v, due, -, -, e⟩ := serveAt_cases k pl s
  · rw [e]; exact h
  · rw [e]; exact (h.of_changes (enterTimeline_changes s k due _)).takeUntil

theorem SessionsOk.serveSeqStart {s : State} (h : SessionsOk s) (k : SessionId) (pl : List Byte) :
    SessionsOk (serveSeqStart k pl s).1 := by
  obtain e | ⟨i, start, -, -, -, e⟩ := serveSeqStart_cases k pl s
  · rw [e]; exact h
  · rw [e]; exact (h.of_changes (armSequence_changes s k i start)).takeUntil

theorem SessionsOk.serveSeqStop {s : State} (h : SessionsOk s) (k : SessionId) (pl : List Byte) :
    SessionsOk (serveSeqStop k pl s).1 := by
  obtain e | ⟨i, -, e⟩ := serveSeqStop_cases k pl s
  · rw [e]; exact h
  · rw [e]; exact (h.stopSequence i .stopped).takeUntil

theorem SessionsOk.armWatch {s : State} (h : SessionsOk s) (w : WatchId) (x : Watch) : SessionsOk (s.armWatch w x) := by
  unfold State.armWatch
  split
  · exact (h.of_changes (setWatch_changes s w _)).notify _ _
  · exact h.of_changes (setWatch_changes s w _)

theorem SessionsOk.serveWatchSet {s : State} (h : SessionsOk s) (k : SessionId) (pl : List Byte) :
    SessionsOk (serveWatchSet k pl s).1 := by
  unfold Machine.serveWatchSet
  split
  · split
    · exact h
    · split
      · exact h
      · exact h.armWatch _ _
  · exact h

theorem SessionsOk.serveWatchAck {s : State} (h : SessionsOk s) (k : SessionId) (pl : List Byte) :
    SessionsOk (serveWatchAck k pl s).1 := by
  unfold Machine.serveWatchAck
  split
  · exact h
  · split
    · exact h
    · exact h.armWatch _ _

/-- Serving a request keeps the session records in order: CLOSE and the requests that make notices, of their own or by the entries
they take, are the ones that touch them. -/
theorem serve_keeps_sessions (t : RequestType) (p : Port) (k : SessionId) (pl : List Byte) {s : State} (h : SessionsOk s) :
    SessionsOk (t.serve p k pl s).1 := by
  cases t
  case closeSession => exact h.beginClosing k .closed
  case setup => exact h.serveSetup k pl
  case drive => exact h.serveDrive k pl
  case release => exact h.serveRelease k pl
  case atEdge => exact h.serveAt k pl
  case seqStart => exact h.serveSeqStart k pl
  case seqStop => exact h.serveSeqStop k pl
  case watchSet => exact h.serveWatchSet k pl
  case watchAck => exact h.serveWatchAck k pl
  case openSession => exact h
  case info => exact h
  case ping => exact h.of_changes (servePing_changes k pl s)
  case status => exact h.of_changes (serveStatus_changes k pl s)
  case time => exact h.of_changes (serveTime_changes k pl s)
  case snapshot => exact h.of_changes (serveSnapshot_changes k pl s)
  case portstat => exact h.of_changes (servePortstat_changes k pl s)
  case restart => exact h.of_changes (serveRestart_changes p k pl s)
  case claim => exact h.of_changes (serveClaim_changes k pl s)
  case withdraw => exact h.of_changes (serveWithdraw_changes k pl s)
  case read => exact h.of_changes (serveRead_changes k pl s)
  case clear => exact h.of_changes (serveClear_changes k pl s)
  case cancel => exact h.of_changes (serveCancel_changes k pl s)
  case pendingList => exact h.of_changes (servePendingList_changes k pl s)
  case seqNew => exact h.of_changes (serveSeqNew_changes k pl s)
  case seqAdd => exact h.of_changes (serveSeqAdd_changes k pl s)
  case seqSeal => exact h.of_changes (serveSeqSeal_changes k pl s)
  case seqQuery => exact h.of_changes (serveSeqQuery_changes k pl s)
  case seqFree => exact h.of_changes (serveSeqFree_changes k pl s)
  case watchDrop => exact h.of_changes (serveWatchDrop_changes k pl s)
  case watchRead => exact h.of_changes (serveWatchRead_changes k pl s)
  case cadSet => exact h.of_changes (serveCadSet_changes k pl s)
  case cadRun => exact h.of_changes (serveCadRun_changes k pl s)
  case cadHold => exact h.of_changes (serveCadHold_changes k pl s)
  case cadFree => exact h.of_changes (serveCadFree_changes k pl s)
  case cadRead => exact h.of_changes (serveCadRead_changes k pl s)

theorem SessionsOk.takeRequest {s : State} (h : SessionsOk s) (t : RequestType) (p : Port)
    {serve : Request → State → State × Answer} (served : ∀ r, SessionsOk (serve r s).1) : SessionsOk (s.takeRequest t p serve) := by
  unfold State.takeRequest
  split
  · exact h
  · rename_i r _
    split
    · dsimp only
      split
      · exact ((served r).answer p r _).settle
      · exact (h.answer p r _).settle
    · exact h

theorem SessionsOk.takeSessioned {s : State} (h : SessionsOk s) (t : RequestType) (p : Port) :
    SessionsOk (s.takeSessioned t p (t.serve p)) :=
  h.takeRequest t p fun r => by
    split
    · exact h
    · exact serve_keeps_sessions t p _ _ h

theorem SessionsOk.takeClose {s : State} (h : SessionsOk s) (p : Port) : SessionsOk (s.takeClose p) := by
  have taken : SessionsOk (s.takeSessioned .closeSession p serveClose) := h.takeSessioned .closeSession p
  unfold State.takeClose
  dsimp only
  split
  · exact taken
  · exact taken.checkClosing _

theorem SessionsOk.takeUnknown {s : State} (h : SessionsOk s) (p : Port) : SessionsOk (s.takeUnknown p) := by
  unfold State.takeUnknown
  split
  · exact h
  · split
    · exact (h.answer p _ _).settle
    · exact h

/-! ## Bytes received (R142) -/

/-- A request refreshes its OPEN session. -/
theorem SessionsOk.refresh {s : State} (h : SessionsOk s) (p : Port) (r : Request) : SessionsOk (s.refresh p r) := by
  unfold State.refresh
  split
  · exact h
  · rename_i k speaks
    have opened := (speaker_opened speaks).1
    exact h.modSession k fun ok => { ok with free := fun free => by rw [opened] at free; cases free }

theorem SessionsOk.judgeFrame {s : State} (h : SessionsOk s) (p : Port) (body : List Byte) (crc : Nat) :
    SessionsOk (s.judgeFrame p body crc) := by
  unfold State.judgeFrame State.acceptRequest
  split_ifs
  · exact h.of_changes (modPort_changes s p _)
  · exact (h.refresh p _).of_changes (modPort_changes _ p _)
  · exact h.of_changes (modPort_changes s p _)
  · exact h

theorem SessionsOk.receiveByte {s : State} (h : SessionsOk s) (p : Port) (b : Byte) : SessionsOk (s.receiveByte p b) := by
  have received : ∀ r : Receiver, SessionsOk (s.setReceiver p r) := fun r => h.of_changes (setReceiver_changes s p r)
  unfold State.receiveByte
  split
  · split
    · exact received _
    · exact h
  · split
    · exact received _
    · exact (received _).of_changes (modPort_changes _ p _)
  · split <;> exact received _
  · exact received _
  · exact (received _).judgeFrame p _ _

/-! ## Events and resets -/

theorem clearBlocks_sessions_ok (s : State) : SessionsOk s.clearBlocks :=
  .of_free fun k => by simp [State.clearBlocks, State.reset]

theorem startUp_sessions_ok (s : State) (cause : ResetCause) (pin : Level) : SessionsOk (s.startUp cause pin) := by
  have cleared : SessionsOk { s.clearBlocks with heldInReset := false, baud := baudOf pin } := clearBlocks_sessions_ok s
  exact ((cleared.of_changes (modPort_changes _ .a _)).of_changes (modPort_changes _ .b _)).settle

theorem SessionsOk.offerEdge {s : State} (h : SessionsOk s) (l : LineId) (v : Level) (w : WatchId) :
    SessionsOk (s.offerEdge l v w) := by
  unfold State.offerEdge
  split
  · exact h
  · dsimp only
    split_ifs
    · exact (h.of_changes (setWatch_changes s w _)).notify _ _
    · exact h.of_changes (setWatch_changes s w _)
    · exact h

theorem SessionsOk.offerAwait {s : State} (h : SessionsOk s) (l : LineId) (v : Level) (i : SlotId) :
    SessionsOk (s.offerAwait l v i) := by
  unfold State.offerAwait
  split
  · split
    · exact h.completeStep i _ _
    · exact h
  · exact h

theorem SessionsOk.senseEdge {s : State} (h : SessionsOk s) (l : LineId) : SessionsOk (s.senseEdge l) := by
  unfold State.senseEdge
  exact SessionsOk.foldl (fun _ i ht => ht.offerAwait l _ i) _
    (SessionsOk.foldl (fun _ w ht => ht.offerEdge l _ w) _ (h.of_changes (modLine_changes s l _)))

theorem SessionsOk.faultLine {s : State} (h : SessionsOk s) (l : LineId) : SessionsOk (s.faultLine l) :=
  ((h.of_changes (modLine_changes s l _)).notifyOwner _ _).stopBound l .fault

theorem SessionsOk.endCycle {s : State} (h : SessionsOk s) (g : GenId) (t : Tick) : SessionsOk (s.endCycle g t) := by
  have counted := h.of_changes (modGenerator_changes s g fun r => { r with completed := saturate Config.max32 r.completed })
  unfold State.endCycle
  dsimp only
  split
  · exact (counted.of_changes (restGenerator_changes _ g)).notifyOwner _ _
  · exact counted.of_changes (beginCycles_changes _ g _)

/-! ## Every command and every step -/

/-- Every request command keeps the session records in order. -/
theorem request_keeps_sessions {s u : State} (t : RequestType) (p : Port) (h : SessionsOk s)
    (he : exec (t.command p) s = .next u) : SessionsOk u := by
  by_cases isOpen : t = .openSession
  · subst isOpen; cases he; exact h.takeRequest .openSession p fun r => h.serveOpen p r
  · by_cases isInfo : t = .info
    · subst isInfo; cases he; exact h.takeRequest .info p fun _ => h
    · by_cases isClose : t = .closeSession
      · subst isClose; cases he; exact h.takeClose p
      · rw [exec_command t p s isOpen isInfo isClose] at he
        cases he
        exact h.takeSessioned t p

/-- The commands of due entries keep the session records in order: each takes the Timeline's first entry when that is due and of its
kind (R52). -/
theorem dueEntry_keeps_sessions {s t : State} {c : Instr} (h : SessionsOk s)
    (due : c = .oneshotDue ∨ c = .stepDue ∨ c = .deadlineDue) (he : exec c s = .next t) : SessionsOk t := by
  rcases due with rfl | rfl | rfl
  · cases he
    split
    · exact h
    · split
      · exact (h.takeOneshot _ _ _).settle
      · exact h
      · exact h
  · cases he
    split
    · exact h
    · split
      · exact h
      · exact (h.takeStep _ _ _ _).settle
      · exact h
  · cases he
    split
    · exact h
    · split
      · exact h
      · exact h
      · exact (h.takeDeadline _ _ _).settle

/-- Every command keeps the session records in order. An event touches none, or it makes notices, closes sessions or clears the
part, and then the arbiters choose. -/
theorem exec_keeps_sessions {c : Instr} {s t : State} (h : SessionsOk s) (he : exec c s = .next t) : SessionsOk t := by
  rcases request_or_event c with ⟨ty, p, rfl⟩ | isEvent
  · exact request_keeps_sessions ty p h he
  · cases c <;> first | exact absurd isEvent id | skip
    case oneshotDue => exact dueEntry_keeps_sessions h (.inl rfl) he
    case stepDue => exact dueEntry_keeps_sessions h (.inr (.inl rfl)) he
    case deadlineDue => exact dueEntry_keeps_sessions h (.inr (.inr rfl)) he
    case frameReceived p bytes =>
      cases he
      split
      · exact h
      · exact SessionsOk.foldl (fun _ b ht => ht.receiveByte p b) bytes h
    case gapTimeout p =>
      cases he
      split
      · exact (h.of_changes (setReceiver_changes s p .hunt)).of_changes (modPort_changes _ p _)
      · exact h
    case breakLine p =>
      cases he
      split
      · exact h
      · exact (h.takeBreak p).settle
    case frameSent p pin =>
      cases he
      split
      · exact h
      · split_ifs
        · exact h
        · exact startUp_sessions_ok s .restart pin
        · exact (h.of_changes (endTransmission_changes s p _)).settle
    case powerUp pin =>
      cases he
      split
      · exact clearBlocks_sessions_ok s
      · exact startUp_sessions_ok s .power pin
    case nrstAssert => cases he; exact clearBlocks_sessions_ok s
    case nrstRelease pin =>
      cases he
      split
      · exact startUp_sessions_ok s .pin pin
      · exact h
    case sensedEdge l =>
      cases he
      split
      · exact (h.senseEdge l).settle
      · exact h
    case contentionFault l =>
      cases he
      split
      · exact (h.faultLine l).settle
      · exact h
    case assistBurstEnd l =>
      cases he
      split
      · exact h.of_changes (modLine_changes s l _)
      · exact h
    case claimExpiry l k =>
      cases he
      split
      · exact h
      · exact ((h.of_changes (leaveQueue_changes s k l)).notify k _).settle
    case keepaliveLapse k =>
      cases he
      split
      · exact (h.enterClosing k .lapsed).settle
      · exact h
    case cadStart g =>
      cases he
      split
      · exact h.of_changes (beginCycles_changes s g _)
      · exact h
    case cadLowWrite g =>
      cases he
      split
      · exact (h.of_changes (modGenerator_changes s g _)).of_changes (ownWrite_changes _ _ _)
      · exact h
    case cadCycleEnd g =>
      cases he
      split
      · exact (h.endCycle g _).settle
      · exact h
    case rawLevelChange l v =>
      cases he
      split <;> exact h.of_changes (modLine_changes s l _)
    case rxIdle p =>
      cases he
      split
      · exact h
      · exact h.of_changes (modPort_changes s p _)

/-- Settles O11: the invariant is kept by every command (`exec_keeps_sessions`), by a request of unknown type and by the tick
(`SessionsOk.advance`). -/
theorem stepKeepsSessions : Obligations.StepKeepsSessions := by
  unfold Obligations.StepKeepsSessions
  intro s t hs h
  exact step_keeps (Pre := SessionsOk) (Post := SessionsOk)
    (weak := fun _ h => h)
    (hp := fun _ _ h => h)
    (hx := fun _ _ _ h he => exec_keeps_sessions h he)
    (hu := fun _ p h => h.takeUnknown p)
    (ha := fun _ h => h.advance)
    hs h

end Sys2Proof.Machine
end

section
/-! PROOFS. A notice that is made for a session (07, section 7.6), and the requests that report: PING, STATUS, INFO and PORTSTAT (07,
sections 7.3 and 7.4; 08, section 8.8). -/

namespace Sys2Proof.Machine

set_option Elab.async false

/-! ## A notice (R154, R155, R157) -/

theorem receive_joins {r : Session} (b : NoticeBody) (opened : r.state = .opened) (room : r.queue.length < 32) :
    r.receive b = { r with queue := r.queue ++ [⟨r.nextNumber, r.lost, b⟩], nextNumber := r.nextNumber + 1,
                           joinedNow := r.joinedNow + 1 } := by
  rw [Session.receive, if_pos opened, if_pos (show r.queue.length < Config.noticePlaces from room)]

theorem receive_dropped {r : Session} (b : NoticeBody) (opened : r.state = .opened) (full : 32 ≤ r.queue.length) :
    r.receive b = { r with nextNumber := r.nextNumber + 1, lost := if r.lost < 65535 then r.lost + 1 else r.lost } := by
  rw [Session.receive, if_pos opened, if_neg (show ¬r.queue.length < Config.noticePlaces from Nat.not_lt.mpr full)]
  rfl

/-- Settles O60: the session's record receives the notice (`receive_joins`, `receive_dropped`, `receive_closed`), and no other record
changes. -/
theorem noticeJoinsQueue : Obligations.NoticeJoinsQueue := by
  unfold Obligations.NoticeJoinsQueue
  intro s k body old new
  have received : new = old.receive body := State.modSession_get_same s k _
  exact ⟨fun opened room => received.trans (receive_joins body opened room),
    fun opened full => received.trans (receive_dropped body opened full),
    fun closed => received.trans (receive_closed body closed),
    fun j hj => State.modSession_get_ne s _ hj, notify_changes s k body⟩

/-! ## The reports (R144, R145, R172, R173) -/

/-- A request that needs no session, of an allowed length. -/
theorem takeRequest_serves {s : State} {t : RequestType} {p : Port} {r : Request} (serve : Request → State → State × Answer)
    (h : s.takeable p = some r) (ht : r.type = t.code) (hl : t.allows r.payload.length = true) :
    s.takeRequest t p serve = ((serve r s).1.answer p r (serve r s).2).settle := by
  rw [takeRequest_eq serve h ht, if_pos hl]

/-- Such a request that is answered and does nothing else. -/
theorem takeRequest_onlyReplies {s : State} {t : RequestType} {p : Port} {r : Request} {a : Answer}
    (serve : Request → State → State × Answer) (h : s.takeable p = some r) (ht : r.type = t.code)
    (hl : t.allows r.payload.length = true) (he : serve r s = (s, a)) : s.OnlyReplies (s.takeRequest t p serve) p r a := by
  rw [takeRequest_serves serve h ht hl, he]
  exact settle_settled _

/-- The bytes of INFO: the part's constants and limits, with the rate (R173). -/
theorem info_bytes (baud : Baud) : (ReplyData.info baud).bytes = fields [(2, 0x4A43), (2, 0x2410), (1, 0x42),
    (4, if baud = .b115200 then 115200 else 1000000), (1, 24), (1, 16), (1, 4), (1, 32), (1, 3), (1, 64), (1, 16),
    (2, 256), (1, 32), (1, 8), (1, 8), (1, 32), (1, 16), (1, 4), (1, 4), (1, 120)] := by
  cases baud <;> rfl

/-- Settles O21: each request is served by its report, which leaves the state. -/
theorem sessionAndPortReports : Obligations.SessionAndPortReports := by
  unfold Obligations.SessionAndPortReports
  intro s p k r
  refine ⟨fun ping => ⟨_, rfl, takeSessioned_onlyReplies servePing ping rfl rfl⟩, fun status => ?_, fun next type empty => ?_,
    fun portstat => ?_⟩
  · exact ⟨_, s.statusReport k, rfl, takeSessioned_onlyReplies serveStatus status rfl rfl, rfl, rfl, rfl, rfl, rfl, rfl, rfl, rfl,
      rfl⟩
  · exact ⟨_, rfl, takeRequest_onlyReplies serveInfo next type (by rw [empty]; rfl) rfl, info_bytes s.baud⟩
  · refine ⟨_, s.portReport .a, s.portReport .b, rfl, takeSessioned_onlyReplies servePortstat portstat rfl rfl, ?_⟩
    rintro x q (⟨rfl, rfl⟩ | ⟨rfl, rfl⟩) <;> exact ⟨rfl, rfl, rfl, rfl, rfl, rfl, rfl⟩

end Sys2Proof.Machine
end

section
/-! PROOFS. OPEN (07, section 7.2), CLOSE and the lapse of a keepalive (07, sections 7.3 and 7.5). -/

namespace Sys2Proof.Machine

set_option Elab.async false

/-! ## OPEN (R141) -/

theorem keepaliveOk_iff {n : Nat} : keepaliveOk n = true ↔ n = 0 ∨ (10 ≤ n ∧ n ≤ 60000) := by
  simp only [keepaliveOk, Bool.or_eq_true, Bool.and_eq_true, decide_eq_true_eq]

section
variable {s : State} {p : Port} {r : Request}

theorem serveOpen_badField (bad : r.session ≠ 0 ∨ keepaliveOk (field2 r.payload 0) = false) :
    serveOpen p r s = (s, .plain .badField) := by
  unfold serveOpen
  split_ifs with session interval
  · rfl
  · rfl
  · exact absurd bad (not_or.mpr ⟨session, interval⟩)

theorem serveOpen_full (session : r.session = 0) (interval : keepaliveOk (field2 r.payload 0) = true)
    (full : s.freeSession = none) : serveOpen p r s = (s, .plain .sessionFull) := by
  simp only [serveOpen, session, interval, full, ne_eq, not_true_eq_false, Bool.true_eq_false, if_false]

theorem serveOpen_opens {k : SessionId} (session : r.session = 0) (interval : keepaliveOk (field2 r.payload 0) = true)
    (free : s.freeSession = some k) : serveOpen p r s = (s.openRecord k p (field2 r.payload 0),
      { status := .ok, data := .opened k p (field2 r.payload 0) s.tick }) := by
  simp only [serveOpen, session, interval, free, ne_eq, not_true_eq_false, Bool.true_eq_false, if_false]

end

theorem freeSession_none {s : State} (full : ∀ k : SessionId, s.sessions[k].state ≠ .free) : s.freeSession = none :=
  List.find?_eq_none.mpr fun k _ free => full k (of_decide_eq_true free)

theorem freeSession_lowest {s : State} {k : SessionId} (free : s.sessions[k].state = .free)
    (lowest : ∀ j : SessionId, j < k → s.sessions[j].state ≠ .free) : s.freeSession = some k :=
  find?_finRange_lowest (decide_eq_true free) fun j less => decide_eq_false (lowest j less)

/-- The arbiters find nothing to begin in an empty queue (R168). -/
theorem Settled.queue_nil {s t : State} (h : Settled s t) {k : SessionId} (empty : s.sessions[k].queue = []) :
    t.sessions[k].queue = [] := by
  cases bound : s.sessions[k].port with
  | none => rw [h.2.2 k bound, empty]
  | some p =>
    rcases h.2.1 p with ⟨-, same⟩ | ⟨-, ⟨_, _, -, -, same⟩ | ⟨_, -, -, same⟩ | ⟨j, n, rest, -, waiting, -, -, others⟩⟩
    · rw [same k bound, empty]
    · rw [same k bound, empty]
    · rw [same k bound, empty]
    · have ne : k ≠ j := by
        rintro rfl
        rw [empty] at waiting
        cases waiting
      rw [others k ne bound, empty]

/-- What the arbiters begin leaves a session with no notice waiting as it is. -/
theorem Settled.session_of_empty {s t : State} (h : Settled s t) {k : SessionId} (empty : s.sessions[k].queue = []) :
    t.sessions[k] = s.sessions[k] := by
  obtain ⟨state, port, keepalive, heard, cause⟩ := h.changes .sessions (by decide) k
  obtain ⟨number, lost, joined⟩ := h.changes .numbers (by decide) k
  have queue := (h.queue_nil empty).trans empty.symm
  cases ht : t.sessions[k]
  cases hs : s.sessions[k]
  simp_all

/-- Settles O17: the refusals and the new record are those of `serveOpen`, the search finds the lowest FREE record
(`freeSession_lowest`), and the arbiters have no notice of it to begin (`Settled.session_of_empty`). -/
theorem openMakesSession : Obligations.OpenMakesSession := by
  unfold Obligations.OpenMakesSession
  intro s p r b0 b1 ok next type payload
  have length : RequestType.openSession.allows r.payload.length = true := by rw [payload]; rfl
  have taken := takeRequest_serves (serveOpen p) next (t := .openSession) type length
  refine ⟨_, exec_open p s, ?_⟩
  intro keep inRange
  have field : field2 r.payload 0 = keep := by rw [payload]; rfl
  have interval : keepaliveOk (field2 r.payload 0) = true ↔ inRange := by rw [field]; exact keepaliveOk_iff
  have refuses : ∀ {a : Answer}, serveOpen p r s = (s, a) →
      s.OnlyReplies (s.takeRequest .openSession p (serveOpen p)) p r a :=
    fun he => takeRequest_onlyReplies _ next type length he
  refine ⟨fun bad => refuses (serveOpen_badField (bad.imp_right fun out => eq_false_of_ne_true (mt interval.mp out))),
    fun session range full => refuses (serveOpen_full session (interval.mpr range) (freeSession_none full)),
    fun k session range free lowest => ?_⟩
  rw [taken, serveOpen_opens session (interval.mpr range) (freeSession_lowest free lowest), field]
  have changes := openRecord_changes s k p keep
  have settled := settle_settled ((s.openRecord k p keep).answer p r { status := .ok, data := .opened k p keep s.tick })
  have record := openRecord_get ((ok.record k).free free) p keep
  have answered : ∀ j : SessionId, ((s.openRecord k p keep).answer p r
      { status := .ok, data := .opened k p keep s.tick }).sessions[j] = (s.openRecord k p keep).sessions[j] :=
    fun j => (answer_changes _ p r _).session j
  refine ⟨⟨_, changes.mono (by decide), Made.of_changes changes, settled⟩, ?_, fun j hj => ?_⟩
  · rw [settled.session_of_empty (by rw [answered, record]; rfl), answered, record]
    rfl
  · have same := settled.changes .sessions (by decide) j
    rw [answered, State.openRecord, State.modSession_get_ne _ _ hj] at same
    exact same

/-! ## CLOSE (R146, R148) -/

/-- An idle transmitter with no port frame begins the reply of the ANSWERED slot (R168). -/
theorem arbitrate_begins_reply {s : State} {p : Port} {reply : Reply} (idle : (s.port p).transmitter = none)
    (noFrame : (s.port p).frames = []) (ready : answeredReply (s.port p).inbound = some reply) (late : Bool) :
    ((s.arbitrate late p).port p).transmitter = some { frame := .reply reply, begun := s.tick } := by
  have chosen : s.nextFrame late p = some (.reply reply) := by simp only [State.nextFrame, noFrame, ready]
  simp only [State.arbitrate, idle, chosen, State.beginFrame, State.modPort_port_same]

theorem settle_begins_reply {s : State} {p : Port} {reply : Reply} (idle : (s.port p).transmitter = none)
    (noFrame : (s.port p).frames = []) (ready : answeredReply (s.port p).inbound = some reply) :
    (s.settle.port p).transmitter = some { frame := .reply reply, begun := s.tick } := by
  cases p with
  | a =>
    rw [State.settle, arbitrate_port_ne _ false (p := .b) (q := .a) (by decide)]
    exact arbitrate_begins_reply idle noFrame ready false
  | b =>
    have same : (s.arbitrate false .a).port .b = s.port .b := arbitrate_port_ne _ _ (by decide)
    have begun := arbitrate_begins_reply (s := s.arbitrate false .a) (p := .b) (reply := reply) (by rw [same]; exact idle)
      (by rw [same]; exact noFrame) (by rw [same]; exact ready) false
    rw [(arbitrate_changes s false .a).tick] at begun
    exact begun

/-- The reply to a request is begun at once on an idle transmitter with no port frame, where what served the request left the sending
side (R165, R168). -/
theorem answer_begun {parts : List Part} {s u : State} {p : Port} {r : Request} (next : s.takeable p = some r)
    (hu : ChangesOnly parts s u) (idle : (s.port p).transmitter = none) (noFrame : (s.port p).frames = []) (a : Answer)
    (hs : Part.sending ∉ parts := by decide) (hf : Part.frames ∉ parts := by decide) (hc : Part.clock ∉ parts := by decide) :
    ((u.answer p r a).settle.port p).transmitter = some { frame := .reply (a.reply r s.tick), begun := s.tick } := by
  obtain ⟨-, -, unanswered, waits⟩ := takeable_some next
  obtain ⟨inbound, transmitter, -⟩ := hu .sending hs p
  have ready : answeredReply ((u.answer p r a).port p).inbound = some (a.reply r u.tick) := by
    simp only [State.answer, State.modPort_port_same, inbound]
    exact answeredReply_answerOldest _ waits unanswered
  have begun := settle_begins_reply (s := u.answer p r a) (by simp only [State.answer, State.modPort_port_same, transmitter, idle])
    (by simp only [State.answer, State.modPort_port_same, hu .frames hf p, noFrame]) ready
  rw [(answer_changes u p r a).tick, hu.tick hc] at begun
  exact begun

/-- A session that has entered CLOSING is CLOSING still, on its port and with its cause, after changes of other parts. -/
theorem State.Enters.closing {parts : List Part} {s u v : State} {k : SessionId} {cause : CloseCause} (h : s.Enters u k cause)
    (hc : ChangesOnly parts u v) (hs : Part.sessions ∉ parts := by decide) :
    v.sessions[k].state = .closing ∧ v.sessions[k].port = s.sessions[k].port ∧ v.sessions[k].cause = some cause := by
  obtain ⟨state, port, -, -, why⟩ := hc .sessions hs k
  rw [h.1] at state port why
  exact ⟨state, port, why⟩

/-- Step 7 of R148 for a session that has just entered CLOSING. -/
theorem State.Enters.checks {parts : List Part} {s u v : State} {p : Port} {k : SessionId} {cause : CloseCause}
    (h : s.Enters u k cause) (hc : ChangesOnly parts u v) (hb : BoundOk v) (bound : s.sessions[k].port = some p)
    (hs : Part.sessions ∉ parts := by decide) : v.Checks (v.checkClosing k) p k cause := by
  obtain ⟨closing, port, why⟩ := h.closing hc hs
  exact checkClosing_checks hb closing (port.trans bound) why

/-! ## The lapse of a keepalive (R143) -/

theorem exec_lapse (k : SessionId) (s : State) : exec (.keepaliveLapse k) s =
    .next (if s.sessions[k].lapseDue s.tick = true then (s.enterClosing k .lapsed).settle else s) := rfl

theorem lapseDue_iff {r : Session} {now heard : Tick} (h : r.lastHeard = some heard) :
    r.lapseDue now = true ↔ r.state = .opened ∧ r.keepalive ≠ 0 ∧ heard + r.keepalive * 1000 ≤ now := by
  by_cases zero : r.keepalive = 0
  · simp [Session.lapseDue, Session.lapseTick, zero]
  · simp [Session.lapseDue, Session.lapseTick, zero, h]

/-- Settles O18: CLOSE and a lapse enter CLOSING (`beginClosing_enters`) and then check for the completion (`State.Enters.checks`), CLOSE
after the choice of the arbiters, which on an idle transmitter begins the reply (`settle_begins_reply`). -/
theorem closeAndLapseEndSession : Obligations.CloseAndLapseEndSession := by
  unfold Obligations.CloseAndLapseEndSession
  intro s hb ht hr
  refine ⟨fun p k r takes => ?_, fun p k heard bound last => ⟨fun opened interval passed => ?_, fun early => ?_⟩⟩
  · obtain ⟨next, -, -, speaks⟩ := id takes
    obtain ⟨opened, bound⟩ := speaker_opened speaks
    have enters := beginClosing_enters ht hr opened .closed
    have settled := settle_settled ((s.beginClosing k .closed).answer p r (.plain .ok))
    have changes := answer_settle_changes (s.beginClosing k .closed) p r (.plain .ok)
    have bindings := (hb.beginClosing k .closed).of_changes changes
    refine ⟨_, _, _, by rw [exec_close, takeClose_eq takes], enters, settled, enters.checks changes bindings bound,
      fun idle noFrame => ?_⟩
    have begun := answer_begun next (beginClosing_changes s k .closed) idle noFrame (.plain .ok)
    exact ((checkClosing_changes _ k) .sending (by decide) p).2.1.trans begun
  · have enters := beginClosing_enters ht hr opened .lapsed
    have due := (lapseDue_iff last).mpr ⟨opened, interval, passed⟩
    refine ⟨_, s.beginClosing k .lapsed, (s.beginClosing k .lapsed).checkClosing k, ?_, enters,
      enters.checks (.refl [] _) (hb.beginClosing k .lapsed) bound, settle_settled _⟩
    rw [exec_lapse, if_pos due, State.enterClosing, if_pos opened]
  · rw [exec_lapse, if_neg fun due => ?_]
    obtain ⟨opened, interval, passed⟩ := (lapseDue_iff last).mp due
    rcases early with closed | zero | before
    · exact closed opened
    · exact interval zero
    · exact absurd passed (Nat.not_le.mpr before)

end Sys2Proof.Machine
end

section
/-! PROOFS. The two invariants of the ports (08, sections 8.3, 8.4 and 8.6): a transmitter is idle only where its port has nothing to
send but notices of this tick (`WorkConserving`), and the inbound slots are in order (`InboundOk`). A command that makes a frame pending
or a transmitter idle ends with the arbiters' choice, which gives the first (`settle_workConserving`); the one exception is step 7 of
R148 in a CLOSE, whose port is sending (log 32). -/

namespace Sys2Proof.Machine

set_option Elab.async false

/-! ## Inbound slots -/

theorem InboundOk.of_changes {parts : List Part} {s t : State} (h : InboundOk s) (hc : ChangesOnly parts s t)
    (hs : Part.sending ∉ parts := by decide) : InboundOk t := fun p => by
  rw [(hc .sending hs p).1]
  exact h p

/-- A reply that is begun is no longer ANSWERED; the arbiters touch no other slot. -/
theorem InboundOk.settled {s t : State} (h : InboundOk s) (hs : Settled s t) : InboundOk t := fun p => by
  obtain ⟨room, answered⟩ := h p
  rcases hs.2.1 p with ⟨same, -⟩ | ⟨-, ⟨_, _, -, begun, -⟩ | ⟨_, -, begun, -⟩ | ⟨_, _, _, -, -, begun, -, -⟩⟩
  · rw [same]; exact ⟨room, answered⟩
  · rw [begun]; exact ⟨room, answered⟩
  · rw [begun]
    refine ⟨by rw [length_markSending]; exact room, ?_⟩
    rw [answeredCount_markSending]
    exact (Nat.sub_le _ 1).trans answered
  · rw [begun]; exact ⟨room, answered⟩

/-- An update of one port that keeps its slots in order. -/
theorem InboundOk.modPort {s : State} (h : InboundOk s) (p : Port) {f : PortCell → PortCell}
    (hf : (f (s.port p)).inbound.length ≤ Config.inboundPlaces ∧ answeredCount (f (s.port p)).inbound ≤ 1) :
    InboundOk (s.modPort p f) := fun q => by
  rw [State.modPort_port]
  split
  · exact hf
  · exact h q

/-- A port takes a request only while none of its slots is ANSWERED, so the reply is the one ANSWERED slot (R165). -/
theorem InboundOk.answer {parts : List Part} {s u : State} {p : Port} {r : Request} (h : InboundOk s)
    (next : s.takeable p = some r) (hu : ChangesOnly parts s u) (a : Answer) (hs : Part.sending ∉ parts := by decide) :
    InboundOk (u.answer p r a) := by
  obtain ⟨-, -, unanswered, -⟩ := takeable_some next
  refine (h.of_changes hu hs).modPort p ?_
  rw [(hu .sending hs p).1]
  refine ⟨by rw [length_answerOldest]; exact (h p).1, ?_⟩
  have none : answeredCount (s.port p).inbound = 0 := answeredCount_eq_zero.mpr unanswered
  exact (answeredCount_answerOldest _ _).trans (by rw [none])

theorem answeredReply_append_waiting (slots : List InboundSlot) (r : Request) :
    answeredReply (slots ++ [.waiting r]) = answeredReply slots := by
  induction slots with
  | nil => rfl
  | cons x xs ih => cases x <;> simp only [List.cons_append, answeredReply, ih]

theorem answeredCount_append_waiting (slots : List InboundSlot) (r : Request) :
    answeredCount (slots ++ [.waiting r]) = answeredCount slots := by
  simp [answeredCount]

/-! ## Notices and writes leave an idle port nothing to send -/

theorem WorkConserving.of_changes {parts : List Part} {s t : State} (h : WorkConserving s) (hc : ChangesOnly parts s t)
    (port : ∀ k : SessionId, t.sessions[k].port = s.sessions[k].port) (hn : Part.numbers ∉ parts := by decide)
    (hq : Part.queues ∉ parts := by decide) (hf : Part.frames ∉ parts := by decide)
    (hs : Part.sending ∉ parts := by decide) : WorkConserving t := fun p idle => by
  obtain ⟨inbound, transmitter, -⟩ := hc .sending hs p
  obtain ⟨frames, answered, waiting⟩ := h p (transmitter ▸ idle)
  refine ⟨(hc .frames hf p).trans frames, by rw [inbound]; exact answered, fun k bound => ?_⟩
  rw [hc .queues hq k, (hc .numbers hn k).2.2]
  exact waiting k (port k ▸ bound)

theorem ChangesOnly.sessionPort {parts : List Part} {s t : State} (hc : ChangesOnly parts s t)
    (hs : Part.sessions ∉ parts := by decide) (k : SessionId) : t.sessions[k].port = s.sessions[k].port :=
  (hc .sessions hs k).2.1

/-- An update of one session's record that leaves it unbound, or leaves its port and no more notices of earlier ticks. -/
theorem WorkConserving.modSession {s : State} (h : WorkConserving s) (k : SessionId) {f : Session → Session}
    (hf : (f s.sessions[k]).port = none ∨ ((f s.sessions[k]).port = s.sessions[k].port ∧
      (s.sessions[k].queue.length ≤ s.sessions[k].joinedNow →
        (f s.sessions[k]).queue.length ≤ (f s.sessions[k]).joinedNow))) : WorkConserving (s.modSession k f) := fun p idle => by
  rw [State.modSession_port] at idle ⊢
  obtain ⟨frames, answered, waiting⟩ := h p idle
  refine ⟨frames, answered, fun j bound => ?_⟩
  rw [State.modSession_get] at bound ⊢
  split_ifs at bound ⊢
  · rcases hf with unbound | ⟨port, kept⟩
    · rw [unbound] at bound; cases bound
    · exact kept (waiting k (port ▸ bound))
  · exact waiting j bound

/-- A notice that joins is of this tick (log 7). -/
theorem receive_joined {r : Session} (b : NoticeBody) (h : r.queue.length ≤ r.joinedNow) :
    (r.receive b).queue.length ≤ (r.receive b).joinedNow := by
  unfold Session.receive
  split
  · split
    · simpa using h
    · exact h
  · exact h

theorem WorkConserving.notify {s : State} (h : WorkConserving s) (k : SessionId) (b : NoticeBody) :
    WorkConserving (s.notify k b) :=
  h.modSession k (.inr ⟨(receive_sessions _ b).2.1, receive_joined b⟩)

theorem WorkConserving.stopBound {s : State} (h : WorkConserving s) (l : LineId) (cause : CadEndCause) :
    WorkConserving (s.stopBound l cause) := by
  unfold State.stopBound
  split
  · exact h
  · rename_i g _
    split
    · have stopped := modGenerator_changes s g Generator.stop
      have kept := h.of_changes stopped stopped.sessionPort
      unfold State.sendCadEnd State.notifyOwner
      split
      · exact kept.notify _ _
      · exact kept
    · exact h

/-! ## The end of leases and of a closing -/

theorem WorkConserving.dropLease {s : State} (h : WorkConserving s) (l : LineId) : WorkConserving (s.dropLease l) := by
  unfold State.dropLease
  split
  · exact h
  · have dropped := setLease_changes s l { s.leases[l] with lease := none }
    have unleased := h.of_changes dropped dropped.sessionPort
    unfold State.partLine
    split
    · exact unleased
    · have written := modLine_changes (s.setLease l { s.leases[l] with lease := none }) l
      exact (unleased.of_changes (written _) (written _).sessionPort).stopBound l .overridden

theorem WorkConserving.grantHead {s : State} (h : WorkConserving s) (l : LineId) : WorkConserving (s.grantHead l) := by
  unfold State.grantHead
  split
  · exact h
  · have granted := setLease_changes s l
    exact (h.of_changes (granted _) (granted _).sessionPort).notify _ _

theorem WorkConserving.foldl {α : Type} {f : State → α → State} (hf : ∀ s a, WorkConserving s → WorkConserving (f s a))
    (as : List α) {s : State} (h : WorkConserving s) : WorkConserving (as.foldl f s) := by
  induction as generalizing s with
  | nil => exact h
  | cons a as ih => exact ih (hf s a h)

/-- An ENDED frame joins the port frames of a port that is sending (R152, R168). -/
theorem WorkConserving.sendEnded {s : State} (h : WorkConserving s) (k : SessionId) {r : Session}
    (busy : ∀ p : Port, r.port = some p → (s.port p).transmitter ≠ none) : WorkConserving (s.sendEnded k r) := by
  unfold State.sendEnded
  split
  · rename_i p cause bound _
    intro q idle
    rw [State.addPortFrame, State.modPort_port] at idle ⊢
    rw [State.modPort_sessions]
    split_ifs at idle ⊢
    · exact absurd idle (busy p bound)
    · exact h q idle
  · exact h

/-- The closing of a session whose port is sending completes. -/
theorem WorkConserving.completeClosing {s : State} (h : WorkConserving s) (k : SessionId)
    (busy : ∀ p : Port, s.sessions[k].port = some p → (s.port p).transmitter ≠ none) : WorkConserving (s.completeClosing k) := by
  have freed := ChangesOnly.foldl freeSlot_changes (s.slotsOf k) s
  have released := endLeasesOf_changes ((s.slotsOf k).foldl State.freeSlot s) k
  have ended : WorkConserving (((s.slotsOf k).foldl State.freeSlot s).endLeasesOf k) :=
    WorkConserving.foldl (fun _ l ht => ht.grantHead l) _
      (WorkConserving.foldl (fun _ l ht => ht.dropLease l) _ (h.of_changes freed freed.sessionPort))
  unfold State.completeClosing
  refine (ended.modSession k (f := fun _ => Session.free) (.inl rfl)).sendEnded k fun p bound => ?_
  rw [State.modSession_port, released.port p, freed.port p]
  exact busy p bound

theorem WorkConserving.checkClosing {s : State} (h : WorkConserving s) (k : SessionId)
    (busy : ∀ p : Port, s.sessions[k].port = some p → (s.port p).transmitter ≠ none) : WorkConserving (s.checkClosing k) := by
  unfold State.checkClosing
  split
  · exact h.completeClosing k busy
  · exact h

/-! ## Both invariants at once -/

/-- From `s` to `t` both invariants of the ports are kept, each from its own premise. -/
def KeepsPorts (s t : State) : Prop :=
  (WorkConserving s → WorkConserving t) ∧ (InboundOk s → InboundOk t)

theorem KeepsPorts.refl (s : State) : KeepsPorts s s := ⟨id, id⟩

theorem KeepsPorts.trans {s t u : State} (h : KeepsPorts s t) (h' : KeepsPorts t u) : KeepsPorts s u :=
  ⟨h'.1 ∘ h.1, h'.2 ∘ h.2⟩

theorem KeepsPorts.foldl {α : Type} {f : State → α → State} (hf : ∀ s a, KeepsPorts s (f s a)) (as : List α) (s : State) :
    KeepsPorts s (as.foldl f s) := by
  induction as generalizing s with
  | nil => exact .refl s
  | cons a as ih => exact (hf s a).trans (ih (f s a))

/-- A command that ends with the arbiters' choice needs only to keep the inbound slots in order. -/
theorem KeepsPorts.settle {s u : State} (h : InboundOk s → InboundOk u) : KeepsPorts s u.settle :=
  ⟨fun _ => settle_workConserving u, fun hs => (h hs).settled (settle_settled u)⟩

/-- The same with a command that leaves the slots. -/
theorem KeepsPorts.settle_of_changes {parts : List Part} {s u : State} (hc : ChangesOnly parts s u)
    (hs : Part.sending ∉ parts := by decide) : KeepsPorts s u.settle :=
  .settle fun h => h.of_changes hc hs

theorem KeepsPorts.of_changes {parts : List Part} {s t : State} (hc : ChangesOnly parts s t)
    (hi : Part.sessions ∉ parts := by decide) (hn : Part.numbers ∉ parts := by decide)
    (hq : Part.queues ∉ parts := by decide) (hf : Part.frames ∉ parts := by decide)
    (hs : Part.sending ∉ parts := by decide) : KeepsPorts s t :=
  ⟨fun h => h.of_changes hc (hc.sessionPort hi) hn hq hf hs, fun h => h.of_changes hc hs⟩

/-! ## Requests -/

theorem takeRequest_keepsPorts {parts : List Part} (s : State) (t : RequestType) (p : Port)
    {serve : Request → State → State × Answer} (hserve : ∀ r, ChangesOnly parts s (serve r s).1)
    (hs : Part.sending ∉ parts := by decide) : KeepsPorts s (s.takeRequest t p serve) := by
  unfold State.takeRequest
  split
  · exact .refl s
  · rename_i r next
    split
    · dsimp only
      split
      · exact .settle fun h => h.answer next (hserve r) _ hs
      · exact .settle fun h => h.answer next (.refl [] s) _
    · exact .refl s

theorem takeSessioned_keepsPorts (s : State) (t : RequestType) (p : Port) :
    KeepsPorts s (s.takeSessioned t p (t.serve p)) :=
  takeRequest_keepsPorts (parts := requestParts) s t p fun r => by
    split
    · exact .refl _ s
    · exact serve_changes t p _ _ s

theorem takeUnknown_keepsPorts (s : State) (p : Port) : KeepsPorts s (s.takeUnknown p) := by
  unfold State.takeUnknown
  split
  · exact .refl s
  · rename_i r next
    split
    · exact .settle fun h => h.answer next (.refl [] s) _
    · exact .refl s

/-- Where the request that a port takes next is of another type, the command does not occur (log 3). -/
theorem takeRequest_other {s : State} {t : RequestType} {p : Port} {r : Request} (serve : Request → State → State × Answer)
    (next : s.takeable p = some r) (other : r.type ≠ t.code) : s.takeRequest t p serve = s := by
  simp only [State.takeRequest, next, if_neg other]

/-- A CLOSE command whose CLOSE is not accepted has no step 7 of R148: the session, if the request names one, is OPEN still. -/
theorem takeClose_cases (s : State) (p : Port) : s.takeClose p = s.takeSessioned .closeSession p serveClose ∨
    ∃ (k : SessionId) (r : Request), s.Takes p .closeSession k r [] := by
  unfold State.takeClose
  dsimp only
  split
  · exact .inl rfl
  · rename_i k speaks
    obtain ⟨r, next, names⟩ := Option.bind_eq_some_iff.mp speaks
    have opened := (speaker_opened names).1
    by_cases type : r.type = RequestType.closeSession.code
    · by_cases allowed : RequestType.closeSession.allows r.payload.length = true
      · exact .inr ⟨k, r, next, type, List.length_eq_zero_iff.mp (of_decide_eq_true allowed), names⟩
      · refine .inl (checkClosing_open ?_)
        rw [State.takeSessioned, takeRequest_eq _ next type, if_neg allowed,
          ((answer_settle_changes s p r (.plain .badLength)) .sessions (by decide) k).1, opened]
        decide
    · refine .inl (checkClosing_open ?_)
      rw [State.takeSessioned, takeRequest_other _ next type, opened]
      decide

/-- A port that has just answered a request is sending (R168). -/
theorem answer_settle_busy {parts : List Part} {s u : State} {p : Port} {r : Request} (next : s.takeable p = some r)
    (hu : ChangesOnly parts s u) (a : Answer) (hs : Part.sending ∉ parts := by decide) :
    ((u.answer p r a).settle.port p).transmitter ≠ none := fun idle => by
  have unanswered := (settle_workConserving (u.answer p r a) p idle).2.1
  rcases answer_replied next parts hu (settle_settled (u.answer p r a)) hs with waits | begun
  · rw [unanswered] at waits; cases waits
  · rw [idle] at begun; cases begun

theorem beginClosing_sessionPort (s : State) (k j : SessionId) (cause : CloseCause) :
    (s.beginClosing k cause).sessions[j].port = s.sessions[j].port := by
  unfold State.beginClosing
  split
  · rw [(stopBodies_changes _ k).sessionPort, putAway_session]
    split
    · rename_i same; rw [same]
    · rfl
  · rfl

theorem takeClose_keepsPorts (s : State) (p : Port) : KeepsPorts s (s.takeClose p) := by
  have taken : KeepsPorts s (s.takeSessioned .closeSession p serveClose) := takeSessioned_keepsPorts s .closeSession p
  obtain refused | ⟨k, r, takes⟩ := takeClose_cases s p
  · rw [refused]; exact taken
  · rw [takeClose_eq takes]
    rw [takeSessioned_eq serveClose takes rfl] at taken
    obtain ⟨next, -, -, names⟩ := takes
    have begun := beginClosing_changes s k .closed
    have answered := answer_settle_changes (s.beginClosing k .closed) p r (.plain .ok)
    have port : ((s.beginClosing k .closed).answer p r (.plain .ok)).settle.sessions[k].port = some p := by
      rw [answered.sessionPort, beginClosing_sessionPort, (speaker_opened names).2]
    refine taken.trans ⟨fun h => h.checkClosing k fun q bound => ?_, fun h => h.of_changes (checkClosing_changes _ k)⟩
    obtain rfl : p = q := Option.some.inj (port.symm.trans bound)
    exact answer_settle_busy next begun _

/-! ## Bytes received (R164) -/

theorem refresh_sessionPort (s : State) (p : Port) (r : Request) (k : SessionId) :
    (s.refresh p r).sessions[k].port = s.sessions[k].port := by
  unfold State.refresh
  split
  · rfl
  · rw [State.modSession_get]
    split
    · rename_i same; rw [same]
    · rfl

/-- A request that finds a free slot is WAITING there. -/
theorem acceptRequest_keepsPorts (s : State) (p : Port) (r : Request) : KeepsPorts s (s.acceptRequest p r) := by
  unfold State.acceptRequest
  split
  · rename_i room
    have refreshed := refresh_changes s p r
    have same : (s.refresh p r).port p = s.port p := refreshed.port p
    refine ⟨fun h => ?_, fun h => (h.of_changes refreshed).modPort p ?_⟩
    · have kept := h.of_changes refreshed (refresh_sessionPort s p r)
      intro q idle
      rw [State.modPort_port] at idle ⊢
      rw [State.modPort_sessions]
      split_ifs at idle ⊢ with mine
      · subst mine
        obtain ⟨frames, answered, waiting⟩ := kept q idle
        exact ⟨frames, (answeredReply_append_waiting _ r).trans answered, waiting⟩
      · exact kept q idle
    · rw [same, answeredCount_append_waiting, List.length_append]
      exact ⟨room, (h p).2⟩
  · exact .of_changes (modPort_changes_reception s p _ (by simp))

theorem receiveByte_keepsPorts (s : State) (p : Port) (b : Byte) : KeepsPorts s (s.receiveByte p b) := by
  have received : ∀ r : Receiver, KeepsPorts s (s.setReceiver p r) := fun r => .of_changes (setReceiver_changes s p r)
  have counted : ∀ (u : State) (f : PortCell → PortCell), (∀ c, (f c).inbound = c.inbound ∧ (f c).frames = c.frames ∧
      (f c).transmitter = c.transmitter ∧ (f c).roundRobin = c.roundRobin) → KeepsPorts u (u.modPort p f) :=
    fun u f same => .of_changes (modPort_changes_reception u p f same)
  unfold State.receiveByte
  split
  · split
    · exact received _
    · exact .refl s
  · split
    · exact received _
    · exact (received _).trans (counted _ _ (by simp))
  · split <;> exact received _
  · exact received _
  · refine (received .hunt).trans ?_
    unfold State.judgeFrame
    split_ifs
    · exact counted _ _ (by simp)
    · exact acceptRequest_keepsPorts _ p _
    · exact .refl _

/-! ## Resets, breaks and the end of a transmission -/

theorem clearBlocks_port (s : State) (p : Port) : s.clearBlocks.port p = PortCell.reset none := by
  cases p <;> rfl

theorem clearBlocks_session (s : State) (k : SessionId) : s.clearBlocks.sessions[k] = Session.free := by
  simp [State.clearBlocks, State.reset]

/-- A part whose ports and sessions are cleared has nothing to send. -/
theorem KeepsPorts.of_cleared {s t : State} (port : ∀ p : Port, t.port p = PortCell.reset none)
    (session : ∀ k : SessionId, t.sessions[k] = Session.free) : KeepsPorts s t := by
  refine ⟨fun _ p _ => ?_, fun _ p => ?_⟩
  · rw [port]
    exact ⟨rfl, rfl, fun k bound => by rw [session] at bound; cases bound⟩
  · rw [port]
    exact ⟨Nat.zero_le _, Nat.zero_le _⟩

theorem startUp_keepsPorts (s : State) (cause : ResetCause) (pin : Level) : KeepsPorts s (s.startUp cause pin) := by
  have cleared : InboundOk { s.clearBlocks with heldInReset := false, baud := baudOf pin } := fun p => by
    cases p <;> exact ⟨Nat.zero_le _, Nat.zero_le _⟩
  exact .settle fun _ => (cleared.modPort .a (cleared .a)).modPort .b (by
    rw [State.modPort_port_ne _ _ (show Port.b ≠ .a by decide)]; exact cleared .b)

/-- A break empties the slots of its port, and what follows it leaves them. -/
theorem takeBreak_keepsInbound {s : State} (h : InboundOk s) (p : Port) : InboundOk (s.takeBreak p) := by
  have broken : InboundOk (s.modPort p fun c => c.takeBreak s.tick) := h.modPort p ⟨Nat.zero_le _, Nat.zero_le _⟩
  have entered := ChangesOnly.foldl (fun t k => beginClosing_changes t k .brk) (s.sessionsOn p)
    (s.modPort p fun c => c.takeBreak s.tick)
  exact (broken.of_changes entered).of_changes (ChangesOnly.foldl checkClosing_changes _ _)

/-- The end of a transmission can free a slot, and empties none that is ANSWERED. -/
theorem endTransmission_keepsInbound {s : State} (h : InboundOk s) (p : Port) (f : TxFrame) :
    InboundOk (s.modPort p (PortCell.endTransmission f)) := by
  obtain ⟨room, answered⟩ := h p
  refine h.modPort p ?_
  cases f with
  | reply r => exact ⟨(length_freeSending _).trans room, (answeredCount_freeSending _).le.trans answered⟩
  | notice k n => exact ⟨room, answered⟩
  | port f => exact ⟨room, answered⟩

/-! ## Every command and every step -/

theorem request_keepsPorts {s t : State} (type : RequestType) (p : Port) (he : exec (type.command p) s = .next t) :
    KeepsPorts s t := by
  by_cases isOpen : type = .openSession
  · subst isOpen; cases he; exact takeRequest_keepsPorts s .openSession p fun r => serveOpen_changes p r s
  · by_cases isInfo : type = .info
    · subst isInfo; cases he; exact takeRequest_keepsPorts s .info p fun r => serveInfo_changes r s
    · by_cases isClose : type = .closeSession
      · subst isClose; cases he; exact takeClose_keepsPorts s p
      · rw [exec_command type p s isOpen isInfo isClose] at he
        cases he
        exact takeSessioned_keepsPorts s type p

/-- A due entry that is taken leaves the slots, and then the arbiters choose. -/
theorem dueEntry_keepsPorts {s t : State} {c : Instr} (due : c = .oneshotDue ∨ c = .stepDue ∨ c = .deadlineDue)
    (he : exec c s = .next t) : KeepsPorts s t := by
  rcases due with rfl | rfl | rfl
  · cases he
    split
    · exact .refl s
    · split
      · exact .settle_of_changes (takeOneshot_changes s _ _ _)
      · exact .refl s
      · exact .refl s
  · cases he
    split
    · exact .refl s
    · split
      · exact .refl s
      · exact .settle_of_changes (takeStep_changes s _ _ _ _)
      · exact .refl s
  · cases he
    split
    · exact .refl s
    · split
      · exact .refl s
      · exact .refl s
      · exact .settle_of_changes (takeDeadline_changes s _ _ _)

/-- Every command keeps both invariants: it touches neither notices nor what the ports send, or it ends with the arbiters' choice, or
it clears the part. -/
theorem exec_keepsPorts {c : Instr} {s t : State} (he : exec c s = .next t) : KeepsPorts s t := by
  rcases request_or_event c with ⟨type, p, rfl⟩ | isEvent
  · exact request_keepsPorts type p he
  · cases c <;> first | exact absurd isEvent id | skip
    case oneshotDue => exact dueEntry_keepsPorts (.inl rfl) he
    case stepDue => exact dueEntry_keepsPorts (.inr (.inl rfl)) he
    case deadlineDue => exact dueEntry_keepsPorts (.inr (.inr rfl)) he
    case frameReceived p bytes =>
      cases he
      split
      · exact .refl s
      · exact .foldl (fun u b => receiveByte_keepsPorts u p b) bytes s
    case gapTimeout p =>
      cases he
      split
      · exact (KeepsPorts.of_changes (setReceiver_changes s p .hunt)).trans
          (.of_changes (modPort_changes_reception _ p _ (by simp)))
      · exact .refl s
    case breakLine p =>
      cases he
      split
      · exact .refl s
      · exact .settle fun h => takeBreak_keepsInbound h p
    case frameSent p pin =>
      cases he
      split
      · exact .refl s
      · split_ifs
        · exact .refl s
        · exact startUp_keepsPorts s .restart pin
        · exact .settle fun h => endTransmission_keepsInbound h p _
    case powerUp pin =>
      cases he
      split
      · exact .of_cleared (clearBlocks_port s) (clearBlocks_session s)
      · exact startUp_keepsPorts s .power pin
    case nrstAssert =>
      cases he
      exact .of_cleared (fun p => by cases p <;> rfl) (clearBlocks_session s)
    case nrstRelease pin =>
      cases he
      split
      · exact startUp_keepsPorts s .pin pin
      · exact .refl s
    case sensedEdge l =>
      cases he
      split
      · exact .settle_of_changes (senseEdge_changes s l)
      · exact .refl s
    case contentionFault l =>
      cases he
      split
      · exact .settle_of_changes (faultLine_changes s l)
      · exact .refl s
    case assistBurstEnd l =>
      cases he
      split
      · exact .of_changes (modLine_changes s l _)
      · exact .refl s
    case claimExpiry l k =>
      cases he
      split
      · exact .refl s
      · exact .settle_of_changes ((leaveQueue_changes s k l).andThen (notify_changes _ k _)
          (parts := [.leases, .numbers, .queues]))
    case keepaliveLapse k =>
      cases he
      split
      · exact .settle_of_changes (enterClosing_changes s k .lapsed)
      · exact .refl s
    case cadStart g =>
      cases he
      split
      · exact .of_changes (beginCycles_changes s g _)
      · exact .refl s
    case cadLowWrite g =>
      cases he
      split
      · exact (KeepsPorts.of_changes (modGenerator_changes s g _)).trans (.of_changes (ownWrite_changes _ _ _))
      · exact .refl s
    case cadCycleEnd g =>
      cases he
      split
      · exact .settle_of_changes (endCycle_changes s g _)
      · exact .refl s
    case rawLevelChange l v =>
      cases he
      split <;> exact .of_changes (modLine_changes s l _)
    case rxIdle p =>
      cases he
      split
      · exact .refl s
      · exact .of_changes (modPort_changes_reception s p _ (by simp))

/-- At the tick's end the arbiters choose among all notices, so that an idle port has none, and none is of the new tick (log 7). -/
theorem advance_keepsPorts (s : State) : KeepsPorts s s.advance := by
  have port : ∀ p : Port, s.advance.port p = s.endTick.port p := fun p => by cases p <;> rfl
  refine ⟨fun _ p idle => ?_, fun h p => ?_⟩
  · rw [port] at idle ⊢
    obtain ⟨frames, answered, waiting⟩ := arbitrate_both_conserve s true idle
    refine ⟨frames, answered, fun k bound => ?_⟩
    rw [advance_session] at bound ⊢
    have empty : s.endTick.sessions[k].queue = [] := by
      rcases waiting k bound with empty | withheld
      · exact empty
      · simpa [Session.offers, State.endTick] using withheld
    simp [Session.aged, -Fin.getElem_fin, empty]
  · rw [port]
    exact h.settled (endTick_settled s) p

/-- Settles O10: every command, a request of unknown type and the tick keep both invariants (`exec_keepsPorts`,
`takeUnknown_keepsPorts`, `advance_keepsPorts`). -/
theorem stepKeepsPorts : Obligations.StepKeepsPorts := by
  unfold Obligations.StepKeepsPorts
  intro s t h
  exact ⟨fun hs => step_keeps (Pre := WorkConserving) (Post := WorkConserving)
      (weak := fun _ h => h)
      (hp := fun _ _ h => h)
      (hx := fun _ _ _ h he => (exec_keepsPorts he).1 h)
      (hu := fun s p h => (takeUnknown_keepsPorts s p).1 h)
      (ha := fun s h => (advance_keepsPorts s).1 h)
      hs h,
    fun hs => step_keeps (Pre := InboundOk) (Post := InboundOk)
      (weak := fun _ h => h)
      (hp := fun _ _ h => h)
      (hx := fun _ _ _ h he => (exec_keepsPorts he).2 h)
      (hu := fun s p h => (takeUnknown_keepsPorts s p).2 h)
      (ha := fun s h => (advance_keepsPorts s).2 h)
      hs h⟩

end Sys2Proof.Machine
end

section
/-! PROOFS. Requests and their replies (08, sections 8.3 to 8.5): what serves a request accepts it, or refuses it and leaves the state;
every request that a port takes is answered at that tick; and RESTART (08, section 8.8). -/

namespace Sys2Proof.Machine

set_option Elab.async false

/-! ## A refusal leaves the state (R16, R73, R166) -/

/-- What serves a request accepts it, with a status code below 0x10, or leaves the state `s` as it is. -/
def AcceptsOrLeaves (s : State) (out : State × Answer) : Prop :=
  out.2.status.code < 0x10 ∨ out.1 = s

namespace AcceptsOrLeaves
variable {s t : State} {a : Answer}

theorem accepts {status : Status} {data : ReplyData} (h : status.code < 0x10 := by decide) :
    AcceptsOrLeaves s (t, { status := status, data := data }) := .inl h

theorem leaves (a : Answer) : AcceptsOrLeaves s (s, a) := .inr rfl

/-- A check of a request: where it fails, the request is refused. -/
theorem check {c : Prop} [Decidable c] {out : State × Answer} (h : AcceptsOrLeaves s out) :
    AcceptsOrLeaves s (if c then (s, a) else out) := by
  split
  · exact leaves a
  · exact h

end AcceptsOrLeaves

open AcceptsOrLeaves

section
variable (k : SessionId) (pl : List Byte) (s : State)

theorem serveSetup_acceptsOrLeaves : AcceptsOrLeaves s (serveSetup k pl s) := by
  unfold serveSetup
  split
  · exact leaves _
  · refine check ?_
    split
    · exact leaves _
    · exact check (check (check accepts))

theorem serveDrive_acceptsOrLeaves : AcceptsOrLeaves s (serveDrive k pl s) := by
  unfold serveDrive
  split
  · exact check (check (check accepts))
  · exact leaves _

theorem serveRead_acceptsOrLeaves : AcceptsOrLeaves s (serveRead k pl s) := by
  unfold serveRead
  split <;> exact leaves _

theorem serveClear_acceptsOrLeaves : AcceptsOrLeaves s (serveClear k pl s) := by
  unfold serveClear
  split
  · exact leaves _
  · exact check accepts

theorem serveClaim_acceptsOrLeaves : AcceptsOrLeaves s (serveClaim k pl s) := by
  unfold serveClaim
  split
  · split
    · exact accepts
    · exact check (check (check accepts))
  · exact leaves _

theorem serveWithdraw_acceptsOrLeaves : AcceptsOrLeaves s (serveWithdraw k pl s) := by
  unfold serveWithdraw
  split
  · exact leaves _
  · split
    · exact accepts
    · exact leaves _

theorem serveRelease_acceptsOrLeaves : AcceptsOrLeaves s (serveRelease k pl s) := by
  unfold serveRelease
  split
  · refine check ?_
    split
    · exact accepts
    · split
      · exact accepts
      · exact leaves _
  · exact leaves _

theorem serveAt_acceptsOrLeaves : AcceptsOrLeaves s (serveAt k pl s) := by
  unfold serveAt
  split
  · refine check (check (check ?_))
    split
    · exact leaves _
    · exact check accepts
  · exact leaves _

theorem serveCancel_acceptsOrLeaves : AcceptsOrLeaves s (serveCancel k pl s) := by
  unfold serveCancel
  split
  · exact leaves _
  · refine check ?_
    split
    · exact accepts
    · exact leaves _
    · exact leaves _

theorem serveSeqNew_acceptsOrLeaves : AcceptsOrLeaves s (serveSeqNew k pl s) := by
  unfold serveSeqNew
  split
  · exact leaves _
  · exact accepts

theorem serveSeqAdd_acceptsOrLeaves : AcceptsOrLeaves s (serveSeqAdd k pl s) := by
  unfold serveSeqAdd
  split
  · refine check (check ?_)
    split
    · exact leaves _
    · exact check (check accepts)
  · exact leaves _

theorem serveSeqSeal_acceptsOrLeaves : AcceptsOrLeaves s (serveSeqSeal k pl s) := by
  unfold serveSeqSeal
  split
  · exact leaves _
  · exact check (check (check accepts))

theorem serveSeqStart_acceptsOrLeaves : AcceptsOrLeaves s (serveSeqStart k pl s) := by
  unfold serveSeqStart
  split
  · refine check (check ?_)
    split
    · exact leaves _
    · split
      · exact leaves _
      · exact check accepts
  · exact leaves _

theorem serveSeqStop_acceptsOrLeaves : AcceptsOrLeaves s (serveSeqStop k pl s) := by
  unfold serveSeqStop
  split
  · exact leaves _
  · exact check accepts

theorem serveSeqQuery_acceptsOrLeaves : AcceptsOrLeaves s (serveSeqQuery k pl s) := by
  unfold serveSeqQuery
  split <;> exact leaves _

theorem serveSeqFree_acceptsOrLeaves : AcceptsOrLeaves s (serveSeqFree k pl s) := by
  unfold serveSeqFree
  split
  · exact leaves _
  · exact check accepts

theorem serveCadSet_acceptsOrLeaves : AcceptsOrLeaves s (serveCadSet k pl s) := by
  unfold serveCadSet
  split
  · exact check (check (check (check (check (check accepts)))))
  · exact leaves _

theorem serveCadRun_acceptsOrLeaves : AcceptsOrLeaves s (serveCadRun k pl s) := by
  unfold serveCadRun
  split
  · refine check (check (check ?_))
    split
    · exact leaves _
    · exact accepts
  · exact leaves _

theorem serveCadHold_acceptsOrLeaves : AcceptsOrLeaves s (serveCadHold k pl s) := by
  unfold serveCadHold
  split
  · exact leaves _
  · split
    · exact accepts
    · exact leaves _

theorem serveCadFree_acceptsOrLeaves : AcceptsOrLeaves s (serveCadFree k pl s) := by
  unfold serveCadFree
  split
  · exact leaves _
  · exact check accepts

theorem serveCadRead_acceptsOrLeaves : AcceptsOrLeaves s (serveCadRead k pl s) := by
  unfold serveCadRead
  split <;> exact leaves _

theorem serveWatchSet_acceptsOrLeaves : AcceptsOrLeaves s (serveWatchSet k pl s) := by
  unfold serveWatchSet
  split
  · split
    · exact leaves _
    · split
      · exact leaves _
      · exact accepts
  · exact leaves _

theorem serveWatchAck_acceptsOrLeaves : AcceptsOrLeaves s (serveWatchAck k pl s) := by
  unfold serveWatchAck
  split
  · exact leaves _
  · split
    · exact leaves _
    · exact accepts

theorem serveWatchDrop_acceptsOrLeaves : AcceptsOrLeaves s (serveWatchDrop k pl s) := by
  unfold serveWatchDrop
  split
  · exact leaves _
  · exact accepts

theorem serveWatchRead_acceptsOrLeaves : AcceptsOrLeaves s (serveWatchRead k pl s) := by
  unfold serveWatchRead
  split
  · exact leaves _
  · split <;> exact leaves _

theorem serveRestart_acceptsOrLeaves (p : Port) : AcceptsOrLeaves s (serveRestart p k pl s) := by
  unfold serveRestart
  split
  · exact accepts
  · exact leaves _

theorem serve_acceptsOrLeaves (t : RequestType) (p : Port) : AcceptsOrLeaves s (t.serve p k pl s) := by
  cases t
  case openSession => exact leaves _
  case info => exact leaves _
  case closeSession => exact accepts (status := .ok)
  case ping => exact leaves _
  case status => exact leaves _
  case time => exact leaves _
  case snapshot => exact leaves _
  case portstat => exact leaves _
  case pendingList => exact leaves _
  case restart => exact serveRestart_acceptsOrLeaves k pl s p
  case claim => exact serveClaim_acceptsOrLeaves k pl s
  case release => exact serveRelease_acceptsOrLeaves k pl s
  case withdraw => exact serveWithdraw_acceptsOrLeaves k pl s
  case setup => exact serveSetup_acceptsOrLeaves k pl s
  case drive => exact serveDrive_acceptsOrLeaves k pl s
  case read => exact serveRead_acceptsOrLeaves k pl s
  case clear => exact serveClear_acceptsOrLeaves k pl s
  case atEdge => exact serveAt_acceptsOrLeaves k pl s
  case cancel => exact serveCancel_acceptsOrLeaves k pl s
  case seqNew => exact serveSeqNew_acceptsOrLeaves k pl s
  case seqAdd => exact serveSeqAdd_acceptsOrLeaves k pl s
  case seqSeal => exact serveSeqSeal_acceptsOrLeaves k pl s
  case seqStart => exact serveSeqStart_acceptsOrLeaves k pl s
  case seqStop => exact serveSeqStop_acceptsOrLeaves k pl s
  case seqQuery => exact serveSeqQuery_acceptsOrLeaves k pl s
  case seqFree => exact serveSeqFree_acceptsOrLeaves k pl s
  case watchSet => exact serveWatchSet_acceptsOrLeaves k pl s
  case watchAck => exact serveWatchAck_acceptsOrLeaves k pl s
  case watchDrop => exact serveWatchDrop_acceptsOrLeaves k pl s
  case watchRead => exact serveWatchRead_acceptsOrLeaves k pl s
  case cadSet => exact serveCadSet_acceptsOrLeaves k pl s
  case cadRun => exact serveCadRun_acceptsOrLeaves k pl s
  case cadHold => exact serveCadHold_acceptsOrLeaves k pl s
  case cadFree => exact serveCadFree_acceptsOrLeaves k pl s
  case cadRead => exact serveCadRead_acceptsOrLeaves k pl s

end

theorem serveOpen_acceptsOrLeaves (p : Port) (r : Request) (s : State) : AcceptsOrLeaves s (serveOpen p r s) := by
  unfold serveOpen
  refine check (check ?_)
  split
  · exact leaves _
  · exact accepts

/-! ## Every request is answered (R165 to R167) -/

/-- The request is answered at this tick, with this reply, and a refusal does nothing else. -/
def State.AnswersWith (s t : State) (p : Port) (r : Request) (a : Answer) : Prop :=
  t.Replied p r a ∧ (0x10 ≤ a.status.code → s.OnlyReplies t p r a)

/-- A request that is only answered. -/
theorem State.OnlyReplies.answersWith {s t : State} {p : Port} {r : Request} {a : Answer} (next : s.takeable p = some r)
    (h : s.OnlyReplies t p r a) : s.AnswersWith t p r a :=
  ⟨answer_replied next [] (.refl [] s) h, fun _ => h⟩

section
variable {s : State} {type : RequestType} {p : Port} {r : Request} {serve : Request → State → State × Answer}

/-- Dispatch check 2: a length that the type does not allow. -/
theorem takeRequest_badLength (next : s.takeable p = some r) (ht : r.type = type.code)
    (bad : type.allows r.payload.length = false) : s.OnlyReplies (s.takeRequest type p serve) p r (.plain .badLength) := by
  rw [takeRequest_eq serve next ht, if_neg (ne_true_of_eq_false bad)]
  exact settle_settled _

/-- A request that is taken is answered, whatever serves it. -/
theorem takeRequest_answersWith {parts : List Part} (next : s.takeable p = some r) (ht : r.type = type.code)
    (hc : ChangesOnly parts s (serve r s).1) (ha : AcceptsOrLeaves s (serve r s))
    (hs : Part.sending ∉ parts := by decide) : ∃ a : Answer, s.AnswersWith (s.takeRequest type p serve) p r a := by
  by_cases good : type.allows r.payload.length = true
  · rw [takeRequest_serves serve next ht good]
    refine ⟨(serve r s).2, answer_replied next parts hc (settle_settled _) hs, fun refused => ?_⟩
    have left : (serve r s).1 = s := ha.resolve_left (Nat.not_lt.mpr refused)
    rw [left]
    exact settle_settled _
  · exact ⟨_, (takeRequest_badLength next ht (eq_false_of_ne_true good)).answersWith next⟩

/-- Dispatch checks 3 and 4: a request that names no OPEN session of its port (R166). -/
theorem takeSessioned_noSession {serve : SessionId → List Byte → State → State × Answer} (next : s.takeable p = some r)
    (ht : r.type = type.code) (good : type.allows r.payload.length = true) (silent : s.speaker p r = none) :
    s.OnlyReplies (s.takeSessioned type p serve) p r (.plain .noSession) :=
  takeRequest_onlyReplies _ next ht good (by rw [silent])

theorem takeSessioned_answersWith (next : s.takeable p = some r) (ht : r.type = type.code) :
    ∃ a : Answer, s.AnswersWith (s.takeSessioned type p (type.serve p)) p r a := by
  refine takeRequest_answersWith (parts := requestParts) next ht ?_ ?_
  · split
    · exact .refl _ s
    · exact serve_changes type p _ _ s
  · split
    · exact leaves _
    · exact serve_acceptsOrLeaves _ _ s type p

end

/-- The session nibble of a request names a session by its number, 1 to 4 (R140). -/
theorem sessionOf_some {nibble : Nat} {k : SessionId} (h : sessionOf nibble = some k) : nibble = k.val + 1 := by
  unfold sessionOf at h
  split at h
  · cases h
  · unfold nameOf at h
    split at h
    · cases h; rfl
    · cases h

theorem speaker_none {s : State} {p : Port} {r : Request} (h : ∀ k : SessionId, r.session = k.val + 1 →
    ¬(s.sessions[k].state = .opened ∧ s.sessions[k].port = some p)) : s.speaker p r = none := by
  unfold State.speaker
  split
  · rfl
  · rename_i k names
    exact if_neg (h k (sessionOf_some names))

/-- An accepted CLOSE is answered, and step 7 of R148 leaves the reply. -/
theorem takeClose_replied {s : State} {p : Port} {k : SessionId} {r : Request} (takes : s.Takes p .closeSession k r []) :
    (s.takeClose p).Replied p r (.plain .ok) := by
  rw [takeClose_eq takes]
  have replied := answer_replied takes.1 beginningParts (beginClosing_changes s k .closed)
    (settle_settled ((s.beginClosing k .closed).answer p r (.plain .ok)))
  have kept := checkClosing_changes ((s.beginClosing k .closed).answer p r (.plain .ok)).settle k
  obtain ⟨inbound, transmitter, -⟩ := kept .sending (by decide) p
  unfold State.Replied
  rw [inbound, transmitter, kept.tick]
  exact replied

/-- Settles O4: OPEN, INFO and the requests of a session are answered as `takeRequest_answersWith` says; of CLOSE only the accepted one is
more than such a request (`takeClose_cases`), and it is no refusal. -/
theorem everyRequestIsAnswered : Obligations.EveryRequestIsAnswered := by
  unfold Obligations.EveryRequestIsAnswered
  intro type p s r next ht
  have sessioned : ∃ a : Answer, s.AnswersWith (s.takeSessioned type p (type.serve p)) p r a ∧
      (type.allows r.payload.length = false → s.OnlyReplies (s.takeSessioned type p (type.serve p)) p r (.plain .badLength)) ∧
      (type.allows r.payload.length = true → (∀ k : SessionId, r.session = k.val + 1 →
        ¬(s.sessions[k].state = .opened ∧ s.sessions[k].port = some p)) →
        s.OnlyReplies (s.takeSessioned type p (type.serve p)) p r (.plain .noSession)) := by
    obtain ⟨a, answers⟩ := takeSessioned_answersWith next ht
    exact ⟨a, answers, takeRequest_badLength next ht, fun good silent =>
      takeSessioned_noSession next ht good (speaker_none silent)⟩
  by_cases isOpen : type = .openSession
  · subst isOpen
    obtain ⟨a, replied, refused⟩ := takeRequest_answersWith next ht (serveOpen_changes p r s) (serveOpen_acceptsOrLeaves p r s)
    exact ⟨_, a, exec_open p s, replied, refused, takeRequest_badLength next ht, fun _ other => absurd rfl other⟩
  · by_cases isInfo : type = .info
    · subst isInfo
      obtain ⟨a, replied, refused⟩ := takeRequest_answersWith next ht (serveInfo_changes r s) (leaves _)
      exact ⟨_, a, exec_info p s, replied, refused, takeRequest_badLength next ht, fun _ _ other => absurd rfl other⟩
    · obtain ⟨a, ⟨replied, refused⟩, badLength, noSession⟩ := sessioned
      by_cases isClose : type = .closeSession
      · subst isClose
        obtain same | ⟨k, r', takes⟩ := takeClose_cases s p
        · refine ⟨_, a, exec_close p s, ?_⟩
          rw [same]
          exact ⟨replied, refused, badLength, fun good _ _ => noSession good⟩
        · obtain ⟨next', -, payload, names⟩ := id takes
          obtain rfl : r = r' := Option.some.inj (next.symm.trans next')
          refine ⟨_, .plain .ok, exec_close p s, takeClose_replied takes, fun refusal => absurd refusal (by decide), ?_, ?_⟩
          · intro bad
            rw [payload] at bad
            cases bad
          · intro _ _ _ silent
            rw [speaker_none silent] at names
            cases names
      · exact ⟨_, a, exec_command type p s isOpen isInfo isClose, replied, refused, badLength,
          fun good _ _ => noSession good⟩

/-! ## RESTART (R174) -/

theorem aloneOpen_iff {s : State} {k : SessionId} :
    s.aloneOpen k = true ↔ ∀ j : SessionId, j ≠ k → s.sessions[j].state = .free := by
  simp only [State.aloneOpen, allSessions, List.all_eq_true, List.mem_finRange, true_implies, Bool.or_eq_true,
    decide_eq_true_eq, or_iff_not_imp_left, ne_eq]

theorem takeable_stopped {s : State} {p : Port} (h : (s.port p).stopped = true) : s.takeable p = none := by
  simp only [State.takeable, h, Bool.or_true, Bool.true_or, if_true]

/-- Settles O54: the two outcomes are those of `serveRestart`, and a port that has stopped takes nothing (`takeable_stopped`). -/
theorem restartAccepts : Obligations.RestartAccepts := by
  unfold Obligations.RestartAccepts
  intro s p k r takes
  refine ⟨_, rfl, fun ⟨j, other, busy⟩ => ?_, fun alone => ?_⟩
  · exact takeSessioned_onlyReplies (serveRestart p) takes rfl (if_neg fun alone => busy (aloneOpen_iff.mp alone j other))
  · have served : serveRestart p k [] s = (s.modPort p fun c => { c with stopped := true }, .plain .ok) :=
      if_pos (aloneOpen_iff.mpr alone)
    have stops := modPort_changes_reception s p (fun c => { c with stopped := true }) (by simp)
    rw [takeSessioned_eq (serveRestart p) takes rfl, served]
    have settled := settle_settled ((s.modPort p fun c => { c with stopped := true }).answer p r (.plain .ok))
    refine ⟨takeable_stopped ?_, _, State.modPort_port_same s p _, fun q other => State.modPort_port_ne s _ other, stops, settled⟩
    obtain ⟨-, -, -, -, -, -, -, stopped⟩ := settled.changes .reception (by decide) p
    rw [stopped]
    simp only [State.answer, State.modPort_port_same]

end Sys2Proof.Machine
end

section
/-! PROOFS. Full reset and the hold in reset (08, sections 8.8 and 8.9): POWER_UP, NRST_ASSERT, NRST_RELEASE and the end of an accepted
RESTART's reply. -/

namespace Sys2Proof.Machine

set_option Elab.async false

/-! ## Full reset (R174 to R176) -/

/-- A port after the first tick of a reset: its STARTUP frame is being sent (R175). -/
def PortCell.starting (cause : ResetCause) (pin : Level) : PortCell :=
  PortCell.reset (some { frame := .port (.startup cause (baudOf pin)), begun := 0 })

/-- A full reset clears the blocks, samples BAUD, and has both arbiters begin the STARTUP frames. -/
theorem startUp_eq (s : State) (cause : ResetCause) (pin : Level) : s.startUp cause pin =
    { s.clearBlocks with heldInReset := false, baud := baudOf pin, portA := .starting cause pin,
                         portB := .starting cause pin } := rfl

theorem baudOf_eq (pin : Level) : baudOf pin = if pin = .high then .b1000000 else .b115200 := by
  cases pin <;> rfl

theorem clearBlocks_line (s : State) (l : LineId) : s.clearBlocks.lines[l] = LineCell.reset s.lines[l].raw := by
  simp [State.clearBlocks]

theorem startUp_fresh (s : State) (cause : ResetCause) (pin : Level) : s.FreshlyReset cause pin (s.startUp cause pin) := by
  rw [startUp_eq]
  refine ⟨rfl, baudOf_eq pin, rfl, fun l => ?_, fun l => ?_, rfl, rfl, rfl, fun i => ?_, rfl, fun g => ?_, fun w => ?_, fun k => ?_,
    fun p => ?_⟩
  · have cell := clearBlocks_line s l
    dsimp only
    rw [cell]
    exact ⟨rfl, rfl, rfl, rfl, rfl, rfl, rfl, rfl, rfl, rfl, rfl⟩
  · simp [State.clearBlocks, State.reset]
  · simp [State.clearBlocks, State.reset, Slot.free]
  · simp [State.clearBlocks, State.reset, Generator.free]
  · simp [State.clearBlocks, State.reset]
  · exact clearBlocks_session s k
  · rw [← baudOf_eq]
    cases p <;> rfl

/-! ## The end of a transmission (R168, R174) -/

theorem isRestartReply_iff {f : TxFrame} :
    f.isRestartReply = true ↔ ∃ r : Reply, f = .reply r ∧ r.type = 0x0C#8 ∧ r.status = .ok := by
  cases f with
  | reply r =>
    simp only [TxFrame.isRestartReply, Bool.and_eq_true, decide_eq_true_eq]
    exact ⟨fun ⟨type, status⟩ => ⟨r, rfl, type, status⟩, fun ⟨_, same, type, status⟩ => by cases same; exact ⟨type, status⟩⟩
  | notice k n => simp [TxFrame.isRestartReply]
  | port f => simp [TxFrame.isRestartReply]

section
variable {s : State} {p : Port} {x : Transmission} (sending : (s.port p).transmitter = some x) (pin : Level)
include sending

theorem exec_frameSent_early (early : s.tick < x.ends s.baud) : exec (.frameSent p pin) s = .next s := by
  simp only [exec, execFrameSent, sending, if_pos early]

theorem exec_frameSent_restart (ended : x.ends s.baud ≤ s.tick) (restart : x.frame.isRestartReply = true) :
    exec (.frameSent p pin) s = .next (s.startUp .restart pin) := by
  simp only [exec, execFrameSent, sending, if_neg (Nat.not_lt.mpr ended), if_pos restart]

theorem exec_frameSent_other (ended : x.ends s.baud ≤ s.tick) (other : ¬x.frame.isRestartReply = true) :
    exec (.frameSent p pin) s = .next (s.modPort p (PortCell.endTransmission x.frame)).settle := by
  simp only [exec, execFrameSent, sending, if_neg (Nat.not_lt.mpr ended), if_neg other]

end

/-- Settles O5: each of the three is a full reset (`startUp_fresh`), of the part as it stands. -/
theorem fullResetLeaves : Obligations.FullResetLeaves := by
  unfold Obligations.FullResetLeaves
  intro s pin
  refine ⟨fun running => ⟨s.startUp .power pin, ?_, startUp_fresh s .power pin⟩,
    fun held => ⟨s.startUp .pin pin, ?_, startUp_fresh s .pin pin⟩,
    fun p x r sending frame type status ended => ⟨s.startUp .restart pin, ?_, startUp_fresh s .restart pin⟩⟩
  · simp only [exec, execPowerUp, running, Bool.false_eq_true, if_false]
  · simp only [exec, execNrstRelease, held, if_true]
  · exact exec_frameSent_restart sending pin ended (isRestartReply_iff.mpr ⟨r, frame, type, status⟩)

/-! ## Held in reset (R175) -/

theorem step_held {s : State} (empty : s.pending = []) (held : s.heldInReset = true) : step s = .next s := by
  simp only [step, empty]
  exact idle_held held

theorem exec_frameReceived_held {s : State} (held : s.heldInReset = true) (p : Port) (bytes : List Byte) :
    exec (.frameReceived p bytes) s = .next s := by
  simp only [exec, execFrameReceived, held, Bool.true_or, if_true]

/-- Settles O6: the blocks are cleared, and the part that is held takes no byte (`exec_frameReceived_held`) and no tick (`step_held`). -/
theorem nrstHoldsInReset : Obligations.NrstHoldsInReset := by
  unfold Obligations.NrstHoldsInReset
  intro s
  refine ⟨{ s.clearBlocks with heldInReset := true }, rfl, rfl, rfl, fun p => ?_, fun k => ?_, rfl, fun g => ?_,
    fun empty => step_held empty rfl⟩
  · have port : State.port { s.clearBlocks with heldInReset := true } p = PortCell.reset none := clearBlocks_port s p
    rw [port]
    exact ⟨rfl, rfl, rfl, fun bytes => exec_frameReceived_held rfl p bytes⟩
  · dsimp only
    rw [clearBlocks_session]
    rfl
  · simp [State.clearBlocks, State.reset, Generator.free]

end Sys2Proof.Machine
end

section
/-! PROOFS. The events of a port besides reception (08, sections 8.2, 8.6 and 8.7): the gap limit, the idle line, the end of a
transmission and what the arbiter then chooses, and a break. -/

namespace Sys2Proof.Machine

set_option Elab.async false

/-! ## The gap limit and the idle line (R163, R170, R176) -/

theorem gapDue_iff {now : Tick} {r : Receiver} : r.gapDue now = true ↔ ∃ u : Tick, r.last = some u ∧ u + 1001 ≤ now := by
  unfold Receiver.gapDue
  cases r.last with
  | none => simp
  | some u => exact ⟨fun due => ⟨u, rfl, of_decide_eq_true due⟩, fun ⟨_, same, due⟩ => by cases same; exact decide_eq_true due⟩

theorem exec_gapTimeout_early {s : State} {p : Port} (early : ¬(s.port p).receiver.gapDue s.tick = true) :
    exec (.gapTimeout p) s = .next s := by
  simp only [exec, execGapTimeout, if_neg early]

theorem exec_gapTimeout_due {s : State} {p : Port} (due : (s.port p).receiver.gapDue s.tick = true) :
    exec (.gapTimeout p) s = .next (s.modPort p fun c => { c with
      receiver := .hunt, gap := if c.gap < 65535 then c.gap + 1 else c.gap }) := by
  simp only [exec, execGapTimeout, if_pos due]
  cases p <;> rfl

/-- Settles O56: what GAP_TIMEOUT does turns on the gap limit (`gapDue_iff`), which no receiver in HUNT reaches. -/
theorem gapLimitAndIdleLine : Obligations.GapLimitAndIdleLine := by
  unfold Obligations.GapLimitAndIdleLine
  intro s p
  refine ⟨?_, fun running => ⟨s.modPort p fun c => { c with awaitsIdle := false }, ?_, State.modPort_port_same s p _,
    fun q other => State.modPort_port_ne s _ other, modPort_changes_reception s p _ (by simp)⟩⟩
  · have last : ∀ (u len : Nat) (got : List Byte) (low : Option Byte), (s.port p).receiver = .length u ∨
        (s.port p).receiver = .body len got u ∨ (s.port p).receiver = .check got low u → (s.port p).receiver.last = some u := by
      rintro u len got low (partly | partly | partly) <;> rw [partly] <;> rfl
    by_cases due : (s.port p).receiver.gapDue s.tick = true
    · obtain ⟨v, latest, reached⟩ := gapDue_iff.mp due
      refine ⟨_, exec_gapTimeout_due due, fun hunt => ?_, fun u len got low partly => ?_⟩
      · rw [hunt] at latest
        cases latest
      · obtain rfl : u = v := Option.some.inj ((last u len got low partly).symm.trans latest)
        exact ⟨fun early => absurd reached (Nat.not_le.mpr early), fun _ => ⟨modPort_changes_reception s p _ (by simp),
          fun q other => State.modPort_port_ne s _ other, State.modPort_port_same s p _⟩⟩
    · refine ⟨s, exec_gapTimeout_early due, fun _ => rfl, fun u len got low partly => ⟨fun _ => rfl, fun reached => ?_⟩⟩
      exact absurd (gapDue_iff.mpr ⟨u, last u len got low partly, reached⟩) due
  · simp only [exec, execRxIdle, running, Bool.false_eq_true, if_false]

/-! ## The slot of a reply that has been sent (R164) -/

theorem freeSending_absent {slots : List InboundSlot} (h : .sending ∉ slots) : freeSending slots = slots := by
  induction slots with
  | nil => rfl
  | cons x xs ih =>
    have rest := ih fun c => h (List.mem_cons_of_mem x c)
    cases x with
    | waiting r => simp only [freeSending, rest]
    | answered r => simp only [freeSending, rest]
    | sending => exact absurd List.mem_cons_self h

theorem freeSending_append {before : List InboundSlot} (h : .sending ∉ before) (after : List InboundSlot) :
    freeSending (before ++ .sending :: after) = before ++ after := by
  induction before with
  | nil => rfl
  | cons x xs ih =>
    have rest := ih fun c => h (List.mem_cons_of_mem x c)
    cases x with
    | waiting r => simp only [List.cons_append, freeSending, rest]
    | answered r => simp only [List.cons_append, freeSending, rest]
    | sending => exact absurd List.mem_cons_self h

/-- The slots after the end of a transmission: a reply's is freed. -/
def slotsAfter (f : TxFrame) (slots : List InboundSlot) : List InboundSlot :=
  match f with
  | .reply _ => freeSending slots
  | .notice _ _ | .port _ => slots

theorem endTransmission_eq (f : TxFrame) (c : PortCell) :
    c.endTransmission f = { c with transmitter := none, inbound := slotsAfter f c.inbound } := by
  cases f <;> rfl

theorem endTransmission_sends (s : State) (p : Port) (f : TxFrame) :
    ChangesOnly [.sending] s (s.modPort p (PortCell.endTransmission f)) := by
  intro part other
  by_cases isFrames : part = .frames
  · subst isFrames
    intro q
    rw [State.modPort_port, endTransmission_eq]
    split
    · rename_i same; rw [same]
    · rfl
  · exact endTransmission_changes s p f part (by simp_all)

/-! ## What the arbiter chooses (R168, R169) -/

/-- The number of sessions that the arbiter looks at before this one, the last served having been number `last` (R169). -/
def turn (last : Nat) (k : SessionId) : Nat :=
  (k.val + 4 - last % 4) % 4

/-- The session that the arbiter looks at after `j` others. -/
def atTurn (last : Nat) (j : Fin 4) : SessionId :=
  ⟨(last + j.val) % 4, Nat.mod_lt _ (by decide)⟩

theorem rotation_eq (last : Nat) : rotation last = (List.finRange 4).map (atTurn last) := rfl

theorem turn_atTurn (last : Nat) (j : Fin 4) : turn last (atTurn last j) = j.val := by
  simp only [turn, atTurn]
  omega

theorem atTurn_turn (last : Nat) (k : SessionId) : atTurn last ⟨turn last k, Nat.mod_lt _ (by decide)⟩ = k := by
  ext
  simp only [turn, atTurn]
  omega

/-- The next sender is the first of those that have a notice to begin (R169). -/
theorem nextSender_first {s : State} {late : Bool} {p : Port} {k : SessionId} (bound : s.sessions[k].port = some p)
    (offers : s.sessions[k].offers late = true)
    (first : ∀ j : SessionId, s.sessions[j].port = some p → s.sessions[j].offers late = true →
      turn (s.port p).roundRobin k ≤ turn (s.port p).roundRobin j) : s.nextSender late p = some k := by
  unfold State.nextSender
  rw [rotation_eq, List.find?_map, find?_finRange_lowest (i := ⟨turn (s.port p).roundRobin k, Nat.mod_lt _ (by decide)⟩)]
  · exact congrArg some (atTurn_turn _ k)
  · simp only [Function.comp_apply, atTurn_turn, bound, offers, decide_true, Bool.and_true]
  · intro j earlier
    refine eq_false_of_ne_true fun ready => ?_
    simp only [Function.comp_apply, Bool.and_eq_true, decide_eq_true_eq] at ready
    have later := first _ ready.1 ready.2
    rw [turn_atTurn] at later
    exact absurd later (Nat.not_le.mpr earlier)

/-- What the arbiter of a port looks at: the port, and its sessions' notices. -/
theorem nextFrame_congr {s t : State} {p : Port} (late : Bool) (port : t.port p = s.port p)
    (bound : ∀ k : SessionId, t.sessions[k].port = s.sessions[k].port)
    (joined : ∀ k : SessionId, t.sessions[k].joinedNow = s.sessions[k].joinedNow)
    (queue : ∀ k : SessionId, s.sessions[k].port = some p → t.sessions[k].queue = s.sessions[k].queue) :
    t.nextFrame late p = s.nextFrame late p := by
  have sender : t.nextSender late p = s.nextSender late p := by
    unfold State.nextSender
    rw [port]
    congr 1
    funext k
    rw [bound k]
    by_cases mine : s.sessions[k].port = some p
    · simp only [Session.offers, queue k mine, joined k]
    · simp only [mine, decide_false, Bool.false_and]
  unfold State.nextFrame
  rw [port, sender]
  split
  · rfl
  · rfl
  · split
    · rfl
    · rename_i k next
      rw [queue k (nextSender_some next).1]

/-- Both arbiters choose for themselves: what a port begins is what its own arbiter begins. -/
theorem settle_begins {s : State} {p : Port} {f : TxFrame} (idle : (s.port p).transmitter = none)
    (chosen : s.nextFrame false p = some f) : s.settle.port p = (s.beginFrame p f).port p ∧
      ∀ k : SessionId, s.sessions[k].port = some p → s.settle.sessions[k].queue = (s.beginFrame p f).sessions[k].queue := by
  have begins : ∀ {u : State} {q : Port}, (u.port q).transmitter = none → u.nextFrame false q = some f →
      u.arbitrate false q = u.beginFrame q f := fun idle chosen => by simp only [State.arbitrate, idle, chosen]
  have hA := arbitrate_changes s false .a
  unfold State.settle
  cases p with
  | a =>
    rw [arbitrate_port_ne _ false (by decide : Port.a ≠ .b), begins idle chosen]
    refine ⟨rfl, fun k bound => arbitrate_queue_other _ false k ?_⟩
    rw [← begins idle chosen, hA.sessionPort, bound]
    decide
  | b =>
    have port : (s.arbitrate false .a).port .b = s.port .b := arbitrate_port_ne s false (by decide)
    have queue : ∀ k : SessionId, s.sessions[k].port = some .b →
        (s.arbitrate false .a).sessions[k].queue = s.sessions[k].queue :=
      fun k bound => arbitrate_queue_other s false k (by rw [bound]; decide)
    have same := nextFrame_congr false port hA.sessionPort (fun k => (hA .numbers (by decide) k).2.2) queue
    rw [begins (by rw [port]; exact idle) (same.trans chosen)]
    have tick := hA.tick
    cases f with
    | port f => simp only [State.beginFrame, State.modPort_port_same, State.modPort_sessions, port, tick, true_and]; exact queue
    | reply r => simp only [State.beginFrame, State.modPort_port_same, State.modPort_sessions, port, tick, true_and]; exact queue
    | notice j n =>
      simp only [State.beginFrame, State.modPort_port_same, State.modPort_sessions, State.modSession_port,
        port, tick, true_and]
      intro k bound
      rw [State.modSession_get, State.modSession_get]
      split
      · rename_i mine
        rw [← mine, queue k bound]
      · exact queue k bound

/-- Where its arbiter chooses nothing, a port begins nothing. -/
theorem settle_idle {s : State} {p : Port} (idle : (s.port p).transmitter = none) (nothing : s.nextFrame false p = none) :
    (s.settle.port p).transmitter = none := by
  have stays : ∀ {u : State} {q : Port}, u.nextFrame false q = none → (u.port q).transmitter = none →
      u.arbitrate false q = u := fun nothing idle => by simp only [State.arbitrate, idle, nothing]
  have hA := arbitrate_changes s false .a
  unfold State.settle
  cases p with
  | a => rw [arbitrate_port_ne _ false (by decide : Port.a ≠ .b), stays nothing idle]; exact idle
  | b =>
    have port : (s.arbitrate false .a).port .b = s.port .b := arbitrate_port_ne s false (by decide)
    have same := nextFrame_congr false port hA.sessionPort (fun k => (hA .numbers (by decide) k).2.2)
      (fun k bound => arbitrate_queue_other s false k (by rw [bound]; decide))
    rw [stays (same.trans nothing) (by rw [port]; exact idle), port]
    exact idle

theorem nextFrame_port {s : State} {p : Port} {f : PortFrame} {rest : List PortFrame} (late : Bool)
    (pending : (s.port p).frames = f :: rest) : s.nextFrame late p = some (.port f) := by
  simp only [State.nextFrame, pending]

theorem nextFrame_reply {s : State} {p : Port} {r : Reply} (late : Bool) (noFrame : (s.port p).frames = [])
    (ready : answeredReply (s.port p).inbound = some r) : s.nextFrame late p = some (.reply r) := by
  simp only [State.nextFrame, noFrame, ready]

section
variable {s : State} {late : Bool} {p : Port} (noFrame : (s.port p).frames = [])
  (noReply : answeredReply (s.port p).inbound = none)
include noFrame noReply

theorem nextFrame_sender {k : SessionId} {n : Notice} {rest : List Notice} (next : s.nextSender late p = some k)
    (waiting : s.sessions[k].queue = n :: rest) : s.nextFrame late p = some (.notice k n) := by
  simp only [State.nextFrame, noFrame, noReply, next, waiting, List.head?_cons, Option.map_some]

theorem nextFrame_nothing (silent : ∀ k : SessionId, s.sessions[k].port = some p → s.sessions[k].offers late = false) :
    s.nextFrame late p = none := by
  have next : s.nextSender late p = none := by
    refine List.find?_eq_none.mpr fun k _ ready => ?_
    simp only [Bool.and_eq_true, decide_eq_true_eq] at ready
    rw [silent k ready.1] at ready
    cases ready.2
  simp only [State.nextFrame, noFrame, noReply, next]

end

theorem offers_iff {r : Session} : r.offers false = true ↔ r.joinedNow < r.queue.length := by
  simp only [Session.offers, Bool.false_eq_true, if_false, decide_eq_true_eq]

/-- Settles O57: the transmission ends (`endTransmission_eq`), and the port begins what its arbiter chooses (`settle_begins`): the oldest
port frame, else the reply, else the notice of the first session in turn (`nextSender_first`), else nothing (`settle_idle`). -/
theorem frameSentChoosesNext : Obligations.FrameSentChoosesNext := by
  unfold Obligations.FrameSentChoosesNext
  intro s p pin x sending
  refine ⟨exec_frameSent_early sending pin, fun ended other => ?_⟩
  have noRestart : ¬x.frame.isRestartReply = true := fun restart => by
    obtain ⟨r, frame, accepted⟩ := isRestartReply_iff.mp restart
    exact other r frame accepted
  obtain ⟨u, hu⟩ : ∃ u, u = s.modPort p (PortCell.endTransmission x.frame) := ⟨_, rfl⟩
  have port : u.port p = { s.port p with transmitter := none, inbound := slotsAfter x.frame (s.port p).inbound } := by
    rw [hu, State.modPort_port_same, endTransmission_eq]
  have sends : ChangesOnly [.sending] s u := hu ▸ endTransmission_sends s p x.frame
  have session : ∀ k : SessionId, u.sessions[k] = s.sessions[k] := fun k => sends.session k
  have idle : (u.port p).transmitter = none := by rw [port]
  have frames : (u.port p).frames = (s.port p).frames := by rw [port]
  have begins := fun {f : TxFrame} (chosen : u.nextFrame false p = some f) => settle_begins idle chosen
  refine ⟨u.settle, u, slotsAfter x.frame (s.port p).inbound, by rw [exec_frameSent_other sending pin ended noRestart, hu], port,
    fun q ne => hu ▸ State.modPort_port_ne s _ ne, sends, settle_settled u, ?_, ?_, ?_⟩
  · rintro (noReply | free)
    · cases frame : x.frame with
      | reply r => exact absurd frame (noReply r)
      | notice k n => rfl
      | port f => rfl
    · cases x.frame with
      | reply r => exact freeSending_absent free
      | notice k n => rfl
      | port f => rfl
  · intro r before after frame free split
    rw [frame, split]
    exact freeSending_append free after
  · intro reply ready last
    have answered : answeredReply (u.port p).inbound = reply := by rw [port]
    refine ⟨fun f rest pending => ?_, fun noFrame => ⟨fun r isReply => ?_, fun noReply silent => ?_,
      fun k n rest noReply mine waiting first => ?_⟩⟩
    · rw [(begins (nextFrame_port false (frames.trans pending))).1]
      simp only [State.beginFrame, State.modPort_port_same, frames, pending, List.tail_cons, sends.tick, and_self]
    · rw [(begins (nextFrame_reply false (frames.trans noFrame) (answered.trans isReply))).1]
      simp only [State.beginFrame, State.modPort_port_same, sends.tick]
    · refine settle_idle idle (nextFrame_nothing (frames.trans noFrame) (answered.trans noReply) fun k bound => ?_)
      rw [session] at bound ⊢
      exact eq_false_of_ne_true fun offers => silent k ⟨bound, offers_iff.mp offers⟩
    · have next : u.nextSender false p = some k := by
        refine nextSender_first (by rw [session]; exact mine.1) (by rw [session]; exact offers_iff.mpr mine.2) fun j bound offers => ?_
        rw [session] at bound offers
        rw [port]
        exact first j ⟨bound, offers_iff.mp offers⟩
      have begun := begins (nextFrame_sender (frames.trans noFrame) (answered.trans noReply) next (by rw [session]; exact waiting))
      rw [begun.1, begun.2 k (by rw [session]; exact mine.1)]
      simp only [State.beginFrame, State.modPort_port_same, State.modPort_sessions, State.modSession_get_same, session, waiting,
        List.tail_cons, sends.tick, and_self]

/-! ## A break (R171): the port -/

theorem exec_breakLine {s : State} {p : Port} (running : s.heldInReset = false) (listens : (s.port p).awaitsIdle = false) :
    exec (.breakLine p) s = .next (s.takeBreak p).settle := by
  simp only [exec, execBreakLine, running, listens, Bool.or_self, Bool.false_eq_true, if_false]

/-- A frame goes on through a break exactly where it is no reply made at that tick. -/
theorem dropReply_transmitter {c : PortCell} {now : Tick} {x : Transmission} :
    (c.dropReply now).transmitter = some x ↔ c.transmitter = some x ∧ x.repliesAt now = false := by
  simp only [PortCell.dropReply, Option.filter_eq_some_iff, Bool.not_eq_true']

/-- A port stays stopped through a break exactly where it goes on sending the reply to an accepted RESTART (log 22). -/
theorem sendsRestartReply_dropReply {c : PortCell} {now : Tick} : (c.dropReply now).sendsRestartReply = true ↔
    ∃ (r : Reply) (begun : Tick), r.type = 0x0C#8 ∧ r.status = .ok ∧ r.made ≠ now ∧
      c.transmitter = some { frame := .reply r, begun := begun } := by
  constructor
  · intro sends
    unfold PortCell.sendsRestartReply at sends
    split at sends
    · rename_i x kept
      obtain ⟨r, frame, type, status⟩ := isRestartReply_iff.mp sends
      obtain ⟨sending, other⟩ := dropReply_transmitter.mp kept
      obtain ⟨f, begun⟩ := x
      cases frame
      exact ⟨r, begun, type, status, of_decide_eq_false other, sending⟩
    · cases sends
  · rintro ⟨r, begun, type, status, made, sending⟩
    have kept := dropReply_transmitter.mpr ⟨sending, decide_eq_false made⟩
    simp only [PortCell.sendsRestartReply, kept]
    exact isRestartReply_iff.mpr ⟨r, rfl, type, status⟩

theorem takeBreak_cell_changes (s : State) (p : Port) (now : Tick) :
    ChangesOnly [.reception, .sending] s (s.modPort p fun c => c.takeBreak now) := by
  intro part other
  by_cases isFrames : part = .frames
  · subst isFrames
    intro q
    rw [State.modPort_port]
    split
    · rename_i same; rw [same]; rfl
    · rfl
  · exact modPort_changes s p _ part (by simp_all)

/-! ## A break: the sessions of the port (R148, R151, R159) -/

/-- Sessions that enter CLOSING one after the other leave the records of all others. -/
theorem State.EnterEach.other {cause : CloseCause} {ks : List SessionId} {s t : State} (h : s.EnterEach t cause ks)
    {j : SessionId} (absent : j ∉ ks) : t.sessions[j] = s.sessions[j] := by
  induction ks generalizing s with
  | nil => rw [show t = s from h]
  | cons k ks ih =>
    obtain ⟨u, enters, rest⟩ := h
    rw [ih rest fun later => absent (List.mem_cons_of_mem k later),
      enters.2.1 j fun same => absent (same ▸ List.mem_cons_self)]

/-- Each of them is then CLOSING with that cause, on its port. -/
theorem State.EnterEach.closing {cause : CloseCause} {ks : List SessionId} {s t : State} (h : s.EnterEach t cause ks)
    (distinct : ks.Nodup) {k : SessionId} (mem : k ∈ ks) : t.sessions[k].state = .closing ∧
      t.sessions[k].port = s.sessions[k].port ∧ t.sessions[k].cause = some cause := by
  induction ks generalizing s with
  | nil => cases mem
  | cons m ks ih =>
    obtain ⟨absent, distinct⟩ := List.nodup_cons.mp distinct
    obtain ⟨u, enters, rest⟩ := h
    rcases List.mem_cons.mp mem with rfl | later
    · rw [rest.other absent, enters.1]
      exact ⟨rfl, rfl, rfl⟩
    · obtain ⟨state, port, why⟩ := ih rest distinct later
      rw [enters.2.1 k fun same => absent (same ▸ later)] at port
      exact ⟨state, port, why⟩

/-- The OPEN sessions of a list enter CLOSING one after the other. -/
theorem beginClosing_enterEach {cause : CloseCause} {ks : List SessionId} (distinct : ks.Nodup) {s : State}
    (ht : TimelineOk s) (hr : RunsOk s) (opened : ∀ k ∈ ks, s.sessions[k].state = .opened) :
    s.EnterEach (ks.foldl (fun t k => t.beginClosing k cause) s) cause ks := by
  induction ks generalizing s with
  | nil => exact rfl
  | cons k ks ih =>
    obtain ⟨absent, distinct⟩ := List.nodup_cons.mp distinct
    have enters := beginClosing_enters ht hr (opened k List.mem_cons_self) cause
    refine ⟨_, enters, ih distinct (ht.beginClosing k cause) (hr.beginClosing ht k cause) fun j later => ?_⟩
    rw [enters.2.1 j fun same => absent (same ▸ later)]
    exact opened j (List.mem_cons_of_mem k later)

/-- Step 7 of R148 leaves the records of other CLOSING sessions: a grant is no notice for them (R149). -/
theorem State.Checks.other {s t : State} {p : Port} {k : SessionId} {cause : CloseCause} (h : s.Checks t p k cause)
    {j : SessionId} (ne : j ≠ k) (closing : s.sessions[j].state = .closing) : t.sessions[j] = s.sessions[j] := by
  by_cases runs : s.running k
  · rw [h.1 runs]
  · obtain ⟨-, -, -, -, -, others, -⟩ := h.2 runs
    rw [others j ne, received_closed]
    rw [closing]
    decide

/-- CLOSING sessions of one port complete their closing one after the other, where no sequence of theirs runs. -/
theorem checkClosing_checkEach {p : Port} {cause : CloseCause} {ks : List SessionId} (distinct : ks.Nodup) {s : State}
    (hb : BoundOk s) (closing : ∀ k ∈ ks, s.sessions[k].state = .closing ∧ s.sessions[k].port = some p ∧
      s.sessions[k].cause = some cause) : s.CheckEach (ks.foldl State.checkClosing s) p cause ks := by
  induction ks generalizing s with
  | nil => exact rfl
  | cons k ks ih =>
    obtain ⟨absent, distinct⟩ := List.nodup_cons.mp distinct
    obtain ⟨state, port, why⟩ := closing k List.mem_cons_self
    have checks := checkClosing_checks hb state port why
    refine ⟨_, checks, ih distinct (hb.checkClosing k) fun j later => ?_⟩
    have entered := closing j (List.mem_cons_of_mem k later)
    rw [checks.other (fun same => absent (same ▸ later)) entered.1]
    exact entered

theorem mem_sessionsOn {s : State} {p : Port} {k : SessionId} :
    k ∈ s.sessionsOn p ↔ s.sessions[k].state = .opened ∧ s.sessions[k].port = some p := by
  simp only [State.sessionsOn, allSessions, List.mem_filter, List.mem_finRange, true_and, Bool.and_eq_true, decide_eq_true_eq]

/-- Settles O19: the port's cell first (`sendsRestartReply_dropReply`), then all entries into CLOSING (`beginClosing_enterEach`), then all
checks for their completion (`checkClosing_checkEach`), and then the arbiters choose. -/
theorem breakClosesSessions : Obligations.BreakClosesSessions := by
  unfold Obligations.BreakClosesSessions
  intro s p hb ht hr running listens
  have cell := takeBreak_cell_changes s p s.tick
  have distinct : (s.sessionsOn p).Nodup := (List.nodup_finRange 4).filter _
  have session : ∀ k : SessionId, (s.modPort p fun c => c.takeBreak s.tick).sessions[k] = s.sessions[k] := fun k => cell.session k
  have enters := beginClosing_enterEach (cause := .brk) distinct (ht.of_changes cell) (hr.of_changes cell) fun k mem => by
    rw [session]; exact (mem_sessionsOn.mp mem).1
  have bindings := BoundOk.foldl (fun _ k h => h.beginClosing k .brk) (s.sessionsOn p) (hb.of_changes cell)
  have checks := checkClosing_checkEach distinct bindings fun k mem => by
    obtain ⟨state, port, why⟩ := enters.closing distinct mem
    rw [session, (mem_sessionsOn.mp mem).2] at port
    exact ⟨state, port, why⟩
  refine ⟨_, s.modPort p fun c => c.takeBreak s.tick, _, s.takeBreak p,
    (s.port p).stopped && ((s.port p).dropReply s.tick).sendsRestartReply, ((s.port p).dropReply s.tick).transmitter,
    exec_breakLine running listens, State.modPort_port_same s p _, fun r begun sending made => ?_, fun other => ?_, ?_,
    fun q ne => State.modPort_port_ne s _ ne, cell, enters, checks, settle_settled _⟩
  · rw [dropReply_made sending made]
  · rw [dropReply_other other]
  · rw [Bool.and_eq_true, sendsRestartReply_dropReply]

end Sys2Proof.Machine
end

section
/-! PROOFS. The wire (09, sections 9.1, 9.2 and 9.6; 08, section 8.1): the bytes of every frame the part sends as fields, least
significant byte first, the time a frame takes, and the level of TX. -/

namespace Sys2Proof.Machine

set_option Elab.async false

/-! ## Fields (R178) -/

theorem leBytes_eq (size n : Nat) : leBytes size n = (List.range size).map fun i => BitVec.ofNat 8 (n / 256 ^ i) := by
  induction size generalizing n with
  | zero => rfl
  | succ size ih =>
    rw [leBytes, ih, List.range_succ_eq_map, List.map_cons, List.map_map, pow_zero, Nat.div_one]
    congr 2
    funext i
    rw [Function.comp_apply, Nat.div_div_eq_div_mul, Nat.pow_succ']

theorem fields_nil : fields [] = [] := rfl

theorem fields_cons (size n : Nat) (rest : List (Nat × Nat)) :
    fields ((size, n) :: rest) = leBytes size n ++ fields rest := by
  rw [leBytes_eq]
  rfl

/-- One byte that is given as such. -/
theorem leBytes_byte (b : Byte) : leBytes 1 b.toNat = [b] := by
  simp only [leBytes, BitVec.ofNat_toNat, BitVec.setWidth_eq]

/-- CHAN of a class and a session number that fits its nibble. -/
theorem chanByte_eq {cls session : Nat} (h : session < 16) : [chanByte cls session] = leBytes 1 (16 * cls + session) := by
  rw [chanByte, Nat.mod_eq_of_lt h]
  rfl

theorem nameByte_eq (name : Option Nat) : nameByte name = leBytes 1 (name.getD 0xFF) := by
  cases name <;> rfl

/-! ## The bytes of a frame (R177, R183) -/

theorem wire_eq (f : TxFrame) : f.wire = [0xD5#8, BitVec.ofNat 8 f.body.length] ++ f.body ++
    fields [(2, (crc16 (BitVec.ofNat 8 f.body.length :: f.body)).toNat)] := by
  rw [fields_cons, fields_nil, List.append_nil]
  rfl

theorem reply_body (r : Reply) : (TxFrame.reply r).body =
    fields [(1, 0x20 + r.session % 16), (1, r.type.toNat), (1, r.tag.toNat), (1, r.status.code)] ++ r.data.bytes := by
  simp only [fields_cons, fields_nil, leBytes_byte, List.append_nil]
  rfl

theorem notice_body (k : SessionId) (n : Notice) : (TxFrame.notice k n).body =
    fields [(1, 0x31 + k.val), (1, n.body.code.toNat), (1, 0), (2, n.number.toNat), (2, n.lost)] ++ n.body.bytes := by
  have chan : [chanByte 3 (k.val + 1)] = leBytes 1 (0x31 + k.val) := by
    rw [chanByte_eq (by omega)]
    congr 1
    omega
  simp only [fields_cons, fields_nil, leBytes_byte, List.append_nil, ← chan]
  rfl

theorem startup_body (cause : ResetCause) (rate : Baud) : (TxFrame.port (.startup cause rate)).body =
    fields [(1, 0x40), (1, 0xF0), (1, 0), (1, cause.code), (1, 0x42), (4, rate.rate)] := by
  simp only [fields_cons, fields_nil, List.append_nil]
  rfl

theorem ended_body (k : SessionId) (cause : CloseCause) : (TxFrame.port (.ended k cause)).body =
    fields [(1, 0x41 + k.val), (1, 0xF1), (1, 0), (1, k.val + 1), (1, cause.code)] := by
  have chan : [chanByte 4 (k.val + 1)] = leBytes 1 (0x41 + k.val) := by
    rw [chanByte_eq (by omega)]
    congr 1
    omega
  simp only [fields_cons, fields_nil, List.append_nil, ← chan]
  rfl

/-! ## The time of a frame (R160) -/

/-- Ten bit times a byte at 115,200 baud are 3125/36 ticks, which are rounded up or down (log 17). -/
theorem slow_rounding (n : Nat) (up : Bool) :
    let ticks := n * 3125 / 36 + (if n * 3125 % 36 = 0 then 0 else if up then 1 else 0)
    ticks * 115200 < n * 10 * 1000000 + 115200 ∧ n * 10 * 1000000 < ticks * 115200 + 115200 := by
  intro ticks
  simp only [ticks]
  split_ifs <;> omega

theorem ends_slow (x : Transmission) :
    let span := (x.frame.body.length + 4) * 10 * 1000000
    (x.ends .b115200 - x.begun) * 115200 < span + 115200 ∧ span < (x.ends .b115200 - x.begun) * 115200 + 115200 := by
  have ends : x.ends .b115200 - x.begun = x.frame.wireLength * 3125 / 36 + (if x.frame.wireLength * 3125 % 36 = 0 then 0
      else if Config.txRoundsUp x.begun x.frame.wireLength then 1 else 0) := by
    simp only [Transmission.ends, Nat.add_assoc, Nat.add_sub_cancel_left]
  rw [ends]
  exact slow_rounding x.frame.wireLength _

/-! ## The level of TX (R160) -/

theorem length_characterLevels (b : Byte) : (characterLevels b).length = 10 := rfl

/-- The bits of the characters of a frame stand back to back, ten a character. -/
theorem levels_getElem? {bytes : List Byte} {i j : Nat} (hi : i < bytes.length) (hj : j < 10) :
    (bytes.flatMap characterLevels)[10 * i + j]? = (characterLevels (bytes.getD i 0))[j]? := by
  induction bytes generalizing i with
  | nil => exact absurd hi (Nat.not_lt_zero i)
  | cons b bytes ih =>
    rw [List.flatMap_cons]
    cases i with
    | zero => rw [List.getElem?_append_left (by rw [length_characterLevels]; omega), Nat.mul_zero, Nat.zero_add]; rfl
    | succ i =>
      rw [List.getElem?_append_right (by rw [length_characterLevels]; omega), length_characterLevels,
        show 10 * (i + 1) + j - 10 = 10 * i + j by omega, ih (Nat.lt_of_succ_lt_succ hi)]
      rfl

theorem characterLevels_data (b : Byte) {j : Nat} (first : 1 ≤ j) (last : j ≤ 8) :
    (characterLevels b)[j]? = some (if b.getLsbD (j - 1) then .high else .low) := by
  obtain ⟨n, rfl⟩ : ∃ n, j = n + 1 := ⟨j - 1, by omega⟩
  rw [characterLevels, List.cons_append, List.getElem?_cons_succ, List.getElem?_append_left (by simpa using last),
    List.getElem?_map, List.getElem?_range (by omega)]
  rfl

theorem txPin_idle {s : State} {p : Port} (h : s.heldInReset = true ∨ (s.port p).transmitter = none) : s.txPin p = .high := by
  unfold State.txPin
  rcases h with held | idle
  · rw [if_pos held]
  · rw [idle, ite_self]

/-- TX at a bit of a byte of the frame under way. -/
theorem txPin_sending {s : State} {p : Port} {x : Transmission} {i j : Nat} (running : s.heldInReset = false)
    (sending : (s.port p).transmitter = some x) (hi : i < x.frame.wire.length) (hj : j < 10)
    (bit : (s.tick - x.begun) * s.baud.rate / 1000000 = 10 * i + j) :
    s.txPin p = ((characterLevels (x.frame.wire.getD i 0))[j]?).getD .high := by
  simp only [State.txPin, running, Bool.false_eq_true, if_false, sending, Transmission.level, TxFrame.levels, bit,
    levels_getElem? hi hj]

/-- Settles O58: the frames' bytes are the fields of their bodies (`fields_cons`), and TX has the level of the bit under way
(`levels_getElem?`). The model's own `frameBytes` is the function that puts a body inside its frame. -/
theorem TxFrame.frameBytes : Obligations.FrameBytes := by
  unfold Obligations.FrameBytes
  refine ⟨wire_eq, reply_body, notice_body, startup_body, ended_body, fun l u faulted mode v w h why => ?_,
    fun i label u outcome why failed skipped => ?_, fun w l kind v u g line cause count => ?_, fun x => ⟨rfl, ends_slow x⟩,
    fun s p => ⟨txPin_idle, fun x i j running sending hi hj bit => ?_⟩⟩
  · simp only [fields_cons, fields_nil, List.append_nil]
    exact ⟨rfl, by simp only [NoticeBody.bytes, Bool.code, List.append_assoc], rfl, rfl, rfl,
      by simp only [NoticeBody.bytes, List.append_assoc], rfl, by simp only [NoticeBody.bytes, List.append_assoc]⟩
  · simp only [fields_cons, fields_nil, List.append_nil]
    exact ⟨rfl, by simp only [NoticeBody.bytes, List.append_assoc], rfl,
      by simp only [NoticeBody.bytes, nameByte_eq, List.append_assoc]⟩
  · simp only [fields_cons, fields_nil, List.append_nil]
    exact ⟨rfl, by simp only [NoticeBody.bytes, List.append_assoc], rfl,
      by simp only [NoticeBody.bytes, nameByte_eq, List.append_assoc]⟩
  · rw [txPin_sending running sending hi hj bit]
    refine ⟨fun start => ?_, fun stop => ?_, fun first last => ?_⟩
    · subst start; rfl
    · subst stop; rfl
    · rw [characterLevels_data _ first last]
      cases (x.frame.wire.getD i 0).getLsbD (j - 1) <;> simp

end Sys2Proof.Machine
end

section
/-! PROOFS. What follows the status in a reply (09, sections 9.2, 9.3 and 9.5): every reply's bytes as fields, an absent item with the
value that stands for it. -/

namespace Sys2Proof.Machine

set_option Elab.async false

/-! ## Items that may be absent (R178) -/

theorem tickBytes_eq (t : Option Tick) : tickBytes t = leBytes 8 (t.getD 0xFFFFFFFFFFFFFFFF) := by
  cases t <;> rfl

theorem sessionByte_eq (k : Option SessionId) : sessionByte k = leBytes 1 ((k.map fun k => k.val + 1).getD 0) := by
  cases k <;> rfl

theorem cursorBytes_eq (cursor : Option (StepList × Nat)) : cursorBytes cursor =
    leBytes 1 ((cursor.map fun c => c.1.code).getD 0xFF) ++ leBytes 1 ((cursor.map Prod.snd).getD 0) := by
  cases cursor <;> rfl

theorem slotEntryBytes_eq (entry : Option Entry) : slotEntryBytes entry =
    leBytes 1 ((entry.map fun e => e.kind.code).getD 0) ++ leBytes 8 ((entry.map Entry.due).getD 0xFFFFFFFFFFFFFFFF) := by
  cases entry <;> rfl

/-- The code and the tick that stand for a generator's next event. -/
theorem nextEventBytes_eq {next : Option NextEvent} {code : Nat} {due : Tick}
    (h : (next = none ∧ code = 0 ∧ due = 0xFFFFFFFFFFFFFFFF) ∨ (next = some (.rise due) ∧ code = 1) ∨
      (next = some (.fall due) ∧ code = 2) ∨ (next = some (.finish due) ∧ code = 3)) :
    nextEventBytes next = leBytes 1 code ++ leBytes 8 due := by
  rcases h with ⟨rfl, rfl, rfl⟩ | ⟨rfl, rfl⟩ | ⟨rfl, rfl⟩ | ⟨rfl, rfl⟩ <;> rfl

/-! ## Lists of fields (R178) -/

theorem fields_append (xs ys : List (Nat × Nat)) : fields (xs ++ ys) = fields xs ++ fields ys :=
  List.flatMap_append

theorem fields_flatMap {α : Type} (xs : List α) (f : α → List (Nat × Nat)) :
    fields (xs.flatMap f) = xs.flatMap fun x => fields (f x) :=
  List.flatMap_assoc

/-! ## The replies (09, section 9.5) -/

theorem Entry.itemBytes_eq (e : Entry) : e.itemBytes =
    fields [(2, e.handle), (1, e.kind.code), (1, e.kind.subject), (1, e.kind.levelCode), (8, e.due)] := by
  simp only [Entry.itemBytes, fields_cons, fields_nil, List.append_assoc, List.append_nil]

theorem PortReport.bytes_eq (x : PortReport) : x.bytes = fields [(2, x.crc), (2, x.gap), (2, x.length), (2, x.overrun),
    (2, x.brk), (1, x.slots), (1, x.sessions)] := by
  simp only [PortReport.bytes, fields_cons, fields_nil, List.append_assoc, List.append_nil]

/-- Settles O59: both sides are sized numbers one after the other (`fields_cons`), the model's in the order of its writers, and what
may be absent is the number that stands for it (`tickBytes_eq`, `nextEventBytes_eq`). -/
theorem replyBytes : Obligations.ReplyBytes := by
  unfold Obligations.ReplyBytes
  intro absent
  refine ⟨by decide, fun e v n => ⟨rfl, rfl, rfl⟩, fun u b => ⟨rfl, rfl, rfl, rfl⟩, rfl,
    fun k p n u next lost waiting => ?session, fun x => ?status, fun u a b c d => ?snapshot, fun a b => ?ports,
    fun l u faulted mode v => ?lease, fun x => ?line, fun total next items => ?entries, fun l i list n v => rfl,
    fun i h start u state failed why => ?slot, fun x => ?slotRecord, fun w x v after => ?watch, fun e v n => rfl,
    fun x u state next => ⟨?cadRun, fun code due event => ?generator⟩⟩
  all_goals simp only [ReplyData.bytes, fields_append, fields_flatMap, fields_cons, fields_nil, List.append_assoc,
    List.append_nil]
  case session | lease => simp only [and_self]
  case status => simp only [StatusReport.bytes, tickBytes_eq, List.append_assoc, absent]
  case ports =>
    simp only [PortReport.bytes_eq, fields_cons, fields_nil, List.flatMap_cons, List.flatMap_nil, List.append_nil]
  case line => simp only [LineReport.bytes, tickBytes_eq, sessionByte_eq, nameByte_eq, List.append_assoc, absent]
  case entries => simp only [funext Entry.itemBytes_eq, fields_cons, fields_nil, List.append_nil]
  case slot => simp only [nameByte_eq, and_self]
  case slotRecord =>
    simp only [SlotReport.bytes, sessionByte_eq, cursorBytes_eq, slotEntryBytes_eq, tickBytes_eq, nameByte_eq,
      List.append_assoc, absent]
  case watch =>
    simp only [Watch.ackBytes, Watch.dropBytes, Watch.recordBytes, tickBytes_eq, List.append_assoc, absent, and_self]
  case generator =>
    simp only [Generator.bytes, sessionByte_eq, nameByte_eq, tickBytes_eq, nextEventBytes_eq event, List.append_assoc,
      absent]

end Sys2Proof.Machine
end

section
/-! PROOFS. What every command has in common (00_scope, section 2.2), and the state after reset (R1, R67, R68, R103, R119, R139, R176). -/

namespace Sys2Proof.Machine

set_option Elab.async false

/-! ## The queue of commands -/

/-- Settles O1: `step` takes the command at the front of the queue. -/
theorem stepRunsFrontCommand : Obligations.StepRunsFrontCommand := by
  unfold Obligations.StepRunsFrontCommand
  intro s c rest front
  simp only [step, front]

/-- The commands that wait are the same. -/
def SameQueue (s t : State) : Prop :=
  t.pending = s.pending

theorem SameQueue.of_changes {parts : List Part} {s t u : State} (h : SameQueue s t) (hc : ChangesOnly parts t u)
    (hp : Part.pending ∉ parts := by decide) : SameQueue s u :=
  (hc .pending hp).trans h

/-- No command faults or is refused: every arm of the dispatch answers a next state. -/
theorem exec_completes (c : Instr) (s : State) : ∃ t : State, exec c s = .next t := by
  cases c <;> exact ⟨_, rfl⟩

/-- Only a step takes commands from the queue: no command touches it, a full reset included. -/
theorem exec_leaves_queue {c : Instr} {s t : State} (he : exec c s = .next t) : SameQueue s t :=
  exec_keeps (Pre := SameQueue s) (Post := SameQueue s)
    (weak := fun _ h => h)
    (frame := fun _ _ hc h => h.of_changes hc)
    (ho := fun p r u h => h.of_changes (serveOpen_changes p r u))
    (hs := fun type p k pl u h _ => h.of_changes (serve_changes type p k pl u))
    (check := fun u k h => h.of_changes (checkClosing_changes u k))
    (receive := fun u p b h => h.of_changes (receiveByte_changes u p b))
    (gap := fun u p h => (h.of_changes (setReceiver_changes u p .hunt)).of_changes (modPort_changes _ p _))
    (brk := fun u p h => h.of_changes (takeBreak_changes u p))
    (sent := fun u p f h => h.of_changes (endTransmission_changes u p f))
    (start := fun u cause pin h => (startUp_pending u cause pin).trans h)
    (clear := fun _ h => ⟨h, h⟩)
    (edge := fun u l h => h.of_changes (senseEdge_changes u l))
    (fault := fun u l h => h.of_changes (faultLine_changes u l))
    (burst := fun u l h => h.of_changes (modLine_changes u l _))
    (taken := fun u e h _ => h.of_changes (takeEntry_changes u e))
    (expiry := fun u l k _ h => (h.of_changes (leaveQueue_changes u k l)).of_changes (notify_changes _ k _))
    (lapse := fun u k cause h => h.of_changes (enterClosing_changes u k cause))
    (begin := fun u g tick h _ => h.of_changes (beginCycles_changes u g tick))
    (low := fun u g _ h _ => (h.of_changes (modGenerator_changes u g _)).of_changes (ownWrite_changes _ _ _))
    (cycle := fun u g tick h _ => h.of_changes (endCycle_changes u g tick))
    (raw := fun u l _ h => ⟨h.of_changes (modLine_changes u l _), h.of_changes (modLine_changes u l _)⟩)
    (idle := fun u p h => h.of_changes (modPort_changes u p _))
    rfl he

/-- Settles O3: every command completes (`exec_completes`), and leaves the queue (`exec_leaves_queue`). -/
theorem everyCommandCompletes : Obligations.EveryCommandCompletes := by
  unfold Obligations.EveryCommandCompletes
  intro c s
  obtain ⟨t, taken⟩ := exec_completes c s
  exact ⟨t, taken, exec_leaves_queue taken⟩

/-! ## The state after reset -/

/-- After reset both transmitters are under way with the STARTUP frame. -/
theorem reset_workConserving : WorkConserving State.reset := by
  intro p idle
  cases p <;> cases idle

theorem reset_inboundOk : InboundOk State.reset := by
  intro p
  cases p <;> exact ⟨Nat.zero_le _, Nat.zero_le _⟩

/-- Settles O7: at reset every cell has its reset values, and every other record is free. -/
theorem resetMeetsInvariants : Obligations.ResetMeetsInvariants := by
  unfold Obligations.ResetMeetsInvariants
  have slots : ∀ i : SlotId, State.reset.slots[i] = Slot.free := fun i => by simp [State.reset]
  have timeline : TimelineKept True 0 State.reset := .of_empty (by decide) rfl rfl rfl
  refine ⟨fun l => ?lines, .of_empty slots rfl, reset_workConserving, reset_inboundOk, .of_free fun k => ?sessions,
    timeline.1, (timeline.2 trivial).2.1, .of_free fun g => ?generators, .of_empty slots rfl, .of_empty fun l => ?leases,
    .of_none fun w => ?watches⟩
  case lines =>
    have cell : State.reset.lines[l] = LineCell.reset .high := by simp [State.reset]
    exact cell ▸ LineCell.reset_ok l .high
  all_goals simp [State.reset]

end Sys2Proof.Machine
end

section
/-! PROOFS. What a level write, a SETUP, a parting state, a sample of the pin, a contention fault and the end of a burst do to a line cell
(01, sections 1.2 to 1.5; 02, section 2.4). -/

namespace Sys2Proof.Machine

set_option Elab.async false

/-! ## The mismatch window (R12) -/

section
variable {c : LineCell} {now : Tick} {restart : Bool}

/-- Only the window changes. -/
theorem LineCell.rewindow_eq (c : LineCell) (now : Tick) (restart : Bool) :
    c.rewindow now restart = { c with window := (c.rewindow now restart).window } := rfl

/-- The window is closed where the check does not run, nothing is driven, or the sensed level is the driven one. -/
theorem LineCell.rewindow_closed (h : c.check = false ∨ c.driven = none ∨ c.driven = some c.sensed) :
    (c.rewindow now restart).window = none := by
  unfold LineCell.rewindow
  rcases h with off | undriven | agrees
  · simp only [off, Bool.false_and, Bool.false_eq_true, if_false]
    split <;> rfl
  · simp only [undriven]
  · simp [agrees]

/-- Elsewhere a drive change starts the window anew, and no other event moves the start of an open one. -/
theorem LineCell.rewindow_open {d : Level} (runs : c.check = true) (drives : c.driven = some d) (differs : d ≠ c.sensed) :
    (c.rewindow now restart).window = some (if restart then now else c.window.getD now) := by
  unfold LineCell.rewindow
  cases restart <;> simp [runs, drives, differs.symm]

end

/-! ## A level write (R2 to R6, R12) -/

/-- The cell with this level written to it, its window as it was. -/
def LineCell.written (c : LineCell) (now : Tick) (v : Level) : LineCell :=
  { c with commanded := v, phase := c.phaseAfter now v }

section
variable {c : LineCell} {now : Tick} {v d : Level}

/-- A level write is a drive change where it changes the driven level. -/
theorem LineCell.writeLevel_eq (c : LineCell) (now : Tick) (v : Level) : c.writeLevel now v =
    (c.written now v).rewindow now (decide ((c.written now v).driven ≠ c.driven)) := rfl

theorem LineCell.writeLevel_window_started (runs : c.check = true) (drives : (c.writeLevel now v).driven = some d)
    (differs : d ≠ c.sensed) (changes : c.driven ≠ some d) : (c.writeLevel now v).window = some now := by
  have written : (c.written now v).driven = some d := drives
  have change : (c.written now v).driven ≠ c.driven := fun same => changes (same.symm.trans written)
  rw [LineCell.writeLevel_eq, LineCell.rewindow_open (c := c.written now v) runs written differs,
    if_pos (decide_eq_true change)]

theorem LineCell.writeLevel_window_kept (runs : c.check = true) (drives : (c.writeLevel now v).driven = some d)
    (differs : d ≠ c.sensed) (drove : c.driven = some d) : (c.writeLevel now v).window = some (c.window.getD now) := by
  have written : (c.written now v).driven = some d := drives
  rw [LineCell.writeLevel_eq, LineCell.rewindow_open (c := c.written now v) runs written differs, written, drove,
    if_neg (by simp)]
  rfl

/-- HIGH starts a burst in ASSIST mode where LOW was commanded, and nowhere else. -/
theorem LineCell.phaseAfter_keeps (h : c.mode ≠ .assist ∨ c.commanded = .high) : c.phaseAfter now .high = c.phase :=
  if_neg fun ⟨assist, low⟩ => h.elim (· assist) fun high => by rw [high] at low; cases low

end

/-! ## SETUP (R5, R6, R12, R18) -/

section
variable {c : LineCell} {now : Tick} {f : SetupFields}

theorem LineCell.phaseAfterSetup_idle (h : f.mode ≠ .assist ∨ f.level = .low) : c.phaseAfterSetup now f = .idle :=
  if_neg fun ⟨assist, high⟩ => h.elim (· assist) fun low => by rw [high] at low; cases low

/-- In ASSIST mode with HIGH commanded the phase turns on the level and the mode before the write. -/
theorem LineCell.phaseAfterSetup_assist (assist : f.mode = .assist) (high : f.level = .high) : c.phaseAfterSetup now f =
    if c.commanded = .low then .driving (now + f.assist) else if c.mode = .assist then c.phase else .idle :=
  if_pos ⟨assist, high⟩

/-- A filter change in progress counts from this tick, where the sensed level was set before it (log 14). -/
theorem LineCell.setup_change (progress : c.change ≠ none) (before : c.sensedAt ≠ now) :
    (c.setup now f).change = some now := by
  obtain ⟨u, begun⟩ := Option.ne_none_iff_exists'.mp progress
  show c.change.map (fun _ => c.sampleTick now) = some now
  rw [begun, Option.map_some, LineCell.sampleTick, if_neg before]

theorem LineCell.setup_window_closed (h : f.check = false ∨ (c.setup now f).driven = none ∨
    (c.setup now f).driven = some c.sensed) : (c.setup now f).window = none :=
  LineCell.rewindow_closed h

theorem LineCell.setup_window_started {d : Level} (runs : f.check = true) (drives : (c.setup now f).driven = some d)
    (differs : d ≠ c.sensed) : (c.setup now f).window = some now :=
  LineCell.rewindow_open runs drives differs

end

/-! ## A parting state (R34, R35) -/

/-- The cell that drives this level in PUSH mode, its window as it was. -/
def LineCell.pushed (c : LineCell) (v : Level) : LineCell :=
  { c with mode := .push, commanded := v, phase := .idle }

section
variable {c : LineCell} {now : Tick} {v : Level}

/-- LOW and HIGH are the same write, which is a drive change where the mode or the driven level changes. -/
theorem LineCell.applyParting_level {x : Parting} (unfaulted : c.fault = .none)
    (level : x = .low ∧ v = .low ∨ x = .high ∧ v = .high) : c.applyParting now x =
      (c.pushed v).rewindow now (decide (c.mode ≠ .push) || decide ((c.pushed v).driven ≠ c.driven)) := by
  unfold LineCell.applyParting
  rw [if_neg (Bool.eq_false_iff.mp (faulted_false unfaulted))]
  rcases level with ⟨rfl, rfl⟩ | ⟨rfl, rfl⟩ <;> rfl

theorem LineCell.applyParting_none {x : Parting} (h : c.fault ≠ .none ∨ x = .keep) : c.applyParting now x = c := by
  unfold LineCell.applyParting
  rcases h with fault | rfl
  · exact if_pos ((faulted_iff c).mpr fault)
  · exact ite_self c

theorem LineCell.applyParting_float (unfaulted : c.fault = .none) :
    c.applyParting now .float = { c with mode := .input, pull := true, phase := .idle, window := none } := by
  unfold LineCell.applyParting
  exact if_neg (Bool.eq_false_iff.mp (faulted_false unfaulted))

/-- In PUSH mode the driven level is the commanded one. -/
theorem LineCell.driven_of_push (push : c.mode = .push) : c.driven = some c.commanded := by
  simp only [LineCell.driven, push]

theorem LineCell.pushed_changes_iff : (decide (c.mode ≠ .push) || decide ((c.pushed v).driven ≠ c.driven)) = true ↔
    c.mode ≠ .push ∨ c.commanded ≠ v := by
  rw [Bool.or_eq_true, decide_eq_true_iff, decide_eq_true_iff]
  by_cases push : c.mode = .push
  · rw [LineCell.driven_of_push push, LineCell.driven_of_push (c := c.pushed v) rfl]
    simp [push, LineCell.pushed, eq_comm]
  · simp only [ne_eq, push, not_false_eq_true, true_or]

end

/-- Settles O32: each of the three is a new cell whose window `rewindow` then sets (`rewindow_closed`, `rewindow_open`); what tells their
windows apart is which of them is a drive change. -/
theorem cellWrites : Obligations.CellWrites := by
  unfold Obligations.CellWrites
  refine ⟨fun c now v => ?write, fun c now f => ?setup, fun c now x => ?parting⟩
  case write =>
    refine ⟨c.phaseAfter now v, (c.writeLevel now v).window, rfl, ?low, ?starts, ?keeps,
      LineCell.rewindow_closed (c := c.written now v), fun d => LineCell.writeLevel_window_started,
      fun d => LineCell.writeLevel_window_kept⟩
    case low => rintro rfl; rfl
    case starts => rintro rfl assist low; exact if_pos ⟨assist, low⟩
    case keeps => rintro rfl; exact LineCell.phaseAfter_keeps
  case setup =>
    have phase := LineCell.phaseAfterSetup_assist (c := c) (now := now) (f := f)
    refine ⟨c.phaseAfterSetup now f, (c.setup now f).change, (c.setup now f).window, rfl, LineCell.phaseAfterSetup_idle,
      fun assist high low => (phase assist high).trans (if_pos low), fun assist high was inAssist => ?stays,
      fun assist high was other => ?ends, fun idle => congrArg (Option.map _) idle, LineCell.setup_change,
      LineCell.setup_window_closed, fun d => LineCell.setup_window_started⟩
    case stays => rw [phase assist high, was, if_neg (by decide), if_pos inAssist]
    case ends => rw [phase assist high, was, if_neg (by decide), if_neg other]
  case parting =>
    refine ⟨LineCell.applyParting_none, fun unfaulted float => float ▸ LineCell.applyParting_float unfaulted,
      fun v unfaulted level => ?_⟩
    rw [LineCell.applyParting_level unfaulted level]
    have drives : (c.pushed v).driven = some v := LineCell.driven_of_push rfl
    refine ⟨_, LineCell.rewindow_eq _ _ _, fun closed => LineCell.rewindow_closed ?_, fun runs differs changes => ?_,
      fun runs differs push same => ?_⟩
    · exact closed.imp_right fun agrees => .inr (drives.trans (congrArg some agrees))
    · rw [LineCell.rewindow_open (c := c.pushed v) runs drives differs, if_pos (LineCell.pushed_changes_iff.mpr changes)]
    · rw [LineCell.rewindow_open (c := c.pushed v) runs drives differs, if_neg fun change =>
        (LineCell.pushed_changes_iff.mp change).elim (· push) (· same)]
      rfl

/-! ## The events of a line (R5, R9, R12, R13) -/

/-- A sample that differs from the sensed level leaves a change in progress its start, and otherwise begins one. -/
theorem LineCell.sample_change {c : LineCell} {v : Level} (now : Tick) (differs : v ≠ c.sensed) :
    (c.sample now v).change = some (c.change.getD (c.sampleTick now)) :=
  if_neg differs

theorem faultDue_iff {c : LineCell} {now : Tick} : c.faultDue now = true ↔ ∃ u : Tick, c.window = some u ∧ u + c.settle ≤ now := by
  unfold LineCell.faultDue
  cases c.window <;> simp

theorem burstDue_iff {c : LineCell} {now : Tick} : c.burstDue now = true ↔ ∃ u : Tick, c.phase = .driving u ∧ u ≤ now := by
  unfold LineCell.burstDue
  cases c.phase <;> simp

section
variable {s : State} {l : LineId}

theorem exec_contentionFault_early (early : ¬s.lines[l].faultDue s.tick = true) : exec (.contentionFault l) s = .next s := by
  show execContentionFault l s = _
  rw [execContentionFault, if_neg fun due => early due.2]

theorem exec_contentionFault_due (free : s.heldInReset = false) (due : s.lines[l].faultDue s.tick = true) :
    exec (.contentionFault l) s = .next (s.faultLine l).settle := by
  show execContentionFault l s = _
  rw [execContentionFault, if_pos ⟨free, due⟩]

theorem exec_assistBurstEnd_early (early : ¬s.lines[l].burstDue s.tick = true) : exec (.assistBurstEnd l) s = .next s := by
  show execAssistBurstEnd l s = _
  rw [execAssistBurstEnd, if_neg fun due => early due.2]

theorem exec_assistBurstEnd_due (free : s.heldInReset = false) (due : s.lines[l].burstDue s.tick = true) :
    exec (.assistBurstEnd l) s = .next (s.modLine l LineCell.endBurst) := by
  show execAssistBurstEnd l s = _
  rw [execAssistBurstEnd, if_pos ⟨free, due⟩]

/-- The cell takes the fault and its holder is told, before the report to the Cadence Unit. -/
def State.faultTold (s : State) (l : LineId) : State :=
  (s.modLine l (LineCell.takeFault s.tick)).notifyOwner (s.holder l)
    (.contention l s.lines[l].commanded s.lines[l].sensed s.tick)

theorem faultLine_eq (s : State) (l : LineId) : s.faultLine l = (s.faultTold l).stopBound l .fault := rfl

theorem faultTold_changes (s : State) (l : LineId) : ChangesOnly [.lines, .numbers, .queues] s (s.faultTold l) :=
  (modLine_changes s l _).andThen (notifyOwner_changes _ _ _)

/-- The fault touches no other line. -/
theorem faultLine_lineBecomes (s : State) (l : LineId) : LineBecomes s (s.faultLine l) l (s.lines[l].takeFault s.tick) :=
  ((modLine_lineBecomes s l _).of_changes (notifyOwner_changes _ _ _)).of_changes (stopBound_changes _ l .fault)

theorem faultLine_generatorStopped (hb : BoundOk s) : GeneratorStopped s (s.faultLine l) l := fun g => by
  have told := faultTold_changes s l
  rw [faultLine_eq, stopBound_generators (hb.of_changes told), told.generator g]

/-- The holder is told first, and then the owner of the generator. -/
theorem made_faultLine (hb : BoundOk s) : Made s (s.faultLine l) ((match s.holder l with
    | some k => [(k, .contention l s.lines[l].commanded s.lines[l].sensed s.tick)]
    | none => []) ++ s.cadEnds l .fault) := by
  have told := faultTold_changes s l
  have stopped := made_stopBound (hb.of_changes told) l .fault
  rw [cadEnds_congr told] at stopped
  exact (Made.after (modLine_changes s l _) (made_notifyOwner _ (s.holder l) _)).andThen told stopped

end

/-- Settles O34: a sample is `sample_change`, the fault is told to the holder and then reported (`made_faultLine`), and either event turns
on its tick (`faultDue_iff`, `burstDue_iff`). -/
theorem lineCellEvents : Obligations.LineCellEvents := by
  unfold Obligations.LineCellEvents
  intro s l free
  refine ⟨fun v => ?sample, ?fault, ?burst⟩
  case sample =>
    have change := LineCell.sample_change (c := s.lines[l]) (v := v) s.tick
    refine ⟨s.modLine l (LineCell.sample s.tick v), (s.lines[l].sample s.tick v).change, ?_, modLine_lineBecomes s l _,
      modLine_changes s l _, fun same => if_pos same, fun u differs begun => ?_, fun differs idle before => ?_⟩
    · simp only [exec, execRawLevelChange, free, Bool.false_eq_true, if_false]
    · rw [change differs, begun, Option.getD_some]
    · rw [change differs, idle, Option.getD_none, LineCell.sampleTick, if_neg before]
  case fault =>
    by_cases due : s.lines[l].faultDue s.tick = true
    · refine ⟨_, exec_contentionFault_due free due, fun early => ?_, fun u _ _ hb => ?_⟩
      · obtain ⟨u, window, reached⟩ := faultDue_iff.mp due
        rcases early with closed | ⟨v, window', early⟩
        · rw [closed] at window; cases window
        · cases window.symm.trans window'
          exact absurd reached (Nat.not_le.mpr early)
      · have settles := settle_changes (s.faultLine l)
        exact ⟨(faultLine_lineBecomes s l).of_changes settles,
          fun g => (settles.generator g).trans (faultLine_generatorStopped hb g),
          makes_settle (faultLine_changes s l) (made_faultLine hb)⟩
    · exact ⟨s, exec_contentionFault_early due, fun _ => rfl, fun u window reached _ =>
        absurd (faultDue_iff.mpr ⟨u, window, reached⟩) due⟩
  case burst =>
    by_cases due : s.lines[l].burstDue s.tick = true
    · refine ⟨_, exec_assistBurstEnd_due free due, fun u _ _ => ⟨modLine_lineBecomes s l _, modLine_changes s l _⟩,
        fun early => ?_⟩
      obtain ⟨u, phase, reached⟩ := burstDue_iff.mp due
      rcases early with idle | ⟨v, phase', early⟩
      · rw [idle] at phase; cases phase
      · cases phase.symm.trans phase'
        exact absurd reached (Nat.not_le.mpr early)
    · exact ⟨s, exec_assistBurstEnd_early due, fun u phase reached => absurd (burstDue_iff.mpr ⟨u, phase, reached⟩) due,
        fun _ => rfl⟩

end Sys2Proof.Machine
end

section
/-! PROOFS. What a port makes of the bytes of a frame that arrive at one tick (08, sections 8.2 and 8.3; 07, section 7.3). -/

namespace Sys2Proof.Machine

set_option Elab.async false

/-! ## The receiver -/

theorem setReceiver_receiver (s : State) (p : Port) (r : Receiver) : ((s.setReceiver p r).port p).receiver = r := by
  rw [State.setReceiver, State.modPort_port_same]

/-- Only the latest state of the receiver counts. -/
theorem setReceiver_again (s : State) (p : Port) (r r' : Receiver) :
    (s.setReceiver p r).setReceiver p r' = s.setReceiver p r' := by
  cases p <;> rfl

theorem setReceiver_self {s : State} {p : Port} {r : Receiver} (h : (s.port p).receiver = r) : s.setReceiver p r = s := by
  subst h
  cases p <;> rfl

theorem setReceiver_tick (s : State) (p : Port) (r : Receiver) : (s.setReceiver p r).tick = s.tick :=
  State.modPort_tick s p _

/-! ## One byte, by the state of the receiver (R161, R162) -/

section
variable {s : State} {p : Port} {b : Byte}

theorem receiveByte_sync (hunt : (s.port p).receiver = .hunt) :
    s.receiveByte p 0xD5#8 = s.setReceiver p (.length s.tick) := by
  simp only [State.receiveByte, hunt, Config.syncByte, if_true]

theorem receiveByte_noSync (hunt : (s.port p).receiver = .hunt) (other : b ≠ 0xD5#8) : s.receiveByte p b = s := by
  simp only [State.receiveByte, hunt, Config.syncByte, other, if_false]

/-- A length byte out of range is counted, and the receiver hunts again. -/
theorem receiveByte_badLength {u : Tick} (h : b.toNat < 3 ∨ 120 < b.toNat) : (s.setReceiver p (.length u)).receiveByte p b =
    (s.setReceiver p .hunt).modPort p fun c => { c with length := saturate Config.max16 c.length } := by
  have range : ¬(Config.minBody ≤ b.toNat ∧ b.toNat ≤ Config.maxBody) := by
    simp only [Config.minBody, Config.maxBody]; omega
  simp only [State.receiveByte, setReceiver_receiver, if_neg range, setReceiver_again]

theorem receiveByte_length {u : Tick} (low : 3 ≤ b.toNat) (high : b.toNat ≤ 120) :
    (s.setReceiver p (.length u)).receiveByte p b = s.setReceiver p (.body b.toNat [] s.tick) := by
  have range : Config.minBody ≤ b.toNat ∧ b.toNat ≤ Config.maxBody := ⟨low, high⟩
  simp only [State.receiveByte, setReceiver_receiver, if_pos range, setReceiver_again, setReceiver_tick]

theorem receiveByte_body {u : Tick} {len : Nat} {got : List Byte} (more : (got ++ [b]).length < len) :
    (s.setReceiver p (.body len got u)).receiveByte p b = s.setReceiver p (.body len (got ++ [b]) s.tick) := by
  simp only [State.receiveByte, setReceiver_receiver, if_pos more, setReceiver_again, setReceiver_tick]

theorem receiveByte_bodyLast {u : Tick} {len : Nat} {got : List Byte} (last : (got ++ [b]).length = len) :
    (s.setReceiver p (.body len got u)).receiveByte p b = s.setReceiver p (.check (got ++ [b]) none s.tick) := by
  have complete : ¬(got ++ [b]).length < len := last.symm ▸ lt_irrefl len
  simp only [State.receiveByte, setReceiver_receiver, if_neg complete, setReceiver_again, setReceiver_tick]

theorem receiveByte_checkLow {u : Tick} {body : List Byte} :
    (s.setReceiver p (.check body none u)).receiveByte p b = s.setReceiver p (.check body (some b) s.tick) := by
  simp only [State.receiveByte, setReceiver_receiver, setReceiver_again, setReceiver_tick]

theorem receiveByte_checkHigh {u : Tick} {body : List Byte} {low : Byte} :
    (s.setReceiver p (.check body (some low) u)).receiveByte p b =
      (s.setReceiver p .hunt).judgeFrame p body (low.toNat + 256 * b.toNat) := by
  simp only [State.receiveByte, setReceiver_receiver, setReceiver_again]

end

/-! ## The bytes of a frame -/

/-- The bytes of a body, of which some have been got: at the last one the check bytes are next. -/
theorem receiveBody (s : State) (p : Port) {len : Nat} {rest : List Byte} (nonempty : rest ≠ []) (got : List Byte) (u : Tick)
    (whole : (got ++ rest).length = len) : rest.foldl (fun t b => t.receiveByte p b) (s.setReceiver p (.body len got u)) =
      s.setReceiver p (.check (got ++ rest) none s.tick) := by
  induction rest generalizing got u with
  | nil => exact absurd rfl nonempty
  | cons b rest ih =>
    rw [List.foldl_cons]
    rw [List.append_cons] at whole ⊢
    by_cases last : rest = []
    · subst last
      rw [List.append_nil] at whole ⊢
      exact receiveByte_bodyLast whole
    · have more : (got ++ [b]).length < len := by
        rw [← whole, List.length_append (as := got ++ [b])]
        exact Nat.lt_add_of_pos_right (List.length_pos_iff.mpr last)
      rw [receiveByte_body more]
      exact ih last _ _ whole

section
variable {s : State} {p : Port}

theorem exec_frameReceived (free : s.heldInReset = false) (listens : (s.port p).awaitsIdle = false) (bytes : List Byte) :
    exec (.frameReceived p bytes) s = .next (bytes.foldl (fun t b => t.receiveByte p b) s) := by
  simp only [exec, execFrameReceived, free, listens, Bool.or_self, Bool.false_eq_true, if_false]

/-- A whole frame from HUNT comes to its judgement, with the receiver in HUNT again. -/
theorem receiveFrame (hunt : (s.port p).receiver = .hunt) {body : List Byte} (short : 3 ≤ body.length)
    (long : body.length ≤ 120) (low high : Byte) :
    (0xD5#8 :: (BitVec.ofNat 8 body.length :: body) ++ [low, high]).foldl (fun t b => t.receiveByte p b) s =
      s.judgeFrame p body (low.toNat + 256 * high.toNat) := by
  have len : (BitVec.ofNat 8 body.length).toNat = body.length := by
    rw [BitVec.toNat_ofNat]; exact Nat.mod_eq_of_lt (by omega)
  have nonempty : body ≠ [] := List.length_pos_iff.mp (by omega)
  have covered : (0xD5#8 :: BitVec.ofNat 8 body.length :: body).foldl (fun t b => t.receiveByte p b) s =
      s.setReceiver p (.check body none s.tick) := by
    rw [List.foldl_cons, List.foldl_cons, receiveByte_sync hunt, receiveByte_length (by omega) (by omega), len]
    exact receiveBody s p nonempty [] s.tick rfl
  rw [List.foldl_append, covered, List.foldl_cons, List.foldl_cons, List.foldl_nil, receiveByte_checkLow,
    receiveByte_checkHigh, setReceiver_self hunt]

/-! ## The judgement of a whole frame (R162, R164) -/

theorem judgeFrame_badCrc {body : List Byte} {crc : Nat} (bad : crc ≠ bodyCrc body) :
    s.judgeFrame p body crc = s.modPort p fun c => { c with crc := saturate Config.max16 c.crc } :=
  if_pos bad.symm

theorem judgeFrame_otherClass {body : List Byte} {crc : Nat} (good : crc = bodyCrc body) (other : field1 body 0 / 16 ≠ 1) :
    s.judgeFrame p body crc = s := by
  rw [State.judgeFrame, if_neg (not_not.mpr good.symm), if_neg other]

theorem judgeFrame_request {body : List Byte} {crc : Nat} (good : crc = bodyCrc body) (request : field1 body 0 / 16 = 1) :
    s.judgeFrame p body crc = s.acceptRequest p (requestOf body) := by
  rw [State.judgeFrame, if_neg (not_not.mpr good.symm), if_pos request]

theorem acceptRequest_full {r : Request} (full : 4 ≤ (s.port p).inbound.length) :
    s.acceptRequest p r = s.modPort p fun c => { c with overrun := saturate Config.max16 c.overrun } :=
  if_neg (Nat.not_lt.mpr full)

theorem acceptRequest_room {r : Request} (room : (s.port p).inbound.length < 4) :
    s.acceptRequest p r = (s.refresh p r).modPort p fun c => { c with inbound := c.inbound ++ [.waiting r] } :=
  if_pos room

/-! ## The session that a request names (R140, R142) -/

theorem sessionOf_number (k : SessionId) : sessionOf (k.val + 1) = some k :=
  nameOf_val k

theorem speaker_eq_some_iff {r : Request} {k : SessionId} : s.speaker p r = some k ↔
    r.session = k.val + 1 ∧ s.sessions[k].state = .opened ∧ s.sessions[k].port = some p := by
  constructor
  · intro speaks
    refine ⟨?_, speaker_opened speaks⟩
    unfold State.speaker at speaks
    split at speaks
    · cases speaks
    · rename_i names
      split at speaks
      · cases speaks; exact sessionOf_some names
      · cases speaks
  · rintro ⟨names, opened⟩
    simp only [State.speaker, names, sessionOf_number, if_pos opened]

theorem refresh_port (s : State) (p : Port) (r : Request) (q : Port) : (s.refresh p r).port q = s.port q := by
  unfold State.refresh
  split
  · rfl
  · exact State.modSession_port s _ _ q

/-- A request refreshes the session that it names, when that is OPEN on this port, and no other. -/
theorem refresh_session (s : State) (p : Port) (r : Request) (k : SessionId) : (s.refresh p r).sessions[k] =
    if r.session = k.val + 1 ∧ s.sessions[k].state = .opened ∧ s.sessions[k].port = some p
      then { s.sessions[k] with lastHeard := some s.tick } else s.sessions[k] := by
  unfold State.refresh
  split
  · rename_i silent
    rw [if_neg fun names => by rw [speaker_eq_some_iff.mpr names] at silent; cases silent]
  · rename_i j speaks
    rw [State.modSession_get]
    by_cases same : k = j
    · rw [if_pos same, same, if_pos (speaker_eq_some_iff.mp speaks)]
    · rw [if_neg same, if_neg fun names => same (Option.some.inj ((speaker_eq_some_iff.mpr names).symm.trans speaks))]

end

/-- Settles O55: a frame from HUNT comes to its judgement (`receiveFrame`), which turns on its CRC, its class and the slots held. -/
theorem frameReception : Obligations.FrameReception := by
  unfold Obligations.FrameReception
  intro s p free listens hunt
  refine ⟨fun b other => ?noSync, fun b bad => ?badLength, fun body low high short long => ?frame⟩
  case noSync => rw [exec_frameReceived free listens, List.foldl_cons, receiveByte_noSync hunt other, List.foldl_nil]
  case badLength =>
    refine ⟨s.modPort p fun c => { c with length := saturate Config.max16 c.length }, ?_, State.modPort_port_same s p _,
      fun q other => State.modPort_port_ne s _ other, modPort_changes_reception s p _ (by simp)⟩
    rw [exec_frameReceived free listens, List.foldl_cons, List.foldl_cons, List.foldl_nil, receiveByte_sync hunt,
      receiveByte_badLength bad, setReceiver_self hunt]
  case frame =>
    intro covered request good
    refine ⟨s.judgeFrame p body (low.toNat + 256 * high.toNat), ?_, fun q other => ?_, fun bad => ?_, fun crc cls => ?_,
      fun crc cls full => ?_, fun crc cls room => ?_⟩
    · rw [exec_frameReceived free listens, receiveFrame hunt short long]
    · unfold State.judgeFrame State.acceptRequest
      split_ifs
      · exact State.modPort_port_ne s _ other
      · rw [State.modPort_port_ne _ _ other, refresh_port]
      · exact State.modPort_port_ne s _ other
      · rfl
    · rw [judgeFrame_badCrc bad]
      exact ⟨modPort_changes_reception s p _ (by simp), State.modPort_port_same s p _⟩
    · rw [judgeFrame_otherClass crc cls]
      exact ⟨rfl, .refl _ s⟩
    · rw [judgeFrame_request crc cls, acceptRequest_full full]
      exact ⟨modPort_changes_reception s p _ (by simp), State.modPort_port_same s p _⟩
    · rw [judgeFrame_request crc cls, acceptRequest_room room]
      refine ⟨?_, (refresh_changes s p _).andThen (modPort_changes_inbound _ p _), fun k => ?_⟩
      · rw [State.modPort_port_same, refresh_port]
        rfl
      · rw [State.modPort_sessions]
        exact refresh_session s p request k

end Sys2Proof.Machine
end

section
/-! PROOFS. A sensed edge (01, section 1.3; 06, sections 6.1 to 6.6): the cell takes it, every watch and every AWAIT is offered it, and the
notices are those of the watches and then those of the sequences. -/

namespace Sys2Proof.Machine

set_option Elab.async false

/-! ## One watch (R120, R125 to R131) -/

/-- Whether an edge matches a watch is R120's table. -/
theorem covers_eq_matching (kind : WatchKind) (v : Level) : kind.covers v = kind.matching v := by
  have select : ∀ e : EdgeSelect, e.covers v =
      (decide (e = .both) || (decide (e = .rise) && decide (v = .high)) || (decide (e = .fall) && decide (v = .low))) := by
    intro e
    cases e <;> cases v <;> rfl
  cases kind with
  | edge e => exact select e
  | level w => rfl
  | count e n => exact select e

/-- A matching event makes the watch fire exactly when `onMatch` says so. -/
theorem onMatch_fires (now : Tick) (x : Watch) : (x.onMatch now).2 = x.fires := by
  unfold Watch.fires
  cases kind : x.kind with
  | count e n =>
    cases state : x.state with
    | armed => rw [onMatch_count_armed now kind state]; split <;> simp_all
    | pending => rw [onMatch_count_pending now kind state]; split <;> rfl
  | edge e | level w =>
    obtain ⟨armed, pending⟩ := onMatch_plain (r := x) now (by rw [kind]; simp)
    cases state : x.state with
    | armed => rw [armed state]; rfl
    | pending => rw [pending state]; rfl

section
variable (s : State) (l : LineId) (v : Level) (w : WatchId)

/-- What an edge of the line to this level makes of one watch. -/
def State.watchAfter : Option Watch :=
  s.watches[w].map fun x => if x.line = l ∧ x.kind.matching v = true then (x.onMatch s.tick).1 else x

/-- The WATCH.HIT of one watch. -/
def State.hitOf : Option (SessionId × NoticeBody) :=
  s.watches[w].bind fun x => if x.line = l ∧ x.kind.matching v = true ∧ x.fires = true then
    some (x.session, .watchHit w l x.kind v s.tick) else none

theorem hits_eq : s.hits l v = allWatches.flatMap fun w => (s.hitOf l v w).toList := by
  rw [← List.filterMap_eq_flatMap_toList]
  refine congrArg (allWatches.filterMap ·) (funext fun w => ?_)
  unfold State.hitOf
  cases s.watches[w] <;> rfl

/-- Offering the edge to a watch changes that watch as `watchAfter` says, and makes its WATCH.HIT if it fires. -/
theorem offerEdge_offered : WatchBecomes s (s.offerEdge l v w) w (s.watchAfter l v w) ∧
    Made s (s.offerEdge l v w) (s.hitOf l v w).toList := by
  unfold State.offerEdge State.watchAfter State.hitOf
  cases watch : s.watches[w] with
  | none => exact ⟨⟨watch, fun _ _ => rfl⟩, .refl s⟩
  | some x =>
    simp only [covers_eq_matching, onMatch_fires, Option.map_some, Option.bind_some]
    by_cases meets : x.line = l ∧ x.kind.matching v = true
    · obtain ⟨rfl, covers⟩ := meets
      have put := setWatch_watchBecomes s w (some (x.onMatch s.tick).1)
      have silent := setWatch_changes s w (some (x.onMatch s.tick).1)
      by_cases fires : x.fires = true
      · simp only [covers, fires, and_self, if_true]
        exact ⟨put.of_changes (sendHit_changes _ w x v), Made.after silent (made_notify _ _ _)⟩
      · simp only [covers, fires, and_self, if_true]
        exact ⟨put, Made.of_changes silent⟩
    · have none_told : ¬(x.line = l ∧ x.kind.matching v = true ∧ x.fires = true) := fun h => meets ⟨h.1, h.2.1⟩
      rw [if_neg meets, if_neg meets, if_neg none_told]
      exact ⟨⟨watch, fun _ _ => rfl⟩, .refl s⟩

end

/-! ## Every watch -/

section
variable {s u : State} {l : LineId} {v : Level}

/-- What an edge makes of a watch depends on the watch and the tick alone. -/
theorem watchAfter_congr {w : WatchId} (watch : u.watches[w] = s.watches[w]) (tick : u.tick = s.tick) :
    u.watchAfter l v w = s.watchAfter l v w := by
  unfold State.watchAfter
  rw [watch, tick]

theorem hitOf_congr {w : WatchId} (watch : u.watches[w] = s.watches[w]) (tick : u.tick = s.tick) :
    u.hitOf l v w = s.hitOf l v w := by
  unfold State.hitOf
  rw [watch, tick]

theorem offerEdges_changes (ws : List WatchId) (s : State) :
    ChangesOnly [.watches, .numbers, .queues] s (ws.foldl (fun t w => t.offerEdge l v w) s) :=
  ChangesOnly.foldl (fun t w => offerEdge_changes t l v w) ws s

/-- The watches that are not offered the edge stay. -/
theorem offerEdges_other {ws : List WatchId} {w : WatchId} (absent : w ∉ ws) (s : State) :
    (ws.foldl (fun t w => t.offerEdge l v w) s).watches[w] = s.watches[w] := by
  induction ws generalizing s with
  | nil => rfl
  | cons x ws ih =>
    obtain ⟨ne, absent⟩ := not_or.mp (mt List.mem_cons.mpr absent)
    rw [List.foldl_cons, ih absent]
    exact (offerEdge_offered s l v x).1.2 w ne

/-- Each watch that is offered the edge, once, takes it as it was before the first was offered it. -/
theorem offerEdges_watch {ws : List WatchId} (nodup : ws.Nodup) {w : WatchId} (mem : w ∈ ws) (s : State) :
    (ws.foldl (fun t w => t.offerEdge l v w) s).watches[w] = s.watchAfter l v w := by
  obtain ⟨before, after, rfl⟩ := List.append_of_mem mem
  obtain ⟨-, tail, apart⟩ := List.nodup_append.mp nodup
  have early : w ∉ before := fun h => apart w h w List.mem_cons_self rfl
  rw [List.foldl_append, List.foldl_cons, offerEdges_other (List.nodup_cons.mp tail).1, (offerEdge_offered _ l v w).1.1]
  exact watchAfter_congr (offerEdges_other early s) (offerEdges_changes before s).tick

/-- The watches of `u`, which are those of `s`, are told in ascending number. -/
theorem made_offerEdges (watches : ∀ w : WatchId, u.watches[w] = s.watches[w]) (tick : u.tick = s.tick) :
    Made u (allWatches.foldl (fun t w => t.offerEdge l v w) u) (s.hits l v) := by
  rw [hits_eq]
  refine Made.foldl (fun t w => offerEdge_changes t l v w) (fun t w => t.watches[w] = s.watches[w] ∧ t.tick = s.tick) ?_
    allWatches (by decide) u fun before after w cut => ⟨?_, (offerEdges_changes before u).tick.trans tick⟩
  · rintro t w ⟨watch, tick⟩
    rw [← hitOf_congr watch tick]
    exact (offerEdge_offered t l v w).2
  · have nodup : (before ++ w :: after).Nodup := cut ▸ List.nodup_finRange 32
    have early : w ∉ before := fun h => (List.nodup_append.mp nodup).2.2 w h w List.mem_cons_self rfl
    exact (offerEdges_other early u).trans (watches w)

end

/-! ## Every AWAIT (R84, R86) -/

section
variable (s : State) (l : LineId) (v : Level)

/-- The SEQ.END of one slot. -/
def State.awaitEnd (i : SlotId) : List (SessionId × NoticeBody) :=
  match s.slots[i].awaited with
  | some (n, l', v') => if l' = l ∧ v' = v then s.bodyEnds i n else []
  | none => []

theorem awaitEnds_eq : s.awaitEnds l v = allSlots.flatMap (s.awaitEnd l v) := rfl

theorem made_offerAwait (i : SlotId) : Made s (s.offerAwait l v i) (s.awaitEnd l v i) := by
  unfold State.offerAwait State.awaitEnd
  cases s.slots[i].awaited with
  | none => exact .refl s
  | some awaits =>
    obtain ⟨n, l', v'⟩ := awaits
    by_cases meets : l' = l ∧ v' = v
    · simp only [if_pos meets]
      exact made_completeBody (SameRun.refl s i) rfl n
    · simp only [if_neg meets]
      exact .refl s

end

section
variable {s u : State} {l : LineId} {v : Level}

theorem awaitEnd_congr {i : SlotId} (slot : u.slots[i] = s.slots[i]) (tick : u.tick = s.tick) :
    u.awaitEnd l v i = s.awaitEnd l v i := by
  unfold State.awaitEnd State.bodyEnds State.toOwner
  rw [slot, tick]

theorem offerAwaits_changes (is : List SlotId) (s : State) :
    ChangesOnly runParts s (is.foldl (fun t i => t.offerAwait l v i) s) :=
  ChangesOnly.foldl (fun t i => offerAwait_changes t l v i) is s

/-- The slots that are not offered the edge stay. -/
theorem offerAwaits_slot_other {is : List SlotId} {j : SlotId} (absent : j ∉ is) (s : State) :
    (is.foldl (fun t i => t.offerAwait l v i) s).slots[j] = s.slots[j] := by
  induction is generalizing s with
  | nil => rfl
  | cons i is ih =>
    obtain ⟨ne, absent⟩ := not_or.mp (mt List.mem_cons.mpr absent)
    rw [List.foldl_cons, ih absent]
    exact (offerAwait_offered s l v i).others j fun here => absurd (List.mem_singleton.mp here) ne

/-- The owners of the slots of `u`, which are those of `s`, are told in slot order. -/
theorem made_offerAwaits (slots : ∀ i : SlotId, u.slots[i] = s.slots[i]) (tick : u.tick = s.tick) :
    Made u (allSlots.foldl (fun t i => t.offerAwait l v i) u) (s.awaitEnds l v) := by
  rw [awaitEnds_eq]
  refine Made.foldl (fun t i => offerAwait_changes t l v i) (fun t i => t.slots[i] = s.slots[i] ∧ t.tick = s.tick) ?_
    allSlots (by decide) u fun before after i cut => ⟨?_, (offerAwaits_changes before u).tick.trans tick⟩
  · rintro t i ⟨slot, tick⟩
    rw [← awaitEnd_congr slot tick]
    exact made_offerAwait t l v i
  · have nodup : (before ++ i :: after).Nodup := cut ▸ List.nodup_finRange 16
    have early : i ∉ before := fun h => (List.nodup_append.mp nodup).2.2 i h i List.mem_cons_self rfl
    exact (offerAwaits_slot_other early u).trans (slots i)

end

/-! ## The edge as a whole -/

theorem edgeDue_iff {c : LineCell} {now : Tick} : c.edgeDue now = true ↔ ∃ u : Tick, c.change = some u ∧ u + c.filter ≤ now := by
  unfold LineCell.edgeDue
  cases c.change <;> simp

section
variable {s : State} {l : LineId}

theorem exec_sensedEdge_early (early : ¬s.lines[l].edgeDue s.tick = true) : exec (.sensedEdge l) s = .next s := by
  show execSensedEdge l s = _
  rw [execSensedEdge, if_neg fun due => early due.2]

/-- The watches and the AWAITs leave the lines. -/
theorem senseEdge_lineBecomes (s : State) (l : LineId) : LineBecomes s (s.senseEdge l) l (s.lines[l].takeEdge s.tick) := by
  rw [senseEdge_eq]
  exact ((modLine_lineBecomes s l _).of_changes (offerEdges_changes allWatches _)).of_changes (offerAwaits_changes allSlots _)

theorem senseEdge_watch (s : State) (l : LineId) (w : WatchId) :
    (s.senseEdge l).watches[w] = s.watchAfter l s.lines[l].raw w := by
  rw [senseEdge_eq, (offerAwaits_changes allSlots _).watch w, State.edgeTaken,
    offerEdges_watch (ws := allWatches) (List.nodup_finRange 32) (List.mem_finRange w)]
  rfl

/-- The watches are told before the owners of the sequences. -/
theorem made_senseEdge (s : State) (l : LineId) :
    Made s (s.senseEdge l) (s.hits l s.lines[l].raw ++ s.awaitEnds l s.lines[l].raw) := by
  have sensed := modLine_changes s l (LineCell.takeEdge s.tick)
  have taken := edgeTaken_changes s l
  have told : Made s (s.edgeTaken l) (s.hits l s.lines[l].raw) :=
    Made.after sensed (made_offerEdges sensed.watch sensed.tick)
  rw [senseEdge_eq]
  exact told.andThen taken (made_offerAwaits taken.slot taken.tick)

/-- An edge is no drive change: an open window keeps its start (R12). -/
theorem LineCell.takeEdge_window {c : LineCell} {now : Tick} :
    (∀ d : Level, c.check = true → c.driven = some d → d ≠ c.raw → (c.takeEdge now).window = some (c.window.getD now)) ∧
    (c.check = false ∨ c.driven = none ∨ c.driven = some c.raw → (c.takeEdge now).window = none) :=
  ⟨fun _ runs drives differs => LineCell.rewindow_open runs drives differs, fun closed => LineCell.rewindow_closed closed⟩

end

/-! ## What becomes of a watch, case by case -/

section
variable {s : State} {l : LineId} {v : Level} {w : WatchId} {x : Watch}

theorem watchAfter_none (h : s.watches[w] = none) : s.watchAfter l v w = none := by
  rw [State.watchAfter, h, Option.map_none]

theorem watchAfter_passes (h : s.watches[w] = some x) (passes : x.line ≠ l ∨ ¬x.kind.matching v = true) :
    s.watchAfter l v w = some x := by
  rw [State.watchAfter, h, Option.map_some, if_neg fun meets => passes.elim (· meets.1) (· meets.2)]

theorem watchAfter_meets (h : s.watches[w] = some x) (line : x.line = l) (covers : x.kind.matching v = true) {y : Watch}
    {fires : Bool} (becomes : x.onMatch s.tick = (y, fires)) : s.watchAfter l v w = some y := by
  rw [State.watchAfter, h, Option.map_some, if_pos ⟨line, covers⟩, becomes]

/-- A watch that fires is among those told. -/
theorem mem_hits (h : s.watches[w] = some x) (line : x.line = l) (covers : x.kind.matching v = true) {y : Watch}
    (becomes : x.onMatch s.tick = (y, true)) : (x.session, NoticeBody.watchHit w l x.kind v s.tick) ∈ s.hits l v := by
  have fires : x.fires = true := (onMatch_fires s.tick x).symm.trans (congrArg Prod.snd becomes)
  rw [hits_eq]
  refine List.mem_flatMap.mpr ⟨w, List.mem_finRange w, ?_⟩
  rw [State.hitOf, h, Option.bind_some, if_pos ⟨line, covers, fires⟩]
  exact List.mem_singleton.mpr rfl

end

/-- Settles O35: the edge is offered to each watch and each AWAIT in turn, which neither touch the cell nor one another
(`senseEdge_lineBecomes`, `senseEdge_watch`), and tells each owner (`made_senseEdge`); what a watch makes of it is `onMatch`, by its kind
and state. -/
theorem edgeReachesWatches : Obligations.EdgeReachesWatches := by
  unfold Obligations.EdgeReachesWatches
  intro s l free
  by_cases due : s.lines[l].edgeDue s.tick = true
  case neg =>
    exact ⟨s, exec_sensedEdge_early due, fun _ => rfl, fun u change reached => absurd (edgeDue_iff.mpr ⟨u, change, reached⟩) due⟩
  obtain ⟨u, change, reached⟩ := edgeDue_iff.mp due
  have settles := settle_changes (s.senseEdge l)
  refine ⟨_, exec_sensedEdge free change reached, fun early => ?_, fun _ _ _ => ?_⟩
  · rcases early with idle | ⟨v, change', early⟩
    · rw [idle] at change; cases change
    · cases change.symm.trans change'
      exact absurd reached (Nat.not_le.mpr early)
  intro v
  have watch : ∀ w : WatchId, (s.senseEdge l).settle.watches[w] = s.watchAfter l v w := fun w =>
    (settles.watch w).trans (senseEdge_watch s l w)
  refine ⟨⟨_, (senseEdge_lineBecomes s l).of_changes settles, LineCell.takeEdge_window⟩,
    makes_settle ((senseEdge_changes s l).mono (by decide)) (made_senseEdge s l),
    fun w => ⟨fun h => (watch w).trans (watchAfter_none h), fun x h => ?_⟩⟩
  intro fired bumped hit
  have becomes : ∀ {y : Watch} {fires : Bool}, x.line = l → x.kind.matching v = true → x.onMatch s.tick = (y, fires) →
      (s.senseEdge l).settle.watches[w] = some y := fun line covers on => (watch w).trans (watchAfter_meets h line covers on)
  refine ⟨fun passes => (watch w).trans (watchAfter_passes h passes), fun line covers => ⟨fun plain => ?_, fun e n kind => ?_⟩⟩
  · obtain ⟨armed, pending⟩ := onMatch_plain s.tick plain
    exact ⟨fun state => ⟨becomes line covers (armed state), mem_hits h line covers (armed state)⟩,
      fun state => becomes line covers (pending state)⟩
  · have armed := onMatch_count_armed s.tick kind
    have pending := onMatch_count_pending s.tick kind
    refine ⟨fun state below => becomes line covers ((armed state).trans (if_neg below)), fun state reaches => ?_,
      fun state below => becomes line covers ((pending state).trans (if_neg below)),
      fun state reaches => becomes line covers ((pending state).trans (if_pos reaches))⟩
    have on := (armed state).trans (if_pos reaches)
    exact ⟨becomes line covers on, mem_hits h line covers on⟩

end Sys2Proof.Machine
end
